-- ==== Sys2Proof/Word.lean ====
section
/-! DEFINITION. Bytes and the plainest arithmetic on them. -/

namespace Sys2Proof

/-- A byte as it crosses a port or a drive link. -/
abbrev Byte := BitVec 8

/-- A number as one byte. -/
def byteOf (n : Nat) : Byte := BitVec.ofNat 8 n

/-- A set of sector numbers 0..15 as the sector mask of R195: bit s stands for sector s. -/
abbrev SectorSet := BitVec 16

end Sys2Proof
end

