-- ==== Sys2Proof/Config.lean ====
section
/-! DEFINITION. The figures the manual fixes for the unit and for the two drive types, and the two check fields whose
polynomial it leaves out, which are free values. -/

namespace Sys2Proof

/-- The two drive types built into the unit (R1, Table 1-1). -/
inductive DriveType where
  | type1
  | type2
  deriving DecidableEq, Repr

namespace Config

/-- Records of the queue store (R64). -/
def storeSize : Nat := 96
/-- Records a drive queue may count (R46, R67). -/
def queueLimit : Nat := 24
/-- Outstanding requests of a port (R46). -/
def portLimit : Nat := 16
/-- Entries of a drive's map table (R130). -/
def mapLimit : Nat := 128
/-- Entries of a drive's health list (R149). -/
def healthLimit : Nat := 16
/-- A tally saturates here (R148). -/
def tallyLimit : Nat := 15
/-- Tags a held report keeps (R190, R192). -/
def furtherTagLimit : Nat := 15
/-- Bytes of a sector (Table 1-1). -/
def sectorBytes : Nat := 1024
/-- Bytes of a staging FIFO (R105). -/
def fifoBytes : Nat := 4096
/-- Slots of a revolution (R4). -/
def slots : Nat := 64
/-- Sectors of a track (Table 1-1). -/
def sectors : Nat := 16
/-- Heads of a cylinder (Table 1-1). -/
def heads : Nat := 12
/-- Slots after which an outstanding seek or calibrate faults the drive (R88). -/
def seekLimit : Nat := 256
/-- Slots a reconnection waits for its accept (R120). -/
def windowLimit : Nat := 128
/-- Reference revolutions in OFFLINE before a port is LOST (R25). -/
def lossLimit : Nat := 120
/-- Revolutions a relocation stays SUSPENDED (R176). -/
def suspensionLimit : Nat := 16
/-- Data lates a request bears (R112, R117). -/
def lateLimit : Nat := 4
/-- Missed reconnects that end a request (R121). -/
def missedReconnectLimit : Nat := 3
/-- Missed revolutions that make a claim overdue (R96). -/
def missedRevolutionLimit : Nat := 4
/-- Attempts of the read recovery ladder and passes of a track read step (R114, R123). -/
def attempts : Nat := 7
/-- Restarts after which a relocation is not suspended (R175), and target failures that stall it (R170). -/
def retryLimit : Nat := 3
/-- Bypass count at which a record is overdue (R81). -/
def bypassLimit : Nat := 15
/-- Longest order block in bytes (R196). -/
def longestBlock : Nat := 45

/-- Check field of a track header, from the nine bytes before it (R198): a free value, because the manual leaves its
polynomial out (log 41). -/
opaque headerCheck : List Byte → BitVec 32
/-- Check of a sector ident, from the five bytes before it (R198): a free value for the same reason (log 41). -/
opaque identCheck : List Byte → BitVec 16

end Config

/-- Last physical cylinder of a type (Table 1-1). -/
def DriveType.lastCylinder : DriveType → Nat
  | .type1 => 815
  | .type2 => 407

/-- Last logical cylinder of a type (Table 1-1). -/
def DriveType.lastLogical : DriveType → Nat
  | .type1 => 807
  | .type2 => 403

/-- Highest home cylinder of a type (R2). -/
def DriveType.lastHome : DriveType → Nat
  | .type1 => 814
  | .type2 => 406

/-- Spare cylinders of a type, ascending (Table 1-1). -/
def DriveType.spareCylinders : DriveType → List Nat
  | .type1 => [101, 203, 305, 407, 509, 611, 713, 815]
  | .type2 => [101, 203, 305, 407]

/-- Seek curve of a type: (distance in cylinders, time in slots) at each breakpoint (Table 4-3). -/
def DriveType.curve : DriveType → List (Nat × Nat)
  | .type1 => [(1, 24), (4, 30), (16, 40), (64, 58), (128, 76), (256, 104), (512, 150), (815, 196)]
  | .type2 => [(1, 24), (4, 30), (16, 40), (32, 48), (64, 58), (128, 76), (256, 104), (407, 128)]

end Sys2Proof
end

