-- ==== Sys2Proof/Syntax.lean ====
section
/-! DEFINITION. The commands of the unit: one constructor of Instr per row of spec/opcode_table.json, with the operands
that the rules give the event, and the types of those operands. -/

namespace Sys2Proof

/-- Channel ports (R22). -/
inductive PortId where
  | a | b | c | d
  deriving DecidableEq, Repr

/-- Drive numbers 0..7. -/
abbrev DriveId := Fin 8

/-- Data paths DP-0 and DP-1. -/
abbrev PathId := Fin 2

/-- A track, logical or physical as the context says. -/
structure Track where
  cyl : Nat
  head : Nat
  deriving DecidableEq, Repr

/-- A logical sector address (R195). -/
structure SectorAddr where
  cyl : Nat
  head : Nat
  sector : Nat
  deriving DecidableEq, Repr

/-- An extent of consecutive logical sectors (R40). -/
structure Extent where
  cyl : Nat
  head : Nat
  sector : Nat
  count : Nat
  deriving DecidableEq, Repr

/-- A byte on the data lines of a port with its parity line (R28). -/
structure LineByte where
  byte : Byte
  parity : Bool
  deriving DecidableEq, Repr

/-- A sector ident as the read circuitry finds it, its check tested (R198). -/
structure RawIdent where
  cyl : Nat
  head : Nat
  sector : Nat
  flags : Byte
  checkOk : Bool
  deriving DecidableEq, Repr

/-- A track header as the read circuitry finds it, its check tested (R5, R198). -/
structure RawHeader where
  cyl : Nat
  head : Nat
  kind : Byte
  spareState : Byte
  linkCyl : Nat
  linkHead : Nat
  generation : Byte
  checkOk : Bool
  deriving DecidableEq, Repr

/-- How a data field stands to its check field (R8). -/
inductive DataCheck where
  | agrees
  | corrected
  | uncorrectable
  deriving DecidableEq, Repr

/-- One read of one sector: the ident found, if any, the data field's check and the bytes delivered (R8). -/
structure SectorRead where
  ident : Option RawIdent
  data : DataCheck
  bytes : List Byte
  deriving DecidableEq, Repr

/-- The eight fields of SET PARAMETERS, each given or not (R40, R62). -/
structure ParameterFields where
  reversal : Option Byte
  softThreshold : Option Byte
  progressInterval : Option Byte
  readA : Option Byte
  readB : Option Byte
  readC : Option Byte
  readD : Option Byte
  priority : Option Byte
  deriving DecidableEq, Repr

/-- The commands: the rows of the table of operations and events. -/
inductive Instr where
  /-- POWER_ON_RESET (R21). -/
  | powerOnReset
  /-- PORT_RESET (R39). -/
  | portReset (p : PortId)
  /-- OPERATIONAL_LINE_FALL (R23). -/
  | operationalLineFall (p : PortId)
  /-- OPERATIONAL_LINE_RISE (R27). -/
  | operationalLineRise (p : PortId)
  /-- PORT_LOSS_TIMER_EXPIRY (R26). -/
  | portLossTimerExpiry (p : PortId)
  /-- SELECT (R29). -/
  | select (p : PortId)
  /-- ORDER_BLOCK_RECEIVED (R41): the bytes of the block as they crossed the port. -/
  | orderBlockReceived (p : PortId) (block : List LineByte)
  /-- READ (R48). -/
  | read (p : PortId) (drive : DriveId) (tag : Byte) (extents : List Extent)
  /-- WRITE (R48). -/
  | write (p : PortId) (drive : DriveId) (tag : Byte) (extents : List Extent)
  /-- VERIFY (R48). -/
  | verify (p : PortId) (drive : DriveId) (tag : Byte) (extents : List Extent)
  /-- POSITION (R49). -/
  | position (p : PortId) (drive : DriveId) (tag : Byte) (track : Track)
  /-- CALIBRATE (R19, R20). -/
  | calibrate (p : PortId) (drive : DriveId) (tag : Byte)
  /-- DECLARE (R51). -/
  | declare (p : PortId) (drive : DriveId) (tag : Byte) (noCopy replace : Bool) (track : Track)
  /-- RETIRE (R52). -/
  | retire (p : PortId) (drive : DriveId) (tag : Byte) (track : Track)
  /-- REPORT (R54). -/
  | report (p : PortId) (drive : DriveId) (tag : Byte)
  /-- CANCEL (R55): the tag names the request. -/
  | cancel (p : PortId) (drive : DriveId) (tag : Byte)
  /-- LOCK (R183). -/
  | lock (p : PortId) (drive : DriveId) (tag : Byte)
  /-- UNLOCK (R184). -/
  | unlock (p : PortId) (drive : DriveId) (tag : Byte)
  /-- SEIZE (R185). -/
  | seize (p : PortId) (drive : DriveId) (tag : Byte)
  /-- MAP_QUERY (R58). -/
  | mapQuery (p : PortId) (drive : DriveId) (tag : Byte) (track : Track)
  /-- MAP_LIST (R59). -/
  | mapList (p : PortId) (drive : DriveId) (tag : Byte)
  /-- MAP_FREEZE (R60). -/
  | mapFreeze (p : PortId) (drive : DriveId) (tag : Byte)
  /-- STRING_STATUS (R61). -/
  | stringStatus (p : PortId) (tag : Byte)
  /-- SET_PARAMETERS (R62). -/
  | setParameters (p : PortId) (tag : Byte) (fields : ParameterFields)
  /-- ANSWER_TAKEN (R30). -/
  | answerTaken (p : PortId)
  /-- ACCEPT (R31). -/
  | accept (p : PortId)
  /-- STATUS_BLOCK_TAKEN (R36). -/
  | statusBlockTaken (p : PortId)
  /-- ATTENTION_BLOCK_TAKEN (R38). -/
  | attentionBlockTaken (p : PortId)
  /-- WRITE_DATA_BYTE (R116): the byte the host offers. -/
  | writeDataByte (p : PortId) (b : LineByte)
  /-- READ_DATA_BYTE_TAKEN (R111). -/
  | readDataByteTaken (p : PortId)
  /-- RECONNECT_WINDOW_EXPIRY (R121). -/
  | reconnectWindowExpiry (k : PathId)
  /-- READY_LINE_RISE (R12): the type code the drive presents. -/
  | readyLineRise (d : DriveId) (code : Nat)
  /-- READY_LINE_FALL (R17). -/
  | readyLineFall (d : DriveId)
  /-- FAULT_LINE_RISE (R15). -/
  | faultLineRise (d : DriveId)
  /-- SEEK_TIMER_EXPIRY (R88). -/
  | seekTimerExpiry (d : DriveId)
  /-- SLOT_EVENT (R9). -/
  | slotEvent (d : DriveId)
  /-- INDEX_EVENT (R9). -/
  | indexEvent (d : DriveId)
  /-- SEEK_COMPLETE (R10). -/
  | seekComplete (d : DriveId)
  /-- IDENT_CONFIRMATION (R89): the ident found, if any. -/
  | identConfirmation (d : DriveId) (ident : Option RawIdent)
  /-- CLAIM_MISS (R94). -/
  | claimMiss (d : DriveId)
  /-- SECTOR_READ_OUTCOME (R110): what the read circuitry delivers. -/
  | sectorReadOutcome (d : DriveId) (r : SectorRead)
  /-- SECTOR_WRITE_COMPLETE (R117). -/
  | sectorWriteComplete (d : DriveId)
  /-- WAITING_STEP_ADMITTED (R69). -/
  | waitingStepAdmitted
  /-- COMMIT_POINT_WRITE_END (R177). -/
  | commitPointWriteEnd
  /-- PROGRESS_TIMER_EXPIRY (R175). -/
  | progressTimerExpiry
  /-- SUSPENSION_TIMER_EXPIRY (R176). -/
  | suspensionTimerExpiry
  /-- RELOCATION_RESUME (R176). -/
  | relocationResume
  /-- HEADER_STEP_COMPLETE (R97): the write-check line, set on failure (R6). -/
  | headerStepComplete (d : DriveId) (writeCheck : Bool)
  /-- TRACK_READ_STEP_COMPLETE (R123): for each sector, the reads made of it in the passes, first pass first. -/
  | trackReadStepComplete (d : DriveId) (reads : List (List SectorRead))
  /-- TRACK_WRITE_STEP_COMPLETE (R124). -/
  | trackWriteStepComplete (d : DriveId)
  /-- TRACK_VERIFY_STEP_COMPLETE (R124): the read of each sector. -/
  | trackVerifyStepComplete (d : DriveId) (reads : List SectorRead)
  /-- SCAN_HEADER_READ (R139): the header found, if any. -/
  | scanHeaderRead (d : DriveId) (header : Option RawHeader)
  /-- SCAN_DISCARD_WRITE (R140): the write-check line, not acted on. -/
  | scanDiscardWrite (d : DriveId) (writeCheck : Bool)
  /-- REBUILD_PASS (R140): the read of each sector. -/
  | rebuildPass (d : DriveId) (reads : List SectorRead)
  /-- INTERNAL_REVOLUTION_PULSE (R25). -/
  | internalRevolutionPulse
  deriving DecidableEq, Repr

end Sys2Proof
end

