-- ==== Sys2Proof/Decode.lean ====
section
/-! DEFINITION. Decoding. No row of the command table gives bits, so no word spells a command. The one encoding the manual
gives the host's side is the order block (R40, R42, R196): its fields, its decoder, total on any bytes, and its encoder. -/

namespace Sys2Proof

/-- The command a word spells by the table's bits: the table gives none. -/
def decodeTableWord (_nbits _w : Nat) : Option Instr := none

/-- What an order asks of the drive it names (Table 3-1). -/
inductive DriveOrder where
  | read (extents : List Extent)
  | write (extents : List Extent)
  | verify (extents : List Extent)
  | position (track : Track)
  | calibrate
  | declare (noCopy replace : Bool) (track : Track)
  | retire (track : Track)
  | report
  | cancel
  | lock
  | unlock
  | seize
  | mapQuery (track : Track)
  | mapList
  | mapFreeze
  deriving DecidableEq, Repr

/-- An order (Table 3-1): to a drive, or to the string. -/
inductive Order where
  | drive (d : DriveId) (o : DriveOrder)
  | stringStatus
  | setParameters (fields : ParameterFields)
  deriving DecidableEq, Repr

/-- The fields of an order block (R40). -/
structure OrderBlock where
  tag : Byte
  order : Order
  deriving DecidableEq, Repr

/-- Order code of an order to a drive (Table 11-1). -/
def DriveOrder.code : DriveOrder → Byte
  | .read _ => 0x01
  | .write _ => 0x02
  | .verify _ => 0x03
  | .position _ => 0x04
  | .calibrate => 0x05
  | .declare _ _ _ => 0x06
  | .retire _ => 0x07
  | .report => 0x10
  | .cancel => 0x11
  | .lock => 0x12
  | .unlock => 0x13
  | .seize => 0x14
  | .mapQuery _ => 0x18
  | .mapList => 0x19
  | .mapFreeze => 0x1A

/-- Order code (Table 11-1). -/
def Order.code : Order → Byte
  | .drive _ o => o.code
  | .stringStatus => 0x1E
  | .setParameters _ => 0x1F

/-! ### Form -/

/-- Limits of an extent that step 2 checks (R42), within the widths of its fields (R196). -/
def extentOk (e : Extent) : Bool :=
  e.cyl < 65536 && e.head < Config.heads && e.sector < Config.sectors && 1 ≤ e.count && e.count < 256

/-- Limits of a list of extents (R42). -/
def extentsOk (es : List Extent) : Bool := 1 ≤ es.length && es.length ≤ 8 && es.all extentOk

/-- Limits of a logical track (R42, R196). -/
def trackOk (t : Track) : Bool := t.cyl < 65536 && t.head < Config.heads

/-- Whether an order has the form of R40 and R42. -/
def DriveOrder.formOk : DriveOrder → Bool
  | .read es | .write es | .verify es => extentsOk es
  | .position t | .declare _ _ t | .retire t | .mapQuery t => trackOk t
  | .calibrate | .report | .cancel | .lock | .unlock | .seize | .mapList | .mapFreeze => true

/-- Whether an order has the form of R40 and R42. -/
def Order.formOk : Order → Bool
  | .drive _ o => o.formOk
  | .stringStatus | .setParameters _ => true

/-! ### The decoder -/

/-- A two-byte number, high byte first (R195). -/
def wordOf (hi lo : Byte) : Nat := hi.toNat * 256 + lo.toNat

/-- Extents of five bytes each, n of them and nothing more (R196). -/
def decodeExtents : Nat → List Byte → Option (List Extent)
  | 0, [] => some []
  | n + 1, c1 :: c0 :: h :: s :: k :: rest =>
    let e : Extent := ⟨wordOf c1 c0, h.toNat, s.toNat, k.toNat⟩
    if extentOk e then (decodeExtents n rest).map fun es => e :: es else none
  | _, _ => none

/-- Operand of READ, WRITE and VERIFY: the extent count, then the extents (R196). -/
def decodeTransfer (f : List Extent → DriveOrder) : List Byte → Option DriveOrder
  | [] => none
  | n :: rest => if 1 ≤ n.toNat && n.toNat ≤ 8 then (decodeExtents n.toNat rest).map f else none

/-- Operand of the track orders (R196). -/
def decodeTrack (f : Track → DriveOrder) : List Byte → Option DriveOrder
  | [c1, c0, h] =>
    let t : Track := ⟨wordOf c1 c0, h.toNat⟩
    if trackOk t then some (f t) else none
  | _ => none

/-- An order without operand (R196). -/
def decodeEmpty (o : DriveOrder) : List Byte → Option DriveOrder
  | [] => some o
  | _ => none

/-- A field of SET PARAMETERS: a clear mask bit leaves its byte unread (R196). -/
def givenField (mask : Byte) (k : Nat) (v : Byte) : Option Byte := if mask.getLsbD k then some v else none

/-- Operand of SET PARAMETERS (R196). -/
def decodeFields : List Byte → Option ParameterFields
  | [m, v0, v1, v2, v3, v4, v5, v6, v7] =>
    some ⟨givenField m 0 v0, givenField m 1 v1, givenField m 2 v2, givenField m 3 v3, givenField m 4 v4,
      givenField m 5 v5, givenField m 6 v6, givenField m 7 v7⟩
  | _ => none

/-- The order to a drive from its code, its flag bits and its operand; a flag set elsewhere than in DECLARE is a fault of
form (R42). -/
def decodeDriveOrder (code : Nat) (noCopy replace : Bool) (operand : List Byte) : Option DriveOrder :=
  if code == 0x06 then decodeTrack (.declare noCopy replace) operand
  else if noCopy || replace then none
  else
    match code with
    | 0x01 => decodeTransfer .read operand
    | 0x02 => decodeTransfer .write operand
    | 0x03 => decodeTransfer .verify operand
    | 0x04 => decodeTrack .position operand
    | 0x05 => decodeEmpty .calibrate operand
    | 0x07 => decodeTrack .retire operand
    | 0x10 => decodeEmpty .report operand
    | 0x11 => decodeEmpty .cancel operand
    | 0x12 => decodeEmpty .lock operand
    | 0x13 => decodeEmpty .unlock operand
    | 0x14 => decodeEmpty .seize operand
    | 0x18 => decodeTrack .mapQuery operand
    | 0x19 => decodeEmpty .mapList operand
    | 0x1A => decodeEmpty .mapFreeze operand
    | _ => none

/-- The order to the string from its code and operand. -/
def decodeStringOrder (code : Nat) (operand : List Byte) : Option Order :=
  match code, operand with
  | 0x1E, [] => some .stringStatus
  | 0x1F, _ => (decodeFields operand).map .setParameters
  | _, _ => none

/-- The order block that bytes spell; none where step 2 refuses BAD ORDER (R42, R196). -/
def decodeOrder : List Byte → Option OrderBlock
  | code :: drive :: tag :: flags :: operand =>
    if flags &&& 0xFC#8 != 0#8 then none
    else if h : drive.toNat < 8 then
      (decodeDriveOrder code.toNat (flags.getLsbD 0) (flags.getLsbD 1) operand).map fun o =>
        ⟨tag, .drive ⟨drive.toNat, h⟩ o⟩
    else if drive.toNat == 15 && flags == 0#8 then (decodeStringOrder code.toNat operand).map fun o => ⟨tag, o⟩
    else none
  | _ => none

/-! ### The encoder -/

/-- A number in two bytes, high byte first (R195). -/
def wordBytes (n : Nat) : List Byte := [byteOf (n / 256), byteOf n]

/-- An extent in five bytes (R196). -/
def encodeExtent (e : Extent) : List Byte := wordBytes e.cyl ++ [byteOf e.head, byteOf e.sector, byteOf e.count]

/-- A logical track in three bytes (R195). -/
def encodeTrack (t : Track) : List Byte := wordBytes t.cyl ++ [byteOf t.head]

/-- Flag byte of an order (R196). -/
def DriveOrder.flags : DriveOrder → Byte
  | .declare noCopy replace _ => (if noCopy then 1#8 else 0#8) ||| (if replace then 2#8 else 0#8)
  | _ => 0#8

/-- Operand of an order (R196). -/
def DriveOrder.operand : DriveOrder → List Byte
  | .read es | .write es | .verify es => byteOf es.length :: es.flatMap encodeExtent
  | .position t | .declare _ _ t | .retire t | .mapQuery t => encodeTrack t
  | .calibrate | .report | .cancel | .lock | .unlock | .seize | .mapList | .mapFreeze => []

/-- The fields of SET PARAMETERS in order (R62). -/
def ParameterFields.toList (f : ParameterFields) : List (Option Byte) :=
  [f.reversal, f.softThreshold, f.progressInterval, f.readA, f.readB, f.readC, f.readD, f.priority]

/-- Given-mask of the fields from field k on (R196). -/
def givenMask : Nat → List (Option Byte) → Byte
  | _, [] => 0#8
  | k, f :: fs => (if f.isSome then 1#8 <<< k else 0#8) ||| givenMask (k + 1) fs

/-- The bytes of an order block (R196); a field not given is sent as zero. -/
def encodeOrder (b : OrderBlock) : List Byte :=
  match b.order with
  | .drive d o => [o.code, byteOf d.val, b.tag, o.flags] ++ o.operand
  | .stringStatus => [0x1E, 0x0F, b.tag, 0]
  | .setParameters f => [0x1F, 0x0F, b.tag, 0, givenMask 0 f.toList] ++ f.toList.map fun v => v.getD 0

/-- The command that is this order at this port (R40; log 5). -/
def OrderBlock.command (p : PortId) (b : OrderBlock) : Instr :=
  match b.order with
  | .drive d o =>
    match o with
    | .read es => .read p d b.tag es
    | .write es => .write p d b.tag es
    | .verify es => .verify p d b.tag es
    | .position t => .position p d b.tag t
    | .calibrate => .calibrate p d b.tag
    | .declare noCopy replace t => .declare p d b.tag noCopy replace t
    | .retire t => .retire p d b.tag t
    | .report => .report p d b.tag
    | .cancel => .cancel p d b.tag
    | .lock => .lock p d b.tag
    | .unlock => .unlock p d b.tag
    | .seize => .seize p d b.tag
    | .mapQuery t => .mapQuery p d b.tag t
    | .mapList => .mapList p d b.tag
    | .mapFreeze => .mapFreeze p d b.tag
  | .stringStatus => .stringStatus p b.tag
  | .setParameters f => .setParameters p b.tag f

end Sys2Proof
end

