-- ==== Sys2Proof/Machine/State.lean ====
section
/-! DEFINITION. The state of the unit: every register, list, timer, mark and line the manual gives it, as plain data;
the reasons a step could stop; the state after power-on reset. -/

namespace Sys2Proof.Machine

/-- Reasons a command could fault. There is none: every event has the effect the manual gives it or is not acted on
(safe: nothing is cut off). What the manual calls a drive fault is a drive state (R15). -/
inductive Fault where
  deriving DecidableEq, Repr

/-- Reasons a command could be refused by the model. -/
inductive Refusal where
  /-- Raised by an arm of `exec` whose command has no meaning yet (safe: the run stops). -/
  | notModelled (mnemonic : String)
  deriving DecidableEq, Repr

/-- Ending statuses (R53, Table 11-3). -/
inductive Status where
  | complete | completeRecovered | cancelled
  | dataLost | uncorrectable | portTooSlow | portUnresponsive | portParity | portLost
  | driveFault | driveNotReady | noSpare | returnFailed
  deriving DecidableEq, Repr

/-- Acceptance bytes (Table 11-2). -/
inductive AcceptCode where
  | accepted | parity | badOrder | notReady | becomingReady | faulted | lockedElsewhere | lockLost | reportHeld
  | tagInUse | queueFull | outOfRange | mapFrozen | mapFull | entryExists | noEntry | entryBusy | noSuchRequest
  | notCancellable | notHolder | holderNotLost
  deriving DecidableEq, Repr

/-- The two orders that change the map (R64). -/
inductive MapOrder where
  | declare | retire
  deriving DecidableEq, Repr

/-- Kinds of relocation step (R64, Table 4-1). -/
inductive StepKind where
  | header | read | write | verify
  deriving DecidableEq, Repr

/-- Stages of a relocation (Table 9-2). WRITE-TARGET is two steps (R168). -/
inductive Stage where
  | readSource | writeTargetHeader | writeTarget | verifyTarget | commitTarget | discardOld | rejectTarget
  | readAlternate | writeHome | verifyHome | releaseAlternate | restoreHeader
  deriving DecidableEq, Repr

/-- Record kinds (Table 4-1), with the step kind and stage of a step and the order and NO-COPY flag of a map change. -/
inductive Kind where
  | read | write | verify | position | calibrate
  | step (kind : StepKind) (stage : Stage)
  | mapChange (order : MapOrder) (noCopy : Bool)
  deriving DecidableEq, Repr

/-- Record sources (Table 4-1). -/
inductive Source where
  | port (p : PortId)
  | relocation
  deriving DecidableEq, Repr

/-- Record states (Table 4-2). -/
inductive RecState where
  | queued | seeking | claiming | transferring | paused | continuation
  deriving DecidableEq, Repr

/-- Kinds of recorded outcome (R150). -/
inductive OutcomeKind where
  | soft | hard
  deriving DecidableEq, Repr

/-- The health table's answer kept with a request (R151). -/
structure Snapshot where
  track : Track
  soft : Nat
  hard : Nat
  last : OutcomeKind
  deriving DecidableEq, Repr

/-- Spare states as a track header records them (R5). -/
inductive HeaderState where
  | free | reserved | alternate | unusable
  deriving DecidableEq, Repr

/-- What a header write supplies beside the track's own address and kind SPARE (R6). -/
structure Header where
  spareState : HeaderState
  link : Track
  generation : Byte
  deriving DecidableEq, Repr

/-- A request record in use (Table 4-1). -/
structure Record where
  /-- Acceptance position; it identifies the record (log 8). -/
  pos : Nat
  kind : Kind
  source : Source
  /-- Tag of a host request; zero for a step, whose tag is absent. -/
  tag : Byte
  drive : DriveId
  extents : List Extent
  /-- Logical track of POSITION and of a map change, physical track of a step. -/
  target : Option Track
  /-- Position: number of the request's sectors transferred, counted over its extents (log 37). -/
  done : Nat
  bypass : Nat
  late : Nat
  missedReconnect : Nat
  missedRev : Nat
  soft : Bool
  cancel : Bool
  detached : Bool
  /-- Stopped by a port reset, the stop point not yet reached (R39). -/
  resetStop : Bool
  /-- To end PORT LOST at its stop point (R24, R26, R33). -/
  lossStop : Bool
  ended : Bool
  /-- Entered its drive's queue: not a map change, nor a CALIBRATE started on a FAULTED drive (R64, R67). -/
  listed : Bool
  /-- Sectors a soft outcome of which the request has had recorded: logical index, and the track it was recorded against
  (R115, R150, R159; log 40). -/
  recordedSectors : List (Nat × Track)
  /-- Header a header step writes (R6, R164). -/
  header : Option Header
  snapshot : Option Snapshot
  state : RecState
  deriving DecidableEq, Repr

/-- An ending status block on its way to the host (Table 11-5), with the record that keeps it outstanding. -/
structure StatusEntry where
  request : Nat
  tag : Byte
  drive : DriveId
  kind : Kind
  status : Status
  residual : Nat
  address : SectorAddr
  deriving DecidableEq, Repr

/-- A held report (R190). -/
structure Report where
  cause : Status
  tag : Byte
  kind : Kind
  failing : Option SectorAddr
  physical : Option Track
  attempts : Nat
  late : Nat
  missedReconnect : Nat
  soft : Nat
  hard : Nat
  last : Option OutcomeKind
  lost : Option SectorSet
  further : Bool
  furtherTags : List Byte
  deriving DecidableEq, Repr

/-- What a CONNECTED port is connected for (R33, R36, R38). -/
inductive Conn where
  /-- For data, to a path; with the ending status in presentation, if any. -/
  | data (k : PathId) (presenting : Option StatusEntry)
  /-- For the oldest entry of the status queue. -/
  | status
  /-- For an attention block with this list. -/
  | attention (drives : List DriveId)
  /-- For an ending status whose path has been released while it was presented (R118; log 11). -/
  | parting (presenting : StatusEntry)
  deriving DecidableEq, Repr

/-- Port states (R22). SELECTED tells whether the order block has been answered (R30). -/
inductive PortState where
  | offline | idle
  | selected (answered : Bool)
  | connected (c : Conn)
  | lost
  deriving DecidableEq, Repr

/-- Reconnection offers (R22, R31). -/
inductive Offer where
  | data (k : PathId)
  | status
  | attention
  deriving DecidableEq, Repr

/-- A byte on its way to the host: with its parity bit, and with end of block raised or not (R28). -/
structure SentByte where
  line : LineByte
  endOfBlock : Bool
  deriving DecidableEq, Repr

/-- A port link with the port's share of the string coordination unit (R22, R182, R188). -/
structure Port where
  opLine : Bool
  state : PortState
  statusQueue : List StatusEntry
  /-- Ascending, no duplicates. -/
  attention : List DriveId
  offer : Option Offer
  waiting : List PathId
  lossTimer : Option Nat
  threshold : Nat
  lockLost : Vector Bool 8
  reports : Vector (Option Report) 8
  portBusy : Bool
  byteTaken : Bool
  dataOut : Option LineByte
  sending : List SentByte
  deriving DecidableEq, Repr

/-- Drive states (Table 1-5). -/
inductive DriveState where
  | notReady | calibrating | scanning | ready | faulted
  deriving DecidableEq, Repr

/-- Sweep directions (R83). -/
inductive Sweep where
  | inward | outward
  deriving DecidableEq, Repr

/-- Head offsets (R10). -/
inductive Offset where
  | off | plus | minus
  deriving DecidableEq, Repr

/-- An outstanding arm command (R10). -/
inductive ArmCommand where
  | seek (cyl : Nat)
  | calibrate
  deriving DecidableEq, Repr

/-- Positioning phases (Table 5-1). HEAD READY is the moment that clears the record, and is not held. -/
inductive Phase where
  | none | setup | seek | confirm | recalibrate | reseek | reconfirm
  deriving DecidableEq, Repr

/-- Due point of a claim: NONE or a slot (R93). -/
inductive Due where
  | none
  | slot (k : Nat)
  deriving DecidableEq, Repr

/-- Spare pool states (R135). -/
inductive SpareState where
  | free | inUse | unusable
  deriving DecidableEq, Repr

/-- Directions of a relocation (R128). -/
inductive Direction where
  | forward | replacement | ret
  deriving DecidableEq, Repr

/-- States of a map entry with the direction when MOVING (R128). -/
inductive EntryState where
  | pending
  | moving (dir : Direction)
  | active
  deriving DecidableEq, Repr

/-- Origins of a map entry (R128). -/
inductive Origin where
  | scan | host | automatic
  deriving DecidableEq, Repr

/-- A map entry (Table 7-1). The stalled and on-the-work-list marks are read from the lists (R161, R162; log 22). -/
structure MapEntry where
  home : Track
  state : EntryState
  alternate : Option Track
  target : Option Track
  previous : Option Track
  origin : Origin
  replacement : Bool
  named : Bool
  /-- Linked MAP-CHANGE record. -/
  linked : Option Nat
  generation : Byte
  lost : SectorSet
  deriving DecidableEq, Repr

/-- A health entry (R148). -/
structure HealthEntry where
  track : Track
  soft : Nat
  hard : Nat
  last : OutcomeKind
  waiting : Bool
  deriving DecidableEq, Repr

/-- Work of a spare scan on one spare track (R138, R140). -/
inductive ScanJob where
  | header | discard | rebuild
  deriving DecidableEq, Repr

/-- A spare scan in progress (R138 to R141). -/
structure Scan where
  job : ScanJob
  track : Track
  /-- Spares that lost a dispute and are not yet rewritten, ascending spare address. -/
  losers : List Track
  /-- Alternates still to visit after the present one, ascending spare address. -/
  rebuilds : List Track
  /-- The head is on the track. -/
  ready : Bool
  /-- First sector of a rebuild pass under way. -/
  passStart : Option Nat
  /-- The boundary that completes the operation has been taken. -/
  opDue : Bool
  deriving DecidableEq, Repr

/-- What the write lines of a drive last carried, byte for byte (R6, R7, R198). -/
inductive Recorded where
  /-- A sector: its ident of 7 bytes and its data field. -/
  | sector (ident bytes : List Byte)
  /-- A track header of 13 bytes. -/
  | header (bytes : List Byte)
  /-- All sixteen sectors of a track: ident and data field of each. -/
  | track (sectors : List (List Byte × List Byte))
  deriving DecidableEq, Repr

/-- A drive adapter with the drive's share of the scheduler, alternate map, health table and lock table. -/
structure Drive where
  readyLine : Bool
  typeCode : Nat
  faultLine : Bool
  state : DriveState
  type : Option DriveType
  mapBuilt : Bool
  rpc : Nat
  valid : Bool
  cyl : Option Nat
  head : Nat
  offset : Offset
  readGate : Bool
  writeGate : Bool
  arm : Option ArmCommand
  seekTimer : Option Nat
  phase : Phase
  target : Option Track
  mismatch : Nat
  confirm : Option Nat
  due : Option Due
  active : Option Nat
  scan : Option Scan
  recorded : Option Recorded
  sweep : Sweep
  map : List MapEntry
  pool : List (Track × SpareState)
  freeze : Bool
  health : List HealthEntry
  lock : Option PortId
  deriving DecidableEq, Repr

/-- Services of a data path (Table 6-2). -/
inductive Service where
  | hostRead | hostWrite | hostVerify
  | step (kind : StepKind)
  deriving DecidableEq, Repr

/-- Conditions of a sector image (R105). `reserved`: kept for a sector on the ladder between attempts (R114; log 17). -/
inductive ImageCond where
  | inFlight | reserved | complete | filling | full | writing
  deriving DecidableEq, Repr

/-- A sector image of a staging FIFO (R105). -/
structure Image where
  /-- Number of the sector in its request. -/
  ord : Nat
  /-- Logical index on the drive (R40). -/
  index : Nat
  sector : Nat
  home : Track
  serving : Track
  cond : ImageCond
  bytes : List Byte
  deriving DecidableEq, Repr

/-- An entered track (R107). -/
structure Entered where
  extent : Nat
  logical : Track
  home : Track
  serving : Track
  deriving DecidableEq, Repr

/-- Connection of a data path (Table 6-2). -/
inductive PathConn where
  | none | asking | connected
  deriving DecidableEq, Repr

/-- A cause held until the FIFO is empty, with its failing sector (R113, R190). -/
structure Held where
  status : Status
  ord : Nat
  attempts : Nat
  serving : Option Track
  deriving DecidableEq, Repr

/-- A data path (R100, Table 6-2). -/
structure Path where
  holder : Option Nat
  drive : Option DriveId
  port : Option PortId
  service : Option Service
  entered : Option Entered
  /-- Homes of the tracks entered in this hold (R177). -/
  homes : List Track
  fifo : List Image
  conn : PathConn
  window : Option Nat
  late : Nat
  /-- Sector under recovery and its attempt. -/
  ladder : Option (Nat × Nat)
  /-- Sector whose read is in flight. -/
  reading : Option Nat
  ending : Option Held
  /-- Finishing with the current cylinder (R109). -/
  leaving : Bool
  /-- A WRITE holds every byte it will take in this grant (R116). -/
  takenAll : Bool
  /-- Due slot of a WRITE granted before its due boundary: its sector flow begins only after it (R92, R93; log 20). -/
  flowFrom : Option Nat
  passStart : Option Nat
  passes : Nat
  /-- The boundary that completes a step's operation or pass has been taken. -/
  opDue : Bool
  deriving DecidableEq, Repr

/-- A waiting claim (R100). -/
structure Claim where
  drive : DriveId
  source : Source
  due : Due
  request : Nat
  deriving DecidableEq, Repr

/-- States of the relocation unit (R160). -/
inductive RuState where
  | idle | running | suspended | aborting
  deriving DecidableEq, Repr

/-- Progress timer (Table 9-1): running with the interval it started with (R63). -/
inductive ProgressTimer where
  | stopped
  | running (count interval : Nat)
  | expired
  deriving DecidableEq, Repr

/-- A map entry named by its drive and home track. -/
structure EntryRef where
  drive : DriveId
  home : Track
  deriving DecidableEq, Repr

/-- A restore order (Table 9-1). -/
structure RestoreOrder where
  drive : DriveId
  spare : Track
  header : Header
  deriving DecidableEq, Repr

/-- A relocation step as handed to the queue store (R164). -/
structure StepRequest where
  drive : DriveId
  track : Track
  kind : StepKind
  stage : Stage
  header : Option Header
  deriving DecidableEq, Repr

/-- Where the relocation unit stands with its step (R69, R164). -/
inductive StepPlace where
  /-- At the point between steps: none placed. -/
  | point
  /-- The waiting step. -/
  | waiting (r : StepRequest)
  /-- Admitted, as this record. -/
  | placed (request : Nat)
  deriving DecidableEq, Repr

/-- The relocation record (Table 9-1) and the step in hand. -/
structure Relocation where
  state : RuState
  entry : Option EntryRef
  direction : Option Direction
  stage : Option Stage
  sourceRead : Bool
  sourceChanged : Bool
  restarts : Nat
  verifyFailures : Nat
  releaseFailed : Bool
  progress : ProgressTimer
  suspension : Option Nat
  restore : Option RestoreOrder
  step : StepPlace
  /-- The failed target being rejected, or the previous alternate being discarded. -/
  spare : Option Track
  deriving DecidableEq, Repr

/-- A sector entry of the relocation buffer; a lost one holds 1,024 zero bytes (R166). -/
inductive BufEntry where
  | good (bytes : List Byte)
  | lost
  deriving DecidableEq, Repr

/-- String parameters held by the string coordination unit (R62). -/
structure Params where
  reversal : Nat
  softThreshold : Nat
  progressInterval : Nat
  priority : Nat
  deriving DecidableEq, Repr

/-- The state of the unit. -/
structure State where
  ports : Vector Port 4
  drives : Vector Drive 8
  paths : Vector Path 2
  /-- Records in use, in the order they were taken. -/
  records : List Record
  nextPos : Nat
  claims : List Claim
  overdue : List Nat
  ru : Relocation
  buffer : Option (List BufEntry)
  workList : List EntryRef
  stalled : List EntryRef
  params : Params
  /-- Commands waiting, first in first out: the model's own (log 1). -/
  pending : List Instr
  deriving DecidableEq, Repr

/-- A port after power-on reset (R22, R182, R188), its lines as log 6 says. -/
def Port.reset : Port where
  opLine := false
  state := .offline
  statusQueue := []
  attention := []
  offer := none
  waiting := []
  lossTimer := none
  threshold := 2
  lockLost := Vector.replicate 8 false
  reports := Vector.replicate 8 none
  portBusy := false
  byteTaken := false
  dataOut := none
  sending := []

/-- A drive after power-on reset (R21, Table 5-1), its lines as log 6 says. -/
def Drive.reset : Drive where
  readyLine := false
  typeCode := 0
  faultLine := false
  state := .notReady
  type := none
  mapBuilt := false
  rpc := 0
  valid := false
  cyl := none
  head := 0
  offset := .off
  readGate := false
  writeGate := false
  arm := none
  seekTimer := none
  phase := .none
  target := none
  mismatch := 0
  confirm := none
  due := none
  active := none
  scan := none
  recorded := none
  sweep := .inward
  map := []
  pool := []
  freeze := false
  health := []
  lock := none

/-- A FREE path: after power-on reset and at each release (R105). -/
def Path.free : Path where
  holder := none
  drive := none
  port := none
  service := none
  entered := none
  homes := []
  fifo := []
  conn := .none
  window := none
  late := 0
  ladder := none
  reading := none
  ending := none
  leaving := false
  takenAll := false
  flowFrom := none
  passStart := none
  passes := 0
  opDue := false

/-- The relocation record after power-on reset and in IDLE (Table 9-1). -/
def Relocation.reset : Relocation where
  state := .idle
  entry := none
  direction := none
  stage := none
  sourceRead := false
  sourceChanged := false
  restarts := 0
  verifyFailures := 0
  releaseFailed := false
  progress := .stopped
  suspension := none
  restore := none
  step := .point
  spare := none

/-- String parameters at their defaults (R62). -/
def Params.reset : Params where
  reversal := 16
  softThreshold := 6
  progressInterval := 4
  priority := 0

/-- The unit right after power-on reset with every input line low (R21, R22, R62, R64, R100, R127, R148, R160, R182,
R188; log 6). -/
def State.reset : State where
  ports := Vector.replicate 4 Port.reset
  drives := Vector.replicate 8 Drive.reset
  paths := Vector.replicate 2 Path.free
  records := []
  nextPos := 0
  claims := []
  overdue := []
  ru := Relocation.reset
  buffer := none
  workList := []
  stalled := []
  params := Params.reset
  pending := []

end Sys2Proof.Machine
end

