-- ==== Sys2Proof/Machine/Ops.lean ====
section
/-! DEFINITION. Named operations over the state: reaching a port, drive, path or record, queues and counts, parity, and
the small list helpers the other files share. Every read and write of a port, drive or path goes through these. -/

namespace Sys2Proof.Machine

/-- Place of a port in the port table. -/
def portIndex : PortId → Fin 4
  | .a => 0
  | .b => 1
  | .c => 2
  | .d => 3

/-- The ports in order. -/
def allPorts : List PortId := [.a, .b, .c, .d]

/-- The drives in order. -/
def allDrives : List DriveId := [0, 1, 2, 3, 4, 5, 6, 7]

/-- The data paths in order. -/
def allPaths : List PathId := [0, 1]

/-- The link of port p. -/
def State.port (s : State) (p : PortId) : Port := s.ports.get (portIndex p)

/-- The adapter of drive d. -/
def State.drive (s : State) (d : DriveId) : Drive := s.drives.get d

/-- Data path k. -/
def State.path (s : State) (k : PathId) : Path := s.paths.get k

/-- Changes the link of one port. -/
def State.modPort (s : State) (p : PortId) (f : Port → Port) : State :=
  { s with ports := s.ports.set (portIndex p).val (f (s.port p)) (portIndex p).isLt }

/-- Changes the adapter of one drive. -/
def State.modDrive (s : State) (d : DriveId) (f : Drive → Drive) : State :=
  { s with drives := s.drives.set d.val (f (s.drive d)) d.isLt }

/-- Changes one data path. -/
def State.modPath (s : State) (k : PathId) (f : Path → Path) : State :=
  { s with paths := s.paths.set k.val (f (s.path k)) k.isLt }

/-- Changes the relocation record. -/
def State.modRu (s : State) (f : Relocation → Relocation) : State := { s with ru := f s.ru }

/-- The record in use at an acceptance position. -/
def State.request? (s : State) (pos : Nat) : Option Record := s.records.find? fun r => r.pos == pos

/-- Changes the record at an acceptance position. -/
def State.modRequest (s : State) (pos : Nat) (f : Record → Record) : State :=
  { s with records := s.records.map fun r => if r.pos == pos then f r else r }

/-- Frees the record at an acceptance position (R65). -/
def State.freeRequest (s : State) (pos : Nat) : State :=
  { s with records := s.records.filter fun r => r.pos != pos }

/-- A map change enters no drive queue (R64). -/
def Kind.isMapChange : Kind → Bool
  | .mapChange _ _ => true
  | _ => false

/-- A relocation step. -/
def Kind.isStep : Kind → Bool
  | .step _ _ => true
  | _ => false

/-- READ, WRITE and VERIFY: the kinds with extents (R64). -/
def Kind.isTransfer : Kind → Bool
  | .read | .write | .verify => true
  | _ => false

/-- READ and WRITE: the kinds that need their port (R24, R26). -/
def Kind.needsPort : Kind → Bool
  | .read | .write => true
  | _ => false

/-- QUEUED and CONTINUATION are waiting (R66). -/
def RecState.isWaiting : RecState → Bool
  | .queued | .continuation => true
  | _ => false

/-- A record that stands in its drive's queue (R66, R67). -/
def Record.isWaiting (r : Record) : Bool := !r.ended && !r.kind.isMapChange && r.state.isWaiting

/-- The queue of a drive: its waiting records (R67). -/
def State.queue (s : State) (d : DriveId) : List Record :=
  s.records.filter fun r => r.drive == d && r.isWaiting

/-- A record counts in its drive's queue from its entry to its ending, waiting or in progress (R67, R70, R71; log 44). -/
def Record.inQueueCount (r : Record) (d : DriveId) : Bool := r.drive == d && r.listed && !r.ended

/-- The queue count of a drive (R67). -/
def State.queueCount (s : State) (d : DriveId) : Nat := s.records.countP fun r => r.inQueueCount d

/-- A record comes from this port and counts for it (R47). -/
def Record.outstandingFor (r : Record) (p : PortId) : Bool := r.source == .port p && !r.detached

/-- The outstanding requests of a port (R47). -/
def State.outstanding (s : State) (p : PortId) : List Record := s.records.filter fun r => r.outstandingFor p

/-- The path held by a record, if any (R100). -/
def State.pathOf (s : State) (pos : Nat) : Option PathId := allPaths.find? fun k => (s.path k).holder == some pos

/-- The path that serves a drive, if any. -/
def State.pathOnDrive (s : State) (d : DriveId) : Option PathId :=
  allPaths.find? fun k => (s.path k).drive == some d

/-- The path a port is CONNECTED to for data, with the status in presentation. -/
def Port.dataConn (p : Port) : Option (PathId × Option StatusEntry) :=
  match p.state with
  | .connected (.data k e) => some (k, e)
  | _ => none

/-- Whether a port is CONNECTED to this path. -/
def Port.connectedTo (p : Port) (k : PathId) : Bool :=
  match p.dataConn with
  | some (k', _) => k' == k
  | none => false

/-- Whether a port presents an ending status in its connection to this path (R35). -/
def Port.presentsOn (p : Port) (k : PathId) : Bool :=
  match p.dataConn with
  | some (k', some _) => k' == k
  | _ => false

/-- Joins an ordered list without duplicates, lower drive numbers first (R38). -/
def insertDrive (d : DriveId) : List DriveId → List DriveId
  | [] => [d]
  | x :: xs => if d < x then d :: x :: xs else if d = x then x :: xs else x :: insertDrive d xs

/-- The first element with the least key, keys compared as pairs. -/
def leastBy {α : Type} (key : α → Nat × Nat) : List α → Option α
  | [] => none
  | x :: xs =>
    match leastBy key xs with
    | none => some x
    | some y =>
      if (key y).1 < (key x).1 || ((key y).1 == (key x).1 && (key y).2 < (key x).2) then some y else some x

/-- A counter that saturates at a bound. -/
def satSucc (bound n : Nat) : Nat := min (n + 1) bound

/-- Number of one bits of a byte. -/
def onesOf (b : Byte) : Nat := (List.range 8).countP fun i => b.getLsbD i

/-- Odd parity (R28): the nine lines carry an odd number of ones. -/
def parityOk (b : LineByte) : Bool := (onesOf b.byte + (if b.parity then 1 else 0)) % 2 == 1

/-- A byte as the unit sends it, with its odd parity bit (R28). -/
def withParity (b : Byte) : LineByte := ⟨b, onesOf b % 2 == 0⟩

/-- A block as the link sends it: each byte with its parity, end of block with the last (R28). -/
def sentBlock : List Byte → List SentByte
  | [] => []
  | [b] => [⟨withParity b, true⟩]
  | b :: rest => ⟨withParity b, false⟩ :: sentBlock rest

/-- An answer as the link sends it: the acceptance byte, which ends no block, then the reply as a block (R28, R30;
log 42). -/
def sentAnswer : List Byte → List SentByte
  | [] => []
  | code :: reply => ⟨withParity code, false⟩ :: sentBlock reply

/-- A sector's 1,024 bytes from what an event delivers (log 23). -/
def wholeSector (bytes : List Byte) : List Byte :=
  (bytes ++ List.replicate Config.sectorBytes 0).take Config.sectorBytes

/-- 1,024 zero bytes (R7). -/
def zeroSector : List Byte := List.replicate Config.sectorBytes 0

/-- Puts a sector number into a set of sectors. -/
def setInsert (m : SectorSet) (n : Nat) : SectorSet := m ||| (1#16 <<< n)

/-- Takes a sector number out of a set of sectors. -/
def setErase (m : SectorSet) (n : Nat) : SectorSet := m &&& ~~~(1#16 <<< n)

/-- The set of the places of a list at which a test holds, counted from n. -/
def sectorsWhere {α : Type} (test : α → Bool) : Nat → List α → SectorSet
  | _, [] => 0
  | n, x :: xs =>
    let rest := sectorsWhere test (n + 1) xs
    if test x then setInsert rest n else rest

end Sys2Proof.Machine
end

