-- ==== Sys2Proof/Machine/Geometry.lean ====
section
/-! DEFINITION. Cylinder translation, spare cylinders, logical sectors and the extents of a request (R2, R3, R40, R106). -/

namespace Sys2Proof.Machine

/-- Physical cylinder of a logical cylinder (R2). -/
def physicalCylinder (l : Nat) : Nat := l + l / 101

/-- Home track of a logical track (R2). -/
def homeOf (t : Track) : Track := ⟨physicalCylinder t.cyl, t.head⟩

/-- Whether a physical cylinder is a spare cylinder (R3). -/
def isSpareCylinder (ty : DriveType) (p : Nat) : Bool := (p + 1) % 102 == 0 && p ≤ ty.lastCylinder

/-- Logical cylinder of a physical cylinder that is not a spare (R3). -/
def logicalCylinder (p : Nat) : Nat := p - (p + 1) / 102

/-- Logical track of a home track (R3). -/
def logicalOf (t : Track) : Track := ⟨logicalCylinder t.cyl, t.head⟩

/-- Whether a physical track is a home track of the type: not on a spare cylinder, not above the highest home cylinder
(R139), with a head of Table 1-1. -/
def isHomeTrack (ty : DriveType) (t : Track) : Bool :=
  t.cyl ≤ ty.lastHome && !isSpareCylinder ty t.cyl && t.head < Config.heads

/-- Track order: cylinder, then head (R3, R130). -/
def trackBefore (a b : Track) : Bool := a.cyl < b.cyl || (a.cyl == b.cyl && a.head < b.head)

/-- The spare tracks of a type in ascending spare address (R3). -/
def spareTracks (ty : DriveType) : List Track :=
  ty.spareCylinders.flatMap fun c => (List.range Config.heads).map fun h => ⟨c, h⟩

/-- Logical index of a sector (R40). -/
def logicalIndex (a : SectorAddr) : Nat := (a.cyl * Config.heads + a.head) * Config.sectors + a.sector

/-- The sector at a logical index. -/
def sectorAtIndex (n : Nat) : SectorAddr :=
  ⟨n / Config.sectors / Config.heads, n / Config.sectors % Config.heads, n % Config.sectors⟩

/-- Last logical sector of a type (R48). -/
def lastSector (ty : DriveType) : Nat := (ty.lastLogical + 1) * Config.heads * Config.sectors - 1

/-- Logical index at which an extent starts (R40). -/
def extentStart (e : Extent) : Nat := logicalIndex ⟨e.cyl, e.head, e.sector⟩

/-- Logical track of a logical sector. -/
def trackOf (a : SectorAddr) : Track := ⟨a.cyl, a.head⟩

/-- The n-th sector of a list of extents, with the number of its extent, extents numbered from i (R40). -/
def locate : List Extent → Nat → Nat → Option (Nat × SectorAddr)
  | [], _, _ => none
  | e :: rest, i, n => if n < e.count then some (i, sectorAtIndex (extentStart e + n)) else locate rest (i + 1) (n - e.count)

/-- Sectors a request covers (R40). -/
def Record.total (r : Record) : Nat := (r.extents.map (·.count)).sum

/-- The n-th sector of a request. -/
def Record.sectorAt (r : Record) (n : Nat) : Option (Nat × SectorAddr) := locate r.extents 0 n

/-- The request's position: extent index and sector offset of the first sector still to be transferred (Table 4-1). -/
def positionIn : List Extent → Nat → Nat → Nat × Nat
  | [], i, n => (i, n)
  | e :: rest, i, n => if n < e.count then (i, n) else positionIn rest (i + 1) (n - e.count)

/-- The position of a record (Table 4-1). -/
def Record.position (r : Record) : Nat × Nat := positionIn r.extents 0 r.done

/-- Start of the request's first extent, or of its track, or zero (R53). -/
def Record.startAddress (r : Record) : SectorAddr :=
  match r.extents, r.target with
  | e :: _, _ => ⟨e.cyl, e.head, e.sector⟩
  | [], some t => ⟨t.cyl, t.head, 0⟩
  | [], none => ⟨0, 0, 0⟩

/-- The logical track at which the request stands: of its position, or its own (R76). -/
def Record.logicalTrack (r : Record) : Option Track :=
  if r.kind.isTransfer then (r.sectorAt r.done).map fun x => trackOf x.2 else r.target

end Sys2Proof.Machine
end

