-- ==== Sys2Proof/Machine/Operands.lean ====
section
/-! DEFINITION. What the adapter's read circuitry makes of the idents, data fields and headers that the events carry
(R5, R8, R89, R198), and the modes of retries (R114, R123). -/

namespace Sys2Proof.Machine

/-- Sector outcomes (R8). -/
inductive Outcome where
  | identMismatch
  | clean (lost : Bool)
  | corrected (lost : Bool)
  | uncorrectable (lost : Bool)
  deriving DecidableEq, Repr

/-- Whether an ident names this sector: its check agrees, its flag bits 1..7 are clear, and cylinder, head and sector
are those expected (R8, R198). -/
def identNames (t : Track) (sector : Nat) : Option RawIdent → Bool
  | none => false
  | some i => i.checkOk && (i.flags &&& 0xFE#8) == 0#8 && i.cyl == t.cyl && i.head == t.head && i.sector == sector

/-- The LOST flag an ident carries (R7, R198). -/
def identLost : Option RawIdent → Bool
  | none => false
  | some i => i.flags.getLsbD 0

/-- The outcome of reading a sector (R8). -/
def judgeRead (t : Track) (sector : Nat) (r : SectorRead) : Outcome :=
  if identNames t sector r.ident then
    match r.data with
    | .agrees => .clean (identLost r.ident)
    | .corrected => .corrected (identLost r.ident)
    | .uncorrectable => .uncorrectable (identLost r.ident)
  else .identMismatch

/-- The LOST flag delivered with an outcome; none with IDENT MISMATCH (R8). -/
def Outcome.lost : Outcome → Bool
  | .identMismatch => false
  | .clean l | .corrected l | .uncorrectable l => l

/-- A CLEAN or CORRECTED outcome delivers good bytes (R8). -/
def Outcome.good : Outcome → Bool
  | .clean _ | .corrected _ => true
  | _ => false

/-- Result of a header read (R5). -/
inductive HeaderResult where
  | unreadable
  | readable (st : HeaderState) (link : Track) (generation : Byte)
  deriving DecidableEq, Repr

/-- Spare-state byte of a header (R198). -/
def headerStateOf (b : Byte) : Option HeaderState :=
  if b == 0#8 then some .free
  else if b == 1#8 then some .reserved
  else if b == 2#8 then some .alternate
  else if b == 3#8 then some .unusable
  else none

/-- A header read is readable when its check agrees, it is that of the track the head is on, and its kind is SPARE; a
spare-state byte above 03h makes it unreadable (R5, R198). -/
def judgeHeader (t : Track) : Option RawHeader → HeaderResult
  | none => .unreadable
  | some h =>
    if h.checkOk && h.cyl == t.cyl && h.head == t.head && h.kind == 1#8 then
      match headerStateOf h.spareState with
      | some st => .readable st ⟨h.linkCyl, h.linkHead⟩ h.generation
      | none => .unreadable
    else .unreadable

/-- Offset of attempt or pass n (R114, Table 6-3). -/
def attemptOffset (n : Nat) : Offset :=
  if n == 4 || n == 5 then .plus else if n == 6 || n == 7 then .minus else .off

/-- A track read step's entry for one sector from the reads made of it: the pass that settles it and the entry; every
sector still without one after pass 7 is lost (R123). -/
def readEntry (t : Track) (sector : Nat) : Nat → List SectorRead → Nat × BufEntry
  | n, [] => (min n Config.attempts, .lost)
  | n, r :: rest =>
    if n > Config.attempts then (Config.attempts, .lost)
    else
      let o := judgeRead t sector r
      if o.lost then (n, .lost)
      else if o.good then (n, .good (wholeSector r.bytes))
      else readEntry t sector (n + 1) rest

/-- The entries of a track read step for sectors from n on, sixteen in all, each with its pass (R123). -/
def readEntries (t : Track) (reads : List (List SectorRead)) : List (Nat × BufEntry) :=
  (List.range Config.sectors).map fun i => readEntry t i 1 (reads.getD i [])

/-- Passes a track read step makes: those of its slowest sector (R123). -/
def passesOf (entries : List (Nat × BufEntry)) : Nat := entries.foldl (fun m e => max m e.1) 1

/-- The sixteen outcomes of a track verify step or a rebuild pass (R124, R140); a read not given counts as no ident
found. -/
def trackOutcomes (t : Track) (reads : List SectorRead) : List Outcome :=
  (List.range Config.sectors).map fun i => judgeRead t i (reads.getD i ⟨none, .uncorrectable, []⟩)

end Sys2Proof.Machine
end

