-- ==== Sys2Proof/Machine/Flags.lean ====
section
/-! DEFINITION. Classes, codes and flag bytes: status classes (R53), the code bytes of Tables 11-1 to 11-3, and the
packing of flags into bytes. -/

namespace Sys2Proof.Machine

/-- Error-class statuses create or extend a held report (R53, R189). -/
def Status.isError : Status → Bool
  | .complete | .completeRecovered | .cancelled => false
  | _ => true

/-- Status byte (Table 11-3). -/
def Status.code : Status → Byte
  | .complete => 0x00
  | .completeRecovered => 0x01
  | .cancelled => 0x02
  | .dataLost => 0x80
  | .uncorrectable => 0x81
  | .portTooSlow => 0x82
  | .portUnresponsive => 0x83
  | .portParity => 0x84
  | .portLost => 0x85
  | .driveFault => 0x86
  | .driveNotReady => 0x87
  | .noSpare => 0x88
  | .returnFailed => 0x89

/-- Acceptance byte (Table 11-2). -/
def AcceptCode.code : AcceptCode → Byte
  | .accepted => 0x00
  | .parity => 0x01
  | .badOrder => 0x02
  | .notReady => 0x03
  | .becomingReady => 0x04
  | .faulted => 0x05
  | .lockedElsewhere => 0x06
  | .lockLost => 0x07
  | .reportHeld => 0x08
  | .tagInUse => 0x09
  | .queueFull => 0x0A
  | .outOfRange => 0x0B
  | .mapFrozen => 0x0C
  | .mapFull => 0x0D
  | .entryExists => 0x0E
  | .noEntry => 0x0F
  | .entryBusy => 0x10
  | .noSuchRequest => 0x11
  | .notCancellable => 0x12
  | .notHolder => 0x13
  | .holderNotLost => 0x14

/-- Order code of a request (Table 11-1); a step is no order and has none. -/
def Kind.code : Kind → Byte
  | .read => 0x01
  | .write => 0x02
  | .verify => 0x03
  | .position => 0x04
  | .calibrate => 0x05
  | .mapChange .declare _ => 0x06
  | .mapChange .retire _ => 0x07
  | .step _ _ => 0x00

/-- Drive state byte (Table 11-8). -/
def DriveState.code : DriveState → Byte
  | .notReady => 0
  | .calibrating => 1
  | .scanning => 2
  | .ready => 3
  | .faulted => 4

/-- Drive type byte (Table 11-8). -/
def typeCodeByte : Option DriveType → Byte
  | none => 0
  | some .type1 => 1
  | some .type2 => 2

/-- Port byte, none as 00h (Table 11-8). -/
def portByte : Option PortId → Byte
  | none => 0
  | some .a => 1
  | some .b => 2
  | some .c => 3
  | some .d => 4

/-- Relocation unit state byte (Table 11-8). -/
def RuState.code : RuState → Byte
  | .idle => 0
  | .running => 1
  | .suspended => 2
  | .aborting => 3

/-- Entry state byte (Table 11-7). -/
def EntryState.code : EntryState → Byte
  | .pending => 1
  | .moving _ => 2
  | .active => 3

/-- Direction byte, zero when not MOVING (Table 11-7). -/
def EntryState.directionCode : EntryState → Byte
  | .moving .forward => 1
  | .moving .replacement => 2
  | .moving .ret => 3
  | _ => 0

/-- Origin byte (Table 11-7). -/
def Origin.code : Origin → Byte
  | .scan => 1
  | .host => 2
  | .automatic => 3

/-- Last-outcome byte (Table 11-6). -/
def outcomeByte : Option OutcomeKind → Byte
  | none => 0
  | some .soft => 1
  | some .hard => 2

/-- Spare-state byte of a header (R198). -/
def HeaderState.code : HeaderState → Byte
  | .free => 0
  | .reserved => 1
  | .alternate => 2
  | .unusable => 3

/-- Flags packed into a byte, the first in bit 0; the bits that a layout assigns to no flag are 0 (log 50). -/
def flagByte (flags : List Bool) : Byte :=
  flags.foldr (fun f acc => (acc <<< 1) ||| (if f then 1#8 else 0#8)) 0#8

end Sys2Proof.Machine
end

