-- ==== Sys2Proof/Machine/Map.lean ====
section
/-! DEFINITION. The alternate map of a drive: entries, marks, serving track, spare pool and allocation, work list and
stalled order (R127 to R137, R161, R162). -/

namespace Sys2Proof.Machine

/-- The map entry of a home track (R130). -/
def State.entry? (s : State) (d : DriveId) (home : Track) : Option MapEntry :=
  (s.drive d).map.find? fun e => e.home == home

/-- Changes the map entry of a home track. -/
def State.modEntry (s : State) (d : DriveId) (home : Track) (f : MapEntry → MapEntry) : State :=
  s.modDrive d fun D => { D with map := D.map.map fun e => if e.home == home then f e else e }

/-- Puts an entry into a table kept in ascending home track (R130). -/
def insertEntry (e : MapEntry) : List MapEntry → List MapEntry
  | [] => [e]
  | x :: xs => if trackBefore e.home x.home then e :: x :: xs else x :: insertEntry e xs

/-- Adds a map entry; a full table takes none (R130). -/
def State.addEntry (s : State) (d : DriveId) (e : MapEntry) : State :=
  s.modDrive d fun D => { D with map := if D.map.length < Config.mapLimit then insertEntry e D.map else D.map }

/-- Removes a map entry. -/
def State.removeEntry (s : State) (d : DriveId) (home : Track) : State :=
  s.modDrive d fun D => { D with map := D.map.filter fun e => e.home != home }

/-- A new PENDING entry (R142, R153). -/
def pendingEntry (home : Track) (origin : Origin) (linked : Option Nat) : MapEntry where
  home := home
  state := .pending
  alternate := none
  target := none
  previous := none
  origin := origin
  replacement := false
  named := false
  linked := linked
  generation := 0
  lost := 0

/-- An ACTIVE entry built by the scan (R139). -/
def scannedEntry (home alternate : Track) (generation : Byte) : MapEntry where
  home := home
  state := .active
  alternate := some alternate
  target := none
  previous := none
  origin := .scan
  replacement := false
  named := false
  linked := none
  generation := generation
  lost := 0

/-- The stalled mark of an entry: its place on the stalled order (R162). -/
def State.isStalled (s : State) (d : DriveId) (home : Track) : Bool := s.stalled.contains ⟨d, home⟩

/-- The on-the-work-list mark of an entry: its place on the work list (R161). -/
def State.onWorkList (s : State) (d : DriveId) (home : Track) : Bool := s.workList.contains ⟨d, home⟩

/-- Appends an entry to the work list as its newest (R161); each entry stands on it at most once. -/
def State.appendWork (s : State) (r : EntryRef) : State :=
  if s.workList.contains r then s else { s with workList := s.workList ++ [r] }

/-- Puts an entry at the front of the work list (R161, R178). -/
def State.frontWork (s : State) (r : EntryRef) : State :=
  { s with workList := r :: s.workList.filter fun x => x != r }

/-- Joins the stalled order as its latest (R162). -/
def State.appendStalled (s : State) (r : EntryRef) : State :=
  if s.stalled.contains r then s else { s with stalled := s.stalled ++ [r] }

/-- Leaves the stalled order (R162). -/
def State.dropStalled (s : State) (r : EntryRef) : State :=
  { s with stalled := s.stalled.filter fun x => x != r }

/-- The serving track an entry gives (Table 7-4). -/
def MapEntry.serving (e : MapEntry) : Track :=
  match e.state with
  | .pending => e.home
  | .moving .forward => e.home
  | .moving .replacement => e.previous.getD e.home
  | .moving .ret => e.alternate.getD e.home
  | .active => e.alternate.getD e.home

/-- The serving track of a home track (R134). -/
def State.serving (s : State) (d : DriveId) (home : Track) : Track :=
  match s.entry? d home with
  | none => home
  | some e => e.serving

/-- Whether generation and lost-sector set are present (Table 7-2). -/
def MapEntry.hasGeneration (e : MapEntry) : Bool :=
  match e.state with
  | .pending => false
  | .moving .forward => false
  | .moving .replacement => true
  | .moving .ret => true
  | .active => true

/-- The entry whose alternate, or whose previous alternate during a replacement, is this spare (R117, R190). -/
def State.entryOnSpare (s : State) (d : DriveId) (spare : Track) : Option MapEntry :=
  (s.drive d).map.find? fun e => e.hasGeneration && (e.alternate == some spare || e.previous == some spare)

/-- Sets a spare's pool state; the pool is kept in ascending spare address (R135). -/
def setPool (spare : Track) (st : SpareState) : List (Track × SpareState) → List (Track × SpareState)
  | [] => [(spare, st)]
  | (t, x) :: rest =>
    if t == spare then (spare, st) :: rest
    else if trackBefore spare t then (spare, st) :: (t, x) :: rest
    else (t, x) :: setPool spare st rest

/-- Moves a spare of a drive to a pool state (R136). -/
def State.setSpare (s : State) (d : DriveId) (spare : Track) (st : SpareState) : State :=
  s.modDrive d fun D => { D with pool := setPool spare st D.pool }

/-- Moves a spare to a pool state when there is one. -/
def State.setSpare? (s : State) (d : DriveId) (spare : Option Track) (st : SpareState) : State :=
  match spare with
  | none => s
  | some t => s.setSpare d t st

/-- The FREE spares of a drive (R135). -/
def Drive.freeSpares (D : Drive) : List Track := (D.pool.filter fun x => x.2 == .free).map (·.1)

/-- Absolute difference. -/
def distance (a b : Nat) : Nat := (a - b) + (b - a)

/-- The spare an allocation takes for a home track: nearest cylinder with a FREE spare, the lower of two at equal
distance; there the home's head if FREE, else the lowest head (R137). -/
def chooseSpare (home : Track) (free : List Track) : Option Track :=
  match leastBy (fun t => (distance t.cyl home.cyl, t.cyl)) free with
  | none => none
  | some c =>
    leastBy (fun t => (if t.head == home.head then 0 else 1, t.head)) (free.filter fun t => t.cyl == c.cyl)

/-- The linked record of an entry, if any (R144). -/
def State.linkedOf (s : State) (d : DriveId) (home : Track) : Option Nat :=
  match s.entry? d home with
  | none => none
  | some e => e.linked

/-- Number of entries of a drive in a class of states (R61). -/
def Drive.countEntries (D : Drive) (p : EntryState → Bool) : Nat := D.map.countP fun e => p e.state

/-- Whether an entry is MOVING. -/
def EntryState.isMoving : EntryState → Bool
  | .moving _ => true
  | _ => false

/-- Whether the relocation unit has the entry of this home in hand (R72, R108). -/
def State.inHand (s : State) (d : DriveId) (home : Track) : Bool := s.ru.entry == some ⟨d, home⟩

/-- The moving-write test (R72, R108): the home's entry is MOVING, in hand, and the unit is RUNNING. -/
def State.movingWrite (s : State) (d : DriveId) (home : Track) : Bool :=
  s.ru.state == .running && s.inHand d home &&
    (match s.entry? d home with
     | some e => e.state.isMoving
     | none => false)

end Sys2Proof.Machine
end

