-- ==== Sys2Proof/Machine/Formats.lean ====
section
/-! DEFINITION. The bytes of the blocks the unit sends and of the fields it records (R195, R197, R198). -/

namespace Sys2Proof.Machine

/-- A number in two bytes, high byte first (R195). -/
def be16 (n : Nat) : List Byte := [byteOf (n / 256), byteOf n]

/-- A track field (R195). -/
def trackBytes (t : Track) : List Byte := be16 t.cyl ++ [byteOf t.head]

/-- A sector address (R195). -/
def sectorBytes (a : SectorAddr) : List Byte := be16 a.cyl ++ [byteOf a.head, byteOf a.sector]

/-- A sector mask, sector 15 in the high bit of the first byte (R195). -/
def maskBytes (m : SectorSet) : List Byte := [(m >>> 8).setWidth 8, m.setWidth 8]

/-- A field that may be absent: zero bytes then (R197). -/
def trackBytes? : Option Track → List Byte
  | none => [0, 0, 0]
  | some t => trackBytes t

/-- Ending status block (Table 11-5). -/
def statusBlock (e : StatusEntry) : List Byte :=
  [e.tag, byteOf e.drive.val, e.kind.code, e.status.code] ++ be16 e.residual ++ sectorBytes e.address

/-- Reconnection identifier of a data connection (R197). -/
def dataIdentifier (isWrite : Bool) (d : DriveId) (tag : Byte) : List Byte :=
  [if isWrite then 0x02 else 0x01, byteOf d.val, tag, 0]

/-- Reconnection identifier of a status connection (R197). -/
def statusIdentifier (e : StatusEntry) : List Byte := [0x03, byteOf e.drive.val, e.tag, 0]

/-- Reconnection identifier of an attention connection (R197). -/
def attentionIdentifier : List Byte := [0x04, 0x0F, 0, 0]

/-- Attention block (R197). -/
def attentionBlock (ds : List DriveId) : List Byte := byteOf ds.length :: ds.map fun d => byteOf d.val

/-- Reply head (R197). -/
def replyHead (code tag : Byte) : List Byte := [code, tag]

/-- Report block (Table 11-6). -/
def reportBlock (d : DriveId) (r : Report) : List Byte :=
  [r.cause.code, r.tag, r.kind.code, byteOf d.val]
    ++ (match r.failing with
        | some a => sectorBytes a
        | none => [0, 0, 0, 0])
    ++ trackBytes? r.physical
    ++ [byteOf r.attempts, byteOf r.late, byteOf r.missedReconnect, byteOf r.soft, byteOf r.hard, outcomeByte r.last]
    ++ maskBytes (r.lost.getD 0)
    ++ [flagByte [r.further, r.lost.isSome, r.failing.isSome], byteOf r.furtherTags.length]
    ++ r.furtherTags

/-- Empty report: cause FFh and 20 zero bytes (R54, R197). -/
def emptyReport : List Byte := 0xFF#8 :: List.replicate 20 0

/-- Map record of an entry (Table 7-1, Table 11-7, R147). -/
def entryRecord (s : State) (d : DriveId) (e : MapEntry) : List Byte :=
  [1] ++ trackBytes (logicalOf e.home) ++ trackBytes e.home
    ++ [e.state.code, e.state.directionCode, e.origin.code,
        flagByte [e.replacement, s.isStalled d e.home, s.onWorkList d e.home, false, e.alternate.isSome,
          e.target.isSome, e.previous.isSome, e.hasGeneration]]
    ++ trackBytes? e.alternate ++ trackBytes? e.target ++ trackBytes? e.previous
    ++ (if e.hasGeneration then e.generation :: maskBytes e.lost else [0, 0, 0])
    ++ trackBytes e.serving

/-- Map record of a home track (R58, R147). -/
def mapRecord (s : State) (d : DriveId) (home : Track) : List Byte :=
  match s.entry? d home with
  | some e => entryRecord s d e
  | none => [0] ++ trackBytes (logicalOf home) ++ trackBytes home ++ List.replicate 16 0 ++ trackBytes home

/-- Map list: the count, then every entry's record in the order of the table (R59). -/
def mapListBody (s : State) (d : DriveId) : List Byte :=
  byteOf (s.drive d).map.length :: (s.drive d).map.flatMap (entryRecord s d)

/-- The nine bytes of a drive in the string status record (Table 11-8). -/
def driveStatus (s : State) (d : DriveId) : List Byte :=
  let D := s.drive d
  [D.state.code, typeCodeByte D.type, portByte D.lock, byteOf (s.queue d).length,
    flagByte [D.active.isSome, D.freeze],
    byteOf (D.countEntries (· == .pending)), byteOf (D.countEntries EntryState.isMoving),
    byteOf (D.countEntries (· == .active)), byteOf D.freeSpares.length]

/-- Drive of the relocation in hand, or of the restore order; FFh when IDLE (Table 11-8). -/
def relocationDrive (ru : Relocation) : Byte :=
  match ru.state, ru.entry, ru.restore with
  | .idle, _, _ => 0xFF
  | .aborting, _, some o => byteOf o.drive.val
  | _, some e, _ => byteOf e.drive.val
  | _, none, _ => 0xFF

/-- The eight parameters in force, in the order of R62. -/
def parameterBytes (s : State) : List Byte :=
  [byteOf s.params.reversal, byteOf s.params.softThreshold, byteOf s.params.progressInterval,
    byteOf (s.port .a).threshold, byteOf (s.port .b).threshold, byteOf (s.port .c).threshold,
    byteOf (s.port .d).threshold, byteOf s.params.priority]

/-- String status record (Table 11-8). -/
def stringStatusBody (s : State) : List Byte :=
  allDrives.flatMap (driveStatus s) ++ [s.ru.state.code, relocationDrive s.ru] ++ be16 s.workList.length
    ++ parameterBytes s

/-- The nine bytes of a spare-track header that its check field covers (R198). -/
def headerBytes (t : Track) (h : Header) : List Byte :=
  trackBytes t ++ [1, h.spareState.code] ++ trackBytes h.link ++ [h.generation]

/-- The five recorded bytes of a sector ident before its check (R198). -/
def identBytes (t : Track) (sector : Nat) (lost : Bool) : List Byte :=
  trackBytes t ++ [byteOf sector, flagByte [lost]]

/-- A spare-track header as it is recorded: 13 bytes, the check field last (R6, R198; log 41). -/
def recordedHeader (t : Track) (h : Header) : List Byte :=
  let b := headerBytes t h
  let c := Config.headerCheck b
  b ++ [(c >>> 24).setWidth 8, (c >>> 16).setWidth 8, (c >>> 8).setWidth 8, c.setWidth 8]

/-- A sector ident as it is recorded: 7 bytes, the check last (R7, R198; log 41). -/
def recordedIdent (t : Track) (sector : Nat) (lost : Bool) : List Byte :=
  let b := identBytes t sector lost
  let c := Config.identCheck b
  b ++ [(c >>> 8).setWidth 8, c.setWidth 8]

/-- Sixteen sectors of a track as they are recorded, from LOST flag and data of each (R7, R124, R198). -/
def recordedTrack (t : Track) (sectors : List (Bool × List Byte)) : List (List Byte × List Byte) :=
  sectors.mapIdx fun n x => (recordedIdent t n x.1, x.2)

end Sys2Proof.Machine
end

