-- ==== Sys2Proof/Machine/Reports.lean ====
section
/-! DEFINITION. Ending a request: what its status and its report say, the held-report table, and what the port link
does with the status (R35, R53, R106, R189 to R192). -/

namespace Sys2Proof.Machine

/-- What an ending says: the status with residual and address (R53, R106), and the failing sector for a report (R190). -/
structure EndInfo where
  status : Status
  residual : Nat
  address : SectorAddr
  failing : Option SectorAddr
  physical : Option Track
  attempts : Nat
  late : Nat
  deriving DecidableEq, Repr

/-- Serving track the request's path entered for a sector: that of its image, or of the entered track if the sector
lies on it (R191). -/
def Path.servingOf (P : Path) (ord : Nat) (logical : Track) : Option Track :=
  match P.fifo.find? fun i => i.ord == ord with
  | some i => some i.serving
  | none =>
    match P.entered with
    | some e => if e.logical == logical then some e.serving else none
    | none => none

/-- Attempts made so far on a sector: those of the ladder, the one in flight counted, and 0 for a sector that the ladder has
left (R190; log 16). -/
def Path.attemptsOn (P : Path) (ord : Nat) : Nat :=
  match P.ladder with
  | some (o, n) => if o == ord then (if P.reading == some ord then n else n - 1) else 0
  | none => 0

/-- Address of the request's first sector not transferred, when `left` of its sectors are left (R53). -/
def Record.addressAt (r : Record) (ord : Nat) : SectorAddr :=
  match r.sectorAt ord with
  | some (_, a) => a
  | none => r.startAddress

/-- The physical track of a report, when no path had entered the failing sector's track (R191). -/
def State.reportTrack (s : State) (r : Record) (failing : SectorAddr) : Option Track :=
  let home := homeOf (trackOf failing)
  match r.kind with
  | .calibrate => none
  | .mapChange .retire _ =>
    match s.entry? r.drive home with
    | some e => some (e.alternate.getD home)
    | none => some home
  | .mapChange .declare _ => some home
  | _ => some (s.serving r.drive home)

/-- The failing sector of an ending whose cause arose at sector number `ord`, absent for CALIBRATE (R190). -/
def Record.failingAt (r : Record) (ord : Nat) : Option SectorAddr :=
  if r.kind == .calibrate then none else some (r.addressAt ord)

/-- What an ending says when `done` sectors count as transferred and the cause arose at sector number `ord`, with the
attempts made there (R53, R106, R190, R191). -/
def State.infoFor (s : State) (r : Record) (status : Status) (done ord attempts : Nat) (entered : Option Track) :
    EndInfo where
  status := status
  residual := r.total - done
  address := r.addressAt done
  failing := r.failingAt ord
  physical :=
    match entered, r.failingAt ord with
    | some t, _ => some t
    | none, some a => s.reportTrack r a
    | none, none => none
  attempts := attempts
  late := match s.pathOf r.pos with
    | some k => (s.path k).late
    | none => r.late

/-- What an ending says whose cause arose at the first sector not transferred (R190). -/
def State.infoHere (s : State) (r : Record) (status : Status) : EndInfo :=
  match s.pathOf r.pos with
  | some k =>
    s.infoFor r status r.done r.done ((s.path k).attemptsOn r.done)
      ((s.path k).servingOf r.done (trackOf (r.addressAt r.done)))
  | none => s.infoFor r status r.done r.done 0 none

/-- What an ending says whose cause was held with its failing sector (R113, R190). -/
def State.infoHeld (s : State) (r : Record) (h : Held) : EndInfo :=
  s.infoFor r h.status r.done h.ord h.attempts h.serving

/-- Tally lookup (R159). -/
def State.tallies (s : State) (d : DriveId) (t : Track) : Nat × Nat × Option OutcomeKind :=
  match (s.drive d).health.find? fun h => h.track == t with
  | some h => (h.soft, h.hard, some h.last)
  | none => (0, 0, none)

/-- Tallies of a report: those of the health snapshot if it names the track, else a lookup (R191); none without a track
(log 58). -/
def State.reportTallies (s : State) (r : Record) : Option Track → Nat × Nat × Option OutcomeKind
  | none => (0, 0, none)
  | some t =>
    match r.snapshot with
    | some n => if n.track == t then (n.soft, n.hard, some n.last) else s.tallies r.drive t
    | none => s.tallies r.drive t

/-- The lost-sector set of a report: that of the entry the physical track serves as a spare (R190, R191). -/
def State.reportLost (s : State) (d : DriveId) : Option Track → Option SectorSet
  | none => none
  | some t => (s.entryOnSpare d t).map (·.lost)

/-- A report as it is created (R190). -/
def State.newReport (s : State) (r : Record) (i : EndInfo) : Report :=
  let t := s.reportTallies r i.physical
  { cause := i.status, tag := r.tag, kind := r.kind, failing := i.failing, physical := i.physical
    attempts := i.attempts, late := i.late, missedReconnect := r.missedReconnect
    soft := t.1, hard := t.2.1, last := t.2.2, lost := s.reportLost r.drive i.physical
    further := false, furtherTags := [] }

/-- A report extended by a further ending (R192). -/
def Report.extend (rep : Report) (tag : Byte) : Report :=
  { rep with
    further := true
    furtherTags :=
      if rep.furtherTags.length < Config.furtherTagLimit then rep.furtherTags ++ [tag] else rep.furtherTags }

/-- The held-report slot of a port and drive (R188). -/
def State.reportOf (s : State) (p : PortId) (d : DriveId) : Option Report := (s.port p).reports.get d

/-- Sets the held-report slot of a port and drive. -/
def State.setReport (s : State) (p : PortId) (d : DriveId) (r : Option Report) : State :=
  s.modPort p fun P => { P with reports := P.reports.set d.val r d.isLt }

/-- An ending status passed to the string coordination unit: of error class it creates or extends the held report
(R35, R189, R192). -/
def State.passStatus (s : State) (p : PortId) (r : Record) (i : EndInfo) : State :=
  if i.status.isError then
    match s.reportOf p r.drive with
    | some rep => s.setReport p r.drive (some (rep.extend r.tag))
    | none => s.setReport p r.drive (some (s.newReport r i))
  else s

/-- The status block of an ending (Table 11-5). -/
def Record.statusEntry (r : Record) (i : EndInfo) : StatusEntry where
  request := r.pos
  tag := r.tag
  drive := r.drive
  kind := r.kind
  status := i.status
  residual := i.residual
  address := i.address

/-- Begins to present a status in the connection of a path (R35, R36): it takes the identifier's place in `sending`
(log 47). -/
def State.presentStatus (s : State) (p : PortId) (k : PathId) (e : StatusEntry) : State :=
  s.modPort p fun P => { P with state := .connected (.data k (some e)), sending := sentBlock (statusBlock e) }

/-- Appends a status to the port's queue as its newest entry (R35). -/
def State.appendStatus (s : State) (p : PortId) (e : StatusEntry) : State :=
  s.modPort p fun P => { P with statusQueue := P.statusQueue ++ [e] }

/-- The path through which this request is connected to its port (R35). -/
def State.ownConnection (s : State) (p : PortId) (pos : Nat) : Option PathId :=
  match s.pathOf pos with
  | some k => if (s.port p).connectedTo k then some k else none
  | none => none

/-- What the port link does with an ending status (R35): present, discard (and free the record, R65), or append; a
status presented or appended is passed to the string coordination unit. An ending taken first stands (R126). -/
def State.issueStatus (s : State) (pos : Nat) (i : EndInfo) : State :=
  match s.request? pos with
  | none => s
  | some r =>
    match r.source with
    | .relocation => s
    | .port p =>
      if r.ended then s
      else if r.detached || (s.port p).state == .lost then s.freeRequest pos
      else
        let marked := s.modRequest pos fun x => { x with ended := true }
        let placed :=
          match s.ownConnection p pos with
          | some k => marked.presentStatus p k (r.statusEntry i)
          | none => marked.appendStatus p (r.statusEntry i)
        placed.passStatus p r i

/-- Adds a drive to the attention set of every port not in LOST (R37). -/
def State.attend (s : State) (d : DriveId) : State :=
  allPorts.foldl (fun t p =>
    t.modPort p fun P => if P.state == .lost then P else { P with attention := insertDrive d P.attention }) s

/-- Ends a map-change request with its status and clears its link (R144, R181): residual 0, the logical track with
sector 0 (R53). -/
def State.endMapChange (s : State) (pos : Nat) (status : Status) : State :=
  match s.request? pos with
  | none => s
  | some r =>
    let info := s.infoHere r status
    let s := match r.target with
      | some t => s.modEntry r.drive (homeOf t) fun e => if e.linked == some pos then { e with linked := none } else e
      | none => s
    s.issueStatus pos info

/-- Ends the linked request of an entry, if it has one. -/
def State.endLinked (s : State) (link : Option Nat) (status : Status) : State :=
  match link with
  | none => s
  | some pos => s.endMapChange pos status

end Sys2Proof.Machine
end

