-- ==== Sys2Proof/Machine/Link.lean ====
section
/-! DEFINITION. Port link and data path together: offers, reconnection, refusal, disconnection, the release of a path, and
the ways a request leaves its drive and its path (R31 to R33, R71, R104, R111, R125). -/

namespace Sys2Proof.Machine

/-- Rank of the offers (Table of R31). -/
def Port.chooseOffer (P : Port) : Option Offer :=
  match P.waiting with
  | k :: _ => some (.data k)
  | [] => if P.statusQueue ≠ [] then some .status else if P.attention ≠ [] then some .attention else none

/-- The choice of an offer at the end of an event (R31): an IDLE port with none in hand chooses; a waiting data
reconnection displaces STATUS and ATTENTION, and nothing displaces DATA. -/
def Port.offerNow (P : Port) : Port :=
  match P.state, P.offer, P.waiting with
  | .idle, none, _ => { P with offer := P.chooseOffer }
  | .idle, some (.data _), _ => P
  | .idle, some _, k :: _ => { P with offer := some (.data k) }
  | _, _, _ => P

/-- Every port's choice of an offer. -/
def State.offerAll (s : State) : State := allPorts.foldl (fun t p => t.modPort p Port.offerNow) s

/-- The path ends its connection: the port returns to IDLE (R33). -/
def State.disconnect (s : State) (k : PathId) : State :=
  match (s.path k).port with
  | none => s
  | some p => if (s.port p).connectedTo k then s.modPort p fun P => { P with state := .idle, sending := [] } else s

/-- The path's reconnection is withdrawn from its port, and the offer with it (R31). -/
def State.withdrawAsk (s : State) (k : PathId) : State :=
  match (s.path k).port with
  | none => s
  | some p =>
    s.modPort p fun P =>
      { P with
        waiting := P.waiting.filter fun x => x != k
        offer := if P.offer == some (.data k) then none else P.offer }

/-- The adapter closes its gates (R16, R125). -/
def State.closeGates (s : State) (d : DriveId) : State :=
  s.modDrive d fun D => { D with readGate := false, writeGate := false }

/-- The path gives the adapter an offset (R10, R114). -/
def State.giveOffset (s : State) (d : DriveId) (o : Offset) : State := s.modDrive d fun D => { D with offset := o }

/-- What the write lines carried. -/
def State.setRecorded (s : State) (d : DriveId) (x : Recorded) : State :=
  s.modDrive d fun D => { D with recorded := some x }

/-- Closes the gates of the drive a path is attached to. -/
def State.closeGates? (s : State) (d : Option DriveId) : State :=
  match d with
  | none => s
  | some d => s.closeGates d

/-- Release of a path (R104): late count written back (R105), FIFO emptied, connection ended, path FREE. -/
def State.releasePath (s : State) (k : PathId) : State :=
  let P := s.path k
  let written := match P.holder with
    | some pos => s.modRequest pos fun r => { r with late := P.late }
    | none => s
  (((written.disconnect k).withdrawAsk k).closeGates? P.drive).modPath k fun _ => Path.free

/-- The positioning record of a drive cleared, its mismatch count with it (R86; at head ready, log 57). -/
def Drive.clearPositioning (D : Drive) : Drive :=
  { D with phase := .none, target := none, mismatch := 0, confirm := none, due := none }

/-- A record is the drive's request in progress no more, and its claim is withdrawn (R70, R98). -/
def State.clearDrive (s : State) (pos : Nat) : State :=
  match s.request? pos with
  | none => s
  | some r =>
    let s := s.modDrive r.drive fun D =>
      if D.active == some pos then { D.clearPositioning with active := none } else D
    { s with claims := s.claims.filter fun c => c.request != pos }

/-- As `clearDrive`, and the record leaves the overdue order, as it does when it ends, is stopped or removed (R96). -/
def State.leaveDrive (s : State) (pos : Nat) : State :=
  let s := s.clearDrive pos
  { s with overdue := s.overdue.filter fun x => x != pos }

/-- A path whose request has ended and whose status is in presentation: attached to its port alone, its images
discarded (R100, R104). -/
def Path.presenting (P : Path) : Path :=
  { P with
    drive := none, entered := none, fifo := [], window := none, ladder := none, reading := none, ending := none
    leaving := false }

/-- Ends a request with its status; its path is released, or held while the status is presented (R104). -/
def State.endRequest (s : State) (pos : Nat) (i : EndInfo) : State :=
  let s := (s.leaveDrive pos).issueStatus pos i
  match s.pathOf pos with
  | none => s
  | some k =>
    match (s.path k).port with
    | none => s.releasePath k
    | some p =>
      if (s.port p).presentsOn k then (s.closeGates? (s.path k).drive).modPath k Path.presenting
      else s.releasePath k

/-- Ends a request whose cause arose at its first sector not transferred. -/
def State.endHere (s : State) (pos : Nat) (status : Status) : State :=
  match s.request? pos with
  | none => s
  | some r => s.endRequest pos (s.infoHere r status)

/-- Ends a request that is stopped during a transfer: offset off, then the ending (R125). -/
def State.endStopped (s : State) (pos : Nat) (status : Status) : State :=
  match s.request? pos with
  | none => s
  | some r => (s.giveOffset r.drive .off).endHere pos status

/-- Stops a request without status and frees its record (R39, R65, R125). -/
def State.stopRequest (s : State) (pos : Nat) : State :=
  match s.request? pos with
  | none => s
  | some r =>
    let s := (s.giveOffset r.drive .off).leaveDrive pos
    let s := match s.pathOf pos with
      | some k => s.releasePath k
      | none => s
    s.freeRequest pos

/-- A request in progress returns to its drive's queue as a continuation (R71). -/
def State.returnToQueue (s : State) (pos : Nat) : State :=
  (s.clearDrive pos).modRequest pos fun r => { r with state := .continuation }

/-- The stop a request carries, in the order of log 13: port reset, CANCEL, port loss. -/
inductive StopKind where
  | reset | cancel | loss
  deriving DecidableEq, Repr

/-- The stop a request carries. A cancel mark stops no request that has `reached` an ending of its own (R56). -/
def Record.stop? (r : Record) (reached : Bool := false) : Option StopKind :=
  if r.resetStop then some .reset
  else if r.cancel && !reached then some .cancel
  else if r.lossStop then some .loss
  else none

/-- Carries out a stop (R125). -/
def State.stopBy (s : State) (pos : Nat) : StopKind → State
  | .reset => s.stopRequest pos
  | .cancel => s.endStopped pos .cancelled
  | .loss => s.endStopped pos .portLost

/-- The path is released and its request returns as a continuation (R104, R109, R121); a request that carries a stop
does not return but is stopped there (R71). -/
def State.releaseAndReturn (s : State) (k : PathId) : State :=
  match (s.path k).holder with
  | none => s.releasePath k
  | some pos =>
    match s.request? pos with
    | none => s.releasePath k
    | some r =>
      match r.stop? with
      | some c => s.stopBy pos c
      | none => (s.releasePath k).returnToQueue pos

/-- A sector of the path is being read or written (R125). -/
def Path.inFlight (P : Path) : Bool := P.reading.isSome || P.fifo.any fun i => i.cond == .writing

/-- The port link refuses a path for a port in OFFLINE or LOST: the request ends PORT LOST at the next sector boundary of its
drive if it is TRANSFERRING, and at once if it is PAUSED (R33, R125, Table 6-4; log 39). -/
def State.refuse (s : State) (k : PathId) : State :=
  let P := s.path k
  let s := s.modPath k fun P => { P with conn := .none, window := none }
  match P.holder with
  | none => s
  | some pos =>
    match s.request? pos with
    | none => s
    | some r =>
      if r.state == .transferring && !r.ended then s.modRequest pos fun x => { x with lossStop := true }
      else s.endStopped pos .portLost

/-- A path asks its port for reconnection: it waits among the port's waiting data reconnections with its window started,
or is refused (R33, R120). -/
def State.ask (s : State) (k : PathId) : State :=
  match (s.path k).port with
  | none => s
  | some p =>
    if (s.port p).state == .offline || (s.port p).state == .lost then s.refuse k
    else
      (s.modPort p fun P => { P with waiting := P.waiting ++ [k] }).modPath k fun P =>
        { P with conn := .asking, window := some 0 }

/-- Bytes an image holds or reserves (R105). -/
def Image.byteCount (i : Image) : Nat :=
  match i.cond with
  | .inFlight | .reserved => Config.sectorBytes
  | _ => i.bytes.length

/-- Byte count of a path (R105). -/
def Path.byteCount (P : Path) : Nat := (P.fifo.map Image.byteCount).sum

/-- The COMPLETE images of a path. -/
def Path.completeImages (P : Path) : List Image := P.fifo.filter fun i => i.cond == .complete

/-- The two conditions of R111 on a READ's path: its COMPLETE images reach the port's threshold, or every sector of the
current track run is COMPLETE (the run ends by an ending, a cylinder change or a pause of R112); log 18. -/
def Path.readWants (P : Path) (threshold : Nat) (pausedLate : Bool) : Bool :=
  !P.completeImages.isEmpty &&
    (threshold * Config.sectorBytes ≤ (P.completeImages.map fun i => i.bytes.length).sum ||
      ((P.ending.isSome || P.leaving || pausedLate) && P.fifo.all fun i => i.cond == .complete))

/-- A HOST READ's path asks when it is not connected, not asking, its request is not being stopped, and R111 says so. -/
def State.askRead (s : State) (k : PathId) : State :=
  let P := s.path k
  match P.holder, P.port with
  | some pos, some p =>
    match s.request? pos with
    | some r =>
      if P.service == some .hostRead && P.conn == .none && !r.ended && !r.resetStop && !r.lossStop
          && P.readWants (s.port p).threshold (r.state == .paused && P.ladder.isNone)
      then s.ask k else s
    | none => s
  | _, _ => s

/-- Both paths' asking (R111): where both come to ask in one event, DP-0 asks before DP-1 (log 52). -/
def State.askAll (s : State) : State := allPaths.foldl State.askRead s

end Sys2Proof.Machine
end

