-- ==== Sys2Proof/Machine/Health.lean ====
section
/-! DEFINITION. The health table: recording of outcomes, thresholds, automatic declaration and the retry of waiting
entries (R148 to R157). -/

namespace Sys2Proof.Machine

/-- The health entry of a track after a recording: tally raised, last outcome set (R149, R151). -/
def raisedEntry (t : Track) (k : OutcomeKind) (old : Option HealthEntry) : HealthEntry :=
  let base : HealthEntry := old.getD ⟨t, 0, 0, k, false⟩
  match k with
  | .soft => { base with soft := satSucc Config.tallyLimit base.soft, last := .soft }
  | .hard => { base with hard := satSucc Config.tallyLimit base.hard, last := .hard }

/-- The entries behind the recorded track: the others in their order, the least recent evicted if a new track finds the
list full (R149). -/
def othersAfter (t : Track) (l : List HealthEntry) : List HealthEntry :=
  if l.any fun h => h.track == t then l.filter fun h => h.track != t
  else l.take (Config.healthLimit - 1)

/-- Whether a track has reached threshold (R151). -/
def HealthEntry.reached (h : HealthEntry) (threshold : Nat) : Bool := threshold ≤ h.soft || 1 ≤ h.hard

/-- Sets the waiting mark of a track's health entry. -/
def State.setWaiting (s : State) (d : DriveId) (t : Track) (w : Bool) : State :=
  s.modDrive d fun D => { D with health := D.health.map fun h => if h.track == t then { h with waiting := w } else h }

/-- Removes the health entry of a declared track (R153, R154). -/
def State.dropHealth (s : State) (d : DriveId) (t : Track) : State :=
  s.modDrive d fun D => { D with health := D.health.filter fun h => h.track != t }

/-- A new declaration (R153). -/
def State.declareAutomatic (s : State) (d : DriveId) (t : Track) : State :=
  ((s.addEntry d (pendingEntry t .automatic none)).appendWork ⟨d, t⟩).dropHealth d t

/-- A replacement request on an entry (R154). -/
def State.requestReplacement (s : State) (d : DriveId) (e : MapEntry) (t : Track) : State :=
  ((s.modEntry d e.home fun x => { x with replacement := true, origin := .automatic }).appendWork ⟨d, e.home⟩).dropHealth
    d t

/-- An ACTIVE entry whose alternate may be asked replaced (R152). -/
def State.replaceable (s : State) (d : DriveId) (t : Track) (e : MapEntry) : Bool :=
  e.state == .active && e.alternate == some t && !e.replacement && !e.named && !s.isStalled d e.home

/-- Whether a track lies on a spare cylinder of the drive. -/
def Drive.isSpareTrack (D : Drive) (t : Track) : Bool :=
  match D.type with
  | some ty => isSpareCylinder ty t.cyl
  | none => (t.cyl + 1) % 102 == 0

/-- The judgement of a track at threshold against the drive's map (R152 to R156). -/
def State.judgeTrack (s : State) (d : DriveId) (t : Track) : State :=
  let D := s.drive d
  if D.isSpareTrack t then
    match D.map.find? (s.replaceable d t) with
    | some e => s.requestReplacement d e t
    | none => s.setWaiting d t false
  else
    match s.entry? d t with
    | some _ => s.setWaiting d t false
    | none => if D.map.length < Config.mapLimit then s.declareAutomatic d t else s.setWaiting d t true

/-- Records an outcome against a track and keeps the health table's answer with the request (R149, R151). -/
def State.recordOutcome (s : State) (pos : Nat) (d : DriveId) (t : Track) (k : OutcomeKind) : State :=
  let l := (s.drive d).health
  let h := raisedEntry t k (l.find? fun x => x.track == t)
  let s := s.modDrive d fun D => { D with health := h :: othersAfter t D.health }
  let s := s.modRequest pos fun r => { r with snapshot := some ⟨t, h.soft, h.hard, h.last⟩ }
  if h.reached s.params.softThreshold then s.judgeTrack d t else s

/-- The track against which a request has had a soft outcome of a sector recorded (R115; log 40). -/
def Record.softTrack (r : Record) (sector : Nat) : Option Track :=
  (r.recordedSectors.find? fun x => x.1 == sector).map fun x => x.2

/-- Takes back one soft outcome of a track, if the track still has a health entry (log 40). -/
def takeBackSoft (t : Track) (l : List HealthEntry) : List HealthEntry :=
  l.map fun h => if h.track == t then { h with soft := h.soft - 1 } else h

/-- Records an outcome of a request's sector number `ord`. One outcome stands recorded for a sector and request (R115, R150):
a soft one is not recorded again, and a hard one, which is recorded always (R159), takes the place of a soft one recorded
before (log 40). -/
def State.recordOnce (s : State) (r : Record) (ord : Nat) (t : Track) (k : OutcomeKind) : State :=
  let sector := logicalIndex (r.addressAt ord)
  match r.softTrack sector, k with
  | some _, .soft => s
  | none, .soft =>
    (s.recordOutcome r.pos r.drive t .soft).modRequest r.pos fun x =>
      { x with recordedSectors := (sector, t) :: x.recordedSectors }
  | some before, .hard =>
    (s.modDrive r.drive fun D => { D with health := takeBackSoft before D.health }).recordOutcome r.pos r.drive t .hard
  | none, .hard => s.recordOutcome r.pos r.drive t .hard

/-- The retry of the drive's waiting entries after an entry is removed, most recent first (R157). -/
def State.retryWaiting (s : State) (d : DriveId) : State :=
  (((s.drive d).health.filter (·.waiting)).map (·.track)).foldl (fun t track => t.judgeTrack d track) s

end Sys2Proof.Machine
end

