-- ==== Sys2Proof/Machine/Relocation.lean ====
section
/-! DEFINITION. The relocation unit: taking an entry, allocation, stages, the point between steps, suspension, restart,
commit, return and abort (R160 to R181), and eligibility (R72), which it asks about. -/

namespace Sys2Proof.Machine

/-! ### Eligibility -/

/-- The report test of R72: a host record not detached, whose port holds a report for its drive. -/
def State.reportHolds (s : State) (r : Record) : Bool :=
  match r.source with
  | .relocation => false
  | .port p => !r.detached && (s.reportOf p r.drive).isSome

/-- The moving-write test of R72, on the first track still to be transferred. -/
def State.movingHolds (s : State) (r : Record) : Bool :=
  r.kind == .write &&
    (match r.logicalTrack with
     | some t => s.movingWrite r.drive (homeOf t)
     | none => false)

/-- Whether a waiting record is eligible (R72). -/
def State.eligible (s : State) (r : Record) : Bool := !s.reportHolds r && !s.movingHolds r

/-- Whether the drive's queue holds an eligible host record (R73). -/
def State.hostWaits (s : State) (d : DriveId) : Bool :=
  (s.queue d).any fun r => !r.kind.isStep && s.eligible r

/-! ### Placing steps -/

/-- The record of a relocation step (R64, R69). -/
def stepRecord (pos : Nat) (q : StepRequest) : Record where
  pos := pos
  kind := .step q.kind q.stage
  source := .relocation
  tag := 0
  drive := q.drive
  extents := []
  target := some q.track
  done := 0
  bypass := 0
  late := 0
  missedReconnect := 0
  missedRev := 0
  soft := false
  cancel := false
  detached := false
  resetStop := false
  lossStop := false
  ended := false
  listed := true
  recordedSectors := []
  header := q.header
  snapshot := none
  state := .queued

/-- Whether the queue store can take a record into this drive's queue (R46, R69). -/
def State.hasRoom (s : State) (d : DriveId) : Bool :=
  s.records.length < Config.storeSize && s.queueCount d < Config.queueLimit

/-- Admits a step to its drive's queue (R69). -/
def State.admitStep (s : State) (q : StepRequest) : State :=
  { s with
    records := s.records ++ [stepRecord s.nextPos q]
    nextPos := s.nextPos + 1
    ru := { s.ru with step := .placed s.nextPos } }

/-- Hands a step to the queue store, which admits it or holds it as the waiting step (R69, R164). -/
def State.handStep (s : State) (q : StepRequest) : State :=
  if s.hasRoom q.drive then s.admitStep q else s.modRu fun u => { u with step := .waiting q }

/-- Admits the waiting step when both conditions hold (R69). -/
def State.admitWaiting (s : State) : State :=
  match s.ru.step with
  | .waiting q => if s.hasRoom q.drive then s.admitStep q else s
  | _ => s

/-- Kind of step a stage is carried out by (Table 9-2). -/
def Stage.stepKind : Stage → StepKind
  | .readSource | .readAlternate => .read
  | .writeTarget | .writeHome => .write
  | .verifyTarget | .verifyHome => .verify
  | .writeTargetHeader | .commitTarget | .discardOld | .rejectTarget | .releaseAlternate | .restoreHeader => .header

/-- Generation a commit records: the entry's plus one for a REPLACEMENT, 0 for a FORWARD (R168, R171). -/
def MapEntry.nextGeneration (e : MapEntry) : Byte :=
  if e.state == .moving .replacement then e.generation + 1 else 0

/-- Header that says UNUSABLE or FREE: link zero, generation 0 (R170, R172, R174). -/
def plainHeader (st : HeaderState) : Header := ⟨st, ⟨0, 0⟩, 0⟩

/-- Header a header stage writes (R168, R170, R171, R172, R174). -/
def Stage.headerFor (st : Stage) (e : MapEntry) : Option Header :=
  match st with
  | .writeTargetHeader => some ⟨.reserved, e.home, e.nextGeneration⟩
  | .commitTarget => some ⟨.alternate, e.home, e.nextGeneration⟩
  | .discardOld | .rejectTarget => some (plainHeader .unusable)
  | .releaseAlternate => some (plainHeader .free)
  | .restoreHeader => some ⟨.alternate, e.home, e.generation⟩
  | .readSource | .writeTarget | .verifyTarget | .readAlternate | .writeHome | .verifyHome => none

/-- Track a stage works on (Table 9-2). -/
def State.stageTrack (s : State) (e : MapEntry) : Stage → Option Track
  | .readSource => some e.serving
  | .writeTargetHeader | .writeTarget | .verifyTarget | .commitTarget => e.target
  | .discardOld | .rejectTarget => s.ru.spare
  | .readAlternate | .releaseAlternate | .restoreHeader => e.alternate
  | .writeHome | .verifyHome => some e.home

/-- The step of a stage for the entry in hand (R164). -/
def State.stepFor (s : State) (ref : EntryRef) (st : Stage) : Option StepRequest :=
  match s.entry? ref.drive ref.home with
  | none => none
  | some e => (s.stageTrack e st).map fun t => ⟨ref.drive, t, st.stepKind, st, st.headerFor e⟩

/-! ### The point between steps -/

/-- The NO-COPY flag of an entry's linked request; COPY when it has none (R142, R167). -/
def State.noCopy (s : State) (ref : EntryRef) : Bool :=
  match s.linkedOf ref.drive ref.home with
  | none => false
  | some pos =>
    match s.request? pos with
    | some r => r.kind == .mapChange .declare true
    | none => false

/-- Sixteen good entries of zero bytes (R166, R167). -/
def zeroBuffer : List BufEntry := List.replicate Config.sectors (.good zeroSector)

/-- READ-SOURCE comes next: a step under COPY, at once under NO-COPY (R167). -/
def State.toSource (s : State) (ref : EntryRef) : State :=
  if s.noCopy ref then
    { s with
      buffer := some zeroBuffer
      ru := { s.ru with stage := some .writeTargetHeader, step := .point, sourceRead := false } }
  else s.modRu fun u => { u with stage := some .readSource, step := .point }

/-- The restart check (R177): with the source-changed flag set the relocation starts again at its source read, but not
before REJECT-TARGET nor after a failed RELEASE-ALTERNATE. -/
def State.restartCheck (s : State) (ref : EntryRef) : State :=
  if s.ru.sourceChanged && s.ru.stage != some .rejectTarget && !s.ru.releaseFailed then
    let s := s.modRu fun u =>
      { u with
        restarts := satSucc Config.retryLimit u.restarts, sourceChanged := false, sourceRead := false, step := .point }
    if s.ru.direction == some .ret then s.modRu fun u => { u with stage := some .readAlternate } else s.toSource ref
  else s

/-- The progress timer has reached its interval (R175), whether or not the expiry has been taken as an event (log 3). -/
def ProgressTimer.over : ProgressTimer → Bool
  | .stopped => false
  | .running count interval => interval ≤ count
  | .expired => true

/-- The progress timer at an index event of the relocation's drive (R175): it counts up to its interval. -/
def ProgressTimer.tick : ProgressTimer → ProgressTimer
  | .running count interval => if interval ≤ count then .expired else .running (count + 1) interval
  | t => t

/-- The expiry of the progress timer (R175). -/
def ProgressTimer.expire : ProgressTimer → ProgressTimer
  | .running count interval => if interval ≤ count then .expired else .running count interval
  | t => t

/-- Both timers of the relocation record at an index event of its drive (R160). -/
def Relocation.tick (u : Relocation) : Relocation :=
  { u with progress := u.progress.tick, suspension := u.suspension.map (satSucc Config.suspensionLimit) }

/-- The three conditions of a suspension (R175). -/
def State.shouldSuspend (s : State) (d : DriveId) : Bool :=
  s.ru.progress.over && s.hostWaits d && s.ru.restarts < Config.retryLimit

/-- A host WRITE in progress on the drive whose path has entered a serving track of the entry (R177). -/
def State.writeEntered (s : State) (ref : EntryRef) : Bool :=
  allPaths.any fun k =>
    let P := s.path k
    P.service == some .hostWrite && P.drive == some ref.drive && P.holder.isSome
      && (s.drive ref.drive).active == P.holder && P.homes.contains ref.home

/-- A stage that is held back while such a WRITE is in progress (R177). -/
def Stage.isLastPoint : Stage → Bool
  | .commitTarget | .releaseAlternate => true
  | _ => false

/-- Places the step of the stage reached, unless the unit must stay at the point (R164, R177). -/
def State.placeNext (s : State) (ref : EntryRef) : State :=
  match s.ru.stage with
  | none => s
  | some st =>
    if st.isLastPoint && s.writeEntered ref then s
    else
      match s.stepFor ref st with
      | some q => s.handStep q
      | none => s

/-- The point between steps (R164): restart check, suspension check, next step. -/
def State.ruPoint (s : State) : State :=
  match s.ru.entry with
  | none => s
  | some ref =>
    let s := s.restartCheck ref
    if s.shouldSuspend ref.drive then s.modRu fun u => { u with state := .suspended, suspension := some 0 }
    else s.placeNext ref

/-- The unit goes on to a stage by way of the point between steps. -/
def State.toStage (s : State) (st : Stage) : State :=
  (s.modRu fun u => { u with stage := some st, step := .point }).ruPoint

/-- The unit becomes IDLE with its buffer empty (R160, R166). -/
def State.ruIdle (s : State) : State := { s with ru := Relocation.reset, buffer := none }

/-- Passes the held point again when nothing holds it any more (R177). -/
def State.passHeldPoint (s : State) : State :=
  match s.ru.state, s.ru.entry, s.ru.stage, s.ru.step with
  | .running, some ref, some st, .point => if st.isLastPoint && !s.writeEntered ref then s.ruPoint else s
  | _, _, _, _ => s

/-- A SUSPENDED relocation resumes (R176). -/
def State.resume (s : State) : State :=
  (s.modRu fun u =>
    { u with state := .running, suspension := none, progress := .running 0 s.params.progressInterval }).ruPoint

/-- Whether a SUSPENDED relocation is to resume: no eligible host record on its drive (R176). -/
def State.noHostWaits (s : State) : Bool :=
  match s.ru.entry with
  | some ref => !s.hostWaits ref.drive
  | none => false

/-- Whether the suspension timer has reached 16 revolutions (R176). -/
def State.suspensionOver (s : State) : Bool :=
  match s.ru.suspension with
  | some n => Config.suspensionLimit ≤ n
  | none => false

/-- The resume at the end of an event (R176). -/
def State.resumeIfDue (s : State) : State :=
  if s.ru.state == .suspended && (s.noHostWaits || s.suspensionOver) then s.resume else s

/-! ### Allocation and stalling -/

/-- The entry after its relocation stops short of commit: PENDING, or ACTIVE on its previous alternate (R131). -/
def MapEntry.backOut (e : MapEntry) : MapEntry :=
  match e.state with
  | .moving .forward => { e with state := .pending, target := none }
  | .moving .replacement => { e with state := .active, alternate := e.previous, previous := none, target := none }
  | .moving .ret => { e with state := .active, named := false }
  | .pending | .active => e

/-- The entry after an allocation (R131, R165). -/
def MapEntry.allocated (e : MapEntry) (t : Track) : MapEntry :=
  match e.state with
  | .pending => { e with state := .moving .forward, target := some t }
  | .active => { e with state := .moving .replacement, previous := e.alternate, alternate := none, target := some t }
  | .moving _ => { e with target := some t }

/-- The entry is marked stalled, its DECLARE ends NO SPARE, and the unit becomes IDLE (R165, R170). -/
def State.stallEntry (s : State) (ref : EntryRef) : State :=
  let link := s.linkedOf ref.drive ref.home
  (((s.modEntry ref.drive ref.home MapEntry.backOut).appendStalled ref).endLinked link .noSpare).ruIdle

/-- ALLOCATE (R137, R165): a FREE spare becomes IN USE and the entry's target, and `onward` follows; else the drive is
attended and the entry stalls. -/
def State.allocate (s : State) (ref : EntryRef) (onward : State → State) : State :=
  match chooseSpare ref.home (s.drive ref.drive).freeSpares with
  | some t => onward ((s.setSpare ref.drive t .inUse).modEntry ref.drive ref.home fun e => e.allocated t)
  | none => (s.attend ref.drive).stallEntry ref

/-! ### Taking an entry -/

/-- The first work-list entry whose drive is READY (R163). -/
def State.takable (s : State) : Option EntryRef := s.workList.find? fun r => (s.drive r.drive).state == .ready

/-- The record with which an entry is taken (R163). -/
def State.takenRecord (s : State) (ref : EntryRef) (dir : Direction) : Relocation :=
  { Relocation.reset with
    state := .running, entry := some ref, direction := some dir
    progress := .running 0 s.params.progressInterval }

/-- The unit takes an entry (R163). -/
def State.takeEntry (s : State) (ref : EntryRef) : State :=
  let s := { s with workList := s.workList.filter fun x => x != ref }
  match s.entry? ref.drive ref.home with
  | none => s
  | some e =>
    if e.state == .pending then
      ({ s with ru := s.takenRecord ref .forward }).allocate ref fun t => (t.toSource ref).ruPoint
    else if e.state == .active && e.replacement then
      ({ s with ru := s.takenRecord ref .replacement }).allocate ref fun t => (t.toSource ref).ruPoint
    else if e.state == .active && e.named then
      (({ s with ru := s.takenRecord ref .ret }).modEntry ref.drive ref.home fun x =>
        { x with state := .moving .ret }).toStage .readAlternate
    else s

/-- The unit looks at the work list while it is IDLE (R163); each look takes one entry off it. -/
def State.takeLoop : Nat → State → State
  | 0, s => s
  | n + 1, s =>
    if s.ru.state == .idle then
      match s.takable with
      | some ref => State.takeLoop n (s.takeEntry ref)
      | none => s
    else s

/-- The take at the end of an event (R163). -/
def State.takeNow (s : State) : State := State.takeLoop s.workList.length s

/-- The restore order is placed when its drive is READY (R179). -/
def State.placeRestore (s : State) : State :=
  match s.ru.state, s.ru.restore, s.ru.step with
  | .aborting, some o, .point =>
    if (s.drive o.drive).state == .ready then s.handStep ⟨o.drive, o.spare, .header, .restoreHeader, some o.header⟩
    else s
  | _, _, _ => s

/-! ### Completion of stages -/

/-- A target failure (R170): the target becomes UNUSABLE and REJECT-TARGET follows. -/
def State.targetFailure (s : State) (ref : EntryRef) : State :=
  let target := (s.entry? ref.drive ref.home).bind (·.target)
  let s := (s.setSpare? ref.drive target .unusable).modEntry ref.drive ref.home fun e => { e with target := none }
  (s.modRu fun u =>
    { u with verifyFailures := satSucc Config.retryLimit u.verifyFailures, spare := target }).toStage .rejectTarget

/-- The lost sectors of the buffer (R171). -/
def bufferLost (b : Option (List BufEntry)) : SectorSet := sectorsWhere (fun e => e == .lost) 0 (b.getD [])

/-- The entry at a commit (R131, R171). -/
def MapEntry.committed (e : MapEntry) (lost : SectorSet) : MapEntry :=
  { e with
    state := .active, alternate := e.target, target := none, previous := none
    generation := e.nextGeneration, lost := lost
    replacement := if e.state == .moving .replacement then false else e.replacement }

/-- COMMIT-TARGET completes (R171). -/
def State.commit (s : State) (ref : EntryRef) : State :=
  match s.entry? ref.drive ref.home with
  | none => s.ruIdle
  | some e =>
    let lost := bufferLost s.buffer
    let s := (s.modEntry ref.drive ref.home fun x => x.committed lost).setSpare? ref.drive e.previous .unusable
    let s := (({ s with buffer := none }).endLinked e.linked .complete).attend ref.drive
    if e.state == .moving .replacement then
      (s.modRu fun u => { u with spare := e.previous }).toStage .discardOld
    else s.ruIdle

/-- A return is abandoned (R173, R174). -/
def State.abandonReturn (s : State) (ref : EntryRef) : State :=
  let link := s.linkedOf ref.drive ref.home
  (((s.modEntry ref.drive ref.home MapEntry.backOut).attend ref.drive).endLinked link .returnFailed).ruIdle

/-- The drive's stalled entries lose the mark and rejoin the work list in their order (R162). -/
def State.rejoinStalled (s : State) (d : DriveId) : State :=
  let back := s.stalled.filter fun r => r.drive == d
  back.foldl (fun t r => t.appendWork r) { s with stalled := s.stalled.filter fun r => r.drive != d }

/-- RELEASE-ALTERNATE completes (R174). -/
def State.releaseAlternate (s : State) (ref : EntryRef) : State :=
  match s.entry? ref.drive ref.home with
  | none => s.ruIdle
  | some e =>
    let s := (s.removeEntry ref.drive ref.home).setSpare? ref.drive e.alternate .free
    let s := (({ s with buffer := none }).endLinked e.linked .complete).attend ref.drive
    ((s.rejoinStalled ref.drive).retryWaiting ref.drive).ruIdle

/-- REJECT-TARGET completes, whatever its result (R170). -/
def State.rejectDone (s : State) (ref : EntryRef) : State :=
  if s.ru.verifyFailures < Config.retryLimit then
    s.allocate ref fun t => t.toStage .writeTargetHeader
  else
    let s := match s.entry? ref.drive ref.home with
      | some e => if e.origin == Origin.automatic || e.state == EntryState.moving .replacement then s.attend ref.drive else s
      | none => s
    s.stallEntry ref

/-- A header step's result is handed to the unit (R97, R168 to R174, R179). -/
def State.headerResult (s : State) (ok : Bool) : State :=
  match s.ru.state, s.ru.entry, s.ru.stage with
  | .aborting, _, _ => s.ruIdle
  | _, some ref, some .writeTargetHeader => if ok then s.toStage .writeTarget else s.targetFailure ref
  | _, some ref, some .commitTarget => if ok then s.commit ref else s.targetFailure ref
  | _, some _, some .discardOld => s.ruIdle
  | _, some ref, some .rejectTarget => s.rejectDone ref
  | _, some ref, some .releaseAlternate =>
    if ok then s.releaseAlternate ref
    else (s.modRu fun u => { u with releaseFailed := true }).toStage .restoreHeader
  | _, some ref, some .restoreHeader => s.abandonReturn ref
  | _, _, _ => s

/-- A track read step hands over the buffer's entries (R167). -/
def State.readResult (s : State) (entries : List BufEntry) : State :=
  match s.ru.entry, s.ru.stage with
  | some _, some .readSource =>
    ({ s with buffer := some entries, ru := { s.ru with sourceRead := true } }).toStage .writeTargetHeader
  | some ref, some .readAlternate =>
    let lost := bufferLost (some entries)
    (({ s with buffer := some entries, ru := { s.ru with sourceRead := true } }).modEntry ref.drive ref.home fun e =>
      { e with lost := e.lost ||| lost }).toStage .writeHome
  | _, _ => s

/-- A track write step completes (R168, R173). -/
def State.writeResult (s : State) : State :=
  match s.ru.stage with
  | some .writeTarget => s.toStage .verifyTarget
  | some .writeHome => s.toStage .verifyHome
  | _ => s

/-- A verify passes when every sector is CLEAN and its LOST flag is as the set expects (R169). -/
def verifyPasses (expected : SectorSet) (outcomes : List Outcome) : Bool :=
  (List.range Config.sectors).all fun i =>
    outcomes.getD i .identMismatch == .clean (expected.getLsbD i)

/-- A track verify step's outcomes are judged (R169, R170, R173). -/
def State.verifyResult (s : State) (outcomes : List Outcome) : State :=
  match s.ru.entry, s.ru.stage with
  | some ref, some .verifyTarget =>
    if verifyPasses (bufferLost s.buffer) outcomes then s.toStage .commitTarget else s.targetFailure ref
  | some ref, some .verifyHome =>
    match s.entry? ref.drive ref.home with
    | some e => if verifyPasses e.lost outcomes then s.toStage .releaseAlternate else s.abandonReturn ref
    | none => s
  | _, _ => s

/-- What a track write step records: LOST flag and data of each sector (R7, R124). -/
def State.trackImage (s : State) (st : Stage) : List (Bool × List Byte) :=
  let lost : SectorSet :=
    match st, s.ru.entry with
    | .writeHome, some ref => ((s.entry? ref.drive ref.home).map (·.lost)).getD 0
    | _, _ => bufferLost s.buffer
  (List.range Config.sectors).map fun i =>
    if lost.getLsbD i then (true, zeroSector)
    else
      match (s.buffer.getD []).getD i .lost with
      | .good b => (false, b)
      | .lost => (false, zeroSector)

/-! ### Notices and aborts -/

/-- Whether a notice still sets the source-changed flag: the last point of return is not passed (R177); a RETURN at
RESTORE-HEADER has not completed RELEASE-ALTERNATE (R178). -/
def Relocation.noticeOpen (u : Relocation) : Bool :=
  u.sourceRead &&
    (match u.direction, u.stage with
     | some .ret, some _ => true
     | some _, some .discardOld => false
     | some _, some .commitTarget => u.step == .point
     | some _, some _ => true
     | _, _ => false)

/-- The notice of a sector written by a host WRITE on a track entered for this home (R108, R177). -/
def State.notice (s : State) (d : DriveId) (home : Track) : State :=
  if s.inHand d home && s.ru.noticeOpen then s.modRu fun u => { u with sourceChanged := true } else s

/-- The unit's step is removed without completion (R16, R17, R178). -/
def State.removeStep (s : State) : State :=
  let s := match s.ru.step with
    | .placed pos => s.stopRequest pos
    | _ => s
  s.modRu fun u => { u with step := .point }

/-- Whether the placed step holds a data path. -/
def State.stepHoldsPath (s : State) : Bool :=
  match s.ru.step with
  | .placed pos => (s.pathOf pos).isSome
  | _ => false

/-- The restore order an abort leaves, when the cut-off header write makes one due (R178, R179). -/
def State.restoreAfter (s : State) (ref : EntryRef) (e : MapEntry) : Option RestoreOrder :=
  if s.stepHoldsPath then
    match s.ru.stage with
    | some .commitTarget => e.target.map fun t => ⟨ref.drive, t, plainHeader .free⟩
    | some .releaseAlternate | some .restoreHeader =>
      e.alternate.map fun t => ⟨ref.drive, t, ⟨.alternate, e.home, e.generation⟩⟩
    | _ => none
  else none

/-- The entry, the pool and the linked request after an abort by FAULTED (table of R178). -/
def State.abortEntry (s : State) (ref : EntryRef) (e : MapEntry) : State :=
  match e.state with
  | .moving .forward =>
    ((s.setSpare? ref.drive e.target .free).modEntry ref.drive ref.home MapEntry.backOut).frontWork ref
  | .moving .replacement =>
    (((s.setSpare? ref.drive e.target .free).modEntry ref.drive ref.home MapEntry.backOut).frontWork ref).attend ref.drive
  | .moving .ret =>
    ((s.modEntry ref.drive ref.home MapEntry.backOut).endLinked e.linked .driveFault).attend ref.drive
  | .pending | .active => s

/-- Abort by the drive entering FAULTED (R178, R179). -/
def State.abortFaulted (s : State) (d : DriveId) : State :=
  match s.ru.entry, s.ru.restore with
  | some ref, _ =>
    if ref.drive == d then
      match s.entry? ref.drive ref.home with
      | none => s.removeStep.ruIdle
      | some e =>
        let order := s.restoreAfter ref e
        let s := (s.removeStep.abortEntry ref e).ruIdle
        match order with
        | some o => s.modRu fun u => { u with state := .aborting, stage := some .restoreHeader, restore := some o }
        | none => s
    else s
  | none, some o => if o.drive == d then s.removeStep else s
  | none, none => s

/-- Abort by the drive entering NOT-READY (R180). -/
def State.abortNotReady (s : State) (d : DriveId) : State :=
  match s.ru.entry, s.ru.restore with
  | some ref, _ => if ref.drive == d then s.removeStep.ruIdle else s
  | none, some o => if o.drive == d then s.removeStep.ruIdle else s
  | none, none => s

end Sys2Proof.Machine
end

