-- ==== Sys2Proof/Machine/Scheduler.lean ====
section
/-! DEFINITION. The access scheduler: access cost, choice and its effects (R74 to R82). -/

namespace Sys2Proof.Machine

/-- Seek time read from a curve from one breakpoint on (R77). -/
def curveTime : List (Nat × Nat) → Nat → Nat
  | [], _ => 0
  | (d0, t0) :: rest, dist =>
    match rest with
    | [] => t0
    | (d1, t1) :: _ => if dist < d1 then t0 + (dist - d0) * (t1 - t0) / (d1 - d0) else curveTime rest dist

/-- Stage 2: seek time T for a distance (R77). -/
def seekTime (ty : DriveType) (dist : Nat) : Nat := if dist == 0 then 0 else curveTime ty.curve dist

/-- Wait rules of R76. -/
inductive WaitRule where
  | sector (slot lead : Nat)
  | boundary
  | none
  deriving DecidableEq, Repr

/-- Stage 3: ready slot (R78). -/
def readySlot (rpc time : Nat) : Nat := (rpc + 1 + time) % Config.slots

/-- Stage 4: rotational wait (R78), mod results in 0..63. -/
def rotationalWait (ready : Nat) : WaitRule → Nat
  | .sector slot lead => (slot % Config.slots + 2 * Config.slots - ready % Config.slots - lead % Config.slots) % Config.slots + lead
  | .boundary => (4 - ready % 4) % 4
  | .none => 0

/-- Stage 5: raw cost C (R78). -/
def rawCost (ty : DriveType) (rpc c0 c : Nat) (w : WaitRule) : Nat :=
  let t := seekTime ty (distance c c0)
  1 + t + rotationalWait (readySlot rpc t) w

/-- Whether a target lies against the sweep (R79). -/
def againstSweep (sw : Sweep) (c0 c : Nat) : Bool :=
  match sw with
  | .inward => c < c0
  | .outward => c0 < c

/-- Stage 6: reversal penalty (R79). -/
def penalised (sw : Sweep) (h c0 c raw : Nat) : Nat := if againstSweep sw c0 c then raw + h else raw

/-- Stages 7 and 8: aging and class (R80). -/
def finalCost (k b : Nat) (isStep : Bool) : Nat :=
  let e := k * (16 - min b 8) / 16
  if isStep then 2 * e else e

/-- Target track and wait rule of a record (table of R76). -/
def State.targetOf (s : State) (r : Record) : Track × WaitRule :=
  match r.kind with
  | .calibrate => (⟨0, 0⟩, .none)
  | .step .header _ => (r.target.getD ⟨0, 0⟩, .sector 0 0)
  | .step _ _ => (r.target.getD ⟨0, 0⟩, .boundary)
  | .position => (s.serving r.drive (homeOf (r.target.getD ⟨0, 0⟩)), .none)
  | .mapChange _ _ => (r.target.getD ⟨0, 0⟩, .none)
  | .read | .write | .verify =>
    let a := r.addressAt r.done
    (s.serving r.drive (homeOf (trackOf a)), .sector (4 * a.sector) (if r.kind == .write then 8 else 0))

/-- Final cost of a record on its drive (R76 to R80). -/
def State.costOf (s : State) (r : Record) : Nat :=
  let D := s.drive r.drive
  let t := s.targetOf r
  let c0 := D.cyl.getD 0
  let raw := rawCost (D.type.getD .type1) D.rpc c0 t.1.cyl t.2
  finalCost (penalised D.sweep s.params.reversal c0 t.1.cyl raw) r.bypass r.kind.isStep

/-- Stage 9: the choice among eligible records (R81). -/
def State.pick (s : State) (eligible : List Record) : Option Record :=
  match leastBy (fun r => (r.pos, 0)) (eligible.filter fun r => Config.bypassLimit ≤ r.bypass) with
  | some r => some r
  | none => leastBy (fun r => (s.costOf r, r.pos)) eligible

/-- Stage 10: sweep after a choice (R82). -/
def sweepAfter (sw : Sweep) (c0 c : Nat) : Sweep := if c0 < c then .inward else if c < c0 then .outward else sw

/-- A record after a choice: the chosen one SEEKING, the others judged with it passed over once more (R75, R82). -/
def Record.afterChoice (chosen : Nat) (passed : List Nat) (x : Record) : Record :=
  if x.pos == chosen then { x with state := .seeking }
  else if passed.contains x.pos then { x with bypass := satSucc Config.bypassLimit x.bypass }
  else x

/-- The choice committed (R75, R82, R87): the chosen record SEEKING and handed to the adapter, the others' bypass counts
raised, the sweep turned. -/
def State.commitChoice (s : State) (d : DriveId) (eligible : List Record) (r : Record) : State :=
  let target := (s.targetOf r).1
  let passed := eligible.map fun x => x.pos
  let s := { s with records := s.records.map (Record.afterChoice r.pos passed) }
  s.modDrive d fun D =>
    { D with
      active := some r.pos, phase := .setup, target := some target, mismatch := 0
      confirm := none, due := none, sweep := sweepAfter D.sweep (D.cyl.getD 0) target.cyl }

/-- The choice for a drive at the end of an event, if the conditions of R74 hold. -/
def State.chooseFor (s : State) (d : DriveId) : State :=
  let D := s.drive d
  if D.state == .ready && D.active.isNone then
    let eligible := (s.queue d).filter s.eligible
    match s.pick eligible with
    | some r => s.commitChoice d eligible r
    | none => s
  else s

/-- The choices of all drives. -/
def State.chooseAll (s : State) : State := allDrives.foldl State.chooseFor s

end Sys2Proof.Machine
end

