-- ==== Sys2Proof/Machine/Transfer.lean ====
section
/-! DEFINITION. The data path at work for a host: track entry, sector starts and endings, the recovery ladder, data late,
bytes from and to the port (R105 to R119, R125), and the passes of relocation steps (R122 to R124). -/

namespace Sys2Proof.Machine

/-! ### Track entry -/

/-- Head select (R10): it releases any offset. -/
def State.selectHead (s : State) (d : DriveId) (h : Nat) : State :=
  s.modDrive d fun D => { D with head := h, offset := .off }

/-- The path enters a track on the current cylinder (R107). -/
def State.markEntered (s : State) (k : PathId) (e : Entered) : State :=
  s.modPath k fun P => { P with entered := some e, homes := e.home :: P.homes }

/-- What an entry would find: the track and its serving track (R107, R134). -/
def State.entryFor (s : State) (d : DriveId) (extent : Nat) (a : SectorAddr) : Entered :=
  let home := homeOf (trackOf a)
  ⟨extent, trackOf a, home, s.serving d home⟩

/-- Whether a sector lies on the track entered, in the same extent (R107). -/
def Entered.covers (e : Entered) (extent : Nat) (a : SectorAddr) : Bool :=
  e.extent == extent && e.logical == trackOf a

/-- A READ or VERIFY enters the track of its sector number `ord` (R107, R108): head select as needed, or, for another
cylinder, the path finishes with the current one (R109). -/
def State.enterForReading (s : State) (k : PathId) (r : Record) (ord : Nat) : State :=
  match r.sectorAt ord with
  | none => s
  | some (x, a) =>
    let e := s.entryFor r.drive x a
    let D := s.drive r.drive
    if D.cyl == some e.serving.cyl then
      let s := if D.head == e.serving.head then s else s.selectHead r.drive e.serving.head
      s.markEntered k e
    else if (s.path k).fifo.isEmpty then s.releaseAndReturn k
    else s.modPath k fun P => { P with leaving := true }

/-! ### Endings -/

/-- A READ reaches its ending: the cause is held, the images not COMPLETE are dropped, and with none left the request
ends in the event (R113). A record PAUSED by data late is TRANSFERRING while its images are delivered (log 48). -/
def State.holdEnding (s : State) (k : PathId) (r : Record) (h : Held) : State :=
  let s := (s.modPath k fun P =>
    { P with
      ending := some h, reading := none, ladder := none, fifo := P.fifo.filter fun i => i.cond == .complete }).modRequest
    r.pos fun x => { x with state := .transferring }
  if (s.path k).fifo.isEmpty then s.endRequest r.pos (s.infoHeld r h) else s

/-- One more sector of a request is transferred (R106). -/
def Record.transferOne (r : Record) : Record := { r with done := r.done + 1 }

/-- A sector's final outcome ends a transfer: a READ holds the cause, a VERIFY ends, its sector judged and so transferred
(R106, R113, R115, R119; log 43). -/
def State.reachEnding (s : State) (k : PathId) (r : Record) (h : Held) : State :=
  if (s.path k).service == some .hostRead then s.holdEnding k r h
  else (s.modRequest r.pos Record.transferOne).endRequest r.pos (s.infoHeld r.transferOne h)

/-- COMPLETE, or COMPLETE RECOVERED with the soft-recovery flag (R113). -/
def Record.goodEnding (r : Record) : Status := if r.soft then .completeRecovered else .complete

/-! ### Sector starts -/

/-- The sector number the path serves next (R110, R114, R117, R119). -/
def Path.nextOrd (P : Path) (r : Record) : Nat :=
  match P.ladder with
  | some (o, _) => o
  | none => if P.service == some .hostRead then r.done + P.fifo.length else r.done

/-- Data late (R112, R117): the late count rises and the record pauses; the fifth ends the request PORT TOO SLOW. -/
def State.dataLate (s : State) (k : PathId) (r : Record) (ord : Nat) : State :=
  let P := s.path k
  if P.late < Config.lateLimit then
    (s.modPath k fun P => { P with late := P.late + 1 }).modRequest r.pos fun x => { x with state := .paused }
  else
    let h : Held := ⟨.portTooSlow, ord, 0, P.servingOf ord (trackOf (r.addressAt ord))⟩
    if P.service == some .hostRead then s.holdEnding k r h else s.endRequest r.pos (s.infoHeld r h)

/-- A new read image, reserving its bytes (R105, R110). -/
def readImage (ord : Nat) (a : SectorAddr) (e : Entered) : Image :=
  ⟨ord, logicalIndex a, a.sector, e.home, e.serving, .inFlight, []⟩

/-- The read of a sector begins: gate open, record TRANSFERRING (R110, R114, R119). -/
def State.beginRead (s : State) (k : PathId) (r : Record) (ord : Nat) : State :=
  ((s.modPath k fun P => { P with reading := some ord }).modDrive r.drive fun D =>
    { D with readGate := true }).modRequest r.pos fun x => { x with state := .transferring }

/-- A HOST READ decides the sector whose slot begins (R110, R112, R114). -/
def State.startRead (s : State) (k : PathId) (r : Record) (ord : Nat) (a : SectorAddr) (e : Entered) : State :=
  let P := s.path k
  if P.ladder.isSome then
    (s.modPath k fun P =>
      { P with fifo := P.fifo.map fun i => if i.ord == ord then { i with cond := .inFlight } else i }).beginRead k r ord
  else if P.byteCount + Config.sectorBytes ≤ Config.fifoBytes then
    (s.modPath k fun P => { P with fifo := P.fifo ++ [readImage ord a e] }).beginRead k r ord
  else s.dataLate k r ord

/-- A HOST WRITE decides the sector whose slot begins (R117): one whose image is not there is late, even where its track is
not yet entered (log 49). -/
def State.startWrite (s : State) (k : PathId) (r : Record) (ord : Nat) : State :=
  match (s.path k).fifo with
  | i :: rest =>
    if i.ord == ord && i.cond == .full then
      ((s.modPath k fun P => { P with fifo := { i with cond := .writing } :: rest }).modDrive r.drive fun D =>
        { D with
          writeGate := true
          recorded := some (.sector (recordedIdent i.serving i.sector false) i.bytes) }).modRequest r.pos fun x =>
            { x with state := .transferring }
    else if i.cond == .writing then s
    else s.dataLate k r ord
  | [] => s.dataLate k r ord

/-- A host path decides the sector that starts at this boundary, if it is the next the request needs (R110, R117, R119). -/
def State.startSector (s : State) (k : PathId) : State :=
  let P := s.path k
  match P.holder, P.drive, P.entered with
  | some pos, some d, some e =>
    match s.request? pos with
    | none => s
    | some r =>
      let ord := P.nextOrd r
      match r.sectorAt ord with
      | none => s
      | some (_, a) =>
        if r.ended || P.ending.isSome || P.reading.isSome || (s.drive d).rpc != 4 * a.sector then s
        else
          match P.service with
          | some .hostRead => if P.leaving then s else s.startRead k r ord a e
          | some .hostVerify => s.beginRead k r ord
          | some .hostWrite =>
            if P.flowFrom.isSome || (P.leaving && P.fifo.isEmpty) then s else s.startWrite k r ord
          | _ => s
  | _, _, _ => s

/-! ### Sector endings of READ and VERIFY -/

/-- The image of a sector made COMPLETE (R110). -/
def Path.completeImage (P : Path) (ord : Nat) (bytes : List Byte) : Path :=
  { P with fifo := P.fifo.map fun i => if i.ord == ord then { i with cond := .complete, bytes := bytes } else i }

/-- After a good sector that was not the last: the next track is entered if the next sector needs it, and the next sector
starts if its slot begins here (R107, R108, R110). -/
def State.goOn (s : State) (k : PathId) (pos : Nat) : State :=
  match s.request? pos, (s.path k).entered with
  | some r, some e =>
    let ord := (s.path k).nextOrd r
    match r.sectorAt ord with
    | none => s
    | some (x, a) =>
      let s := if e.covers x a then s else s.enterForReading k r ord
      if (s.path k).holder == some pos then s.startSector k else s
  | _, _ => s

/-- A sector read well: soft outcome recorded, image COMPLETE or sector transferred, ending after the last (R115, R119). -/
def State.goodSector (s : State) (k : PathId) (r : Record) (ord : Nat) (soft : Bool) (serving : Track)
    (bytes : List Byte) : State :=
  let s := if soft then
      (s.recordOnce r ord serving .soft).modRequest r.pos fun x => { x with soft := true }
    else s
  let r := { r with soft := r.soft || soft }
  let s := if (s.path k).ladder.isSome then
      (s.giveOffset r.drive .off).modPath k fun P => { P with ladder := none }
    else s
  let isRead := (s.path k).service == some .hostRead
  let s := if isRead then s.modPath k fun P => P.completeImage ord bytes
    else s.modRequest r.pos Record.transferOne
  if ord + 1 == r.total then
    if isRead then s.holdEnding k r ⟨r.goodEnding, ord, 0, some serving⟩ else s.endHere r.pos r.goodEnding
  else s

/-- A failed attempt: the next attempt is named and the record pauses, or after the seventh the hard outcome is recorded
and the request reaches UNCORRECTABLE (R114, R115). The next attempt's offset is given in this event (log 56). -/
def State.failedAttempt (s : State) (k : PathId) (r : Record) (ord attempt : Nat) (serving : Track) : State :=
  if attempt < Config.attempts then
    ((s.modPath k fun P =>
      { P with
        ladder := some (ord, attempt + 1)
        fifo := P.fifo.map fun i => if i.ord == ord then { i with cond := .reserved } else i }).giveOffset r.drive
      (attemptOffset (attempt + 1))).modRequest r.pos fun x => { x with state := .paused }
  else
    let s := (s.recordOnce r ord serving .hard).giveOffset r.drive .off
    s.reachEnding k r ⟨.uncorrectable, ord, Config.attempts, some serving⟩

/-- What a sector's outcome does to the request (R110, R113 to R115). -/
def State.takeOutcome (s : State) (k : PathId) (r : Record) (ord attempt : Nat) (serving : Track) (o : Outcome)
    (bytes : List Byte) : State :=
  if o.lost then (s.giveOffset r.drive .off).reachEnding k r ⟨.dataLost, ord, attempt, some serving⟩
  else
    match o with
    | .clean _ => s.goodSector k r ord (attempt != 1) serving bytes
    | .corrected _ => s.goodSector k r ord true serving bytes
    | _ => s.failedAttempt k r ord attempt serving

/-- After a sector's ending boundary a stop the request carries takes effect (R125), unless the request has ended or, for a
CANCEL, has reached an ending of its own (R56); else it goes on after a good sector. -/
def State.afterSector (s : State) (k : PathId) (pos : Nat) (good : Bool) : State :=
  match s.request? pos with
  | none => s
  | some r =>
    if r.ended || (s.path k).holder != some pos then s
    else
      match r.stop? (s.path k).ending.isSome with
      | some c => s.stopBy pos c
      | none => if good && (s.path k).ending.isNone then s.goOn k pos else s

/-- The outcome of the sector a host READ or VERIFY has in flight, at its ending boundary (R110, R119). -/
def State.sectorOutcome (s : State) (d : DriveId) (sr : SectorRead) : State :=
  match s.pathOnDrive d with
  | none => s
  | some k =>
    let P := s.path k
    match P.holder, P.reading, P.entered with
    | some pos, some ord, some e =>
      match s.request? pos with
      | none => s
      | some r =>
        match r.sectorAt ord with
        | none => s
        | some (_, a) =>
          if (s.drive d).rpc != (4 * a.sector + 4) % Config.slots then s
          else
            let o := judgeRead e.serving a.sector sr
            let attempt := match P.ladder with
              | some (_, n) => n
              | none => 1
            let s := (s.modPath k fun P => { P with reading := none }).closeGates d
            (s.takeOutcome k r ord attempt e.serving o (wholeSector sr.bytes)).afterSector k pos (o.good && !o.lost)
    | _, _, _ => s

/-- A connected READ with no COMPLETE and no IN FLIGHT image: it ends with its held cause, leaves its cylinder, or
disconnects (R109, R111, R113). -/
def State.readDrain (s : State) (k : PathId) : State :=
  let P := s.path k
  match P.holder, P.port with
  | some pos, some p =>
    match s.request? pos with
    | none => s
    | some r =>
      if P.service == some .hostRead && P.conn == .connected && !r.ended && (s.port p).connectedTo k
          && P.fifo.all fun i => i.cond == .reserved then
        match P.ending with
        | some h => s.endRequest pos (s.infoHeld r h)
        | none =>
          if P.leaving then s.releaseAndReturn k
          else (s.disconnect k).modPath k fun P => { P with conn := .none }
      else s
  | _, _ => s

/-- Both paths' draining. -/
def State.drainAll (s : State) : State := allPaths.foldl State.readDrain s

/-- The host takes a read data byte from the oldest COMPLETE image (R111); with the image's last byte its sector is
transferred (R106). The identifier counts as sent with the first data byte (log 47); `dataOut` keeps the byte (log 53). -/
def State.takeReadByte (s : State) (p : PortId) : State :=
  match (s.port p).dataConn with
  | some (k, none) =>
    let P := s.path k
    if P.service == some .hostRead then
      match P.fifo, P.holder with
      | i :: rest, some pos =>
        match i.cond, i.bytes with
        | .complete, b :: bs =>
          let s := s.modPort p fun Q => { Q with dataOut := some (withParity b), sending := [] }
          if bs.isEmpty then
            (s.modPath k fun P => { P with fifo := rest }).modRequest pos Record.transferOne
          else s.modPath k fun P => { P with fifo := { i with bytes := bs } :: rest }
        | _, _ => s
      | _, _ => s
    else s
  | _ => s

/-! ### Writing for a host -/

/-- Whether the last image is still FILLING. -/
def Path.fillingOrd (P : Path) : Option Nat :=
  match P.fifo.getLast? with
  | some i => if i.cond == .filling then some i.ord else none
  | none => none

/-- The path has taken its last byte of the grant and disconnects (R116). -/
def State.endTaking (s : State) (k : PathId) : State :=
  (s.disconnect k).modPath k fun P => { P with conn := .none, takenAll := true }

/-- A WRITE leaves its cylinder: no byte of the entered track is taken, the path disconnects, and is released at once if no
image is left to write (R108, R109). -/
def State.leaveForWriting (s : State) (k : PathId) : State :=
  let s := (s.endTaking k).modPath k fun P => { P with leaving := true }
  if (s.path k).fifo.isEmpty then s.releaseAndReturn k else s

/-- PORT PARITY (R34, R118): the request ends, the status is presented at once, the images of the bad byte's sector and of
later ones are discarded; a sector WRITING is carried on with the path and the drive's request in progress held. -/
def State.portParity (s : State) (k : PathId) (r : Record) (ord : Nat) : State :=
  let P := s.path k
  let info := s.infoFor r .portParity ord ord 0 (P.servingOf ord (trackOf (r.addressAt ord)))
  let kept := P.fifo.filter fun i => i.ord < ord
  if kept.any fun i => i.cond == .writing then
    (s.modPath k fun P => { P with fifo := kept.filter fun i => i.cond == .writing }).issueStatus r.pos info
  else s.endRequest r.pos info

/-- A byte joins the image of its sector (R105). -/
def addByte (b : Byte) (ord : Nat) (fifo : List Image) : List Image :=
  fifo.map fun i =>
    if i.ord == ord then
      let bytes := i.bytes ++ [b]
      { i with bytes := bytes, cond := if bytes.length < Config.sectorBytes then .filling else .full }
    else i

/-- The byte is taken: a bad one ends the request, a good one joins its image, and after the last byte of the request the
path disconnects (R34, R116). `byteTaken` then stands as the outcome of the handshake (log 53). -/
def State.storeWriteByte (s : State) (p : PortId) (k : PathId) (r : Record) (ord : Nat) (lb : LineByte) : State :=
  let s := s.modPort p fun Q => { Q with byteTaken := true }
  if parityOk lb then
    let s := s.modPath k fun P => { P with fifo := addByte lb.byte ord P.fifo }
    if (s.path k).fillingOrd.isNone && ord + 1 == r.total then s.endTaking k else s
  else s.portParity k r ord

/-- A new write image (R105). -/
def writeImage (ord : Nat) (a : SectorAddr) (e : Entered) : Image :=
  ⟨ord, logicalIndex a, a.sector, e.home, e.serving, .filling, []⟩

/-- A WRITE enters the track of a sector whose first byte the host offers, or of its position at the grant (R107, R108):
`none` when the path must leave the cylinder or the track is held back. With no image held, the boundary at which R108
selects the next head has passed, and the head is selected at the entry (log 55). -/
def State.enterForWriting (s : State) (k : PathId) (r : Record) (extent : Nat) (a : SectorAddr) : Option State :=
  let e := s.entryFor r.drive extent a
  let D := s.drive r.drive
  if D.cyl == some e.serving.cyl && !s.movingWrite r.drive e.home then
    let s := if (s.path k).fifo.isEmpty && D.head != e.serving.head then s.selectHead r.drive e.serving.head else s
    some (s.markEntered k e)
  else none

/-- The first byte of a sector's image: the track is entered if need be, and the image begun (R108, R116). -/
def State.firstByte (s : State) (p : PortId) (k : PathId) (r : Record) (ord : Nat) (lb : LineByte) : State :=
  match r.sectorAt ord, (s.path k).entered with
  | some (x, a), some e =>
    let entered := if e.covers x a then some s else s.enterForWriting k r x a
    match entered with
    | none => s.leaveForWriting k
    | some s =>
      let e := ((s.path k).entered).getD e
      (s.modPath k fun P => { P with fifo := P.fifo ++ [writeImage ord a e] }).storeWriteByte p k r ord lb
  | _, _ => s

/-- A write data byte from the host (R116): taken while the FIFO has room and bytes remain to be taken; else not taken. The
identifier stands in `sending` until the connection ends (log 47). -/
def State.giveWriteByte (s : State) (p : PortId) (lb : LineByte) : State :=
  let s := s.modPort p fun Q => { Q with byteTaken := false }
  match (s.port p).dataConn with
  | some (k, none) =>
    let P := s.path k
    match P.holder with
    | none => s
    | some pos =>
      match s.request? pos with
      | none => s
      | some r =>
        if P.service == some .hostWrite && !r.ended && !P.takenAll && P.byteCount < Config.fifoBytes then
          match P.fillingOrd with
          | some ord => s.storeWriteByte p k r ord lb
          | none => s.firstByte p k r (r.done + P.fifo.length) lb
        else s
  | _ => s

/-- The sector leaves the lost-sector set of the entry whose alternate, or previous alternate, was written (R117). -/
def State.clearLost (s : State) (d : DriveId) (serving : Track) (sector : Nat) : State :=
  match s.entryOnSpare d serving with
  | none => s
  | some e => s.modEntry d e.home fun x => { x with lost := setErase x.lost sector }

/-- Head select for the track of the oldest image, at the boundary ending the last sector of the track before (R108). -/
def State.headForNext (s : State) (k : PathId) (d : DriveId) : State :=
  match (s.path k).fifo with
  | i :: _ => if (s.drive d).head == i.serving.head then s else s.selectHead d i.serving.head
  | [] => s

/-- A status in presentation on a path goes on in the port alone (R118; log 11). -/
def Port.part (P : Port) (k : PathId) : Port :=
  match P.state with
  | .connected (.data j (some e)) => if j == k then { P with state := .connected (.parting e) } else P
  | _ => P

/-- After the last sector of a WRITE that has ended PORT PARITY: the drive is free and the path is released, though its status
may still be in presentation (R118; log 11). -/
def State.finishParity (s : State) (k : PathId) (d : DriveId) : State :=
  let P := s.path k
  let s := s.modDrive d fun D =>
    if D.active == P.holder then { D.clearPositioning with active := none } else D
  let s := { s with overdue := s.overdue.filter fun x => some x != P.holder }
  match P.port with
  | some p => (s.modPort p fun Q => Q.part k).releasePath k
  | none => s.releasePath k

/-- After a sector of a WRITE in progress has ended: its stop, its ending, its leaving, or the next sector (R117, R118). -/
def State.afterWrite (s : State) (k : PathId) (d : DriveId) (r : Record) : State :=
  match r.stop? (r.done == r.total) with
  | some c => s.stopBy r.pos c
  | none =>
    if r.done == r.total then s.endHere r.pos .complete
    else if (s.path k).leaving && (s.path k).fifo.isEmpty then s.releaseAndReturn k
    else (s.headForNext k d).startSector k

/-- A host WRITE's sector ends at its ending boundary (R117): its bytes leave the FIFO, it is transferred, the lost-sector
set and the relocation notice follow. -/
def State.writeSectorEnd (s : State) (d : DriveId) : State :=
  match s.pathOnDrive d with
  | none => s
  | some k =>
    let P := s.path k
    match P.fifo, P.holder with
    | i :: rest, some pos =>
      if i.cond != .writing || (s.drive d).rpc != (4 * i.sector + 4) % Config.slots then s
      else
        let s := (((s.modPath k fun P => { P with fifo := rest }).closeGates d).clearLost d i.serving i.sector).notice d
          i.home
        match s.request? pos with
        | none => s.finishParity k d
        | some r =>
          if r.ended then s.finishParity k d
          else (s.modRequest pos Record.transferOne).afterWrite k d r.transferOne
    | _, _ => s

/-! ### The reconnect window -/

/-- Expiry of a path's reconnect window (R113, R121): a request that is ending ends with its held cause, its images
discarded; any other suffers a missed reconnect, and returns as a continuation or, at the third, ends PORT UNRESPONSIVE. The offset of
a READ on the recovery ladder is left in force (log 54). -/
def State.windowExpired (s : State) (k : PathId) : State :=
  let P := s.path k
  match P.holder, P.window with
  | some pos, some n =>
    if P.conn != .asking || n < Config.windowLimit then s
    else
      match s.request? pos with
      | none => s
      | some r =>
        match P.ending with
        | some h => s.endRequest pos (s.infoHeld r h)
        | none =>
          let missed := satSucc Config.missedReconnectLimit r.missedReconnect
          let r := { r with missedReconnect := missed }
          let info := s.infoFor r .portUnresponsive r.done r.done 0
            (P.servingOf r.done (trackOf (r.addressAt r.done)))
          let s := s.modRequest pos fun x => { x with missedReconnect := missed }
          if missed < Config.missedReconnectLimit then s.releaseAndReturn k else s.endRequest pos info
  | _, _ => s

/-! ### Boundaries -/

/-- A stop takes effect at a sector boundary when no sector is in flight (R125). -/
def State.boundaryStop (s : State) (k : PathId) : State :=
  let P := s.path k
  match P.holder with
  | none => s
  | some pos =>
    match s.request? pos with
    | none => s
    | some r =>
      if r.ended || r.kind.isStep || P.inFlight then s
      else
        match r.stop? P.ending.isSome with
        | some c => s.stopBy pos c
        | none => s

/-- The pass of a full-track step at a sector boundary: it begins at the first boundary at or after the grant and ends at
the same boundary one revolution later (R122); a read step's next pass takes its offset there (Table 6-3; log 56). The gate of the first
pass stays open until the path is released (log 51). -/
def State.stepBoundary (s : State) (k : PathId) (d : DriveId) : State :=
  let P := s.path k
  let here := (s.drive d).rpc / 4
  match P.service with
  | some (.step .header) => s
  | some (.step kind) =>
    match P.passStart with
    | none =>
      (s.modPath k fun P => { P with passStart := some here }).modDrive d fun D =>
        { D with readGate := kind != .write, writeGate := kind == .write }
    | some b =>
      if b == here then
        let s := s.modPath k fun P => { P with passes := satSucc Config.attempts P.passes, opDue := true }
        if kind == .read then s.giveOffset d (attemptOffset ((s.path k).passes + 1)) else s
      else s
  | _ => s

/-- What a path does at a slot or index event of its drive: a WRITE's due boundary is passed; at a sector boundary stops,
steps and sector starts (R93, R110, R122, R125). -/
def State.pathBoundary (s : State) (d : DriveId) : State :=
  match s.pathOnDrive d with
  | none => s
  | some k =>
    let rpc := (s.drive d).rpc
    let s := s.modPath k fun P => if P.flowFrom == some rpc then { P with flowFrom := none } else P
    if rpc % 4 == 0 then
      let s := (s.boundaryStop k).stepBoundary k d
      if (s.path k).drive == some d then s.startSector k else s
    else s

end Sys2Proof.Machine
end

