-- ==== Sys2Proof/Machine/Arbiter.lean ====
section
/-! DEFINITION. The path arbiter: claims, ranking, grants, misses and the overdue order (R92 to R96, R100 to R103). -/

namespace Sys2Proof.Machine

/-- Bit n of the path priority code. -/
def codeBit (code n : Nat) : Bool := code / 2 ^ n % 2 == 1

/-- Source order of a path priority code (R103, Table 6-1). -/
def sourceOrder (code : Nat) : List Source :=
  let ab : List Source := if codeBit code 1 then [.port .b, .port .a] else [.port .a, .port .b]
  let cd : List Source := if codeBit code 2 then [.port .d, .port .c] else [.port .c, .port .d]
  let ports := if codeBit code 0 then cd ++ ab else ab ++ cd
  if codeBit code 3 then .relocation :: ports else ports ++ [.relocation]

/-- The first of the keys that some element carries, with the earliest such element. -/
def firstByKey {α β : Type} (carries : β → α → Bool) (l : List α) : List β → Option α
  | [] => none
  | b :: bs =>
    match l.find? (carries b) with
    | some a => some a
    | none => firstByKey carries l bs

/-- The waiting claim that ranks first (R102): the overdue order, then the source order, then arrival. -/
def State.bestClaim (s : State) : Option Claim :=
  match firstByKey (fun pos (c : Claim) => c.request == pos) s.claims s.overdue with
  | some c => some c
  | none => firstByKey (fun src (c : Claim) => c.source == src) s.claims (sourceOrder s.params.priority)

/-- A FREE path, DP-0 before DP-1 (R101). -/
def State.freePath (s : State) : Option PathId := allPaths.find? fun k => (s.path k).holder.isNone

/-- Service of a record's kind (Table 6-2). -/
def Kind.service : Kind → Option Service
  | .read => some .hostRead
  | .write => some .hostWrite
  | .verify => some .hostVerify
  | .step k _ => some (.step k)
  | .position | .calibrate | .mapChange _ _ => none

/-- The port a path connects to for a record: READ and WRITE alone use one (R119, R122). -/
def Record.dataPort (r : Record) : Option PortId :=
  match r.source with
  | .port p => if r.kind.needsPort then some p else none
  | .relocation => none

/-- The path as it is granted (R101, R105). -/
def grantedPath (r : Record) (due : Due) (rpc : Nat) : Path :=
  { Path.free with
    holder := some r.pos, drive := some r.drive, port := r.dataPort, service := r.kind.service, late := r.late
    flowFrom :=
      match r.kind, due with
      | .write, .slot k => if k == rpc then none else some k
      | _, _ => none }

/-- In slot 63 the write gate opens for the header in the gap, and it stays open until the path is released (R4, R10;
log 51). -/
def State.openGap (s : State) (d : DriveId) : State :=
  s.modDrive d fun D => { D with writeGate := D.writeGate || D.rpc + 1 == Config.slots }

/-- The data path begins its service of the request (R107, R108, R110, R116); a header step granted in the gap opens its
gate there (R97). -/
def State.beginService (s : State) (k : PathId) (r : Record) : State :=
  match r.kind with
  | .read | .verify =>
    let s := s.enterForReading k r r.done
    if (s.path k).holder == some r.pos then s.startSector k else s
  | .write =>
    match r.sectorAt r.done with
    | none => s
    | some (x, a) =>
      match s.enterForWriting k r x a with
      | some s => s.ask k
      | none => s.releaseAndReturn k
  | .step .header _ => s.openGap r.drive
  | _ => s

/-- A claim leaves the waiting claims (R101). -/
def State.dropClaim (s : State) (pos : Nat) : State :=
  { s with claims := s.claims.filter fun c => c.request != pos }

/-- A grant (R96, R101). -/
def State.grant (s : State) (k : PathId) (c : Claim) : State :=
  let s := s.dropClaim c.request
  match s.request? c.request with
  | none => s
  | some r =>
    let rpc := (s.drive r.drive).rpc
    let s := { s with overdue := s.overdue.filter fun x => x != r.pos }
    let s := s.modRequest r.pos fun x => { x with state := .transferring, missedRev := 0 }
    let s := (s.modDrive r.drive fun D => { D with due := none }).modPath k fun _ => grantedPath r c.due rpc
    s.beginService k r

/-- Grants while a path is FREE and a claim waits (R100). -/
def State.grantLoop : Nat → State → State
  | 0, s => s
  | n + 1, s =>
    match s.freePath, s.bestClaim with
    | some k, some c => State.grantLoop n (s.grant k c)
    | _, _ => s

/-- The arbiter at the end of an event (R100); every grant takes one claim. -/
def State.arbitrate (s : State) : State := State.grantLoop s.claims.length s

/-- Due point of a claim (R93). -/
def Record.duePoint (r : Record) : Due :=
  let sector := (r.addressAt r.done).sector
  match r.kind with
  | .read | .verify => .slot (4 * sector)
  | .write => .slot ((4 * sector + Config.slots - 8) % Config.slots)
  | .step .header _ => .slot 63
  | _ => .none

/-- A claim is made at head ready (R92). -/
def State.makeClaim (s : State) (r : Record) : State :=
  let s := s.modRequest r.pos fun x => { x with state := .claiming }
  let s := s.modDrive r.drive fun D => { D with due := some r.duePoint }
  { s with claims := s.claims ++ [⟨r.drive, r.source, r.duePoint, r.pos⟩] }

/-- A missed revolution of a request's claim (R96): the count rises, and at 4 the record joins the overdue order. -/
def State.missRevolution (s : State) (pos : Nat) : State :=
  match s.request? pos with
  | none => s
  | some r =>
    let n := satSucc Config.missedRevolutionLimit r.missedRev
    let s := s.modRequest pos fun x => { x with missedRev := n }
    if Config.missedRevolutionLimit ≤ n && !s.overdue.contains pos then { s with overdue := s.overdue ++ [pos] } else s

/-- The waiting claim of a drive. -/
def State.claimOf (s : State) (d : DriveId) : Option Claim := s.claims.find? fun c => c.drive == d

/-- A claim still waiting at its due boundary misses: withdrawn, the missed revolution counted, the request back in its
queue as a continuation (R94). -/
def State.missClaim (s : State) (d : DriveId) : State :=
  match s.claimOf d with
  | none => s
  | some c =>
    if c.due == .slot (s.drive d).rpc then
      ((s.dropClaim c.request).missRevolution c.request).returnToQueue c.request
    else s

/-- An index event passed by a waiting full-track claim (R95). -/
def State.missFullTrack (s : State) (d : DriveId) : State :=
  match s.claimOf d with
  | some c => if c.due == .none then s.missRevolution c.request else s
  | none => s

end Sys2Proof.Machine
end

