-- ==== Sys2Proof/Machine/Positioning.lean ====
section
/-! DEFINITION. The drive adapter's positioning: arm commands, setup, ident confirmation and head ready (R10, R85 to R91,
R99). -/

namespace Sys2Proof.Machine

/-- Calibrate issued: timer started, offset released, fault line cleared (R10, R11, R88). -/
def Drive.issueCalibrate (D : Drive) : Drive :=
  { D with arm := some .calibrate, seekTimer := some 0, offset := .off, faultLine := false }

/-- Seek and head select issued: timer started, offset released (R10, R87, R88). -/
def Drive.issueSeek (D : Drive) (t : Track) : Drive :=
  { D with arm := some (.seek t.cyl), seekTimer := some 0, offset := .off, head := t.head }

/-- The kind of the drive's request in progress. -/
def State.activeRecord (s : State) (d : DriveId) : Option Record := (s.drive d).active.bind s.request?

/-- Head ready (R91): the positioning record is cleared; a scan goes on with its track; a request ends, stops or claims. -/
def State.headReady (s : State) (d : DriveId) : State :=
  let s := s.modDrive d Drive.clearPositioning
  match (s.drive d).scan with
  | some c => s.modDrive d fun D => { D with scan := some { c with ready := true } }
  | none =>
    match s.activeRecord d with
    | none => s
    | some r =>
      match r.kind with
      | .position => s.endHere r.pos .complete
      | .read | .write | .verify =>
        match r.stop? with
        | some c => s.stopBy r.pos c
        | none => s.makeClaim r
      | .step _ _ => s.makeClaim r
      | .calibrate | .mapChange _ _ => s

/-- Whether the drive's request in progress is a CALIBRATE. -/
def State.calibrating (s : State) (d : DriveId) : Bool :=
  match s.activeRecord d with
  | some r => r.kind == .calibrate
  | none => false

/-- The setup event (R87). -/
def State.setup (s : State) (d : DriveId) : State :=
  let D := s.drive d
  if D.phase == .setup then
    if s.calibrating d then s.modDrive d fun D => { D.issueCalibrate with phase := .seek }
    else
      match D.target with
      | none => s
      | some t =>
        if D.cyl == some t.cyl then (s.selectHead d t.head).headReady d
        else s.modDrive d fun D => { D.issueSeek t with phase := .seek }
  else s

/-- The first sector to start after seek complete, on a valid counter, is the one whose ident is read (R85, R89). -/
def Drive.takeConfirmSector (D : Drive) : Drive :=
  if (D.phase == .confirm || D.phase == .reconfirm) && D.confirm.isNone && D.valid && D.rpc % 4 == 0 then
    { D with confirm := some (D.rpc / 4), readGate := true }
  else D

/-- A completed seek or recalibrate of a positioning (R89, R90). -/
def Drive.seekDone (D : Drive) : Drive :=
  let D' := { D with arm := none, seekTimer := none, confirm := none }
  match D.phase, D.arm, D.target with
  | .seek, some (.seek c), _ => { D' with cyl := some c, phase := .confirm }
  | .reseek, some (.seek c), _ => { D' with cyl := some c, phase := .reconfirm }
  | .recalibrate, some .calibrate, some t =>
    let D0 := { D' with cyl := some 0, head := 0 }
    if t.cyl == 0 then { D0 with head := t.head, offset := .off, phase := .reconfirm }
    else { D0.issueSeek t with phase := .reseek }
  | _, some (.seek c), _ => { D' with cyl := some c }
  | _, some .calibrate, _ => { D' with cyl := some 0, head := 0 }
  | _, none, _ => D

/-- The first ident mismatch of a positioning (R90). -/
def Drive.recalibrate (D : Drive) : Drive :=
  { D.issueCalibrate with mismatch := 1, confirm := none, readGate := false, phase := .recalibrate }

/-- Whether a confirmation's ident matches: target cylinder, selected head and the sector passing (R89). -/
def Drive.identMatches (D : Drive) (sector : Nat) (ident : Option RawIdent) : Bool :=
  match D.target with
  | some t => identNames ⟨t.cyl, D.head⟩ sector ident
  | none => false

end Sys2Proof.Machine
end

