-- ==== Sys2Proof/Machine/DriveStates.lean ====
section
/-! DEFINITION. The drive state machine: faults, loss and return of ready, calibrate, and the spare scan (R12 to R19,
R138 to R141, R146). -/

namespace Sys2Proof.Machine

/-! ### Faults and the ready line -/

/-- The request in progress ends at once when its drive leaves service (R16, R17, R126): its path and port are released
first, so that its status joins the queue; one stopped by a port reset leaves no status; one already ended only gives up
its path. A host transfer cut off on the recovery ladder leaves the head's offset in force (log 45). -/
def State.cutRequest (s : State) (d : DriveId) (pos : Nat) (status : Status) : State :=
  match s.request? pos with
  | none =>
    match s.pathOf pos with
    | some k => s.finishParity k d
    | none => s
  | some r =>
    if r.kind.isStep then s
    else if r.resetStop then s.stopRequest pos
    else if r.ended then
      match s.pathOf pos with
      | some k => s.finishParity k d
      | none => s
    else
      let info := s.infoHere r status
      let s := match s.pathOf pos with
        | some k => s.releasePath k
        | none => s
      s.endRequest pos info

/-- The request in progress of a drive, then its queued host requests in acceptance order, end with one status (R16,
R17). -/
def State.endDriveWork (s : State) (d : DriveId) (status : Status) : State :=
  let queued := (s.queue d).filter fun r => !r.kind.isStep
  let s := match (s.drive d).active with
    | some pos => s.cutRequest d pos status
    | none => s
  queued.foldl (fun t r => t.endHere r.pos status) s

/-- A drive whose work has ended holds no request in progress. -/
def Drive.noActive (D : Drive) : Drive := { D with active := none }

/-- The adapter on entry into FAULTED (R16). -/
def Drive.enterFaulted (D : Drive) : Drive :=
  { D.clearPositioning with
    state := .faulted, seekTimer := none, readGate := false, writeGate := false, arm := none, scan := none }

/-- States in which a fault acts (R15). -/
def DriveState.faultable : DriveState → Bool
  | .calibrating | .scanning | .ready => true
  | .notReady | .faulted => false

/-- A drive is faulted (R15, R16). -/
def State.faultDrive (s : State) (d : DriveId) : State :=
  if (s.drive d).state.faultable then
    ((((s.modDrive d Drive.enterFaulted).endDriveWork d .driveFault).abortFaulted d).modDrive d Drive.noActive).attend d
  else s

/-- The adapter on entry into NOT-READY, with map, pool and health table discarded (R9, R17, R85, R146). -/
def Drive.enterNotReady (D : Drive) : Drive :=
  { D.clearPositioning with
    state := .notReady, type := none, mapBuilt := false, rpc := 0, valid := false, cyl := none, seekTimer := none
    readGate := false, writeGate := false, arm := none, scan := none, map := [], pool := [], health := [] }

/-- The entries of a drive leave the work list and the stalled order (R17, R162). -/
def State.forgetEntries (s : State) (d : DriveId) : State :=
  { s with
    workList := s.workList.filter fun r => r.drive != d
    stalled := s.stalled.filter fun r => r.drive != d }

/-- The map-change requests of a drive still to end, in acceptance order (R17). -/
def State.mapChanges (s : State) (d : DriveId) : List Nat :=
  (s.records.filter fun r => r.drive == d && r.kind.isMapChange && !r.ended).map fun r => r.pos

/-- The ready line falls on a drive in service (R17, R146, R180). -/
def State.loseReady (s : State) (d : DriveId) : State :=
  let changes := s.mapChanges d
  let s := (((s.modDrive d Drive.enterNotReady).forgetEntries d).abortNotReady d).endDriveWork d .driveNotReady
  let s := changes.foldl (fun t pos => t.endMapChange pos .driveNotReady) s
  (s.modDrive d Drive.noActive).attend d

/-- Drive type of a type code (R1). -/
def driveTypeOf (code : Nat) : Option DriveType :=
  if code == 1 then some .type1 else if code == 2 then some .type2 else none

/-- A ready rise with its type code (R1, R12): a NOT-READY drive with code 1 or 2 goes to CALIBRATING. -/
def State.takeReady (s : State) (d : DriveId) (code : Nat) : State :=
  s.modDrive d fun D =>
    let D := { D with readyLine := true, typeCode := code }
    match D.state, driveTypeOf code with
    | .notReady, some ty =>
      { D.issueCalibrate with state := .calibrating, type := some ty, cyl := none, phase := .seek }
    | _, _ => D

/-- A drive enters READY (R18). -/
def State.enterReady (s : State) (d : DriveId) : State :=
  (s.modDrive d fun D => { D with state := .ready, sweep := .inward, scan := none, phase := .none }).attend d

/-! ### The spare scan -/

/-- Gates of the scan at a boundary, or as it turns to a track: open for the header in the gap of slot 63, and for a
rebuild pass, without a break until the scan turns to its next track (R4, R10, R138, R140; log 51). -/
def Drive.scanGates (D : Drive) : Drive :=
  match D.scan with
  | none => D
  | some c =>
    let gap := c.ready && D.rpc + 1 == Config.slots
    { D with
      readGate := D.readGate || (gap && c.job == .header) || (c.job == .rebuild && c.passStart.isSome)
      writeGate := D.writeGate || (gap && c.job == .discard) }

/-- The scan turns to a track: with the arm there the head is selected at once, else a seek is asked for (R99, R138,
R140; log 21). -/
def State.scanTo (s : State) (d : DriveId) (job : ScanJob) (t : Track) (losers rebuilds : List Track) : State :=
  s.modDrive d fun D =>
    let here := D.cyl == some t.cyl
    let D := { D with scan := some ⟨job, t, losers, rebuilds, here, none, false⟩, readGate := false, writeGate := false }
    if here then { D with head := t.head, offset := .off }.scanGates
    else { D with phase := .setup, target := some t, mismatch := 0, confirm := none }

/-- A drive enters SCANNING: table and pool emptied, the scan at the lowest spare (R13, R138). -/
def State.enterScanning (s : State) (d : DriveId) : State :=
  ((s.forgetEntries d).modDrive d fun D => { D with state := .scanning, map := [], pool := [] }).scanTo d .header
    ⟨101, 0⟩ [] []

/-- Puts a track into an ascending list (R3). -/
def insertTrack (t : Track) : List Track → List Track
  | [] => [t]
  | x :: xs => if trackBefore t x then t :: x :: xs else x :: insertTrack t xs

/-- The alternates of the ACTIVE entries in ascending spare address (R140). -/
def activeAlternates (map : List MapEntry) : List Track :=
  (map.filterMap fun e => if e.state == .active then e.alternate else none).foldr insertTrack []

/-- The next spare track in ascending spare address (R138). -/
def nextSpare (ty : DriveType) (t : Track) : Option Track := (spareTracks ty).find? fun x => trackBefore t x

/-- Generation g1 is later than g2 (R139). -/
def laterGeneration (g1 g2 : Byte) : Bool :=
  let n := (g1 - g2).toNat
  1 ≤ n && n ≤ 127

/-- A header result taken into the map, with the spares that have lost a dispute (R139). -/
def State.takeHeader (s : State) (d : DriveId) (ty : DriveType) (t : Track) (losers : List Track) :
    HeaderResult → State × List Track
  | .unreadable => (s.setSpare d t .unusable, losers)
  | .readable .free _ _ => (s.setSpare d t .free, losers)
  | .readable .reserved _ _ => (s.setSpare d t .free, losers)
  | .readable .unusable _ _ => (s.setSpare d t .unusable, losers)
  | .readable .alternate link g =>
    if isHomeTrack ty link then
      match s.entry? d link with
      | none => ((s.setSpare d t .inUse).addEntry d (scannedEntry link t g), losers)
      | some e =>
        if laterGeneration g e.generation then
          let s := (s.setSpare d t .inUse).setSpare? d e.alternate .unusable
          let s := s.modEntry d link fun x => { x with alternate := some t, generation := g }
          (s, match e.alternate with
            | some old => insertTrack old losers
            | none => losers)
        else (s.setSpare d t .unusable, insertTrack t losers)
    else (s.setSpare d t .unusable, losers)

/-- The scan is complete: the map-built mark is set and the drive enters READY (R14, R141). -/
def State.scanComplete (s : State) (d : DriveId) : State :=
  (s.modDrive d fun D => { D with mapBuilt := true, readGate := false, writeGate := false }).enterReady d

/-- The scan visits the alternates still to rebuild, or is complete (R140, R141). -/
def State.scanRebuild (s : State) (d : DriveId) : List Track → State
  | [] => s.scanComplete d
  | t :: rest => s.scanTo d .rebuild t [] rest

/-- The scan rewrites the headers of the spares that lost, then rebuilds (R140). -/
def State.scanDiscard (s : State) (d : DriveId) : List Track → State
  | [] => s.scanRebuild d (activeAlternates (s.drive d).map)
  | t :: rest => s.scanTo d .discard t rest []

/-- A header read of the scan completes (R138, R139). -/
def State.scanHeader (s : State) (d : DriveId) (h : Option RawHeader) : State :=
  let D := s.drive d
  match D.state, D.scan, D.type with
  | .scanning, some c, some ty =>
    if c.job == .header && c.opDue then
      let taken := s.takeHeader d ty c.track c.losers (judgeHeader c.track h)
      match nextSpare ty c.track with
      | some t => taken.1.scanTo d .header t taken.2 []
      | none => taken.1.scanDiscard d taken.2
    else s
  | _, _, _ => s

/-- A discard write of the scan completes, whatever its write check says (R140). -/
def State.scanDiscarded (s : State) (d : DriveId) : State :=
  let D := s.drive d
  match D.state, D.scan with
  | .scanning, some c =>
    if c.job == .discard && c.opDue then
      (s.setRecorded d (.header (recordedHeader c.track (plainHeader .unusable)))).scanDiscard d c.losers
    else s
  | _, _ => s

/-- A rebuild pass ends: the lost-sector set is written into the entry of the alternate (R140). -/
def State.scanRebuilt (s : State) (d : DriveId) (reads : List SectorRead) : State :=
  let D := s.drive d
  match D.state, D.scan with
  | .scanning, some c =>
    if c.job == .rebuild && c.opDue then
      let lost := sectorsWhere Outcome.lost 0 (trackOutcomes c.track reads)
      (s.modDrive d fun D =>
        { D with
          map := D.map.map fun e =>
            if e.state == .active && e.alternate == some c.track then { e with lost := lost } else e }).scanRebuild d
        c.rebuilds
    else s
  | _, _ => s

/-- The scan at the index event: the header operation in the gap just passed is done (R4, R138). -/
def Scan.atIndex (c : Scan) : Scan :=
  if c.ready && c.job != .rebuild then { c with opDue := true } else c

/-- The scan at a sector boundary: a rebuild pass begins, or ends one revolution later (R140). -/
def Scan.atBoundary (c : Scan) (rpc : Nat) : Scan :=
  if c.ready && c.job == .rebuild && rpc % 4 == 0 then
    match c.passStart with
    | none => { c with passStart := some (rpc / 4) }
    | some b => if b == rpc / 4 then { c with opDue := true } else c
  else c

/-! ### Calibrate and seek complete -/

/-- The calibrate of a CALIBRATING drive completes (R13, R19). -/
def State.calibrateDone (s : State) (d : DriveId) : State :=
  let s := s.modDrive d fun D =>
    { D with arm := none, seekTimer := none, cyl := some 0, head := 0, phase := .none }
  let s := match (s.drive d).active with
    | some pos => s.endHere pos .complete
    | none => s
  if (s.drive d).mapBuilt then s.enterReady d else s.enterScanning d

/-- Seek complete (R10, R13, R20, R89, R90). -/
def State.seekCompleted (s : State) (d : DriveId) : State :=
  let D := s.drive d
  if D.arm.isNone then s
  else
    match D.state with
    | .notReady => s
    | .faulted => s
    | .calibrating => s.calibrateDone d
    | .scanning => s.modDrive d Drive.seekDone
    | .ready =>
      let done := s.modDrive d Drive.seekDone
      if s.calibrating d then
        match D.active with
        | some pos => done.endHere pos .complete
        | none => done
      else done

/-- The result of an ident confirmation (R89, R90, R15): taken at the boundary beginning slot 4k + 1 of the sector read. -/
def State.confirmed (s : State) (d : DriveId) (ident : Option RawIdent) : State :=
  let D := s.drive d
  match D.confirm with
  | none => s
  | some k =>
    if D.rpc != 4 * k + 1 then s
    else if D.identMatches k ident then (s.modDrive d fun D => { D with readGate := false }).headReady d
    else
      match D.phase with
      | .confirm => s.modDrive d Drive.recalibrate
      | .reconfirm => s.faultDrive d
      | _ => s

/-- Expiry of the seek timer (R15, R88). -/
def State.seekExpired (s : State) (d : DriveId) : State :=
  let D := s.drive d
  match D.seekTimer with
  | some n => if Config.seekLimit ≤ n && D.arm.isSome then s.faultDrive d else s
  | none => s

end Sys2Proof.Machine
end

