-- ==== Sys2Proof/Machine/Settle.lean ====
section
/-! DEFINITION. The end of an event: what the manual places in every event at the end of which its conditions hold, in one
fixed order (log 4): drained connections (R111), asking (R111), grants (R100), the waiting step (R69), the held point
(R177), the restore order (R179), the take (R163), choices (R74), the resume (R176), offers (R31). -/

namespace Sys2Proof.Machine

/-- The paths' part: connections drained, ports asked, paths granted. -/
def State.settlePaths (s : State) : State := s.drainAll.askAll.arbitrate

/-- The relocation unit's part before the choices. -/
def State.settleUnit (s : State) : State := s.admitWaiting.passHeldPoint.placeRestore.takeNow

/-- The choices, and the resume that a choice may bring, with the step it places. -/
def State.settleChoices (s : State) : State := s.chooseAll.resumeIfDue.admitWaiting.chooseAll

/-- The end of an event. -/
def State.settle (s : State) : State := s.settlePaths.settleUnit.settleChoices.offerAll

end Sys2Proof.Machine
end

