-- ==== Sys2Proof/Machine/Orders.lean ====
section
/-! DEFINITION. The order decoder: the check sequence (R41 to R46, R50, R52, R55, R57, R58), the effect of each accepted
order (R48 to R62, R142, R143, R183 to R185, R194) and the answer (R30). -/

namespace Sys2Proof.Machine

/-! ### What the checks apply to (Table 3-2) -/

/-- The seven queued orders (Table 3-1). -/
def DriveOrder.isQueued : DriveOrder → Bool
  | .read _ | .write _ | .verify _ | .position _ | .calibrate | .declare _ _ _ | .retire _ => true
  | _ => false

/-- Orders that meet the drive-state check (R43). -/
def checksDriveState (o : DriveOrder) : Bool :=
  DriveOrder.isQueued o || o == .cancel || o == .mapFreeze

/-- Orders that meet the lock check (R44). -/
def checksLock (o : DriveOrder) : Bool := DriveOrder.isQueued o || o == .mapFreeze

/-- Orders that the drive-queue limit applies to (R46); CALIBRATE to a READY drive only. -/
def entersQueue (o : DriveOrder) (st : DriveState) : Bool :=
  match o with
  | .read _ | .write _ | .verify _ | .position _ => true
  | .calibrate => st == .ready
  | _ => false

/-! ### The checks -/

/-- A refusal code when its condition holds. -/
def refuseIf (c : Bool) (code : AcceptCode) : Option AcceptCode := if c then some code else none

/-- Step 3 (R43). -/
def checkDriveState (o : DriveOrder) (st : DriveState) : Option AcceptCode :=
  if checksDriveState o then
    match st with
    | .notReady => some .notReady
    | .calibrating | .scanning => some .becomingReady
    | .faulted => refuseIf (o != .calibrate) .faulted
    | .ready => none
  else none

/-- A port other than p holds the lock. -/
def heldElsewhere (lock : Option PortId) (p : PortId) : Bool :=
  match lock with
  | some q => q != p
  | none => false

/-- Whether a tag is in use for a port (R46, R47). -/
def State.tagInUse (s : State) (p : PortId) (tag : Byte) : Bool := (s.outstanding p).any fun r => r.tag == tag

/-- Step 8 (R46). -/
def State.noRoom (s : State) (p : PortId) (d : DriveId) (o : DriveOrder) : Bool :=
  Config.storeSize ≤ s.records.length
    || (entersQueue o (s.drive d).state && Config.queueLimit ≤ s.queueCount d)
    || Config.portLimit ≤ (s.outstanding p).length

/-- Type whose limits an order is tested against: type 1 for a drive with none (R58). -/
def Drive.limits (D : Drive) : DriveType := D.type.getD .type1

/-- An extent that reaches beyond the last logical sector (R48). -/
def extentBeyond (ty : DriveType) (e : Extent) : Bool := lastSector ty < extentStart e + e.count - 1

/-- A logical track beyond the last logical cylinder (R49). -/
def trackBeyond (ty : DriveType) (t : Track) : Bool := ty.lastLogical < t.cyl

/-- Whether an existing entry lets a DECLARE pass (R50). -/
def MapEntry.declarable (e : MapEntry) (stalled replace : Bool) : Bool :=
  (e.state == .active && replace && !e.replacement && !e.named)
    || (stalled && (e.state == .pending || (e.state == .active && e.replacement && replace)))

/-- Step 9 of DECLARE (R50). -/
def State.checkDeclare (s : State) (d : DriveId) (replace : Bool) (t : Track) : Option AcceptCode :=
  let D := s.drive d
  let home := homeOf t
  if trackBeyond (Drive.limits D) t then some .outOfRange
  else if D.freeze then some .mapFrozen
  else if Config.mapLimit ≤ D.map.length then some .mapFull
  else
    match s.entry? d home with
    | none => none
    | some e => refuseIf (!e.declarable (s.isStalled d home) replace) .entryExists

/-- Step 9 of RETIRE (R52). -/
def State.checkRetire (s : State) (d : DriveId) (t : Track) : Option AcceptCode :=
  let D := s.drive d
  if trackBeyond (Drive.limits D) t then some .outOfRange
  else if D.freeze then some .mapFrozen
  else
    match s.entry? d (homeOf t) with
    | none => some .noEntry
    | some e => refuseIf (!(e.state == .active && !e.replacement && !e.named)) .entryBusy

/-- The request a CANCEL names: outstanding for the port, with the tag, not yet ended (R55). -/
def State.cancelTarget (s : State) (p : PortId) (tag : Byte) : Option Record :=
  s.records.find? fun r => r.outstandingFor p && r.tag == tag && !r.ended

/-- Step 9 of CANCEL (R55). -/
def State.checkCancel (s : State) (p : PortId) (d : DriveId) (tag : Byte) : Option AcceptCode :=
  match s.cancelTarget p tag with
  | none => some .noSuchRequest
  | some r =>
    if r.drive != d then some .noSuchRequest
    else if r.kind.isMapChange then some .notCancellable
    else refuseIf ((r.kind == .position || r.kind == .calibrate) && !r.isWaiting) .notCancellable

/-- Step 9 of SEIZE: the lock is held by another port that is LOST (R57). -/
def State.seizable (s : State) (p : PortId) (d : DriveId) : Bool :=
  match (s.drive d).lock with
  | some q => q != p && (s.port q).state == .lost
  | none => false

/-- Step 9 (Table 3-3). -/
def State.checkSpecific (s : State) (p : PortId) (tag : Byte) (d : DriveId) (o : DriveOrder) : Option AcceptCode :=
  let D := s.drive d
  match o with
  | .read es | .write es | .verify es => refuseIf (es.any (extentBeyond (Drive.limits D))) .outOfRange
  | .position t | .mapQuery t => refuseIf (trackBeyond (Drive.limits D) t) .outOfRange
  | .declare _ replace t => s.checkDeclare d replace t
  | .retire t => s.checkRetire d t
  | .cancel => s.checkCancel p d tag
  | .lock => refuseIf (heldElsewhere D.lock p) .lockedElsewhere
  | .unlock => refuseIf (D.lock != some p) .notHolder
  | .seize => refuseIf (!s.seizable p d) .holderNotLost
  | .calibrate | .report | .mapList | .mapFreeze => none

/-- The lock-lost mark of a port and drive (R182). -/
def State.lockLostMark (s : State) (p : PortId) (d : DriveId) : Bool := (s.port p).lockLost.get d

/-- Steps 3 to 9 for an order to a drive: the code of the first check that fails (R41, Table 3-2). -/
def State.checkDrive (s : State) (p : PortId) (tag : Byte) (d : DriveId) (o : DriveOrder) : Option AcceptCode :=
  let D := s.drive d
  (checkDriveState o D.state)
    <|> (refuseIf (checksLock o && heldElsewhere D.lock p) .lockedElsewhere)
    <|> (refuseIf (s.lockLostMark p d) .lockLost)
    <|> (refuseIf (o != .report && (s.reportOf p d).isSome) .reportHeld)
    <|> (refuseIf (DriveOrder.isQueued o && s.tagInUse p tag) .tagInUse)
    <|> (refuseIf (DriveOrder.isQueued o && s.noRoom p d o) .queueFull)
    <|> (s.checkSpecific p tag d o)

/-- The check sequence after step 2; STRING STATUS and SET PARAMETERS meet no further check. -/
def State.checkOrder (s : State) (p : PortId) (b : OrderBlock) : Option AcceptCode :=
  match b.order with
  | .drive d o => s.checkDrive p b.tag d o
  | .stringStatus | .setParameters _ => none

/-! ### The effects -/

/-- A host request's record as an accepted order makes it (R48, Table 4-1). -/
def hostRecord (pos : Nat) (p : PortId) (tag : Byte) (d : DriveId) (kind : Kind) (extents : List Extent)
    (target : Option Track) (st : RecState) : Record where
  pos := pos
  kind := kind
  source := .port p
  tag := tag
  drive := d
  extents := extents
  target := target
  done := 0
  bypass := 0
  late := 0
  missedReconnect := 0
  missedRev := 0
  soft := false
  cancel := false
  detached := false
  resetStop := false
  lossStop := false
  ended := false
  listed := !kind.isMapChange && st == .queued
  recordedSectors := []
  header := none
  snapshot := none
  state := st

/-- A record taken from the store with the next acceptance position (R64). -/
def State.addRequest (s : State) (p : PortId) (tag : Byte) (d : DriveId) (kind : Kind) (extents : List Extent)
    (target : Option Track) (st : RecState) : State :=
  { s with
    records := s.records ++ [hostRecord s.nextPos p tag d kind extents target st]
    nextPos := s.nextPos + 1 }

/-- CALIBRATE: queued for a READY drive (R20), started at once on a FAULTED one (R19). -/
def State.acceptCalibrate (s : State) (p : PortId) (tag : Byte) (d : DriveId) : State :=
  if (s.drive d).state == .faulted then
    (s.addRequest p tag d .calibrate [] none .seeking).modDrive d fun D =>
      { D.issueCalibrate with
        state := .calibrating, active := some s.nextPos, phase := .seek }
  else s.addRequest p tag d .calibrate [] none .queued

/-- DECLARE (R51, R142). -/
def State.acceptDeclare (s : State) (p : PortId) (tag : Byte) (d : DriveId) (noCopy : Bool) (t : Track) : State :=
  let home := homeOf t
  let pos := s.nextPos
  let s := s.addRequest p tag d (.mapChange .declare noCopy) [] (some t) .queued
  match s.entry? d home with
  | none => (s.addEntry d (pendingEntry home .host (some pos))).appendWork ⟨d, home⟩
  | some _ =>
    if s.isStalled d home then
      ((s.modEntry d home fun e => { e with linked := some pos }).dropStalled ⟨d, home⟩).appendWork ⟨d, home⟩
    else
      (s.modEntry d home fun e => { e with replacement := true, origin := .host, linked := some pos }).appendWork
        ⟨d, home⟩

/-- RETIRE (R52, R143). -/
def State.acceptRetire (s : State) (p : PortId) (tag : Byte) (d : DriveId) (t : Track) : State :=
  let home := homeOf t
  let pos := s.nextPos
  ((s.addRequest p tag d (.mapChange .retire false) [] (some t) .queued).modEntry d home fun e =>
    { e with named := true, linked := some pos }).appendWork ⟨d, home⟩

/-- Sets the cancel mark of a request in progress (R56). -/
def State.markCancel (s : State) (pos : Nat) : State := s.modRequest pos fun r => { r with cancel := true }

/-- Whether a request's path holds an ending it has reached (R113). -/
def State.endingHeld (s : State) (pos : Nat) : Bool :=
  match s.pathOf pos with
  | some k => (s.path k).ending.isSome
  | none => false

/-- CANCEL of the request it names (R55, R56). -/
def State.acceptCancel (s : State) (p : PortId) (tag : Byte) : State :=
  match s.cancelTarget p tag with
  | none => s
  | some r =>
    if r.isWaiting then s.endHere r.pos .cancelled
    else
      match r.state with
      | .claiming | .paused => if s.endingHeld r.pos then s.markCancel r.pos else s.endStopped r.pos .cancelled
      | _ => s.markCancel r.pos

/-- Sets the holder of a drive's lock. -/
def State.setLock (s : State) (d : DriveId) (holder : Option PortId) : State :=
  s.modDrive d fun D => { D with lock := holder }

/-- Sets or clears a lock-lost mark. -/
def State.setLockLost (s : State) (p : PortId) (d : DriveId) (m : Bool) : State :=
  s.modPort p fun P => { P with lockLost := P.lockLost.set d.val m d.isLt }

/-- SEIZE: the lock moves, and the former holder's mark is set (R185). -/
def State.acceptSeize (s : State) (p : PortId) (d : DriveId) : State :=
  match (s.drive d).lock with
  | some q => (s.setLockLost q d true).setLock d (some p)
  | none => s.setLock d (some p)

/-- A parameter after a field, clamped into its range (R62). -/
def clampField (lo hi old : Nat) : Option Byte → Nat
  | none => old
  | some b => max lo (min hi b.toNat)

/-- Sets the read threshold of a port (R22, R62). -/
def State.setThreshold (s : State) (p : PortId) (f : Option Byte) : State :=
  s.modPort p fun P => { P with threshold := clampField 1 4 P.threshold f }

/-- The parameters of the string coordination unit after SET PARAMETERS (R62). -/
def Params.after (q : Params) (f : ParameterFields) : Params where
  reversal := clampField 0 63 q.reversal f.reversal
  softThreshold := clampField 2 15 q.softThreshold f.softThreshold
  progressInterval := clampField 1 15 q.progressInterval f.progressInterval
  priority := clampField 0 15 q.priority f.priority

/-- SET PARAMETERS (R62). -/
def State.acceptParameters (s : State) (f : ParameterFields) : State :=
  (((({ s with params := s.params.after f }).setThreshold .a f.readA).setThreshold .b f.readB).setThreshold .c
    f.readC).setThreshold .d f.readD

/-- The report block, or the empty report (R54, R194). -/
def State.reportBody (s : State) (p : PortId) (d : DriveId) : List Byte :=
  match s.reportOf p d with
  | some r => reportBlock d r
  | none => emptyReport

/-- The state after an accepted order to a drive. -/
def State.acceptDrive (s : State) (p : PortId) (tag : Byte) (d : DriveId) : DriveOrder → State
  | .read es => s.addRequest p tag d .read es none .queued
  | .write es => s.addRequest p tag d .write es none .queued
  | .verify es => s.addRequest p tag d .verify es none .queued
  | .position t => s.addRequest p tag d .position [] (some t) .queued
  | .calibrate => s.acceptCalibrate p tag d
  | .declare noCopy _ t => s.acceptDeclare p tag d noCopy t
  | .retire t => s.acceptRetire p tag d t
  | .report => s.setReport p d none
  | .cancel => s.acceptCancel p tag
  | .lock => s.setLock d (some p)
  | .unlock => s.setLock d none
  | .seize => s.acceptSeize p d
  | .mapQuery _ | .mapList => s
  | .mapFreeze => s.modDrive d fun D => { D with freeze := true }

/-- The state after an accepted order. -/
def State.acceptOrder (s : State) (p : PortId) (b : OrderBlock) : State :=
  match b.order with
  | .drive d o => s.acceptDrive p b.tag d o
  | .stringStatus => s
  | .setParameters f => s.acceptParameters f

/-- Body of the reply an accepted order is answered with (Table 11-4), read from the state before it, but for the
parameters in force after it. -/
def State.replyBody (s : State) (p : PortId) (b : OrderBlock) : Option (List Byte) :=
  match b.order with
  | .drive d .report => some (s.reportBody p d)
  | .drive d (.mapQuery t) => some (mapRecord s d (homeOf t))
  | .drive d .mapList => some (mapListBody s d)
  | .drive _ _ => none
  | .stringStatus => some (stringStatusBody s)
  | .setParameters f => some (parameterBytes (s.acceptParameters f))

/-- The reply block: head and body (R197). -/
def State.replyFor (s : State) (p : PortId) (b : OrderBlock) : List Byte :=
  match s.replyBody p b with
  | some body => replyHead b.order.code b.tag ++ body
  | none => []

/-! ### The answer -/

/-- The link sends the acceptance byte, then the reply (R30). -/
def State.answer (s : State) (p : PortId) (code : AcceptCode) (reply : List Byte) : State :=
  s.modPort p fun P => { P with state := .selected true, sending := sentAnswer (code.code :: reply) }

/-- What a refusal changes: LOCK LOST clears the mark it met (R44, R187). -/
def State.refused (s : State) (p : PortId) (b : OrderBlock) (code : AcceptCode) : State :=
  match b.order with
  | .drive d _ => if code == .lockLost then s.setLockLost p d false else s
  | .stringStatus | .setParameters _ => s

/-- The decoder takes an order whose form is good (R41). -/
def State.takeOrder (s : State) (p : PortId) (b : OrderBlock) : State :=
  match s.checkOrder p b with
  | some code => (s.refused p b code).answer p code []
  | none => (s.acceptOrder p b).answer p .accepted (s.replyFor p b)

/-- A port SELECTED whose order block has not been answered (R29, R30). -/
def State.awaitsOrder (s : State) (p : PortId) : Bool := (s.port p).state == .selected false

/-- An order as fields: its form is checked, then it is taken; on a port that awaits none it is not acted on (log 5). -/
def State.orderTaken (s : State) (p : PortId) (b : OrderBlock) : State :=
  if s.awaitsOrder p then if b.order.formOk then s.takeOrder p b else s.answer p .badOrder [] else s

/-- An order block as bytes: parity, overlong and form, then the order is taken (R29, R42). -/
def State.blockTaken (s : State) (p : PortId) (block : List LineByte) : State :=
  if s.awaitsOrder p then
    if block.any fun b => !parityOk b then s.answer p .parity []
    else if Config.longestBlock < block.length then s.answer p .badOrder []
    else
      match decodeOrder (block.map fun b => b.byte) with
      | some b => s.takeOrder p b
      | none => s.answer p .badOrder []
  else s

end Sys2Proof.Machine
end

