-- ==== Sys2Proof/Machine/PortEvents.lean ====
section
/-! DEFINITION. Events of a channel port: its operational line, loss, reset, selection, accept and the taking of blocks
(R23 to R39, R65, R104, R118). -/

namespace Sys2Proof.Machine

/-! ### Records of a port -/

/-- The outstanding records of a port, oldest first. -/
def State.portRequests (s : State) (p : PortId) : List Nat := (s.outstanding p).map fun r => r.pos

/-- A record is removed without status: it leaves the overdue order and the store (R39, R65, R70, R96). -/
def State.removeRequest (s : State) (pos : Nat) : State := (s.leaveDrive pos).freeRequest pos

/-- Detaches a request from its port (R26, R39). -/
def State.detach (s : State) (pos : Nat) : State := s.modRequest pos fun r => { r with detached := true }

/-- A path whose connection has ended is released, or kept until the boundary that ends the sector it still writes (R104,
R118; log 12). -/
def State.releaseUnlessWriting (s : State) (k : PathId) : State :=
  if (s.path k).fifo.any fun i => i.cond == .writing then
    s.modPath k fun P => { P with conn := .none, window := none }
  else s.releasePath k

/-- The data paths waiting for a port wait no more. -/
def State.dropWaiting (s : State) (p : PortId) : State :=
  let s := (s.port p).waiting.foldl (fun t k => t.modPath k fun P => { P with conn := .none, window := none }) s
  s.modPort p fun P => { P with waiting := [] }

/-! ### The operational line -/

/-- A port's statuses and connection cut off by the fall of the line (R23, R36, R38): a status in presentation is appended,
not passed again, a list of attentions goes back into the set. -/
def State.cutConnection (s : State) (p : PortId) (c : Conn) : State :=
  match c with
  | .data k (some e) => (s.appendStatus p e).releaseUnlessWriting k
  | .data k none => s.refuse k
  | .parting e => s.appendStatus p e
  | .status => s
  | .attention ds => s.modPort p fun P => { P with attention := ds.foldr insertDrive P.attention }

/-- Waiting data reconnections are refused (R23, R33). -/
def State.refuseWaiting (s : State) (p : PortId) : State :=
  let waiting := (s.port p).waiting
  waiting.foldl State.refuse (s.modPort p fun P => { P with waiting := [] })

/-- A READ or WRITE of the port that is TRANSFERRING is to end PORT LOST at the boundary of its sector in flight (R24). -/
def markLoss (p : PortId) (r : Record) : Record :=
  if r.outstandingFor p && r.kind.needsPort && r.state == .transferring && !r.ended then { r with lossStop := true }
  else r

/-- The operational line falls (R23, R24): the connected path's request is dealt with first, then the waiting paths' in the
order in which they waited (log 46). -/
def State.lineFall (s : State) (p : PortId) : State :=
  let P := s.port p
  if P.opLine then
    let s := s.modPort p fun P =>
      { P with
        opLine := false, state := .offline, lossTimer := some 0, offer := none, sending := [], portBusy := false
        byteTaken := false }
    let s := match P.state with
      | .connected c => s.cutConnection p c
      | _ => s
    let s := s.refuseWaiting p
    { s with records := s.records.map (markLoss p) }
  else s

/-- The operational line rises (R27). -/
def State.lineRise (s : State) (p : PortId) : State :=
  s.modPort p fun P =>
    let P := { P with opLine := true }
    match P.state with
    | .offline | .lost => { P with state := .idle, lossTimer := none }
    | _ => P

/-! ### Port loss -/

/-- What the entry into LOST does to one request of the port (R26, R98, R125). -/
def State.loseRequest (s : State) (pos : Nat) : State :=
  match s.request? pos with
  | none => s
  | some r =>
    if r.ended then s.freeRequest pos
    else if r.kind.isMapChange then s.detach pos
    else if r.isWaiting then s.removeRequest pos
    else if r.kind.needsPort then
      let s := s.detach pos
      match r.state with
      | .claiming | .paused => s.endStopped pos .portLost
      | _ => s.modRequest pos fun x => { x with lossStop := true }
    else s.detach pos

/-- A port enters LOST (R26). -/
def State.enterLost (s : State) (p : PortId) : State :=
  let requests := s.portRequests p
  let s := s.modPort p fun P => { P with state := .lost, lossTimer := none, statusQueue := [], attention := [] }
  requests.foldl State.loseRequest s

/-- The port-loss timer expires (R25). -/
def State.lossExpired (s : State) (p : PortId) : State :=
  match (s.port p).state, (s.port p).lossTimer with
  | .offline, some n => if Config.lossLimit ≤ n then s.enterLost p else s
  | _, _ => s

/-- A tick of the reference revolution at a port (R25); a count that had already reached 120 expires instead (log 3). -/
def State.countLoss (s : State) (p : PortId) : State :=
  match (s.port p).state, (s.port p).lossTimer with
  | .offline, some n =>
    if Config.lossLimit ≤ n then s.enterLost p else s.modPort p fun P => { P with lossTimer := some (n + 1) }
  | _, _ => s

/-- A tick of the reference revolution at every port (R25). -/
def State.countLosses (s : State) : State := allPorts.foldl State.countLoss s

/-! ### Port reset -/

/-- What a port reset does to one request of the port (R39, R98, R125). -/
def State.resetRequest (s : State) (pos : Nat) : State :=
  match s.request? pos with
  | none => s
  | some r =>
    if r.ended then s.freeRequest pos
    else if r.kind.isMapChange then s.detach pos
    else if r.isWaiting then s.removeRequest pos
    else if r.kind.isTransfer then
      match r.state with
      | .claiming => s.stopRequest pos
      | _ => s.modRequest pos fun x => { x with detached := true, resetStop := true }
    else s.detach pos

/-- The port's data connection ended by a reset (R39): the path of an ended request is released, any other stays held until
its request stops. -/
def State.resetConnection (s : State) (c : Conn) : State :=
  match c with
  | .data k (some _) => s.releaseUnlessWriting k
  | .data k none => s.modPath k fun P => { P with conn := .none, window := none }
  | .status | .attention _ | .parting _ => s

/-- The state of a port after a port reset (R39). -/
def PortState.afterReset : PortState → PortState
  | .selected _ | .connected _ => .idle
  | st => st

/-- A port link after a port reset: reports and lock-lost marks discarded with the rest (R39). -/
def Port.afterReset (P : Port) : Port :=
  { P with
    state := P.state.afterReset, offer := none, statusQueue := [], attention := [], sending := [], portBusy := false
    byteTaken := false, lockLost := Vector.replicate 8 false, reports := Vector.replicate 8 none }

/-- A drive's lock after a port reset (R182). -/
def Drive.freeLockOf (p : PortId) (D : Drive) : Drive := if D.lock == some p then { D with lock := none } else D

/-- A port reset (R39). -/
def State.resetPort (s : State) (p : PortId) : State :=
  let requests := s.portRequests p
  let before := (s.port p).state
  let s := (s.dropWaiting p).modPort p Port.afterReset
  let s := allDrives.foldl (fun t d => t.modDrive d (Drive.freeLockOf p)) s
  let s := match before with
    | .connected c => s.resetConnection c
    | _ => s
  requests.foldl State.resetRequest s

/-! ### Selection, accept and blocks taken -/

/-- A select (R29): port busy, raised by one that is not taken, stays up until a select is taken, the line falls or the port
is reset (log 38). -/
def Port.select (P : Port) : Port :=
  match P.state with
  | .idle => { P with state := .selected false, offer := none, portBusy := false }
  | .selected _ | .connected _ => { P with portBusy := true }
  | .offline | .lost => P

/-- The host takes the last byte of the answer (R30). -/
def Port.answerTaken (P : Port) : Port :=
  if P.state == .selected true then { P with state := .idle, sending := [] } else P

/-- Identifier of a data connection: kind, drive and tag of the path's request (R33). -/
def State.pathIdentifier (s : State) (k : PathId) : List Byte :=
  match (s.path k).holder.bind s.request? with
  | some r => dataIdentifier (r.kind == .write) r.drive r.tag
  | none => []

/-- An accept of the offer in hand (R31, R33, R36, R38, R120). -/
def State.accepted (s : State) (p : PortId) : State :=
  let P := s.port p
  match P.state, P.offer with
  | .idle, some (.data k) =>
    (s.modPort p fun P =>
      { P with
        state := .connected (.data k none), offer := none, sending := sentBlock (s.pathIdentifier k)
        waiting := P.waiting.filter fun x => x != k }).modPath k fun Q => { Q with conn := .connected, window := none }
  | .idle, some .status =>
    match P.statusQueue with
    | e :: _ =>
      s.modPort p fun P =>
        { P with
          state := .connected .status, offer := none
          sending := sentBlock (statusIdentifier e) ++ sentBlock (statusBlock e) }
    | [] => s
  | .idle, some .attention =>
    s.modPort p fun P =>
      { P with
        state := .connected (.attention P.attention), offer := none, attention := []
        sending := sentBlock attentionIdentifier ++ sentBlock (attentionBlock P.attention) }
  | _, _ => s

/-- The port returns to IDLE with nothing more to send. -/
def State.portIdle (s : State) (p : PortId) : State := s.modPort p fun P => { P with state := .idle, sending := [] }

/-- The host takes the last byte of a status block (R36, R65, R104). -/
def State.statusTaken (s : State) (p : PortId) : State :=
  match (s.port p).state with
  | .connected .status =>
    match (s.port p).statusQueue with
    | e :: rest => ((s.portIdle p).modPort p fun P => { P with statusQueue := rest }).freeRequest e.request
    | [] => s.portIdle p
  | .connected (.data k (some e)) => ((s.portIdle p).freeRequest e.request).releaseUnlessWriting k
  | .connected (.parting e) => (s.portIdle p).freeRequest e.request
  | _ => s

/-- The host takes the last byte of an attention block (R38). -/
def State.attentionTaken (s : State) (p : PortId) : State :=
  match (s.port p).state with
  | .connected (.attention _) => s.portIdle p
  | _ => s

end Sys2Proof.Machine
end

