-- ==== Sys2Proof/Machine/Ticks.lean ====
section
/-! DEFINITION. The slot and index events of a drive: the rotational position, the timers that count slots and
revolutions, and all that falls at a boundary (R4, R9, R25, R85, R87 to R89, R93 to R97, R110, R120, R122, R138, R140,
R175, R176). -/

namespace Sys2Proof.Machine

/-! ### What a passed boundary has left to be taken (log 3) -/

/-- A claim of the drive waits at its due boundary (R94). -/
def State.claimDue (s : State) (d : DriveId) : Bool :=
  match s.claimOf d with
  | some c => c.due == .slot (s.drive d).rpc
  | none => false

/-- A path of the drive whose reconnect window has reached 128 (R120). -/
def State.windowDue (s : State) (d : DriveId) (k : PathId) : Bool :=
  (s.path k).drive == some d &&
    (match (s.path k).window with
     | some n => Config.windowLimit ≤ n
     | none => false)

/-- The seek timer has reached 256 (R88). -/
def Drive.seekDue (D : Drive) : Bool :=
  match D.seekTimer with
  | some n => Config.seekLimit ≤ n
  | none => false

/-- The claim's miss, if it was not taken before the next event of the drive (R94; log 3). -/
def State.forceMiss (s : State) (d : DriveId) : State := if s.claimDue d then (s.missClaim d).settle else s

/-- A window's expiry, if it was not taken before the next event of the drive (R120; log 3). -/
def State.forceWindow (d : DriveId) (s : State) (k : PathId) : State :=
  if s.windowDue d k then (s.windowExpired k).settle else s

/-- The seek timer's expiry, if it was not taken before the next event of the drive (R88; log 3). -/
def State.forceSeek (s : State) (d : DriveId) : State :=
  if (s.drive d).seekDue then (s.seekExpired d).settle else s

/-- Everything the last boundary left due at the drive is taken first. -/
def State.forceDue (s : State) (d : DriveId) : State :=
  (allPaths.foldl (State.forceWindow d) (s.forceMiss d)).forceSeek d

/-! ### Counters -/

/-- The rotational position counter and the seek timer advance (R9, R85, R88; log 7). -/
def Drive.advance (index : Bool) (D : Drive) : Drive :=
  { D with
    rpc := if index then 0 else (D.rpc + 1) % Config.slots
    valid := D.valid || index
    seekTimer := D.seekTimer.map (satSucc Config.seekLimit) }

/-- A path's reconnect window advances at an event of its drive (R120). -/
def Path.advance (d : DriveId) (P : Path) : Path :=
  if P.drive == some d then { P with window := P.window.map (satSucc Config.windowLimit) } else P

/-- Every counter of slots of the drive advances (R9). -/
def State.advance (s : State) (d : DriveId) (index : Bool) : State :=
  allPaths.foldl (fun t k => t.modPath k (Path.advance d)) (s.modDrive d (Drive.advance index))

/-- The drive whose index events are the reference revolution: the lowest-numbered that is not NOT-READY (R25). -/
def State.referenceDrive (s : State) : Option DriveId := allDrives.find? fun d => (s.drive d).state != .notReady

/-- The drive of the relocation in hand (R160). -/
def Relocation.drive? (u : Relocation) : Option DriveId := u.entry.map fun e => e.drive

/-! ### The index event -/

/-- The index event ends the gap of a granted header step (R97). -/
def Path.atIndex (d : DriveId) (P : Path) : Path :=
  if P.drive == some d && P.service == some (.step .header) then { P with opDue := true } else P

/-- What an index event brings beside the counters of slots (R4, R25, R95, R97, R138, R160). -/
def State.indexWork (s : State) (d : DriveId) : State :=
  let s := if s.referenceDrive == some d then s.countLosses else s
  let s := if s.ru.drive? == some d then s.modRu Relocation.tick else s
  let s := allPaths.foldl (fun t k => t.modPath k (Path.atIndex d)) s
  let s := s.modDrive d fun D => { D with scan := D.scan.map Scan.atIndex }
  s.missFullTrack d

/-! ### Boundaries -/

/-- The scan at a boundary, and the sector of an ident confirmation (R85, R89, R140). -/
def Drive.atBoundary (D : Drive) : Drive :=
  let D := { D with scan := D.scan.map fun (c : Scan) => c.atBoundary D.rpc }
  D.scanGates.takeConfirmSector

/-- The write gate of a granted header step opens for the gap (R4, R10, R97). -/
def State.headerGap (s : State) (d : DriveId) : State :=
  match s.pathOnDrive d with
  | none => s
  | some k => if (s.path k).service == some (.step .header) then s.openGap d else s

/-- The setup event, its claim granted in the event, or missed at once if it falls due there and no path is free (R87,
R93). -/
def State.setupEvent (s : State) (d : DriveId) : State :=
  if (s.drive d).phase == .setup then
    let s := (s.setup d).arbitrate
    if s.claimDue d then s.missClaim d else s
  else s

/-- A slot or index event of a drive in service. -/
def State.boundary (s : State) (d : DriveId) (index : Bool) : State :=
  let s := (s.forceDue d).advance d index
  let s := if index then s.indexWork d else s
  (((s.modDrive d Drive.atBoundary).setupEvent d).headerGap d).pathBoundary d

/-- A slot or index event (R9): a NOT-READY drive's is not acted on. -/
def State.tick (s : State) (d : DriveId) (index : Bool) : State :=
  if (s.drive d).state == .notReady then s else s.boundary d index

/-- The internal revolution pulse (R25): the reference while every drive is NOT-READY. -/
def State.revolutionPulse (s : State) : State := if s.referenceDrive.isNone then s.countLosses else s

end Sys2Proof.Machine
end

