-- ==== Sys2Proof/Machine/StepEvents.lean ====
section
/-! DEFINITION. The completion of relocation steps on a data path (R97, R104, R123, R124). -/

namespace Sys2Proof.Machine

/-- A step whose operation the last boundary completed: its path and record (R122). -/
def State.stepDue (s : State) (d : DriveId) (kind : StepKind) : Option (PathId × Record) :=
  match s.pathOnDrive d with
  | none => none
  | some k =>
    let P := s.path k
    if P.service == some (.step kind) && P.opDue then
      match P.holder.bind s.request? with
      | some r => some (k, r)
      | none => none
    else none

/-- A drive stands at the boundary at which a path's pass ends (R122). -/
def State.atPassEnd (s : State) (d : DriveId) (k : PathId) : Bool :=
  match (s.path k).passStart with
  | some b => (s.drive d).rpc == 4 * b
  | none => false

/-- A step completes: its path is released, its record freed, and the unit has no step placed (R65, R104, R164). -/
def State.completeStep (s : State) (k : PathId) (r : Record) : State :=
  (((s.leaveDrive r.pos).releasePath k).freeRequest r.pos).modRu fun u => { u with step := .point }

/-- The physical track of a step. -/
def Record.stepTrack (r : Record) : Track := r.target.getD ⟨0, 0⟩

/-- The stage a step serves (Table 4-1). -/
def Record.stage (r : Record) : Option Stage :=
  match r.kind with
  | .step _ st => some st
  | _ => none

/-- A header step's operation completes at the index event (R97): its result is succeeded unless the write check is set
(R6). -/
def State.headerStepDone (s : State) (d : DriveId) (writeCheck : Bool) : State :=
  match s.stepDue d .header with
  | some (k, r) =>
    if (s.drive d).rpc == 0 then
      let s := match r.header with
        | some h => s.setRecorded d (.header (recordedHeader r.stepTrack h))
        | none => s
      (s.completeStep k r).headerResult (!writeCheck)
    else s
  | none => s

/-- A track read step completes at the end of the pass after which every sector has its entry (R123). -/
def State.trackReadDone (s : State) (d : DriveId) (reads : List (List SectorRead)) : State :=
  match s.stepDue d .read with
  | some (k, r) =>
    let entries := readEntries r.stepTrack reads
    if s.atPassEnd d k && (s.path k).passes == passesOf entries then
      ((s.giveOffset d .off).completeStep k r).readResult (entries.map fun e => e.2)
    else s
  | none => s

/-- A track write step completes at the end of its pass (R124). -/
def State.trackWriteDone (s : State) (d : DriveId) : State :=
  match s.stepDue d .write with
  | some (k, r) =>
    if s.atPassEnd d k then
      let s := match r.stage with
        | some st => s.setRecorded d (.track (recordedTrack r.stepTrack (s.trackImage st)))
        | none => s
      (s.completeStep k r).writeResult
    else s
  | none => s

/-- A track verify step completes at the end of its pass and hands over its sixteen outcomes (R124). -/
def State.trackVerifyDone (s : State) (d : DriveId) (reads : List SectorRead) : State :=
  match s.stepDue d .verify with
  | some (k, r) =>
    if s.atPassEnd d k then (s.completeStep k r).verifyResult (trackOutcomes r.stepTrack reads) else s
  | none => s

/-- The powered-on unit with its input lines as they stand and its queue kept (R21, R22; log 6). -/
def State.powerOn (s : State) : State :=
  { State.reset with
    ports := s.ports.map fun P => { Port.reset with opLine := P.opLine }
    drives := s.drives.map fun D =>
      { Drive.reset with readyLine := D.readyLine, typeCode := D.typeCode, faultLine := D.faultLine }
    pending := s.pending }

/-- An operational line already high is taken as a rise (R22). -/
def State.lineIfHigh (s : State) (p : PortId) : State := if (s.port p).opLine then s.lineRise p else s

/-- A ready line already high is taken as a rise (R21). -/
def State.readyIfHigh (s : State) (d : DriveId) : State :=
  if (s.drive d).readyLine then s.takeReady d (s.drive d).typeCode else s

/-- Power-on reset (R21). -/
def State.powerOnReset (s : State) : State :=
  allDrives.foldl State.readyIfHigh (allPorts.foldl State.lineIfHigh s.powerOn)

/-- A rise of the ready line (R11, R12): one already high does not rise. -/
def State.readyRise (s : State) (d : DriveId) (code : Nat) : State :=
  if (s.drive d).readyLine then s else s.takeReady d code

/-- A fall of the ready line (R11, R17). -/
def State.readyFall (s : State) (d : DriveId) : State :=
  let s := s.modDrive d fun D => { D with readyLine := false }
  if (s.drive d).state == .notReady then s else s.loseReady d

/-- A rise of the fault line (R11, R15; log 25). -/
def State.faultRise (s : State) (d : DriveId) : State :=
  (s.modDrive d fun D => { D with faultLine := true }).faultDrive d

/-- The expiry of the progress timer (R175). -/
def State.progressExpired (s : State) : State := s.modRu fun u => { u with progress := u.progress.expire }

/-- The expiry of the suspension timer: the relocation resumes (R176). -/
def State.suspensionExpired (s : State) : State :=
  if s.ru.state == .suspended && s.suspensionOver then s.resume else s

/-- A SUSPENDED relocation resumes when no eligible host record remains (R176). -/
def State.resumeIdle (s : State) : State := if s.ru.state == .suspended && s.noHostWaits then s.resume else s

end Sys2Proof.Machine
end

