-- ==== Sys2Proof/Machine/DriveCommands.lean ====
section
/-! DEFINITION. Meanings of the commands of the drive links, the scan among them. -/

namespace Sys2Proof.Machine

/-- READY_LINE_RISE (R1, R12). -/
def execReadyLineRise (d : DriveId) (code : Nat) (s : State) : Host.Outcome State Fault Refusal :=
  .next (s.readyRise d code).settle

/-- READY_LINE_FALL (R17, R146, R180). -/
def execReadyLineFall (d : DriveId) (s : State) : Host.Outcome State Fault Refusal :=
  .next (s.readyFall d).settle

/-- FAULT_LINE_RISE (R15, R16, R178). -/
def execFaultLineRise (d : DriveId) (s : State) : Host.Outcome State Fault Refusal :=
  .next (s.faultRise d).settle

/-- SEEK_TIMER_EXPIRY (R15, R88). -/
def execSeekTimerExpiry (d : DriveId) (s : State) : Host.Outcome State Fault Refusal :=
  .next (s.seekExpired d).settle

/-- SLOT_EVENT (R9). -/
def execSlotEvent (d : DriveId) (s : State) : Host.Outcome State Fault Refusal :=
  .next (s.tick d false).settle

/-- INDEX_EVENT (R9). -/
def execIndexEvent (d : DriveId) (s : State) : Host.Outcome State Fault Refusal :=
  .next (s.tick d true).settle

/-- SEEK_COMPLETE (R10, R13, R19, R20, R89, R90). -/
def execSeekComplete (d : DriveId) (s : State) : Host.Outcome State Fault Refusal :=
  .next (s.seekCompleted d).settle

/-- IDENT_CONFIRMATION (R89 to R91). -/
def execIdentConfirmation (d : DriveId) (ident : Option RawIdent) (s : State) : Host.Outcome State Fault Refusal :=
  .next (s.confirmed d ident).settle

/-- CLAIM_MISS (R94). -/
def execClaimMiss (d : DriveId) (s : State) : Host.Outcome State Fault Refusal :=
  .next (s.missClaim d).settle

/-- SECTOR_READ_OUTCOME (R110, R113 to R115, R119). -/
def execSectorReadOutcome (d : DriveId) (r : SectorRead) (s : State) : Host.Outcome State Fault Refusal :=
  .next (s.sectorOutcome d r).settle

/-- SECTOR_WRITE_COMPLETE (R117, R118). -/
def execSectorWriteComplete (d : DriveId) (s : State) : Host.Outcome State Fault Refusal :=
  .next (s.writeSectorEnd d).settle

/-- SCAN_HEADER_READ (R138, R139, R141). -/
def execScanHeaderRead (d : DriveId) (header : Option RawHeader) (s : State) : Host.Outcome State Fault Refusal :=
  .next (s.scanHeader d header).settle

/-- SCAN_DISCARD_WRITE (R140, R141): the write check is not acted on. -/
def execScanDiscardWrite (d : DriveId) (_writeCheck : Bool) (s : State) : Host.Outcome State Fault Refusal :=
  .next (s.scanDiscarded d).settle

/-- REBUILD_PASS (R140, R141). -/
def execRebuildPass (d : DriveId) (reads : List SectorRead) (s : State) : Host.Outcome State Fault Refusal :=
  .next (s.scanRebuilt d reads).settle

end Sys2Proof.Machine
end

