-- ==== Sys2Proof/Machine/OrderCommands.lean ====
section
/-! DEFINITION. Meanings of the order block as bytes and of the seventeen orders as fields (R40 to R62). -/

namespace Sys2Proof.Machine

/-- ORDER_BLOCK_RECEIVED (R29, R41, R42). -/
def execOrderBlockReceived (p : PortId) (block : List LineByte) (s : State) : Host.Outcome State Fault Refusal :=
  .next (s.blockTaken p block).settle

/-- READ (R48). -/
def execRead (p : PortId) (d : DriveId) (tag : Byte) (extents : List Extent) (s : State) :
    Host.Outcome State Fault Refusal :=
  .next (s.orderTaken p ⟨tag, .drive d (.read extents)⟩).settle

/-- WRITE (R48). -/
def execWrite (p : PortId) (d : DriveId) (tag : Byte) (extents : List Extent) (s : State) :
    Host.Outcome State Fault Refusal :=
  .next (s.orderTaken p ⟨tag, .drive d (.write extents)⟩).settle

/-- VERIFY (R48). -/
def execVerify (p : PortId) (d : DriveId) (tag : Byte) (extents : List Extent) (s : State) :
    Host.Outcome State Fault Refusal :=
  .next (s.orderTaken p ⟨tag, .drive d (.verify extents)⟩).settle

/-- POSITION (R49). -/
def execPosition (p : PortId) (d : DriveId) (tag : Byte) (track : Track) (s : State) :
    Host.Outcome State Fault Refusal :=
  .next (s.orderTaken p ⟨tag, .drive d (.position track)⟩).settle

/-- CALIBRATE (R19, R20, R49). -/
def execCalibrate (p : PortId) (d : DriveId) (tag : Byte) (s : State) : Host.Outcome State Fault Refusal :=
  .next (s.orderTaken p ⟨tag, .drive d .calibrate⟩).settle

/-- DECLARE (R50, R51, R142). -/
def execDeclare (p : PortId) (d : DriveId) (tag : Byte) (noCopy replace : Bool) (track : Track) (s : State) :
    Host.Outcome State Fault Refusal :=
  .next (s.orderTaken p ⟨tag, .drive d (.declare noCopy replace track)⟩).settle

/-- RETIRE (R52, R143). -/
def execRetire (p : PortId) (d : DriveId) (tag : Byte) (track : Track) (s : State) :
    Host.Outcome State Fault Refusal :=
  .next (s.orderTaken p ⟨tag, .drive d (.retire track)⟩).settle

/-- REPORT (R54, R194). -/
def execReport (p : PortId) (d : DriveId) (tag : Byte) (s : State) : Host.Outcome State Fault Refusal :=
  .next (s.orderTaken p ⟨tag, .drive d .report⟩).settle

/-- CANCEL (R55, R56). -/
def execCancel (p : PortId) (d : DriveId) (tag : Byte) (s : State) : Host.Outcome State Fault Refusal :=
  .next (s.orderTaken p ⟨tag, .drive d .cancel⟩).settle

/-- LOCK (R57, R183). -/
def execLock (p : PortId) (d : DriveId) (tag : Byte) (s : State) : Host.Outcome State Fault Refusal :=
  .next (s.orderTaken p ⟨tag, .drive d .lock⟩).settle

/-- UNLOCK (R57, R184). -/
def execUnlock (p : PortId) (d : DriveId) (tag : Byte) (s : State) : Host.Outcome State Fault Refusal :=
  .next (s.orderTaken p ⟨tag, .drive d .unlock⟩).settle

/-- SEIZE (R57, R185). -/
def execSeize (p : PortId) (d : DriveId) (tag : Byte) (s : State) : Host.Outcome State Fault Refusal :=
  .next (s.orderTaken p ⟨tag, .drive d .seize⟩).settle

/-- MAP QUERY (R58, R147). -/
def execMapQuery (p : PortId) (d : DriveId) (tag : Byte) (track : Track) (s : State) :
    Host.Outcome State Fault Refusal :=
  .next (s.orderTaken p ⟨tag, .drive d (.mapQuery track)⟩).settle

/-- MAP LIST (R59, R147). -/
def execMapList (p : PortId) (d : DriveId) (tag : Byte) (s : State) : Host.Outcome State Fault Refusal :=
  .next (s.orderTaken p ⟨tag, .drive d .mapList⟩).settle

/-- MAP FREEZE (R60, R145). -/
def execMapFreeze (p : PortId) (d : DriveId) (tag : Byte) (s : State) : Host.Outcome State Fault Refusal :=
  .next (s.orderTaken p ⟨tag, .drive d .mapFreeze⟩).settle

/-- STRING STATUS (R61). -/
def execStringStatus (p : PortId) (tag : Byte) (s : State) : Host.Outcome State Fault Refusal :=
  .next (s.orderTaken p ⟨tag, .stringStatus⟩).settle

/-- SET PARAMETERS (R62, R63). -/
def execSetParameters (p : PortId) (tag : Byte) (fields : ParameterFields) (s : State) :
    Host.Outcome State Fault Refusal :=
  .next (s.orderTaken p ⟨tag, .setParameters fields⟩).settle

end Sys2Proof.Machine
end

