-- ==== Sys2Proof/Machine/PortCommands.lean ====
section
/-! DEFINITION. Meanings of the commands of the channel ports and of the unit as a whole. -/

namespace Sys2Proof.Machine

/-- POWER_ON_RESET (R21, R22). -/
def execPowerOnReset (s : State) : Host.Outcome State Fault Refusal :=
  .next (s.powerOnReset).settle

/-- PORT_RESET (R39). -/
def execPortReset (p : PortId) (s : State) : Host.Outcome State Fault Refusal :=
  .next (s.resetPort p).settle

/-- OPERATIONAL_LINE_FALL (R23, R24). -/
def execOperationalLineFall (p : PortId) (s : State) : Host.Outcome State Fault Refusal :=
  .next (s.lineFall p).settle

/-- OPERATIONAL_LINE_RISE (R27). -/
def execOperationalLineRise (p : PortId) (s : State) : Host.Outcome State Fault Refusal :=
  .next (s.lineRise p).settle

/-- PORT_LOSS_TIMER_EXPIRY (R25, R26). -/
def execPortLossTimerExpiry (p : PortId) (s : State) : Host.Outcome State Fault Refusal :=
  .next (s.lossExpired p).settle

/-- SELECT (R29, R32). -/
def execSelect (p : PortId) (s : State) : Host.Outcome State Fault Refusal :=
  .next (s.modPort p Port.select).settle

/-- ANSWER_TAKEN (R30). -/
def execAnswerTaken (p : PortId) (s : State) : Host.Outcome State Fault Refusal :=
  .next (s.modPort p Port.answerTaken).settle

/-- ACCEPT (R31 to R33, R36, R38). -/
def execAccept (p : PortId) (s : State) : Host.Outcome State Fault Refusal :=
  .next (s.accepted p).settle

/-- STATUS_BLOCK_TAKEN (R36, R65, R104). -/
def execStatusBlockTaken (p : PortId) (s : State) : Host.Outcome State Fault Refusal :=
  .next (s.statusTaken p).settle

/-- ATTENTION_BLOCK_TAKEN (R38). -/
def execAttentionBlockTaken (p : PortId) (s : State) : Host.Outcome State Fault Refusal :=
  .next (s.attentionTaken p).settle

/-- WRITE_DATA_BYTE (R34, R108, R116, R118). -/
def execWriteDataByte (p : PortId) (b : LineByte) (s : State) : Host.Outcome State Fault Refusal :=
  .next (s.giveWriteByte p b).settle

/-- READ_DATA_BYTE_TAKEN (R106, R111, R113). -/
def execReadDataByteTaken (p : PortId) (s : State) : Host.Outcome State Fault Refusal :=
  .next (s.takeReadByte p).settle

/-- RECONNECT_WINDOW_EXPIRY (R113, R121). -/
def execReconnectWindowExpiry (k : PathId) (s : State) : Host.Outcome State Fault Refusal :=
  .next (s.windowExpired k).settle

/-- INTERNAL_REVOLUTION_PULSE (R25). -/
def execInternalRevolutionPulse (s : State) : Host.Outcome State Fault Refusal :=
  .next (s.revolutionPulse).settle

end Sys2Proof.Machine
end

