-- ==== Sys2Proof/Machine/RelocationCommands.lean ====
section
/-! DEFINITION. Meanings of the commands of the relocation unit: its steps, its timers, and the points it passes. -/

namespace Sys2Proof.Machine

/-- WAITING_STEP_ADMITTED (R69). -/
def execWaitingStepAdmitted (s : State) : Host.Outcome State Fault Refusal :=
  .next (s.admitWaiting).settle

/-- COMMIT_POINT_WRITE_END (R177). -/
def execCommitPointWriteEnd (s : State) : Host.Outcome State Fault Refusal :=
  .next (s.passHeldPoint).settle

/-- PROGRESS_TIMER_EXPIRY (R175). -/
def execProgressTimerExpiry (s : State) : Host.Outcome State Fault Refusal :=
  .next (s.progressExpired).settle

/-- SUSPENSION_TIMER_EXPIRY (R176). -/
def execSuspensionTimerExpiry (s : State) : Host.Outcome State Fault Refusal :=
  .next (s.suspensionExpired).settle

/-- RELOCATION_RESUME (R176). -/
def execRelocationResume (s : State) : Host.Outcome State Fault Refusal :=
  .next (s.resumeIdle).settle

/-- HEADER_STEP_COMPLETE (R97). -/
def execHeaderStepComplete (d : DriveId) (writeCheck : Bool) (s : State) : Host.Outcome State Fault Refusal :=
  .next (s.headerStepDone d writeCheck).settle

/-- TRACK_READ_STEP_COMPLETE (R123). -/
def execTrackReadStepComplete (d : DriveId) (reads : List (List SectorRead)) (s : State) :
    Host.Outcome State Fault Refusal :=
  .next (s.trackReadDone d reads).settle

/-- TRACK_WRITE_STEP_COMPLETE (R124). -/
def execTrackWriteStepComplete (d : DriveId) (s : State) : Host.Outcome State Fault Refusal :=
  .next (s.trackWriteDone d).settle

/-- TRACK_VERIFY_STEP_COMPLETE (R124). -/
def execTrackVerifyStepComplete (d : DriveId) (reads : List SectorRead) (s : State) :
    Host.Outcome State Fault Refusal :=
  .next (s.trackVerifyDone d reads).settle

end Sys2Proof.Machine
end

