-- ==== Sys2Proof/Machine/Dispatch.lean ====
section
/-! DEFINITION. The meaning of each command, one arm per constructor. -/

namespace Sys2Proof.Machine

def exec (i : Instr) (s : State) : Host.Outcome State Fault Refusal :=
  match i with
  | .powerOnReset => Sys2Proof.Machine.execPowerOnReset s
  | .portReset p => Sys2Proof.Machine.execPortReset p s
  | .operationalLineFall p => Sys2Proof.Machine.execOperationalLineFall p s
  | .operationalLineRise p => Sys2Proof.Machine.execOperationalLineRise p s
  | .portLossTimerExpiry p => Sys2Proof.Machine.execPortLossTimerExpiry p s
  | .select p => Sys2Proof.Machine.execSelect p s
  | .orderBlockReceived p block => Sys2Proof.Machine.execOrderBlockReceived p block s
  | .read p d tag extents => Sys2Proof.Machine.execRead p d tag extents s
  | .write p d tag extents => Sys2Proof.Machine.execWrite p d tag extents s
  | .verify p d tag extents => Sys2Proof.Machine.execVerify p d tag extents s
  | .position p d tag track => Sys2Proof.Machine.execPosition p d tag track s
  | .calibrate p d tag => Sys2Proof.Machine.execCalibrate p d tag s
  | .declare p d tag noCopy replace track => Sys2Proof.Machine.execDeclare p d tag noCopy replace track s
  | .retire p d tag track => Sys2Proof.Machine.execRetire p d tag track s
  | .report p d tag => Sys2Proof.Machine.execReport p d tag s
  | .cancel p d tag => Sys2Proof.Machine.execCancel p d tag s
  | .lock p d tag => Sys2Proof.Machine.execLock p d tag s
  | .unlock p d tag => Sys2Proof.Machine.execUnlock p d tag s
  | .seize p d tag => Sys2Proof.Machine.execSeize p d tag s
  | .mapQuery p d tag track => Sys2Proof.Machine.execMapQuery p d tag track s
  | .mapList p d tag => Sys2Proof.Machine.execMapList p d tag s
  | .mapFreeze p d tag => Sys2Proof.Machine.execMapFreeze p d tag s
  | .stringStatus p tag => Sys2Proof.Machine.execStringStatus p tag s
  | .setParameters p tag fields => Sys2Proof.Machine.execSetParameters p tag fields s
  | .answerTaken p => Sys2Proof.Machine.execAnswerTaken p s
  | .accept p => Sys2Proof.Machine.execAccept p s
  | .statusBlockTaken p => Sys2Proof.Machine.execStatusBlockTaken p s
  | .attentionBlockTaken p => Sys2Proof.Machine.execAttentionBlockTaken p s
  | .writeDataByte p b => Sys2Proof.Machine.execWriteDataByte p b s
  | .readDataByteTaken p => Sys2Proof.Machine.execReadDataByteTaken p s
  | .reconnectWindowExpiry k => Sys2Proof.Machine.execReconnectWindowExpiry k s
  | .readyLineRise d code => Sys2Proof.Machine.execReadyLineRise d code s
  | .readyLineFall d => Sys2Proof.Machine.execReadyLineFall d s
  | .faultLineRise d => Sys2Proof.Machine.execFaultLineRise d s
  | .seekTimerExpiry d => Sys2Proof.Machine.execSeekTimerExpiry d s
  | .slotEvent d => Sys2Proof.Machine.execSlotEvent d s
  | .indexEvent d => Sys2Proof.Machine.execIndexEvent d s
  | .seekComplete d => Sys2Proof.Machine.execSeekComplete d s
  | .identConfirmation d ident => Sys2Proof.Machine.execIdentConfirmation d ident s
  | .claimMiss d => Sys2Proof.Machine.execClaimMiss d s
  | .sectorReadOutcome d r => Sys2Proof.Machine.execSectorReadOutcome d r s
  | .sectorWriteComplete d => Sys2Proof.Machine.execSectorWriteComplete d s
  | .waitingStepAdmitted => Sys2Proof.Machine.execWaitingStepAdmitted s
  | .commitPointWriteEnd => Sys2Proof.Machine.execCommitPointWriteEnd s
  | .progressTimerExpiry => Sys2Proof.Machine.execProgressTimerExpiry s
  | .suspensionTimerExpiry => Sys2Proof.Machine.execSuspensionTimerExpiry s
  | .relocationResume => Sys2Proof.Machine.execRelocationResume s
  | .headerStepComplete d writeCheck => Sys2Proof.Machine.execHeaderStepComplete d writeCheck s
  | .trackReadStepComplete d reads => Sys2Proof.Machine.execTrackReadStepComplete d reads s
  | .trackWriteStepComplete d => Sys2Proof.Machine.execTrackWriteStepComplete d s
  | .trackVerifyStepComplete d reads => Sys2Proof.Machine.execTrackVerifyStepComplete d reads s
  | .scanHeaderRead d header => Sys2Proof.Machine.execScanHeaderRead d header s
  | .scanDiscardWrite d writeCheck => Sys2Proof.Machine.execScanDiscardWrite d writeCheck s
  | .rebuildPass d reads => Sys2Proof.Machine.execRebuildPass d reads s
  | .internalRevolutionPulse => Sys2Proof.Machine.execInternalRevolutionPulse s

end Sys2Proof.Machine
end

