-- ==== Sys2Proof/Safety.lean ====
section
/-! DEFINITION. What safety means for the unit: a step is safe when it answers a next state, and the invariants that the
manual's bounds and orders give the state. -/

namespace Sys2Proof.Machine

/-- A step is safe when it answers a next state: neither a fault nor a refusal. -/
def State.stepsOn (s : State) : Prop := ∃ t, step s = .next t

/-- The parameters of the string coordination unit lie in the ranges of R62. -/
def Params.inRange (q : Params) : Prop :=
  q.reversal ≤ 63 ∧ 2 ≤ q.softThreshold ∧ q.softThreshold ≤ 15 ∧ 1 ≤ q.progressInterval ∧ q.progressInterval ≤ 15
    ∧ q.priority ≤ 15

/-- All eight parameters lie in their ranges (R62). -/
def State.paramsInRange (s : State) : Prop :=
  s.params.inRange ∧ ∀ p, 1 ≤ (s.port p).threshold ∧ (s.port p).threshold ≤ 4

/-- The queue store holds at most 96 records (R64), a port at most 16 outstanding requests (R46), a drive's queue a count
of at most 24 (R67). -/
def State.storeWithin (s : State) : Prop :=
  s.records.length ≤ Config.storeSize ∧ (∀ p, (s.outstanding p).length ≤ Config.portLimit)
    ∧ ∀ d, s.queueCount d ≤ Config.queueLimit

/-- The records stand in acceptance order, each at a position of its own that has been given out (R64, Table 4-1). -/
def State.recordsOrdered (s : State) : Prop :=
  s.records.Pairwise (fun a b => a.pos < b.pos) ∧ ∀ r ∈ s.records, r.pos < s.nextPos

/-- A health list keeps its bounds: 16 entries, no track twice, tallies of 15 (R148, R149). -/
def healthWithin (l : List HealthEntry) : Prop :=
  l.length ≤ Config.healthLimit ∧ (l.map (·.track)).Nodup
    ∧ ∀ h ∈ l, h.soft ≤ Config.tallyLimit ∧ h.hard ≤ Config.tallyLimit

/-- A map table holds at most 128 entries in ascending home track, one entry to a home (R130). -/
def mapWithin (l : List MapEntry) : Prop :=
  l.length ≤ Config.mapLimit ∧ l.Pairwise fun a b => trackBefore a.home b.home = true

/-- A drive's counter is a slot number (R9), its health list and its map table within their bounds and in their order. -/
def Drive.inBounds (D : Drive) : Prop :=
  D.rpc < Config.slots ∧ healthWithin D.health ∧ mapWithin D.map

/-- Every drive is in its bounds. -/
def State.drivesInBounds (s : State) : Prop := ∀ d, (s.drive d).inBounds

/-! ### When an order passes its checks -/

/-- No other port holds the lock of the drive (R44). -/
def State.lockFreeFor (s : State) (p : PortId) (d : DriveId) : Prop :=
  (s.drive d).lock = none ∨ (s.drive d).lock = some p

/-- Port p awaits an order block, has no lock-lost mark for the drive and holds no report for it (R29, R44, R45). -/
def State.hears (s : State) (p : PortId) (d : DriveId) : Prop :=
  (s.port p).state = .selected false ∧ s.lockLostMark p d = false ∧ s.reportOf p d = none

/-- What steps 4 to 8 ask for an order that takes a record: the order heard, no other holder, the tag free, room in the
store and in the port's count (R44 to R46). -/
def State.takesRecord (s : State) (p : PortId) (d : DriveId) (tag : Byte) : Prop :=
  s.hears p d ∧ s.lockFreeFor p d ∧ (∀ r ∈ s.outstanding p, r.tag ≠ tag) ∧ s.records.length < Config.storeSize
    ∧ (s.outstanding p).length < Config.portLimit

/-- What they ask for an order that enters the queue of a READY drive (R43 to R46). -/
def State.takesQueued (s : State) (p : PortId) (d : DriveId) (tag : Byte) : Prop :=
  s.takesRecord p d tag ∧ (s.drive d).state = .ready ∧ s.queueCount d < Config.queueLimit

/-! ### What an ending and a scan leave -/

/-- An outstanding host request of port p, not ended, not connected to its port, and the port not LOST: its ending status
joins the port's status queue (R35). -/
def State.endsQueued (s : State) (p : PortId) (r : Record) : Prop :=
  s.request? r.pos = some r ∧ r.source = .port p ∧ r.ended = false ∧ r.detached = false ∧ (s.port p).state ≠ .lost
    ∧ s.ownConnection p r.pos = none

/-- The request's ending status stands in its port's status queue, with the sectors it has not transferred as residual and
the first of them as address (R35, R53). -/
def State.endedWith (t : State) (p : PortId) (r : Record) (status : Status) : Prop :=
  ∃ x ∈ (t.port p).statusQueue, x.request = r.pos ∧ x.tag = r.tag ∧ x.kind = r.kind ∧ x.status = status
    ∧ x.residual = r.total - r.done ∧ x.address = r.addressAt r.done

/-- Where a scan goes when it has no header left to read: to the first spare that lost a dispute, else to the first
alternate to rebuild, else it is complete (R140, R141). D is the drive before, E after. -/
def Drive.scansOn (D E : Drive) (losers alternates : List Track) : Prop :=
  match losers, alternates with
  | t :: rest, _ =>
    E.state = .scanning ∧ E.scan = some ⟨.discard, t, rest, [], D.cyl == some t.cyl, none, false⟩
  | [], t :: rest =>
    E.state = .scanning ∧ E.scan = some ⟨.rebuild, t, [], rest, D.cyl == some t.cyl, none, false⟩
  | [], [] => E.state = .ready ∧ E.mapBuilt = true ∧ E.scan = none

/-! ### Answers -/

/-- The port has been answered: it is SELECTED with its order answered, and sends these bytes, each with its parity, end of
block with the last of a reply (R28, R30). -/
def State.answered (t : State) (p : PortId) (bytes : List Byte) : Prop :=
  (t.port p).state = .selected true ∧ (t.port p).sending = sentAnswer bytes

end Sys2Proof.Machine
end

