-- ==== Sys2Proof/Certificates/Slice0/Obligations.lean ====
section
/-! DEFINITION. The statements for the provers. In each, `settle` is the end of the event (log 4). -/

open Sys2Proof Sys2Proof.Machine

/-! ### The machine -/

/-- The command at the front of the queue runs on the state with the queue's rest. -/
def Obligations.StepRunsFrontCommand : Prop :=
  (∀ (c : Instr) (s : State), step (s.withPending (c :: s.pending)) = exec c s)
    ∧ ∀ (c : Instr) (rest : List Instr) (s : State), s.pending = c :: rest → step s = exec c (s.withPending rest)

/-- On an empty queue the unit idles: the model's choice (log 1). -/
def Obligations.StepIdlesOnEmptyQueue : Prop := ∀ s : State, s.pending = [] → step s = .next s

/-- No command faults or is refused, and none touches the queue behind it (the queue is the model's own, log 1). -/
def Obligations.EveryCommandAnswersNext : Prop := ∀ (c : Instr) (s : State), ∃ t, exec c s = .next t ∧ t.pending = s.pending

/-! ### Invariants -/

/-- After reset every invariant of Safety.lean holds. -/
def Obligations.InvariantsHoldAtReset : Prop :=
  State.reset.paramsInRange ∧ State.reset.storeWithin ∧ State.reset.recordsOrdered ∧ State.reset.drivesInBounds

/-- Every step keeps the string parameters in the ranges of R62. -/
def Obligations.StepKeepsParametersInRange : Prop :=
  ∀ s t : State, s.paramsInRange → step s = .next t → t.paramsInRange

/-- Every step keeps the store at 96 records, every port at 16 outstanding requests and every drive at a queue count of 24
(R46, R64, R67). -/
def Obligations.StepKeepsStoreBounds : Prop := ∀ s t : State, s.storeWithin → step s = .next t → t.storeWithin

/-- Every step keeps the records in acceptance order, each at a position of its own (R64, Table 4-1). -/
def Obligations.StepKeepsAcceptanceOrder : Prop :=
  ∀ s t : State, s.recordsOrdered → step s = .next t → t.recordsOrdered

/-- Every step keeps the drives' counters below 64, the health lists at 16 entries, no track twice, with tallies of at most
15, and the map tables at 128 entries in ascending home track, one to a home (R9, R148, R149, R130). -/
def Obligations.StepKeepsDriveBounds : Prop := ∀ s t : State, s.drivesInBounds → step s = .next t → t.drivesInBounds

/-! ### Frames -/

/-- SET PARAMETERS (as fields, or as the bytes of a block) and POWER_ON_RESET apart, every command leaves the string
parameters and the read thresholds. -/
def Obligations.FrameParameters : Prop :=
  ∀ (c : Instr) (s t : State), exec c s = .next t → (∀ p tag f, c ≠ .setParameters p tag f) →
    (∀ p l, c = .orderBlockReceived p l → ∀ tag f, decodeOrder (l.map fun x => x.byte) ≠ some ⟨tag, .setParameters f⟩) →
      c ≠ .powerOnReset → t.params = s.params ∧ ∀ p, (t.port p).threshold = (s.port p).threshold

/-- Locks, freeze marks and lock-lost marks. LOCK, UNLOCK, SEIZE, PORT_RESET and POWER_ON_RESET apart, every command leaves
every lock; MAP FREEZE and POWER_ON_RESET apart, every freeze mark; the orders, PORT_RESET and POWER_ON_RESET apart, every
lock-lost mark. A block received counts as the order its bytes spell, and as none where they spell none. -/
def Obligations.FrameLocksAndMarks : Prop :=
  ∀ (c : Instr) (s t : State), exec c s = .next t → c ≠ .powerOnReset →
    let spells (o : Order) : Prop := ∃ p l tag, c = .orderBlockReceived p l
      ∧ decodeOrder (l.map fun x => x.byte) = some ⟨tag, o⟩
    ((∀ p d tag, c ≠ .lock p d tag) → (∀ p d tag, c ≠ .unlock p d tag) → (∀ p d tag, c ≠ .seize p d tag) →
        (∀ p, c ≠ .portReset p) → (∀ d, ¬spells (.drive d .lock)) → (∀ d, ¬spells (.drive d .unlock)) →
          (∀ d, ¬spells (.drive d .seize)) → ∀ d, (t.drive d).lock = (s.drive d).lock)
      ∧ ((∀ p d tag, c ≠ .mapFreeze p d tag) → (∀ d, ¬spells (.drive d .mapFreeze)) →
          ∀ d, (t.drive d).freeze = (s.drive d).freeze)
      ∧ ((∀ p b, c ≠ OrderBlock.command p b) → (∀ p, c ≠ .portReset p) → (∀ o, ¬spells o) →
          ∀ p, (t.port p).lockLost = (s.port p).lockLost)

/-- The slot and index events of a drive, its fall of ready and POWER_ON_RESET apart, every command leaves its counter and
the valid mark. -/
def Obligations.FrameCounters : Prop :=
  ∀ (c : Instr) (s t : State) (d : DriveId), exec c s = .next t → c ≠ .slotEvent d → c ≠ .indexEvent d →
    c ≠ .readyLineFall d → c ≠ .powerOnReset →
      (t.drive d).rpc = (s.drive d).rpc ∧ (t.drive d).valid = (s.drive d).valid

/-! ### Resets and the port lines -/

/-- Power-on reset: every record free, no claim, both paths FREE, the relocation unit IDLE with its lists empty; ports
OFFLINE, or IDLE where the line is high, with nothing queued, attended, offered or held; drives NOT-READY, or CALIBRATING
where the ready line is high with a type code of R1; locks, marks, counters, sweep, map, pool, health list and parameters at
their first values; the level of each port's operational line is kept (log 6), and the queue (log 1). -/
def Obligations.PowerOnResetState : Prop :=
  ∀ s : State, ∃ t, exec .powerOnReset s = .next t ∧ t.pending = s.pending ∧ t.params = Params.reset
    ∧ t.records = [] ∧ t.claims = [] ∧ t.overdue = [] ∧ (∀ k, t.path k = Path.free)
    ∧ t.ru = Relocation.reset ∧ t.buffer = none ∧ t.workList = [] ∧ t.stalled = []
    ∧ (∀ p, (t.port p).opLine = (s.port p).opLine ∧ (t.port p).threshold = 2
        ∧ (t.port p).state = (if (s.port p).opLine then .idle else .offline)
        ∧ (t.port p).statusQueue = [] ∧ (t.port p).attention = [] ∧ (t.port p).offer = none
        ∧ (t.port p).waiting = [] ∧ (t.port p).lossTimer = none
        ∧ ∀ d, t.lockLostMark p d = false ∧ t.reportOf p d = none)
    ∧ ∀ d, (t.drive d).lock = none ∧ (t.drive d).freeze = false ∧ (t.drive d).mapBuilt = false
        ∧ (t.drive d).rpc = 0 ∧ (t.drive d).valid = false ∧ (t.drive d).cyl = none ∧ (t.drive d).health = []
        ∧ (t.drive d).map = [] ∧ (t.drive d).pool = [] ∧ (t.drive d).active = none ∧ (t.drive d).sweep = .inward
        ∧ (t.drive d).state = (if (s.drive d).readyLine && (driveTypeOf (s.drive d).typeCode).isSome then .calibrating
            else .notReady)

/-- A port reset leaves the port no request, no status, no attention, no held report, no lock and no lock-lost mark, and
brings it from SELECTED or CONNECTED to IDLE; other ports' locks and marks stay. It lowers the port busy line, the model's
choice (log 38). -/
def Obligations.PortResetClearsPort : Prop :=
  ∀ (p : PortId) (s : State),
    ((s.resetPort p).port p).attention = [] ∧ ((s.resetPort p).port p).offer = none
      ∧ ((s.resetPort p).port p).waiting = []
      ∧ ∃ t, exec (.portReset p) s = .next t ∧ t = (s.resetPort p).settle ∧ t.outstanding p = []
        ∧ (t.port p).statusQueue = [] ∧ (∀ d, t.reportOf p d = none)
        ∧ (t.port p).state = (s.port p).state.afterReset ∧ (t.port p).portBusy = false
        ∧ (∀ d, t.lockLostMark p d = false) ∧ (∀ q, q ≠ p → (t.port q).lockLost = (s.port q).lockLost)
        ∧ ∀ d, (t.drive d).lock = (if (s.drive d).lock = some p then none else (s.drive d).lock)

/-- A fall of the operational line brings the port to OFFLINE with its timer at 0, and a line already low does not fall; a
rise brings a port in OFFLINE or LOST to IDLE with its timer stopped, and in another state changes the level only. -/
def Obligations.OperationalLine : Prop :=
  (∀ (p : PortId) (s : State), (s.port p).opLine = true →
      ∃ t, exec (.operationalLineFall p) s = .next t ∧ (t.port p).opLine = false ∧ (t.port p).state = .offline
        ∧ (t.port p).lossTimer = some 0 ∧ (t.port p).sending = [] ∧ ∀ d, (t.drive d).lock = (s.drive d).lock)
    ∧ (∀ (p : PortId) (s : State), (s.port p).opLine = false → exec (.operationalLineFall p) s = .next s.settle)
    ∧ (∀ (p : PortId) (s : State), (s.port p).state = .offline ∨ (s.port p).state = .lost →
        ∃ t, exec (.operationalLineRise p) s = .next t ∧ (t.port p).opLine = true ∧ (t.port p).state = .idle
          ∧ (t.port p).lossTimer = none)
    ∧ ∀ (p : PortId) (s : State), (s.port p).state ≠ .offline → (s.port p).state ≠ .lost →
        exec (.operationalLineRise p) s = .next (s.modPort p fun P => { P with opLine := true }).settle

/-- The port-loss timer's expiry: an OFFLINE port whose timer has counted 120 revolutions is LOST, with no status, no
attention and no outstanding request, its locks kept; before that the event is not acted on (log 2). -/
def Obligations.LossTimerExpiryEntersLost : Prop :=
  (∀ (p : PortId) (s : State) (n : Nat), (s.port p).state = .offline → (s.port p).lossTimer = some n → 120 ≤ n →
      ∃ t, exec (.portLossTimerExpiry p) s = .next t ∧ (t.port p).state = .lost ∧ (t.port p).lossTimer = none
        ∧ (t.port p).statusQueue = [] ∧ (t.port p).attention = [] ∧ t.outstanding p = []
        ∧ ∀ d, (t.drive d).lock = (s.drive d).lock)
    ∧ ∀ (p : PortId) (s : State) (n : Nat), (s.port p).lossTimer = some n → n < 120 →
        exec (.portLossTimerExpiry p) s = .next s.settle

/-- The internal revolution pulse counts at every OFFLINE port while every drive is NOT-READY, and at no other time. The pulse
that brings a count to 120 leaves the port OFFLINE; its expiry is taken as an event of its own, the model's choice (log 3). -/
def Obligations.RevolutionPulseCounts : Prop :=
  (∀ s : State, (∀ d, (s.drive d).state = .notReady) → ∃ t, exec .internalRevolutionPulse s = .next t ∧
      ∀ (p : PortId) (n : Nat), (s.port p).state = .offline → (s.port p).lossTimer = some n → n < 120 →
        (t.port p).state = .offline ∧ (t.port p).lossTimer = some (n + 1))
    ∧ ∀ (s : State) (d : DriveId), (s.drive d).state ≠ .notReady → exec .internalRevolutionPulse s = .next s.settle

/-! ### Selection, accept, blocks taken -/

/-- A select is taken on an IDLE port and answered port busy in SELECTED and CONNECTED; in OFFLINE and LOST it is not acted
on. With the answer taken the port returns to IDLE. -/
def Obligations.SelectAndAnswerTaken : Prop :=
  (∀ (p : PortId) (s : State), (s.port p).state = .idle →
      ∃ t, exec (.select p) s = .next t ∧ (t.port p).state = .selected false ∧ (t.port p).portBusy = false)
    ∧ (∀ (p : PortId) (s : State) (b : Bool), (s.port p).state = .selected b →
        ∃ t, exec (.select p) s = .next t ∧ (t.port p).state = .selected b ∧ (t.port p).portBusy = true
          ∧ (t.port p).sending = (s.port p).sending)
    ∧ (∀ (p : PortId) (s : State) (c : Conn), (s.port p).state = .connected c →
        ∃ t, exec (.select p) s = .next t ∧ (t.port p).portBusy = true)
    ∧ (∀ (p : PortId) (s : State), (s.port p).state = .offline ∨ (s.port p).state = .lost →
        exec (.select p) s = .next s.settle)
    ∧ ∀ (p : PortId) (s : State), (s.port p).state = .selected true →
        ∃ t, exec (.answerTaken p) s = .next t ∧ (t.port p).state = .idle ∧ (t.port p).sending = []

/-- An accept of a STATUS offer sends the oldest entry, of an ATTENTION offer the set's drives, of a DATA offer connects the
port to the path; each block with end of block on its last byte. An IDLE port with no offer in hand offers DATA for its
oldest waiting path, else STATUS, else ATTENTION; a waiting path displaces STATUS and ATTENTION, and nothing displaces
DATA; after every event no IDLE port is without an offer that it could make, nor waits with one that a path displaces. -/
def Obligations.AcceptConnects : Prop :=
  (∀ (p : PortId) (s : State) (e : StatusEntry) (rest : List StatusEntry), (s.port p).state = .idle →
      (s.port p).offer = some .status → (s.port p).statusQueue = e :: rest →
        ∃ t, exec (.accept p) s = .next t ∧ (t.port p).state = .connected .status
          ∧ (t.port p).sending = sentBlock (statusIdentifier e) ++ sentBlock (statusBlock e))
    ∧ (∀ (p : PortId) (s : State), (s.port p).state = .idle → (s.port p).offer = some .attention →
        ∃ t, exec (.accept p) s = .next t ∧ (t.port p).state = .connected (.attention (s.port p).attention)
          ∧ (t.port p).sending = sentBlock attentionIdentifier ++ sentBlock (attentionBlock (s.port p).attention))
    ∧ (∀ (p : PortId) (s : State) (k : PathId), (s.port p).state = .idle → (s.port p).offer = some (.data k) →
        exec (.accept p) s = .next (State.settle ((s.modPort p fun P =>
          { P with
            state := .connected (.data k none), offer := none, sending := sentBlock (s.pathIdentifier k)
            waiting := P.waiting.filter fun x => x != k }).modPath k fun P =>
              { P with conn := .connected, window := none })))
    ∧ (∀ P : Port, P.state = .idle →
        (∀ k rest, P.waiting = k :: rest → (∀ j, P.offer ≠ some (.data j)) → P.offerNow.offer = some (.data k))
          ∧ (∀ k, P.offer = some (.data k) → P.offerNow = P)
          ∧ (P.waiting = [] → P.offer ≠ none → P.offerNow = P)
          ∧ (P.waiting = [] → P.offer = none → P.statusQueue ≠ [] → P.offerNow.offer = some .status)
          ∧ (P.waiting = [] → P.offer = none → P.statusQueue = [] → P.attention ≠ [] →
              P.offerNow.offer = some .attention)
          ∧ (P.waiting = [] → P.offer = none → P.statusQueue = [] → P.attention = [] → P.offerNow = P))
    ∧ (∀ P : Port, P.state ≠ .idle → P.offerNow = P)
    ∧ ∀ (c : Instr) (s t : State) (p : PortId), exec c s = .next t → (t.port p).state = .idle →
        ((t.port p).offer = none →
            (t.port p).waiting = [] ∧ (t.port p).statusQueue = [] ∧ (t.port p).attention = [])
          ∧ ((t.port p).offer = some .status ∨ (t.port p).offer = some .attention → (t.port p).waiting = [])

/-- With a status block's last byte taken the port returns to IDLE, the entry leaves the queue and its record is freed; a
status taken in a data connection frees its record and its path, but for a path with a sector still being written, which is
held until that sector's end (R118). A status whose path was released at that end while it was presented frees its record
alone (log 11). With an attention block's last byte taken the port returns to IDLE. -/
def Obligations.BlocksTaken : Prop :=
  (∀ (p : PortId) (s : State) (e : StatusEntry) (rest : List StatusEntry), (s.port p).state = .connected .status →
      (s.port p).statusQueue = e :: rest →
        exec (.statusBlockTaken p) s = .next (State.settle ((s.modPort p fun P =>
          { P with state := .idle, sending := [], statusQueue := rest }).freeRequest e.request))
          ∧ ∃ t, exec (.statusBlockTaken p) s = .next t ∧ (t.port p).state = .idle ∧ (t.port p).sending = [])
    ∧ (∀ (p : PortId) (s : State) (k : PathId) (e : StatusEntry), (s.port p).state = .connected (.data k (some e)) →
        exec (.statusBlockTaken p) s = .next (State.settle (State.releaseUnlessWriting ((s.modPort p fun P =>
          { P with state := .idle, sending := [] }).freeRequest e.request) k))
          ∧ ∃ t, exec (.statusBlockTaken p) s = .next t ∧ (t.port p).state = .idle ∧ (t.port p).sending = [])
    ∧ (∀ (p : PortId) (s : State) (e : StatusEntry), (s.port p).state = .connected (.parting e) →
        exec (.statusBlockTaken p) s = .next (State.settle ((s.modPort p fun P =>
          { P with state := .idle, sending := [] }).freeRequest e.request))
          ∧ ∃ t, exec (.statusBlockTaken p) s = .next t ∧ (t.port p).state = .idle ∧ (t.port p).sending = [])
    ∧ ∀ (p : PortId) (s : State) (ds : List DriveId), (s.port p).state = .connected (.attention ds) →
        ∃ t, exec (.attentionBlockTaken p) s = .next t ∧ (t.port p).state = .idle ∧ (t.port p).sending = []

/-! ### Orders: bytes, checks and refusals -/

/-- Decoding the encoding of an order of good form gives it back, every field at every value its bytes admit. -/
def Obligations.DecodeEncodeOrder : Prop :=
  ∀ b : OrderBlock, b.order.formOk = true → decodeOrder (encodeOrder b) = some b

/-- The bytes of an order, sent with good parity, are taken as the order's own command; with a byte of bad parity the block
is refused PARITY, and where it is overlong or spells no order of good form, BAD ORDER. Where the order they spell passes
every check, it takes effect and is answered ACCEPTED with its reply. -/
def Obligations.OrderBlockReceived : Prop :=
  (∀ (p : PortId) (b : OrderBlock) (s : State), b.order.formOk = true →
      exec (.orderBlockReceived p ((encodeOrder b).map withParity)) s = exec (b.command p) s)
    ∧ (∀ (p : PortId) (l : List LineByte) (b : OrderBlock) (s : State), (s.port p).state = .selected false →
        (∀ x ∈ l, parityOk x = true) → l.length ≤ 45 → decodeOrder (l.map fun x => x.byte) = some b →
          s.checkOrder p b = none →
            exec (.orderBlockReceived p l) s
                = .next (State.settle ((s.acceptOrder p b).answer p .accepted (s.replyFor p b)))
              ∧ ∃ t, exec (.orderBlockReceived p l) s = .next t ∧ t.answered p (0x00#8 :: s.replyFor p b))
    ∧ (∀ (p : PortId) (l : List LineByte) (s : State), (s.port p).state = .selected false →
        (∃ x ∈ l, parityOk x = false) →
          ∃ t, exec (.orderBlockReceived p l) s = .next t ∧ t.answered p [0x01#8])
    ∧ ∀ (p : PortId) (l : List LineByte) (s : State), (s.port p).state = .selected false →
        (∀ x ∈ l, parityOk x = true) → 45 < l.length ∨ decodeOrder (l.map fun x => x.byte) = none →
          ∃ t, exec (.orderBlockReceived p l) s = .next t ∧ t.answered p [0x02#8]

/-- An order refused by a check is answered with the check's byte alone; it changes nothing else, but for the lock-lost
mark that LOCK LOST clears. -/
def Obligations.RefusedOrderIsAnswered : Prop :=
  ∀ (p : PortId) (b : OrderBlock) (s : State) (code : AcceptCode), (s.port p).state = .selected false →
    b.order.formOk = true → s.checkOrder p b = some code →
      exec (b.command p) s = .next (State.settle ((s.refused p b code).answer p code []))
        ∧ ∃ t, exec (b.command p) s = .next t ∧ t.answered p [code.code]

/-- An order that passes every check is answered ACCEPTED, then its reply. -/
def Obligations.AcceptedOrderIsAnswered : Prop :=
  ∀ (p : PortId) (b : OrderBlock) (s : State), (s.port p).state = .selected false → b.order.formOk = true →
    s.checkOrder p b = none →
      exec (b.command p) s = .next (State.settle ((s.acceptOrder p b).answer p .accepted (s.replyFor p b)))
        ∧ ∃ t, exec (b.command p) s = .next t ∧ t.answered p (0x00#8 :: s.replyFor p b)

/-- Step 3: a drive that is not READY refuses the queued orders, CANCEL and MAP FREEZE with the code of its state, but for
CALIBRATE to a FAULTED drive. Step 4: another port's lock refuses the queued orders and MAP FREEZE to a READY drive, and no
other order but LOCK. -/
def Obligations.StateAndLockChecks : Prop :=
  (∀ (s : State) (p : PortId) (tag : Byte) (d : DriveId) (o : DriveOrder), checksDriveState o = true →
      ((s.drive d).state = .notReady → s.checkDrive p tag d o = some .notReady)
        ∧ ((s.drive d).state = .calibrating ∨ (s.drive d).state = .scanning →
            s.checkDrive p tag d o = some .becomingReady)
        ∧ ((s.drive d).state = .faulted → o ≠ .calibrate → s.checkDrive p tag d o = some .faulted))
    ∧ (∀ (s : State) (p q : PortId) (tag : Byte) (d : DriveId) (o : DriveOrder), checksLock o = true →
        (s.drive d).state = .ready → (s.drive d).lock = some q → q ≠ p →
          s.checkDrive p tag d o = some .lockedElsewhere)
    ∧ ∀ (s : State) (p : PortId) (tag : Byte) (d : DriveId) (o : DriveOrder), checksLock o = false → o ≠ .lock →
        s.checkDrive p tag d o ≠ some .lockedElsewhere

/-- Step 5: the first order of a port to a drive that reaches it with the mark set is refused LOCK LOST, and the mark is
cleared. -/
def Obligations.LockLostRefusal : Prop :=
  ∀ (s : State) (p : PortId) (tag : Byte) (d : DriveId) (o : DriveOrder), (s.port p).state = .selected false →
    o.formOk = true → checkDriveState o (s.drive d).state = none → (checksLock o = true → s.lockFreeFor p d) →
      s.lockLostMark p d = true →
        ∃ t, exec (OrderBlock.command p ⟨tag, .drive d o⟩) s = .next t ∧ t.answered p [0x07#8]
          ∧ t.lockLostMark p d = false

/-! ### Orders: their effects -/

/-- An accepted READ, WRITE or VERIFY joins its drive's queue as the newest record. -/
def Obligations.TransferOrdersQueued : Prop :=
  ∀ (s : State) (p : PortId) (d : DriveId) (tag : Byte) (es : List Extent), s.takesQueued p d tag →
    extentsOk es = true → (∀ e ∈ es, extentStart e + e.count - 1 ≤ lastSector (Drive.limits (s.drive d))) →
      exec (.read p d tag es) s
          = .next (State.settle ((s.addRequest p tag d .read es none .queued).answer p .accepted []))
        ∧ exec (.write p d tag es) s
          = .next (State.settle ((s.addRequest p tag d .write es none .queued).answer p .accepted []))
        ∧ exec (.verify p d tag es) s
          = .next (State.settle ((s.addRequest p tag d .verify es none .queued).answer p .accepted []))

/-- An accepted POSITION joins its drive's queue; CALIBRATE joins that of a READY drive, and starts at once on a FAULTED
one, which enters CALIBRATING with a calibrate issued. -/
def Obligations.PositionAndCalibrate : Prop :=
  (∀ (s : State) (p : PortId) (d : DriveId) (tag : Byte) (t : Track), s.takesQueued p d tag → trackOk t = true →
      t.cyl ≤ (Drive.limits (s.drive d)).lastLogical →
        exec (.position p d tag t) s
          = .next (State.settle ((s.addRequest p tag d .position [] (some t) .queued).answer p .accepted [])))
    ∧ (∀ (s : State) (p : PortId) (d : DriveId) (tag : Byte), s.takesQueued p d tag →
        exec (.calibrate p d tag) s
          = .next (State.settle ((s.addRequest p tag d .calibrate [] none .queued).answer p .accepted [])))
    ∧ ∀ (s : State) (p : PortId) (d : DriveId) (tag : Byte), s.takesRecord p d tag → (s.drive d).state = .faulted →
        ∃ t, exec (.calibrate p d tag) s = .next t ∧ t.answered p [0x00#8] ∧ (t.drive d).state = .calibrating
          ∧ (t.drive d).arm = some .calibrate ∧ (t.drive d).seekTimer = some 0

/-- An accepted DECLARE takes a record and makes a PENDING entry, marks an ACTIVE one for replacement, or re-enters a
stalled one; the entry joins the work list. -/
def Obligations.DeclareEffects : Prop :=
  ∀ (s : State) (p : PortId) (d : DriveId) (tag : Byte) (noCopy replace : Bool) (t : Track), s.takesRecord p d tag →
    (s.drive d).state = .ready → trackOk t = true → t.cyl ≤ (Drive.limits (s.drive d)).lastLogical →
      (s.drive d).freeze = false → (s.drive d).map.length < 128 →
        let taken := s.addRequest p tag d (.mapChange .declare noCopy) [] (some t) .queued
        (s.entry? d (homeOf t) = none →
            exec (.declare p d tag noCopy replace t) s = .next (State.settle (((taken.addEntry d
              (pendingEntry (homeOf t) .host (some s.nextPos))).appendWork ⟨d, homeOf t⟩).answer p .accepted [])))
          ∧ (∀ e, s.entry? d (homeOf t) = some e → s.isStalled d (homeOf t) = false → e.state = .active →
              replace = true → e.replacement = false → e.named = false →
                exec (.declare p d tag noCopy replace t) s = .next (State.settle (((taken.modEntry d (homeOf t) fun x =>
                  { x with replacement := true, origin := .host, linked := some s.nextPos }).appendWork
                    ⟨d, homeOf t⟩).answer p .accepted [])))
          ∧ ∀ e, s.entry? d (homeOf t) = some e → s.isStalled d (homeOf t) = true →
              e.state = .pending ∨ (e.state = .active ∧ e.replacement = true ∧ replace = true) →
                exec (.declare p d tag noCopy replace t) s = .next (State.settle ((((taken.modEntry d (homeOf t)
                  fun x => { x with linked := some s.nextPos }).dropStalled ⟨d, homeOf t⟩).appendWork
                    ⟨d, homeOf t⟩).answer p .accepted []))

/-- An accepted RETIRE takes a record, names the ACTIVE entry for return and appends it to the work list. -/
def Obligations.RetireEffects : Prop :=
  ∀ (s : State) (p : PortId) (d : DriveId) (tag : Byte) (t : Track) (e : MapEntry), s.takesRecord p d tag →
    (s.drive d).state = .ready → trackOk t = true → t.cyl ≤ (Drive.limits (s.drive d)).lastLogical →
      (s.drive d).freeze = false → s.entry? d (homeOf t) = some e → e.state = .active → e.replacement = false →
        e.named = false →
          exec (.retire p d tag t) s = .next (State.settle ((((s.addRequest p tag d (.mapChange .retire false) [] (some t)
            .queued).modEntry d (homeOf t) fun x => { x with named := true, linked := some s.nextPos }).appendWork
              ⟨d, homeOf t⟩).answer p .accepted []))

/-- REPORT answers the held report, or the empty report, and empties the slot. -/
def Obligations.ReportEmptiesSlot : Prop :=
  ∀ (s : State) (p : PortId) (d : DriveId) (tag : Byte), (s.port p).state = .selected false →
    s.lockLostMark p d = false →
      let reply := 0x10#8 :: tag :: (match s.reportOf p d with
        | some r => reportBlock d r
        | none => emptyReport)
      exec (.report p d tag) s = .next (State.settle ((s.setReport p d none).answer p .accepted reply))
        ∧ ∃ t, exec (.report p d tag) s = .next t ∧ t.answered p (0x00#8 :: reply)

/-- CANCEL ends a waiting request CANCELLED at once, stops a CLAIMING or PAUSED one that has reached no ending, and marks
any other. -/
def Obligations.CancelEffects : Prop :=
  ∀ (s : State) (p : PortId) (d : DriveId) (tag : Byte) (r : Record), s.hears p d → (s.drive d).state = .ready →
    s.cancelTarget p tag = some r → r.drive = d →
      (r.isWaiting = true → exec (.cancel p d tag) s
          = .next (State.settle ((s.endHere r.pos .cancelled).answer p .accepted [])))
        ∧ (r.isWaiting = false → r.kind.isTransfer = true → r.state = .claiming ∨ r.state = .paused →
            s.endingHeld r.pos = false → exec (.cancel p d tag) s
              = .next (State.settle ((s.endStopped r.pos .cancelled).answer p .accepted [])))
        ∧ (r.isWaiting = false → r.kind.isTransfer = true → r.state = .seeking ∨ r.state = .transferring →
            exec (.cancel p d tag) s
              = .next (State.settle ((s.modRequest r.pos fun x => { x with cancel := true }).answer p .accepted [])))

/-- LOCK gives the lock to the port, UNLOCK frees it, SEIZE takes it from a LOST port and sets that port's lock-lost mark;
each is answered ACCEPTED and leaves the other drives' locks. -/
def Obligations.LockOrders : Prop :=
  ∀ (s : State) (p : PortId) (d : DriveId) (tag : Byte), s.hears p d →
    (s.lockFreeFor p d → ∃ t, exec (.lock p d tag) s = .next t ∧ t.answered p [0x00#8] ∧ (t.drive d).lock = some p
        ∧ ∀ e, e ≠ d → (t.drive e).lock = (s.drive e).lock)
      ∧ ((s.drive d).lock = some p → ∃ t, exec (.unlock p d tag) s = .next t ∧ t.answered p [0x00#8]
          ∧ (t.drive d).lock = none ∧ ∀ e, e ≠ d → (t.drive e).lock = (s.drive e).lock)
      ∧ ∀ q, (s.drive d).lock = some q → q ≠ p → (s.port q).state = .lost →
          ∃ t, exec (.seize p d tag) s = .next t ∧ t.answered p [0x00#8] ∧ (t.drive d).lock = some p
            ∧ t.lockLostMark q d = true ∧ ∀ e, e ≠ d → (t.drive e).lock = (s.drive e).lock

/-- MAP QUERY, MAP LIST and STRING STATUS answer from the state as the decoder takes the order and change nothing else. -/
def Obligations.ReadingOrders : Prop :=
  (∀ (s : State) (p : PortId) (d : DriveId) (tag : Byte), s.hears p d →
      (∀ t : Track, trackOk t = true → t.cyl ≤ (Drive.limits (s.drive d)).lastLogical →
          exec (.mapQuery p d tag t) s
            = .next (s.answer p .accepted (0x18#8 :: tag :: mapRecord s d (homeOf t))).settle)
        ∧ exec (.mapList p d tag) s = .next (s.answer p .accepted (0x19#8 :: tag :: mapListBody s d)).settle)
    ∧ ∀ (s : State) (p : PortId) (tag : Byte), (s.port p).state = .selected false →
        exec (.stringStatus p tag) s = .next (s.answer p .accepted (0x1E#8 :: tag :: stringStatusBody s)).settle

/-- MAP FREEZE to a READY drive that no other port has locked sets its freeze mark. -/
def Obligations.MapFreezeSetsMark : Prop :=
  ∀ (s : State) (p : PortId) (d : DriveId) (tag : Byte), s.hears p d → s.lockFreeFor p d → (s.drive d).state = .ready →
    ∃ t, exec (.mapFreeze p d tag) s = .next t ∧ t.answered p [0x00#8] ∧ (t.drive d).freeze = true
      ∧ ∀ e, e ≠ d → (t.drive e).freeze = (s.drive e).freeze

/-- SET PARAMETERS sets each given field, clamped into its range, keeps the others, and answers with all eight. -/
def Obligations.SetParametersClamps : Prop :=
  ∀ (s : State) (p : PortId) (tag : Byte) (f : ParameterFields), (s.port p).state = .selected false →
    ∃ t, exec (.setParameters p tag f) s = .next t ∧ t.answered p (0x00#8 :: 0x1F#8 :: tag :: parameterBytes t)
      ∧ t.params.reversal = clampField 0 63 s.params.reversal f.reversal
      ∧ t.params.softThreshold = clampField 2 15 s.params.softThreshold f.softThreshold
      ∧ t.params.progressInterval = clampField 1 15 s.params.progressInterval f.progressInterval
      ∧ t.params.priority = clampField 0 15 s.params.priority f.priority
      ∧ (t.port .a).threshold = clampField 1 4 (s.port .a).threshold f.readA
      ∧ (t.port .b).threshold = clampField 1 4 (s.port .b).threshold f.readB
      ∧ (t.port .c).threshold = clampField 1 4 (s.port .c).threshold f.readC
      ∧ (t.port .d).threshold = clampField 1 4 (s.port .d).threshold f.readD

/-! ### Data -/

/-- A good write data byte that the path takes joins the image being filled; a bad one puts PORT PARITY with its residual in
presentation in the connection. In both the byte is answered taken. With no image being filled, the byte begins the image of
the next sector: on the track entered, or on the next track, entered with it, where that lies on the current cylinder and is
not moving in the hands of the running relocation unit, its head selected at once if no image is held (the model's reading,
log 55). Else the byte is not taken and the WRITE leaves its cylinder: it disconnects, and writes the images it holds, or,
with none, returns as a continuation. With the FIFO full, every byte taken or the request ended, the byte is not taken and
nothing else happens. -/
def Obligations.WriteDataByte : Prop :=
  (∀ (s : State) (p : PortId) (k : PathId) (b : LineByte) (r : Record) (ord : Nat),
    (s.port p).state = .connected (.data k none) → (s.path k).holder = some r.pos → s.request? r.pos = some r →
      (s.path k).service = some .hostWrite → r.ended = false → (s.path k).takenAll = false →
        (s.path k).byteCount < 4096 → (s.path k).fillingOrd = some ord →
          exec (.writeDataByte p b) s = .next (s.giveWriteByte p b).settle
            ∧ ((s.giveWriteByte p b).port p).byteTaken = true
            ∧ (∃ t, exec (.writeDataByte p b) s = .next t ∧ (t.port p).byteTaken = true)
            ∧ (parityOk b = true →
                ((s.giveWriteByte p b).path k).fifo = addByte b.byte ord (s.path k).fifo)
            ∧ (parityOk b = false → r.source = .port p → r.detached = false → s.pathOf r.pos = some k →
                (s.path k).port = some p →
                  ∃ e, ((s.giveWriteByte p b).port p).state = .connected (.data k (some e))
                    ∧ e.status = .portParity ∧ e.request = r.pos ∧ e.residual = r.total - ord))
    ∧ (∀ (s : State) (p : PortId) (k : PathId) (b : LineByte) (r : Record) (x : Nat) (a : SectorAddr) (e : Entered),
      (s.port p).state = .connected (.data k none) → (s.path k).holder = some r.pos → s.request? r.pos = some r →
        (s.path k).service = some .hostWrite → r.ended = false → (s.path k).takenAll = false →
          (s.path k).byteCount < 4096 → (s.path k).fillingOrd = none → (s.path k).entered = some e →
            r.sectorAt (r.done + (s.path k).fifo.length) = some (x, a) →
              let ord := r.done + (s.path k).fifo.length
              let next := s.entryFor r.drive x a
              let here : Bool := (s.drive r.drive).cyl == some next.serving.cyl && !s.movingWrite r.drive next.home
              let on := if e.covers x a then e else next
              let u := s.giveWriteByte p b
              exec (.writeDataByte p b) s = .next u.settle
                ∧ (e.covers x a = true ∨ here = true →
                    (u.port p).byteTaken = true ∧ (∃ t, exec (.writeDataByte p b) s = .next t ∧ (t.port p).byteTaken = true)
                      ∧ (parityOk b = true →
                          (u.path k).fifo = addByte b.byte ord ((s.path k).fifo ++ [writeImage ord a on])
                            ∧ (u.path k).entered = some on
                            ∧ (u.path k).homes
                                = (if e.covers x a then (s.path k).homes else next.home :: (s.path k).homes)
                            ∧ (u.drive r.drive).head
                                = (if e.covers x a = false ∧ (s.path k).fifo = [] then next.serving.head
                                  else (s.drive r.drive).head))
                      ∧ (parityOk b = false → r.source = .port p → r.detached = false → s.pathOf r.pos = some k →
                          (s.path k).port = some p →
                            ∃ st, (u.port p).state = .connected (.data k (some st)) ∧ st.status = .portParity
                              ∧ st.request = r.pos ∧ st.residual = r.total - ord))
                ∧ (e.covers x a = false → here = false →
                    (u.port p).byteTaken = false ∧ (∃ t, exec (.writeDataByte p b) s = .next t ∧ (t.port p).byteTaken = false)
                      ∧ ((s.path k).port = some p → (u.port p).state = .idle)
                      ∧ ((s.path k).fifo ≠ [] → (u.path k).fifo = (s.path k).fifo ∧ (u.path k).leaving = true
                          ∧ (u.path k).takenAll = true ∧ (u.path k).conn = .none)
                      ∧ ((s.path k).fifo = [] → r.stop? = none → u.path k = Path.free
                          ∧ (u.request? r.pos).map (fun y => (y.state, y.done)) = some (.continuation, r.done))))
    ∧ ∀ (s : State) (p : PortId) (k : PathId) (b : LineByte) (r : Record),
      (s.port p).state = .connected (.data k none) → (s.path k).holder = some r.pos → s.request? r.pos = some r →
        4096 ≤ (s.path k).byteCount ∨ (s.path k).takenAll = true ∨ r.ended = true →
          exec (.writeDataByte p b) s = .next (s.modPort p fun P => { P with byteTaken := false }).settle
            ∧ ∃ t, exec (.writeDataByte p b) s = .next t ∧ (t.port p).byteTaken = false

/-- A read data byte goes out with its odd parity from the oldest COMPLETE image; with the image's last byte its sector is
transferred. -/
def Obligations.ReadDataByte : Prop :=
  (∀ b : Byte, parityOk (withParity b) = true ∧ (withParity b).byte = b)
    ∧ ∀ (s : State) (p : PortId) (k : PathId) (pos : Nat) (i : Image) (rest : List Image) (b : Byte) (bs : List Byte),
      (s.port p).state = .connected (.data k none) → (s.path k).service = some .hostRead →
        (s.path k).holder = some pos → (s.path k).fifo = i :: rest → i.cond = .complete → i.bytes = b :: bs →
          exec (.readDataByteTaken p) s = .next (s.takeReadByte p).settle
            ∧ (∃ t, exec (.readDataByteTaken p) s = .next t ∧ (t.port p).dataOut = some (withParity b))
            ∧ ((s.takeReadByte p).path k).fifo = (if bs = [] then rest else { i with bytes := bs } :: rest)
            ∧ ∀ r, s.request? pos = some r →
                ((s.takeReadByte p).request? pos).map (·.done) = some (if bs = [] then r.done + 1 else r.done)

/-- The reconnect window's expiry: a request that is ending ends with its held cause; any other suffers a missed reconnect
and returns, or ends PORT UNRESPONSIVE at the third; before 128 slots the event is not acted on (log 2). -/
def Obligations.ReconnectWindowExpiry : Prop :=
  ∀ (s : State) (k : PathId) (pos n : Nat) (r : Record), (s.path k).holder = some pos → (s.path k).window = some n →
    (s.path k).conn = .asking → s.request? pos = some r →
      (n < 128 → exec (.reconnectWindowExpiry k) s = .next s.settle)
        ∧ (∀ h, 128 ≤ n → (s.path k).ending = some h →
            exec (.reconnectWindowExpiry k) s = .next (s.endRequest pos (s.infoHeld r h)).settle)
        ∧ (128 ≤ n → (s.path k).ending = none → r.missedReconnect < 2 →
            exec (.reconnectWindowExpiry k) s = .next (State.settle ((s.modRequest pos fun x =>
              { x with missedReconnect := r.missedReconnect + 1 }).releaseAndReturn k)))
        ∧ (128 ≤ n → (s.path k).ending = none → r.missedReconnect = 2 →
            ∃ i, i.status = .portUnresponsive ∧ i.residual = r.total - r.done
              ∧ exec (.reconnectWindowExpiry k) s = .next (State.settle ((s.modRequest pos fun x =>
                  { x with missedReconnect := 3 }).endRequest pos i)))

/-! ### Drives -/

/-- A rise of the ready line that R1 takes brings the drive to CALIBRATING with a calibrate issued; with another code it
stays NOT-READY; a line already high does not rise. -/
def Obligations.ReadyRise : Prop :=
  (∀ (s : State) (d : DriveId) (code : Nat) (ty : DriveType), (s.drive d).readyLine = false →
      (s.drive d).state = .notReady → driveTypeOf code = some ty →
        ∃ t, exec (.readyLineRise d code) s = .next t ∧ (t.drive d).state = .calibrating ∧ (t.drive d).type = some ty
          ∧ (t.drive d).cyl = none ∧ (t.drive d).arm = some .calibrate ∧ (t.drive d).seekTimer = some 0
          ∧ (t.drive d).readyLine = true ∧ (t.drive d).lock = (s.drive d).lock
          ∧ (t.drive d).freeze = (s.drive d).freeze)
    ∧ (∀ (s : State) (d : DriveId) (code : Nat), (s.drive d).readyLine = false → (s.drive d).state = .notReady →
        driveTypeOf code = none → ∃ t, exec (.readyLineRise d code) s = .next t ∧ (t.drive d).state = .notReady
          ∧ (t.drive d).readyLine = true)
    ∧ ∀ (s : State) (d : DriveId) (code : Nat), (s.drive d).readyLine = true →
        exec (.readyLineRise d code) s = .next s.settle

/-- A fall of the ready line brings a drive to NOT-READY with its type, map-built mark, counter, cylinder, map table and
health list gone, its lock and freeze mark kept, and the attention of every port not LOST. In the event, before its end: the
spare pool is empty, the drive's entries have left the work list and the stalled order, a relocation in hand on the drive
ends with the unit IDLE and its buffer empty; and its host requests, in progress, queued or changing the map, end DRIVE NOT
READY with their sectors not transferred as residual. -/
def Obligations.ReadyFall : Prop :=
  ∀ (s : State) (d : DriveId), (s.drive d).state ≠ .notReady →
    (exec (.readyLineFall d) s = .next (s.readyFall d).settle
        ∧ ((s.readyFall d).drive d).pool = []
        ∧ (s.readyFall d).workList = s.workList.filter (fun x => x.drive != d)
        ∧ (s.readyFall d).stalled = s.stalled.filter (fun x => x.drive != d)
        ∧ (∀ ref, s.ru.entry = some ref → ref.drive = d →
            (s.readyFall d).ru = Relocation.reset ∧ (s.readyFall d).buffer = none)
        ∧ ∀ (r : Record) (p : PortId), s.recordsOrdered → r ∈ s.records → r.drive = d → r.source = .port p →
            r.ended = false → r.detached = false → r.resetStop = false → r.kind.isStep = false →
              (s.port p).state ≠ .lost → s.ru.step ≠ .placed r.pos →
                (∀ k, (s.path k).holder = some r.pos →
                  (s.drive d).active = some r.pos ∧ ∀ j, (s.path j).holder = some r.pos → j = k) →
                  (s.drive d).active = some r.pos ∨ r.isWaiting = true ∨ r.kind.isMapChange = true →
                    (s.readyFall d).endedWith p r .driveNotReady)
      ∧ ∃ t, exec (.readyLineFall d) s = .next t ∧ (t.drive d).state = .notReady ∧ (t.drive d).type = none
        ∧ (t.drive d).mapBuilt = false ∧ (t.drive d).rpc = 0 ∧ (t.drive d).valid = false ∧ (t.drive d).cyl = none
        ∧ (t.drive d).arm = none ∧ (t.drive d).seekTimer = none ∧ (t.drive d).health = [] ∧ (t.drive d).map = []
        ∧ (t.drive d).lock = (s.drive d).lock ∧ (t.drive d).freeze = (s.drive d).freeze
        ∧ ∀ p, (s.port p).state ≠ .lost → d ∈ (t.port p).attention

/-- A rise of the fault line faults a CALIBRATING, SCANNING or READY drive: FAULTED, its seek timer stopped, no arm command
outstanding, the attention of every port not LOST; the line stays latched (log 25). A NOT-READY or FAULTED drive stays as
it is. A relocation in hand on the drive is aborted: the entry, the spares, the work list and the linked request stand as the
table of R178 gives for its direction, the buffer is empty, and the unit is IDLE, or ABORTING with the header to restore
where the step removed was a header write of its last stages that held a path. -/
def Obligations.FaultRise : Prop :=
  (∀ (s : State) (d : DriveId), (s.drive d).state.faultable = true →
      s.faultDrive d = ((((s.modDrive d Drive.enterFaulted).endDriveWork d .driveFault).abortFaulted d).modDrive d
        Drive.noActive).attend d)
    ∧ (∀ (s : State) (d : DriveId) (ref : EntryRef) (e : MapEntry), s.ru.entry = some ref → ref.drive = d →
        s.entry? ref.drive ref.home = some e →
          let u := s.abortFaulted d
          let pool := (s.drive d).pool
          u.buffer = none
            ∧ (e.state = .moving .forward →
                u.entry? d ref.home = some { e with state := .pending, target := none }
                  ∧ (u.drive d).pool = e.target.elim pool (fun t => setPool t .free pool)
                  ∧ u.workList = ref :: s.workList.filter (fun x => x != ref))
            ∧ (e.state = .moving .replacement →
                u.entry? d ref.home = some { e with state := .active, alternate := e.previous, previous := none, target := none }
                  ∧ (u.drive d).pool = e.target.elim pool (fun t => setPool t .free pool)
                  ∧ u.workList = ref :: s.workList.filter (fun x => x != ref)
                  ∧ ∀ p, (s.port p).state ≠ .lost → d ∈ (u.port p).attention)
            ∧ (e.state = .moving .ret →
                (∃ f, u.entry? d ref.home = some f ∧ f.state = .active ∧ f.named = false ∧ f.alternate = e.alternate)
                  ∧ (u.drive d).pool = pool ∧ u.workList = s.workList
                  ∧ (∀ p, (s.port p).state ≠ .lost → d ∈ (u.port p).attention)
                  ∧ ∀ p r, e.linked = some r.pos → s.endsQueued p r → s.ru.step ≠ .placed r.pos →
                      u.endedWith p r .driveFault)
            ∧ (e.state = .active →
                u.entry? d ref.home = some e ∧ (u.drive d).pool = pool ∧ u.workList = s.workList)
            ∧ (∀ o, s.restoreAfter ref e = some o →
                u.ru = { Relocation.reset with state := .aborting, stage := some .restoreHeader, restore := some o })
            ∧ (s.restoreAfter ref e = none → u.ru = Relocation.reset)
            ∧ (s.stepHoldsPath = false → s.restoreAfter ref e = none)
            ∧ (s.stepHoldsPath = true → s.ru.stage = some .commitTarget →
                s.restoreAfter ref e = e.target.map fun t => ⟨d, t, plainHeader .free⟩)
            ∧ (s.stepHoldsPath = true → s.ru.stage = some .releaseAlternate ∨ s.ru.stage = some .restoreHeader →
                s.restoreAfter ref e = e.alternate.map fun t => ⟨d, t, ⟨.alternate, e.home, e.generation⟩⟩))
    ∧ (∀ (s : State) (d : DriveId), (s.drive d).state.faultable = true →
      ∃ t, exec (.faultLineRise d) s = .next t ∧ (t.drive d).state = .faulted ∧ (t.drive d).arm = none
        ∧ (t.drive d).seekTimer = none ∧ (t.drive d).scan = none ∧ (t.drive d).faultLine = true
        ∧ (t.drive d).mapBuilt = (s.drive d).mapBuilt ∧ (t.drive d).lock = (s.drive d).lock
        ∧ ∀ p, (s.port p).state ≠ .lost → d ∈ (t.port p).attention)
    ∧ ∀ (s : State) (d : DriveId), (s.drive d).state.faultable = false →
        exec (.faultLineRise d) s = .next (s.modDrive d fun D => { D with faultLine := true }).settle

/-- The seek timer's expiry faults a drive whose seek or calibrate is still outstanding at 256 slots; before that the event
is not acted on (log 2). -/
def Obligations.SeekTimerExpiry : Prop :=
  (∀ (s : State) (d : DriveId) (n : Nat), (s.drive d).seekTimer = some n → 256 ≤ n → (s.drive d).arm ≠ none →
      (s.drive d).state.faultable = true →
        ∃ t, exec (.seekTimerExpiry d) s = .next t ∧ (t.drive d).state = .faulted ∧ (t.drive d).arm = none
          ∧ (t.drive d).seekTimer = none)
    ∧ ∀ (s : State) (d : DriveId) (n : Nat), (s.drive d).seekTimer = some n → n < 256 →
        exec (.seekTimerExpiry d) s = .next s.settle

/-- On a slot event the counter goes up by one (from 63 to 0: log 7), on an index event to 0 with the valid mark set; a
NOT-READY drive's are not acted on. With the counter, every slot timer of the drive advances, up to its bound: the seek timer
and the reconnect window of a path on the drive. An index event advances the loss timers of the OFFLINE ports where the drive
is the reference, and the progress and suspension timers where the relocation in hand is on the drive. What the boundary
before left due is taken first (log 3). -/
def Obligations.TicksMoveTheCounter : Prop :=
  (∀ (s : State) (d : DriveId), (s.drive d).state ≠ .notReady →
      exec (.slotEvent d) s = .next (State.settle ((((((s.forceDue d).advance d false).modDrive d
          Drive.atBoundary).setupEvent d).headerGap d).pathBoundary d))
        ∧ exec (.indexEvent d) s = .next (State.settle (((((((s.forceDue d).advance d true).indexWork d).modDrive d
          Drive.atBoundary).setupEvent d).headerGap d).pathBoundary d)))
    ∧ (∀ (s : State) (d : DriveId), s.claimDue d = false → (∀ k, s.windowDue d k = false) → (s.drive d).seekDue = false →
        s.forceDue d = s)
    ∧ (∀ (s : State) (d : DriveId) (index : Bool),
        ((s.advance d index).drive d).seekTimer = (s.drive d).seekTimer.map (fun n => min (n + 1) 256)
          ∧ (∀ e, e ≠ d → (s.advance d index).drive e = s.drive e)
          ∧ ∀ k, ((s.advance d index).path k).window
              = if (s.path k).drive = some d then (s.path k).window.map (fun n => min (n + 1) 128)
                else (s.path k).window)
    ∧ (∀ (s : State) (d : DriveId) (p : PortId) (n : Nat), (s.port p).state = .offline →
        (s.port p).lossTimer = some n → n < 120 →
          ((s.indexWork d).port p).state = .offline
            ∧ ((s.indexWork d).port p).lossTimer = some (if s.referenceDrive = some d then n + 1 else n))
    ∧ (∀ (s : State) (d : DriveId), s.ru.drive? ≠ some d → (s.indexWork d).ru = s.ru)
    ∧ (∀ (s : State) (d : DriveId), s.ru.drive? = some d →
        (∀ n, s.ru.suspension = some n → (s.indexWork d).ru.suspension = some (min (n + 1) 16))
          ∧ (∀ count interval, s.ru.progress = .running count interval →
              (s.indexWork d).ru.progress = if interval ≤ count then .expired else .running (count + 1) interval))
    ∧ (∀ (s : State) (d : DriveId), (s.drive d).state ≠ .notReady →
      (∃ t, exec (.slotEvent d) s = .next t ∧ (t.drive d).rpc = ((s.drive d).rpc + 1) % 64
          ∧ (t.drive d).valid = (s.drive d).valid)
        ∧ ∃ t, exec (.indexEvent d) s = .next t ∧ (t.drive d).rpc = 0 ∧ (t.drive d).valid = true)
    ∧ ∀ (s : State) (d : DriveId), (s.drive d).state = .notReady →
        exec (.slotEvent d) s = .next s.settle ∧ exec (.indexEvent d) s = .next s.settle

/-- Seek complete: a calibrate of a CALIBRATING drive leads to READY with the map built, else to SCANNING, on cylinder 0; a
seek of a READY or SCANNING drive leaves the arm on its cylinder; with nothing outstanding it is not acted on. -/
def Obligations.SeekComplete : Prop :=
  (∀ (s : State) (d : DriveId), (s.drive d).state = .calibrating → (s.drive d).arm = some .calibrate →
      ∃ t, exec (.seekComplete d) s = .next t ∧ (t.drive d).cyl = some 0 ∧ (t.drive d).arm = none
        ∧ (t.drive d).seekTimer = none
        ∧ (t.drive d).state = (if (s.drive d).mapBuilt then .ready else .scanning)
        ∧ ((s.drive d).mapBuilt = true → ∀ p, (s.port p).state ≠ .lost → d ∈ (t.port p).attention))
    ∧ (∀ (s : State) (d : DriveId) (c : Nat), (s.drive d).state = .ready ∨ (s.drive d).state = .scanning →
        (s.drive d).phase = .seek ∨ (s.drive d).phase = .reseek → (s.drive d).arm = some (.seek c) →
          ∃ t, exec (.seekComplete d) s = .next t ∧ (t.drive d).cyl = some c ∧ (t.drive d).arm = none
            ∧ (t.drive d).seekTimer = none ∧ (t.drive d).state = (s.drive d).state)
    ∧ ∀ (s : State) (d : DriveId), (s.drive d).arm = none → exec (.seekComplete d) s = .next s.settle

/-- An ident confirmation at the boundary beginning slot 4k + 1: a match gives head ready; the first mismatch issues a
calibrate; the second, after the recalibrate, faults the drive. -/
def Obligations.IdentConfirmation : Prop :=
  ∀ (s : State) (d : DriveId) (k : Nat) (ident : Option RawIdent), (s.drive d).confirm = some k →
    (s.drive d).rpc = 4 * k + 1 →
      ((s.drive d).identMatches k ident = true → exec (.identConfirmation d ident) s
          = .next (State.settle ((s.modDrive d fun D => { D with readGate := false }).headReady d)))
        ∧ ((s.drive d).identMatches k ident = false → (s.drive d).phase = .confirm →
            ∃ t, exec (.identConfirmation d ident) s = .next t ∧ (t.drive d).arm = some .calibrate
              ∧ (t.drive d).seekTimer = some 0 ∧ (t.drive d).state = (s.drive d).state)
        ∧ ((s.drive d).identMatches k ident = false → (s.drive d).phase = .reconfirm →
            (s.drive d).state.faultable = true →
              ∃ t, exec (.identConfirmation d ident) s = .next t ∧ (t.drive d).state = .faulted)

/-- A claim that still waits at its due boundary misses: it is withdrawn, its request's missed-revolution count rises, and
the request returns to its queue. With no claim of the drive waiting the event is not acted on (log 2). -/
def Obligations.ClaimMiss : Prop :=
  (∀ (s : State) (d : DriveId) (c : Claim), s.claimOf d = some c → c.due = .slot (s.drive d).rpc →
      exec (.claimMiss d) s
        = .next (State.settle (((s.dropClaim c.request).missRevolution c.request).returnToQueue c.request)))
    ∧ ∀ (s : State) (d : DriveId), s.claimOf d = none → exec (.claimMiss d) s = .next s.settle

/-- A sector's outcome, at its ending boundary (off it the event is not acted on: log 9). A CLEAN first attempt leaves the
drive's health list; a CORRECTED one records a soft outcome of the entered track, at its front and below threshold with
nothing else changed, and none where the request has had this sector recorded (R115); a hard outcome is recorded always
(R159), in place of a soft one of the same sector, whose tally is taken back (the model's choice, log 40). A good sector
short of the last makes a READ's image COMPLETE, and is transferred for a VERIFY; a failed attempt below the seventh names
the next attempt, gives its offset in the same event (the model's choice, log 56) and pauses the request; the seventh
records the hard outcome and reaches UNCORRECTABLE, a LOST flag DATA LOST, a good last sector COMPLETE or COMPLETE
RECOVERED: a READ holds the cause and its COMPLETE images, or ends with it if it has none, a VERIFY ends with it, the
judged sector transferred (log 43). -/
def Obligations.SectorOutcome : Prop :=
  (∀ (s : State) (d : DriveId) (sr : SectorRead) (k : PathId) (r : Record) (ord x : Nat) (a : SectorAddr) (e : Entered),
    s.pathOnDrive d = some k → (s.path k).holder = some r.pos → (s.path k).reading = some ord →
      (s.path k).entered = some e → s.request? r.pos = some r → r.drive = d → r.sectorAt ord = some (x, a) →
        ((s.drive d).rpc ≠ (4 * a.sector + 4) % 64 → exec (.sectorReadOutcome d sr) s = .next s.settle)
          ∧ ((s.drive d).rpc = (4 * a.sector + 4) % 64 →
              let o := judgeRead e.serving a.sector sr
              let attempt := match (s.path k).ladder with
                | some (_, n) => n
                | none => 1
              exec (.sectorReadOutcome d sr) s = .next (State.settle (State.afterSector (State.takeOutcome
                ((s.modPath k fun P => { P with reading := none }).closeGates d) k r ord attempt e.serving o
                  (wholeSector sr.bytes)) k r.pos (o.good && !o.lost))))
          ∧ ((s.drive d).rpc = (4 * a.sector + 4) % 64 → (s.path k).ladder = none →
              judgeRead e.serving a.sector sr = .clean false →
                ∃ t, exec (.sectorReadOutcome d sr) s = .next t ∧ (t.drive d).health = (s.drive d).health)
          ∧ ((s.drive d).rpc = (4 * a.sector + 4) % 64 → (s.path k).ladder = none →
              judgeRead e.serving a.sector sr = .corrected false →
                (r.softTrack (logicalIndex a) ≠ none →
                    ∃ t, exec (.sectorReadOutcome d sr) s = .next t ∧ (t.drive d).health = (s.drive d).health)
                  ∧ (r.softTrack (logicalIndex a) = none →
                      let h := raisedEntry e.serving .soft ((s.drive d).health.find? fun y => y.track == e.serving)
                      h.soft < s.params.softThreshold → h.hard = 0 →
                        ∃ t, exec (.sectorReadOutcome d sr) s = .next t
                          ∧ (t.drive d).health = h :: othersAfter e.serving (s.drive d).health)))
    ∧ (∀ (s : State) (k : PathId) (r : Record) (ord n : Nat) (serving : Track) (o : Outcome) (bytes : List Byte),
        o.good = true → o.lost = false → s.request? r.pos = some r →
          let soft := n != 1 || o == .corrected false
          let u := s.takeOutcome k r ord n serving o bytes
          (ord + 1 ≠ r.total → (s.path k).service = some .hostRead →
              (u.path k).fifo = (s.path k).fifo.map (fun i =>
                if i.ord = ord then { i with cond := .complete, bytes := bytes } else i)
                ∧ (u.path k).ladder = none
                ∧ (u.request? r.pos).map (fun y => (y.done, y.soft)) = some (r.done, r.soft || soft))
            ∧ (ord + 1 ≠ r.total → (s.path k).service = some .hostVerify →
                (u.path k).fifo = (s.path k).fifo ∧ (u.path k).ladder = none
                  ∧ (u.request? r.pos).map (fun y => (y.done, y.soft)) = some (r.done + 1, r.soft || soft))
            ∧ (ord + 1 = r.total → (s.path k).service = some .hostRead → (∃ i ∈ (s.path k).fifo, i.ord = ord) →
                (u.path k).ending = some ⟨if r.soft || soft then .completeRecovered else .complete, ord, 0, some serving⟩)
            ∧ (ord + 1 = r.total → (s.path k).service = some .hostVerify → r.done + 1 = r.total → ∀ p, s.endsQueued p r →
                u.endedWith p { r with done := r.total } (if r.soft || soft then .completeRecovered else .complete)))
    ∧ (∀ (s : State) (k : PathId) (r : Record) (ord n : Nat) (serving : Track) (o : Outcome) (bytes : List Byte),
        o.good = false → o.lost = false → n < 7 → s.request? r.pos = some r →
          let u := s.takeOutcome k r ord n serving o bytes
          (u.path k).ladder = some (ord, n + 1) ∧ (u.drive r.drive).offset = attemptOffset (n + 1)
            ∧ (u.request? r.pos).map (fun y => (y.state, y.done)) = some (.paused, r.done)
            ∧ (u.path k).fifo = (s.path k).fifo.map (fun i => if i.ord = ord then { i with cond := .reserved } else i)
            ∧ (u.drive r.drive).health = (s.drive r.drive).health)
    ∧ (∀ (s : State) (k : PathId) (r : Record) (ord : Nat) (serving : Track) (o : Outcome) (bytes : List Byte),
        o.good = false → o.lost = false →
          s.takeOutcome k r ord 7 serving o bytes = State.reachEnding ((s.recordOnce r ord serving .hard).giveOffset r.drive
            .off) k r ⟨.uncorrectable, ord, 7, some serving⟩)
    ∧ (∀ (s : State) (k : PathId) (r : Record) (ord n : Nat) (serving : Track) (o : Outcome) (bytes : List Byte),
        o.lost = true →
          s.takeOutcome k r ord n serving o bytes
            = (s.giveOffset r.drive .off).reachEnding k r ⟨.dataLost, ord, n, some serving⟩)
    ∧ (∀ (s : State) (r : Record) (ord x : Nat) (a : SectorAddr) (t : Track), r.sectorAt ord = some (x, a) →
        (r.softTrack (logicalIndex a) = none →
            s.recordOnce r ord t .soft = ((s.recordOutcome r.pos r.drive t .soft).modRequest r.pos fun y =>
                { y with recordedSectors := (logicalIndex a, t) :: y.recordedSectors })
              ∧ s.recordOnce r ord t .hard = s.recordOutcome r.pos r.drive t .hard)
          ∧ ∀ before, r.softTrack (logicalIndex a) = some before →
              s.recordOnce r ord t .soft = s
                ∧ s.recordOnce r ord t .hard = State.recordOutcome (s.modDrive r.drive fun D =>
                    { D with health := D.health.map fun h => if h.track = before then { h with soft := h.soft - 1 } else h })
                      r.pos r.drive t .hard)
    ∧ ∀ (s : State) (k : PathId) (r : Record) (h : Held), s.request? r.pos = some r →
        let complete := (s.path k).fifo.filter fun i => i.cond == .complete
        ((s.path k).service = some .hostRead → complete ≠ [] →
            ((s.reachEnding k r h).path k).ending = some h ∧ ((s.reachEnding k r h).path k).fifo = complete)
          ∧ ((s.path k).service = some .hostRead → complete = [] → ∀ p, s.endsQueued p r →
              (s.reachEnding k r h).endedWith p r h.status)
          ∧ ((s.path k).service = some .hostVerify → ∀ p, s.endsQueued p r →
              (s.reachEnding k r h).endedWith p { r with done := r.done + 1 } h.status)

/-- The end of a sector's write, at its ending boundary (off it the event is not acted on: log 9): its bytes leave the FIFO,
the gates close, its sector leaves the lost-sector set and the relocation unit has notice. A request that goes on has
transferred one sector more. Of a request that has ended PORT PARITY the path and the drive are free there; a status still in
presentation goes on in the port alone (R118; log 11). -/
def Obligations.SectorWriteComplete : Prop :=
  ∀ (s : State) (d : DriveId) (k : PathId) (i : Image) (rest : List Image) (r : Record), s.pathOnDrive d = some k →
    (s.path k).fifo = i :: rest → (s.path k).holder = some r.pos → s.request? r.pos = some r → i.cond = .writing →
      let u := (((s.modPath k fun P => { P with fifo := rest }).closeGates d).clearLost d i.serving i.sector).notice d i.home
      ((s.drive d).rpc ≠ (4 * i.sector + 4) % 64 → exec (.sectorWriteComplete d) s = .next s.settle)
        ∧ ((s.drive d).rpc = (4 * i.sector + 4) % 64 → r.ended = false →
            exec (.sectorWriteComplete d) s = .next (State.settle ((u.modRequest r.pos fun y =>
              { y with done := y.done + 1 }).afterWrite k d { r with done := r.done + 1 })))
        ∧ ((s.drive d).rpc = (4 * i.sector + 4) % 64 → r.ended = true →
            let v := u.finishParity k d
            exec (.sectorWriteComplete d) s = .next v.settle ∧ v.path k = Path.free
              ∧ ((s.drive d).active = some r.pos → (v.drive d).active = none)
              ∧ ∀ p e, (s.path k).port = some p → (s.port p).state = .connected (.data k (some e)) →
                  (v.port p).state = .connected (.parting e) ∧ (v.port p).sending = (s.port p).sending)

/-- An ending status of a port's own request: presented in the request's connection if it has one, else appended to the
status queue; of error class it creates the held report, or extends the one held; of another class it leaves the slot. -/
def Obligations.EndingStatus : Prop :=
  ∀ (s : State) (pos : Nat) (i : EndInfo) (r : Record) (p : PortId), s.request? pos = some r → r.source = .port p →
    r.ended = false → r.detached = false → (s.port p).state ≠ .lost →
      (s.ownConnection p pos = none →
          ((s.issueStatus pos i).port p).statusQueue = (s.port p).statusQueue ++ [r.statusEntry i])
        ∧ (∀ k, s.ownConnection p pos = some k →
            ((s.issueStatus pos i).port p).state = .connected (.data k (some (r.statusEntry i)))
              ∧ ((s.issueStatus pos i).port p).sending = sentBlock (statusBlock (r.statusEntry i))
              ∧ ((s.issueStatus pos i).port p).statusQueue = (s.port p).statusQueue)
        ∧ (i.status.isError = true → s.reportOf p r.drive = none →
            (s.issueStatus pos i).reportOf p r.drive = some (s.newReport r i))
        ∧ (∀ rep, i.status.isError = true → s.reportOf p r.drive = some rep →
            (s.issueStatus pos i).reportOf p r.drive = some (rep.extend r.tag))
        ∧ (i.status.isError = false → (s.issueStatus pos i).reportOf p r.drive = s.reportOf p r.drive)

/-! ### Relocation and scan -/

/-- The unit's own points: the waiting step is admitted when the store and the drive's queue have room, a held point is
passed again when no write holds it, the progress timer expires at its interval, a SUSPENDED relocation resumes when its
timer has run 16 revolutions or no eligible host record remains; none of them before. -/
def Obligations.RelocationPoints : Prop :=
  (∀ (s : State) (q : StepRequest), s.ru.step = .waiting q →
      (s.records.length < 96 → s.queueCount q.drive < 24 →
          exec .waitingStepAdmitted s = .next (State.settle { s with
            records := s.records ++ [stepRecord s.nextPos q]
            nextPos := s.nextPos + 1
            ru := { s.ru with step := .placed s.nextPos } }))
        ∧ (96 ≤ s.records.length ∨ 24 ≤ s.queueCount q.drive → exec .waitingStepAdmitted s = .next s.settle))
    ∧ (∀ (s : State) (ref : EntryRef) (st : Stage), s.ru.state = .running → s.ru.entry = some ref →
        s.ru.stage = some st → s.ru.step = .point → st = .commitTarget ∨ st = .releaseAlternate →
          (s.writeEntered ref = false → exec .commitPointWriteEnd s = .next s.ruPoint.settle)
            ∧ (s.writeEntered ref = true → exec .commitPointWriteEnd s = .next s.settle))
    ∧ (∀ (s : State) (count interval : Nat), s.ru.progress = .running count interval →
        (interval ≤ count → exec .progressTimerExpiry s
            = .next (s.modRu fun u => { u with progress := .expired }).settle)
          ∧ (count < interval → exec .progressTimerExpiry s = .next s.settle))
    ∧ (∀ (s : State) (n : Nat), s.ru.state = .suspended → s.ru.suspension = some n →
        (16 ≤ n → exec .suspensionTimerExpiry s = .next s.resume.settle)
          ∧ (n < 16 → exec .suspensionTimerExpiry s = .next s.settle))
    ∧ ∀ (s : State) (ref : EntryRef), s.ru.state = .suspended → s.ru.entry = some ref →
        (s.hostWaits ref.drive = false → exec .relocationResume s = .next s.resume.settle)
          ∧ (s.hostWaits ref.drive = true → exec .relocationResume s = .next s.settle)

/-- A relocation step that completes gives up its path and its record, and its result goes to the relocation unit: a
header step's success or failure with the header it recorded, a track write's end with the sixteen sectors it recorded, a
track read's sixteen entries, a track verify's sixteen outcomes. A header is recorded as 13 bytes and an ident as 7, the
check field, a free value (log 41), last. -/
def Obligations.StepCompletions : Prop :=
  (∀ (s : State) (d : DriveId) (w : Bool) (k : PathId) (r : Record) (h : Header), s.stepDue d .header = some (k, r) →
      (s.drive d).rpc = 0 → r.header = some h →
        exec (.headerStepComplete d w) s = .next (State.settle (((s.setRecorded d (.header (recordedHeader r.stepTrack
          h))).completeStep k r).headerResult (!w))))
    ∧ (∀ (s : State) (d : DriveId) (reads : List (List SectorRead)) (k : PathId) (r : Record),
        s.stepDue d .read = some (k, r) → s.atPassEnd d k = true →
          (s.path k).passes = passesOf (readEntries r.stepTrack reads) →
            exec (.trackReadStepComplete d reads) s = .next (State.settle (((s.giveOffset d .off).completeStep k
              r).readResult ((readEntries r.stepTrack reads).map fun e => e.2))))
    ∧ (∀ (s : State) (d : DriveId) (k : PathId) (r : Record) (st : Stage), s.stepDue d .write = some (k, r) →
        s.atPassEnd d k = true → r.stage = some st →
          exec (.trackWriteStepComplete d) s = .next (State.settle (((s.setRecorded d (.track (recordedTrack r.stepTrack
            (s.trackImage st)))).completeStep k r).writeResult)))
    ∧ (∀ (s : State) (d : DriveId) (reads : List SectorRead) (k : PathId) (r : Record),
        s.stepDue d .verify = some (k, r) → s.atPassEnd d k = true →
          exec (.trackVerifyStepComplete d reads) s = .next (State.settle ((s.completeStep k r).verifyResult
            (trackOutcomes r.stepTrack reads))))
    ∧ (∀ (t : Track) (h : Header), (recordedHeader t h).length = 13
        ∧ (recordedHeader t h).take 9 = be16 t.cyl ++ [byteOf t.head, 0x01, h.spareState.code] ++ be16 h.link.cyl
          ++ [byteOf h.link.head, h.generation])
    ∧ (∀ (t : Track) (n : Nat) (lost : Bool), (recordedIdent t n lost).length = 7
        ∧ (recordedIdent t n lost).take 5 = be16 t.cyl ++ [byteOf t.head, byteOf n, if lost then 1 else 0])
    ∧ ∀ (t : Track) (l : List (Bool × List Byte)) (n : Nat) (x : Bool × List Byte), l[n]? = some x →
        (recordedTrack t l)[n]? = some (recordedIdent t n x.1, x.2)

/-- A verify passes exactly when every sector's outcome is CLEAN with its LOST flag as the expected set has it; and what a
stage's result does. A track read fills the buffer, that of the alternate adding its lost sectors to the entry's set, and
leads to the target's header or to the home; a track write leads to its verify. A pass leads on, to COMMIT-TARGET or
RELEASE-ALTERNATE; a failed verify or header write of a target is a target failure: the target is UNUSABLE, the failure
counted, REJECT-TARGET next. COMMIT-TARGET makes the entry ACTIVE on its target with the generation and the lost set of the
buffer, a previous alternate UNUSABLE with DISCARD-OLD next, else the unit IDLE. RELEASE-ALTERNATE removes the entry, frees
the alternate, and its stalled fellows rejoin the work list; failed, it leads to RESTORE-HEADER. An abandoned return leaves
the entry ACTIVE. At a commit, a release and an abandoned return the drive is attended. The third target failure stalls the
entry; of the attention there, which R170 and R132 give by origin and direction, nothing is said. In each of these four the
linked request ends with the status of its result. -/
def Obligations.VerifyJudgement : Prop :=
  (∀ (expected : SectorSet) (outcomes : List Outcome), outcomes.length = 16 →
    (verifyPasses expected outcomes = true ↔ ∀ i < 16, outcomes[i]? = some (.clean (expected.getLsbD i))))
    ∧ (∀ (s : State) (ref : EntryRef) (outcomes : List Outcome), s.ru.entry = some ref →
        (s.ru.stage = some .verifyTarget → s.verifyResult outcomes
            = if verifyPasses (bufferLost s.buffer) outcomes then s.toStage .commitTarget else s.targetFailure ref)
          ∧ ∀ e, s.ru.stage = some .verifyHome → s.entry? ref.drive ref.home = some e → s.verifyResult outcomes
              = if verifyPasses e.lost outcomes then s.toStage .releaseAlternate else s.abandonReturn ref)
    ∧ (∀ (s : State) (ref : EntryRef) (ok : Bool), s.ru.state ≠ .aborting → s.ru.entry = some ref →
        (s.ru.stage = some .writeTargetHeader →
            s.headerResult ok = if ok then s.toStage .writeTarget else s.targetFailure ref)
          ∧ (s.ru.stage = some .commitTarget → s.headerResult ok = if ok then s.commit ref else s.targetFailure ref)
          ∧ (s.ru.stage = some .discardOld → s.headerResult ok = s.ruIdle)
          ∧ (s.ru.stage = some .rejectTarget → s.headerResult ok
              = if s.ru.verifyFailures < 3 then s.allocate ref (fun t => t.toStage .writeTargetHeader)
                else s.rejectDone ref)
          ∧ (s.ru.stage = some .releaseAlternate → s.headerResult ok
              = if ok then s.releaseAlternate ref
                else (s.modRu fun u => { u with releaseFailed := true }).toStage .restoreHeader)
          ∧ (s.ru.stage = some .restoreHeader → s.headerResult ok = s.abandonReturn ref))
    ∧ (∀ (s : State) (ok : Bool), s.ru.state = .aborting → s.headerResult ok = s.ruIdle)
    ∧ (∀ (s : State) (ref : EntryRef) (entries : List BufEntry), s.ru.entry = some ref →
        let u : State := { s with buffer := some entries, ru := { s.ru with sourceRead := true } }
        (s.ru.stage = some .readSource → s.readResult entries = u.toStage .writeTargetHeader)
          ∧ (s.ru.stage = some .readAlternate → s.readResult entries = State.toStage (u.modEntry ref.drive ref.home fun e =>
              { e with lost := e.lost ||| bufferLost (some entries) }) .writeHome))
    ∧ (∀ s : State, (s.ru.stage = some .writeTarget → s.writeResult = s.toStage .verifyTarget)
        ∧ (s.ru.stage = some .writeHome → s.writeResult = s.toStage .verifyHome))
    ∧ ∀ (s : State) (ref : EntryRef) (e : MapEntry), s.entry? ref.drive ref.home = some e →
        let pool := (s.drive ref.drive).pool
        (let u := s.targetFailure ref
         u.entry? ref.drive ref.home = some { e with target := none }
            ∧ (u.drive ref.drive).pool = e.target.elim pool (fun t => setPool t .unusable pool)
            ∧ u.ru.stage = some .rejectTarget ∧ u.ru.spare = e.target
            ∧ u.ru.verifyFailures = min (s.ru.verifyFailures + 1) 3)
          ∧ (let u := s.commit ref
             (∃ f, u.entry? ref.drive ref.home = some f ∧ f.state = .active ∧ f.alternate = e.target ∧ f.target = none
                ∧ f.previous = none ∧ f.lost = bufferLost s.buffer
                ∧ f.generation = (if e.state = .moving .replacement then e.generation + 1 else 0)
                ∧ f.replacement = (if e.state = .moving .replacement then false else e.replacement))
              ∧ (u.drive ref.drive).pool = e.previous.elim pool (fun t => setPool t .unusable pool)
              ∧ (e.state ≠ .moving .replacement → u.ru = Relocation.reset ∧ u.buffer = none)
              ∧ (e.state = .moving .replacement → s.ru.sourceChanged = false →
                  u.ru.stage = some .discardOld ∧ u.ru.spare = e.previous ∧ u.buffer = none)
              ∧ (∀ p, (s.port p).state ≠ .lost → ref.drive ∈ (u.port p).attention)
              ∧ ∀ p r, e.linked = some r.pos → s.endsQueued p r → u.endedWith p r .complete)
          ∧ (let u := s.releaseAlternate ref
             ((∀ h ∈ (s.drive ref.drive).health, h.waiting = false) →
                u.entry? ref.drive ref.home = none
                  ∧ (u.drive ref.drive).pool = e.alternate.elim pool (fun t => setPool t .free pool))
              ∧ u.ru = Relocation.reset ∧ u.buffer = none
              ∧ u.stalled = s.stalled.filter (fun x => x.drive != ref.drive)
              ∧ (∀ x ∈ s.stalled, x.drive = ref.drive → x ∈ u.workList)
              ∧ (∀ p, (s.port p).state ≠ .lost → ref.drive ∈ (u.port p).attention)
              ∧ ∀ p r, e.linked = some r.pos → s.endsQueued p r → u.endedWith p r .complete)
          ∧ (let u := s.abandonReturn ref
             (e.state = .moving .ret → (∃ f, u.entry? ref.drive ref.home = some f ∧ f.state = .active ∧ f.named = false
                ∧ f.alternate = e.alternate))
              ∧ (u.drive ref.drive).pool = pool ∧ u.ru = Relocation.reset ∧ u.buffer = none
              ∧ (∀ p, (s.port p).state ≠ .lost → ref.drive ∈ (u.port p).attention)
              ∧ ∀ p r, e.linked = some r.pos → s.endsQueued p r → u.endedWith p r .returnFailed)
          ∧ (3 ≤ s.ru.verifyFailures →
            let u := s.rejectDone ref
            (e.state = .moving .forward → ∃ f, u.entry? ref.drive ref.home = some f ∧ f.state = .pending
                ∧ f.target = none)
              ∧ (e.state = .moving .replacement → ∃ f, u.entry? ref.drive ref.home = some f ∧ f.state = .active
                ∧ f.alternate = e.previous ∧ f.previous = none ∧ f.target = none)
              ∧ (u.drive ref.drive).pool = pool ∧ ref ∈ u.stalled ∧ u.ru = Relocation.reset ∧ u.buffer = none
              ∧ ∀ p r, e.linked = some r.pos → s.endsQueued p r → u.endedWith p r .noSpare)

/-- A header read of the scan: the spare joins the pool as the header says, an ALTERNATE with a home link builds an entry or
disputes the one there is, and the spare that loses joins the losers; the scan turns to the next spare, and after the last
one to the first loser to discard, else to the first alternate to rebuild, else it is complete. A discard records UNUSABLE and
goes on to the next loser, then to the first alternate; a rebuild writes the sectors whose ident carries LOST into the set of
the ACTIVE entry on its track and goes on to the next alternate; after the last the drive is READY with its map built. -/
def Obligations.ScanGoesOn : Prop :=
  (∀ (s : State) (d : DriveId) (c : Scan) (ty : DriveType) (h : Option RawHeader), (s.drive d).state = .scanning →
      (s.drive d).scan = some c → (s.drive d).type = some ty → c.job = .header → c.opDue = true →
        let taken := s.takeHeader d ty c.track c.losers (judgeHeader c.track h)
        (∀ x, nextSpare ty c.track = some x →
            exec (.scanHeaderRead d h) s = .next (taken.1.scanTo d .header x taken.2 []).settle
              ∧ ((taken.1.scanTo d .header x taken.2 []).drive d).map = (taken.1.drive d).map
              ∧ ((taken.1.scanTo d .header x taken.2 []).drive d).pool = (taken.1.drive d).pool
              ∧ ∃ t, exec (.scanHeaderRead d h) s = .next t ∧ (t.drive d).state = .scanning
                ∧ (t.drive d).scan = some ⟨.header, x, taken.2, [], (s.drive d).cyl == some x.cyl, none, false⟩)
          ∧ (nextSpare ty c.track = none →
            exec (.scanHeaderRead d h) s = .next (taken.1.scanDiscard d taken.2).settle
              ∧ ((taken.1.scanDiscard d taken.2).drive d).map = (taken.1.drive d).map
              ∧ ((taken.1.scanDiscard d taken.2).drive d).pool = (taken.1.drive d).pool
              ∧ ∃ t, exec (.scanHeaderRead d h) s = .next t
                ∧ (s.drive d).scansOn (t.drive d) taken.2 (activeAlternates (taken.1.drive d).map)))
    ∧ (∀ (s : State) (d : DriveId) (ty : DriveType) (t : Track) (l : List Track) (link : Track) (g : Byte),
        let D := s.drive d
        let after (r : HeaderResult) (pool : List (Track × SpareState)) (map : List MapEntry) (losers : List Track) : Prop :=
          ((s.takeHeader d ty t l r).1.drive d).pool = pool ∧ ((s.takeHeader d ty t l r).1.drive d).map = map
            ∧ (s.takeHeader d ty t l r).2 = losers
        after .unreadable (setPool t .unusable D.pool) D.map l
          ∧ after (.readable .unusable link g) (setPool t .unusable D.pool) D.map l
          ∧ after (.readable .free link g) (setPool t .free D.pool) D.map l
          ∧ after (.readable .reserved link g) (setPool t .free D.pool) D.map l
          ∧ (isHomeTrack ty link = false →
              after (.readable .alternate link g) (setPool t .unusable D.pool) D.map l)
          ∧ (isHomeTrack ty link = true → s.entry? d link = none → D.map.length < 128 →
              after (.readable .alternate link g) (setPool t .inUse D.pool) (insertEntry (scannedEntry link t g) D.map) l)
          ∧ ∀ e, isHomeTrack ty link = true → s.entry? d link = some e →
              (laterGeneration g e.generation = false →
                  after (.readable .alternate link g) (setPool t .unusable D.pool) D.map (insertTrack t l))
                ∧ ∀ old, laterGeneration g e.generation = true → e.alternate = some old →
                  after (.readable .alternate link g) (setPool old .unusable (setPool t .inUse D.pool))
                    (D.map.map fun x => if x.home = link then { x with alternate := some t, generation := g } else x)
                    (insertTrack old l))
    ∧ (∀ (s : State) (d : DriveId) (c : Scan) (w : Bool), (s.drive d).state = .scanning → (s.drive d).scan = some c →
        c.job = .discard → c.opDue = true →
          exec (.scanDiscardWrite d w) s = .next (State.settle ((s.setRecorded d (.header (recordedHeader c.track
            (plainHeader .unusable)))).scanDiscard d c.losers))
            ∧ ∃ t, exec (.scanDiscardWrite d w) s = .next t
              ∧ (s.drive d).scansOn (t.drive d) c.losers (activeAlternates (s.drive d).map))
    ∧ (∀ (s : State) (d : DriveId) (c : Scan) (reads : List SectorRead), (s.drive d).state = .scanning →
        (s.drive d).scan = some c → c.job = .rebuild → c.opDue = true →
          exec (.rebuildPass d reads) s = .next (State.settle ((s.modDrive d fun D => { D with
              map := D.map.map fun e =>
                if e.state == .active && e.alternate == some c.track then
                  { e with lost := sectorsWhere Outcome.lost 0 (trackOutcomes c.track reads) } else e }).scanRebuild d
            c.rebuilds))
            ∧ ∃ t, exec (.rebuildPass d reads) s = .next t ∧ (s.drive d).scansOn (t.drive d) [] c.rebuilds)
    ∧ ∀ (t : Track) (reads : List SectorRead) (n : Nat), n < 16 →
        (sectorsWhere Outcome.lost 0 (trackOutcomes t reads)).getLsbD n
          = (judgeRead t n (reads.getD n ⟨none, .uncorrectable, []⟩)).lost

/-! ### Functions of the manual -/

/-- Translation: no logical cylinder becomes a spare cylinder, and the logical cylinder comes back. The serving track of a
home track is the home itself without an entry or while it is PENDING or moving FORWARD, the alternate while it is ACTIVE or
moving back, and the previous alternate while it is being replaced. -/
def Obligations.Translation : Prop :=
  (∀ l : Nat, physicalCylinder l = l + l / 101 ∧ (physicalCylinder l + 1) % 102 ≠ 0
    ∧ logicalCylinder (physicalCylinder l) = l
    ∧ ∀ p, (p + 1) % 102 ≠ 0 → physicalCylinder (logicalCylinder p) = p)
    ∧ ∀ (s : State) (d : DriveId) (home : Track),
        (s.entry? d home = none → s.serving d home = home)
          ∧ ∀ e, s.entry? d home = some e →
              (e.state = .pending ∨ e.state = .moving .forward → s.serving d home = home)
                ∧ (∀ t, e.state = .active ∨ e.state = .moving .ret → e.alternate = some t → s.serving d home = t)
                ∧ ∀ t, e.state = .moving .replacement → e.previous = some t → s.serving d home = t

/-- The distance and the seek curves. -/
def Obligations.SeekCurve : Prop :=
  DriveType.type1.curve = [(1, 24), (4, 30), (16, 40), (64, 58), (128, 76), (256, 104), (512, 150), (815, 196)]
    ∧ DriveType.type2.curve = [(1, 24), (4, 30), (16, 40), (32, 48), (64, 58), (128, 76), (256, 104), (407, 128)]
    ∧ (∀ c c0 : Nat, distance c c0 = ((c : Int) - c0).natAbs)
    ∧ ∀ ty : DriveType, seekTime ty 0 = 0
        ∧ (∀ (i dist d0 t0 d1 t1 : Nat), ty.curve[i]? = some (d0, t0) → ty.curve[i + 1]? = some (d1, t1) → d0 ≤ dist →
            dist < d1 → seekTime ty dist = t0 + (dist - d0) * (t1 - t0) / (d1 - d0))
        ∧ (∀ (i dist t : Nat), ty.curve[i]? = some (dist, t) → seekTime ty dist = t)
        ∧ ∀ (dist d7 t7 : Nat), ty.curve[7]? = some (d7, t7) → d7 ≤ dist → seekTime ty dist = t7

/-- The ready slot, the three wait rules, the raw cost and its bounds. -/
def Obligations.RawCost : Prop :=
  (∀ p t : Nat, readySlot p t = (p + 1 + t) % 64)
    ∧ (∀ r slot lead : Nat,
        (rotationalWait r (.sector slot lead) : Int) = ((slot : Int) - r - lead) % 64 + lead)
    ∧ (∀ r : Nat, (rotationalWait r .boundary : Int) = (-(r : Int)) % 4 ∧ rotationalWait r .none = 0)
    ∧ (∀ r slot : Nat, rotationalWait r (.sector slot 0) ≤ 63 ∧ 8 ≤ rotationalWait r (.sector slot 8)
        ∧ rotationalWait r (.sector slot 8) ≤ 71 ∧ rotationalWait r .boundary ≤ 3)
    ∧ (∀ (ty : DriveType) (p c0 c : Nat) (w : WaitRule), rawCost ty p c0 c w
        = 1 + seekTime ty (distance c c0) + rotationalWait (readySlot p (seekTime ty (distance c c0))) w)
    ∧ (∀ (ty : DriveType) (p c0 c : Nat) (w : WaitRule),
        (w = .none ∨ w = .boundary ∨ ∃ slot, w = .sector slot 0 ∨ w = .sector slot 8) →
          1 ≤ rawCost ty p c0 c w ∧ rawCost ty p c0 c w ≤ (match ty with
            | .type1 => 268
            | .type2 => 200))
    ∧ ∀ (ty : DriveType) (p c0 c : Nat), rawCost ty p c0 c .none = 1 + seekTime ty (distance c c0)
        ∧ rawCost ty p c0 c .none ≤ (match ty with
            | .type1 => 197
            | .type2 => 129)

/-- Stage 6, the reversal penalty; stages 7 and 8, aging and class; the bounds of the costs; the cost of a record of any
kind, from the sweep, the penalty in force, its bypass count and its class; and the queues that the evaluation reads hold
no MAP-CHANGE record. -/
def Obligations.PenaltyAgingClass : Prop :=
  (∀ (sw : Sweep) (h c0 c raw : Nat),
      ((sw = .inward ∧ c < c0) ∨ (sw = .outward ∧ c0 < c) → penalised sw h c0 c raw = raw + h)
        ∧ (¬((sw = .inward ∧ c < c0) ∨ (sw = .outward ∧ c0 < c)) → penalised sw h c0 c raw = raw)
        ∧ penalised sw 0 c0 c raw = raw)
    ∧ (∀ k b : Nat, finalCost k b false = k * (16 - min b 8) / 16
        ∧ finalCost k b true = 2 * (k * (16 - min b 8) / 16))
    ∧ (∀ k b : Nat, finalCost k b false ≤ k ∧ k / 2 ≤ finalCost k b false ∧ finalCost k 0 false = k)
    ∧ (∀ k b : Nat, 8 ≤ b → finalCost k b false = finalCost k 8 false)
    ∧ (∀ k : Nat, finalCost k 8 true = 2 * (k / 2) ∧ finalCost k 8 true ≤ k)
    ∧ (∀ (ty : DriveType) (sw : Sweep) (p h b c0 c : Nat) (w : WaitRule) (isStep : Bool), h ≤ 63 →
        (w = .none ∨ w = .boundary ∨ ∃ slot, w = .sector slot 0 ∨ w = .sector slot 8) →
          let raw := rawCost ty p c0 c w
          let k := penalised sw h c0 c raw
          raw ≤ k ∧ k ≤ raw + 63 ∧ raw / 2 ≤ finalCost k b isStep ∧ finalCost k b isStep ≤ 2 * (raw + 63)
            ∧ match ty with
              | .type1 => 1 ≤ raw ∧ raw ≤ 268 ∧ finalCost k b isStep ≤ 662
              | .type2 => 1 ≤ raw ∧ raw ≤ 200 ∧ finalCost k b isStep ≤ 526)
    ∧ (∀ (s : State) (r : Record) (c0 : Nat) (ty : DriveType), (s.drive r.drive).cyl = some c0 →
        (s.drive r.drive).type = some ty →
          s.costOf r = finalCost (penalised (s.drive r.drive).sweep s.params.reversal c0 (s.targetOf r).1.cyl
            (rawCost ty (s.drive r.drive).rpc c0 (s.targetOf r).1.cyl (s.targetOf r).2)) r.bypass r.kind.isStep)
    ∧ (∀ (s : State) (r : Record), r.kind = .calibrate → s.targetOf r = (⟨0, 0⟩, .none))
    ∧ ∀ (s : State) (d : DriveId), ∀ r ∈ s.queue d, r.kind.isMapChange = false

/-- Eligibility: a record is ineligible while its port holds a report for its drive, unless it is detached, and a WRITE
while the home of its position's track is MOVING in the hands of a RUNNING relocation unit. The choice: of overdue records
the one accepted first, else the cheapest, of equal ones the one accepted first. It rests on the costs, bypass counts and
positions of the eligible records alone. Its effects: the chosen record SEEKING, the other eligible records passed over once
more, at most 15 times, and the sweep turned toward the chosen target. -/
def Obligations.ChoiceAmongEligible : Prop :=
  (∀ (s : State) (l : List Record),
      (s.pick l = none ↔ l = [])
        ∧ (∀ r, l = [r] → s.pick l = some r)
        ∧ (∀ t : State, (∀ r ∈ l, s.costOf r = t.costOf r) → s.pick l = t.pick l)
        ∧ ∀ r, s.pick l = some r → r ∈ l
          ∧ ((∃ x ∈ l, 15 ≤ x.bypass) → 15 ≤ r.bypass ∧ ∀ x ∈ l, 15 ≤ x.bypass → r.pos ≤ x.pos)
          ∧ ((∀ x ∈ l, x.bypass < 15) → ∀ x ∈ l,
              s.costOf r < s.costOf x ∨ (s.costOf r = s.costOf x ∧ r.pos ≤ x.pos)))
    ∧ (∀ (s : State) (d : DriveId) (r : Record), (s.drive d).state = .ready → (s.drive d).active = none →
        s.pick ((s.queue d).filter s.eligible) = some r →
          s.chooseFor d = s.commitChoice d ((s.queue d).filter s.eligible) r)
    ∧ (∀ (s : State) (r : Record), s.eligible r = false ↔
        (∃ p, r.source = .port p ∧ r.detached = false ∧ s.reportOf p r.drive ≠ none)
          ∨ (r.kind = .write ∧ ∃ t e dir, r.logicalTrack = some t ∧ s.entry? r.drive (homeOf t) = some e
              ∧ e.state = .moving dir ∧ s.ru.state = .running ∧ s.ru.entry = some ⟨r.drive, homeOf t⟩))
    ∧ ∀ (s : State) (d : DriveId) (l : List Record) (r : Record) (c0 : Nat), (s.drive d).cyl = some c0 →
        let c := (s.targetOf r).1.cyl
        let t := s.commitChoice d l r
        t.records = s.records.map (fun x =>
            if x.pos = r.pos then { x with state := .seeking }
            else if ∃ y ∈ l, y.pos = x.pos then { x with bypass := min (x.bypass + 1) 15 }
            else x)
          ∧ (c0 < c → (t.drive d).sweep = .inward) ∧ (c < c0 → (t.drive d).sweep = .outward)
          ∧ (c = c0 → (t.drive d).sweep = (s.drive d).sweep)

/-- Allocation takes a FREE spare of the nearest cylinder, the lower of two as near, the home's own head if FREE, else the
lowest head. -/
def Obligations.NearestSpare : Prop :=
  ∀ (home : Track) (free : List Track),
    (chooseSpare home free = none ↔ free = [])
      ∧ ∀ t, chooseSpare home free = some t → t ∈ free
        ∧ (∀ u ∈ free, distance t.cyl home.cyl < distance u.cyl home.cyl
            ∨ (distance t.cyl home.cyl = distance u.cyl home.cyl ∧ t.cyl ≤ u.cyl))
        ∧ ((⟨t.cyl, home.head⟩ : Track) ∈ free → t.head = home.head)
        ∧ ((⟨t.cyl, home.head⟩ : Track) ∉ free → ∀ u ∈ free, u.cyl = t.cyl → t.head ≤ u.head)

/-- The source order of each path priority code (Table 6-1), and the code after reset. The arbiter takes DP-0 before DP-1,
and of the waiting claims that of the earliest record in the overdue order, else that of the first source in the order, the
earliest to arrive of one source. A grant gives the path to the claim's record, which leaves the waiting claims and the
overdue order with its missed revolutions at 0; and after every event a path is FREE only while no claim waits. -/
def Obligations.SourceOrder : Prop :=
  (∀ code < 16, sourceOrder code =
      let ab : List Source := if code / 2 % 2 = 0 then [.port .a, .port .b] else [.port .b, .port .a]
      let cd : List Source := if code / 4 % 2 = 0 then [.port .c, .port .d] else [.port .d, .port .c]
      let ports := if code % 2 = 0 then ab ++ cd else cd ++ ab
      if code / 8 = 0 then ports ++ [.relocation] else .relocation :: ports)
    ∧ State.reset.params.priority = 0
    ∧ (∀ s : State, s.freePath = if (s.path 0).holder = none then some 0
        else if (s.path 1).holder = none then some 1 else none)
    ∧ (∀ s : State, (s.bestClaim = none ↔ s.claims = [])
        ∧ ∀ c, s.bestClaim = some c → c ∈ s.claims
          ∧ ((∃ x ∈ s.claims, x.request ∈ s.overdue) → c.request ∈ s.overdue
              ∧ ∀ x ∈ s.claims, x.request ∈ s.overdue → s.overdue.idxOf c.request ≤ s.overdue.idxOf x.request)
          ∧ ((∀ x ∈ s.claims, x.request ∉ s.overdue) → ∀ x ∈ s.claims,
              (sourceOrder s.params.priority).idxOf c.source < (sourceOrder s.params.priority).idxOf x.source
                ∨ (c.source = x.source ∧ s.claims.idxOf c ≤ s.claims.idxOf x)))
    ∧ (∀ (s : State) (k : PathId) (c : Claim) (r : Record), s.request? c.request = some r →
        ∃ u : State, s.grant k c = u.beginService k r
          ∧ u.path k = grantedPath r c.due (s.drive r.drive).rpc
          ∧ u.claims = s.claims.filter (fun x => x.request != c.request)
          ∧ u.overdue = s.overdue.filter (fun x => x != r.pos)
          ∧ u.request? r.pos = some { r with state := .transferring, missedRev := 0 }
          ∧ (u.drive r.drive).due = none)
    ∧ (∀ (s : State) (k : PathId) (c : Claim), s.freePath = some k → s.bestClaim = some c →
        s.arbitrate = State.grantLoop (s.claims.length - 1) (s.grant k c))
    ∧ (∀ s : State, s.arbitrate.freePath = none ∨ s.arbitrate.claims = [])
    ∧ (∀ (c : Instr) (s t : State), exec c s = .next t → t.freePath = none ∨ t.claims = [])
    ∧ ∀ s : State, s.settle = s.drainAll.askAll.arbitrate.settleUnit.settleChoices.offerAll
end

