-- ==== Sys2Proof/Laws/State.lean ====
section
/-! SUPPORT. Field lemmas: what each named update of the state leaves in each field, and the ports, drives, paths and
records read after an update. -/

namespace Sys2Proof.Machine

@[simp] theorem drives_modPort (s : State) (p : PortId) (f : Port → Port) : (s.modPort p f).drives = s.drives := rfl
@[simp] theorem paths_modPort (s : State) (p : PortId) (f : Port → Port) : (s.modPort p f).paths = s.paths := rfl
@[simp] theorem records_modPort (s : State) (p : PortId) (f : Port → Port) : (s.modPort p f).records = s.records := rfl
@[simp] theorem nextPos_modPort (s : State) (p : PortId) (f : Port → Port) : (s.modPort p f).nextPos = s.nextPos := rfl
@[simp] theorem claims_modPort (s : State) (p : PortId) (f : Port → Port) : (s.modPort p f).claims = s.claims := rfl
@[simp] theorem overdue_modPort (s : State) (p : PortId) (f : Port → Port) : (s.modPort p f).overdue = s.overdue := rfl
@[simp] theorem ru_modPort (s : State) (p : PortId) (f : Port → Port) : (s.modPort p f).ru = s.ru := rfl
@[simp] theorem buffer_modPort (s : State) (p : PortId) (f : Port → Port) : (s.modPort p f).buffer = s.buffer := rfl
@[simp] theorem workList_modPort (s : State) (p : PortId) (f : Port → Port) : (s.modPort p f).workList = s.workList := rfl
@[simp] theorem stalled_modPort (s : State) (p : PortId) (f : Port → Port) : (s.modPort p f).stalled = s.stalled := rfl
@[simp] theorem params_modPort (s : State) (p : PortId) (f : Port → Port) : (s.modPort p f).params = s.params := rfl
@[simp] theorem pending_modPort (s : State) (p : PortId) (f : Port → Port) : (s.modPort p f).pending = s.pending := rfl

@[simp] theorem ports_modDrive (s : State) (d : DriveId) (f : Drive → Drive) : (s.modDrive d f).ports = s.ports := rfl
@[simp] theorem paths_modDrive (s : State) (d : DriveId) (f : Drive → Drive) : (s.modDrive d f).paths = s.paths := rfl
@[simp] theorem records_modDrive (s : State) (d : DriveId) (f : Drive → Drive) : (s.modDrive d f).records = s.records := rfl
@[simp] theorem nextPos_modDrive (s : State) (d : DriveId) (f : Drive → Drive) : (s.modDrive d f).nextPos = s.nextPos := rfl
@[simp] theorem claims_modDrive (s : State) (d : DriveId) (f : Drive → Drive) : (s.modDrive d f).claims = s.claims := rfl
@[simp] theorem overdue_modDrive (s : State) (d : DriveId) (f : Drive → Drive) : (s.modDrive d f).overdue = s.overdue := rfl
@[simp] theorem ru_modDrive (s : State) (d : DriveId) (f : Drive → Drive) : (s.modDrive d f).ru = s.ru := rfl
@[simp] theorem buffer_modDrive (s : State) (d : DriveId) (f : Drive → Drive) : (s.modDrive d f).buffer = s.buffer := rfl
@[simp] theorem workList_modDrive (s : State) (d : DriveId) (f : Drive → Drive) : (s.modDrive d f).workList = s.workList := rfl
@[simp] theorem stalled_modDrive (s : State) (d : DriveId) (f : Drive → Drive) : (s.modDrive d f).stalled = s.stalled := rfl
@[simp] theorem params_modDrive (s : State) (d : DriveId) (f : Drive → Drive) : (s.modDrive d f).params = s.params := rfl
@[simp] theorem pending_modDrive (s : State) (d : DriveId) (f : Drive → Drive) : (s.modDrive d f).pending = s.pending := rfl

@[simp] theorem ports_modPath (s : State) (k : PathId) (f : Path → Path) : (s.modPath k f).ports = s.ports := rfl
@[simp] theorem drives_modPath (s : State) (k : PathId) (f : Path → Path) : (s.modPath k f).drives = s.drives := rfl
@[simp] theorem records_modPath (s : State) (k : PathId) (f : Path → Path) : (s.modPath k f).records = s.records := rfl
@[simp] theorem nextPos_modPath (s : State) (k : PathId) (f : Path → Path) : (s.modPath k f).nextPos = s.nextPos := rfl
@[simp] theorem claims_modPath (s : State) (k : PathId) (f : Path → Path) : (s.modPath k f).claims = s.claims := rfl
@[simp] theorem overdue_modPath (s : State) (k : PathId) (f : Path → Path) : (s.modPath k f).overdue = s.overdue := rfl
@[simp] theorem ru_modPath (s : State) (k : PathId) (f : Path → Path) : (s.modPath k f).ru = s.ru := rfl
@[simp] theorem buffer_modPath (s : State) (k : PathId) (f : Path → Path) : (s.modPath k f).buffer = s.buffer := rfl
@[simp] theorem workList_modPath (s : State) (k : PathId) (f : Path → Path) : (s.modPath k f).workList = s.workList := rfl
@[simp] theorem stalled_modPath (s : State) (k : PathId) (f : Path → Path) : (s.modPath k f).stalled = s.stalled := rfl
@[simp] theorem params_modPath (s : State) (k : PathId) (f : Path → Path) : (s.modPath k f).params = s.params := rfl
@[simp] theorem pending_modPath (s : State) (k : PathId) (f : Path → Path) : (s.modPath k f).pending = s.pending := rfl

@[simp] theorem ports_modRu (s : State) (f : Relocation → Relocation) : (s.modRu f).ports = s.ports := rfl
@[simp] theorem drives_modRu (s : State) (f : Relocation → Relocation) : (s.modRu f).drives = s.drives := rfl
@[simp] theorem paths_modRu (s : State) (f : Relocation → Relocation) : (s.modRu f).paths = s.paths := rfl
@[simp] theorem records_modRu (s : State) (f : Relocation → Relocation) : (s.modRu f).records = s.records := rfl
@[simp] theorem nextPos_modRu (s : State) (f : Relocation → Relocation) : (s.modRu f).nextPos = s.nextPos := rfl
@[simp] theorem claims_modRu (s : State) (f : Relocation → Relocation) : (s.modRu f).claims = s.claims := rfl
@[simp] theorem overdue_modRu (s : State) (f : Relocation → Relocation) : (s.modRu f).overdue = s.overdue := rfl
@[simp] theorem buffer_modRu (s : State) (f : Relocation → Relocation) : (s.modRu f).buffer = s.buffer := rfl
@[simp] theorem workList_modRu (s : State) (f : Relocation → Relocation) : (s.modRu f).workList = s.workList := rfl
@[simp] theorem stalled_modRu (s : State) (f : Relocation → Relocation) : (s.modRu f).stalled = s.stalled := rfl
@[simp] theorem params_modRu (s : State) (f : Relocation → Relocation) : (s.modRu f).params = s.params := rfl
@[simp] theorem pending_modRu (s : State) (f : Relocation → Relocation) : (s.modRu f).pending = s.pending := rfl

@[simp] theorem ports_modRequest (s : State) (pos : Nat) (f : Record → Record) : (s.modRequest pos f).ports = s.ports := rfl
@[simp] theorem drives_modRequest (s : State) (pos : Nat) (f : Record → Record) : (s.modRequest pos f).drives = s.drives := rfl
@[simp] theorem paths_modRequest (s : State) (pos : Nat) (f : Record → Record) : (s.modRequest pos f).paths = s.paths := rfl
@[simp] theorem nextPos_modRequest (s : State) (pos : Nat) (f : Record → Record) : (s.modRequest pos f).nextPos = s.nextPos := rfl
@[simp] theorem claims_modRequest (s : State) (pos : Nat) (f : Record → Record) : (s.modRequest pos f).claims = s.claims := rfl
@[simp] theorem overdue_modRequest (s : State) (pos : Nat) (f : Record → Record) : (s.modRequest pos f).overdue = s.overdue := rfl
@[simp] theorem ru_modRequest (s : State) (pos : Nat) (f : Record → Record) : (s.modRequest pos f).ru = s.ru := rfl
@[simp] theorem buffer_modRequest (s : State) (pos : Nat) (f : Record → Record) : (s.modRequest pos f).buffer = s.buffer := rfl
@[simp] theorem workList_modRequest (s : State) (pos : Nat) (f : Record → Record) : (s.modRequest pos f).workList = s.workList := rfl
@[simp] theorem stalled_modRequest (s : State) (pos : Nat) (f : Record → Record) : (s.modRequest pos f).stalled = s.stalled := rfl
@[simp] theorem params_modRequest (s : State) (pos : Nat) (f : Record → Record) : (s.modRequest pos f).params = s.params := rfl
@[simp] theorem pending_modRequest (s : State) (pos : Nat) (f : Record → Record) : (s.modRequest pos f).pending = s.pending := rfl

@[simp] theorem ports_freeRequest (s : State) (pos : Nat) : (s.freeRequest pos).ports = s.ports := rfl
@[simp] theorem drives_freeRequest (s : State) (pos : Nat) : (s.freeRequest pos).drives = s.drives := rfl
@[simp] theorem paths_freeRequest (s : State) (pos : Nat) : (s.freeRequest pos).paths = s.paths := rfl
@[simp] theorem nextPos_freeRequest (s : State) (pos : Nat) : (s.freeRequest pos).nextPos = s.nextPos := rfl
@[simp] theorem claims_freeRequest (s : State) (pos : Nat) : (s.freeRequest pos).claims = s.claims := rfl
@[simp] theorem overdue_freeRequest (s : State) (pos : Nat) : (s.freeRequest pos).overdue = s.overdue := rfl
@[simp] theorem ru_freeRequest (s : State) (pos : Nat) : (s.freeRequest pos).ru = s.ru := rfl
@[simp] theorem buffer_freeRequest (s : State) (pos : Nat) : (s.freeRequest pos).buffer = s.buffer := rfl
@[simp] theorem workList_freeRequest (s : State) (pos : Nat) : (s.freeRequest pos).workList = s.workList := rfl
@[simp] theorem stalled_freeRequest (s : State) (pos : Nat) : (s.freeRequest pos).stalled = s.stalled := rfl
@[simp] theorem params_freeRequest (s : State) (pos : Nat) : (s.freeRequest pos).params = s.params := rfl
@[simp] theorem pending_freeRequest (s : State) (pos : Nat) : (s.freeRequest pos).pending = s.pending := rfl

@[simp] theorem ports_withPending (s : State) (q : List Instr) : (s.withPending q).ports = s.ports := rfl
@[simp] theorem drives_withPending (s : State) (q : List Instr) : (s.withPending q).drives = s.drives := rfl
@[simp] theorem paths_withPending (s : State) (q : List Instr) : (s.withPending q).paths = s.paths := rfl
@[simp] theorem records_withPending (s : State) (q : List Instr) : (s.withPending q).records = s.records := rfl
@[simp] theorem nextPos_withPending (s : State) (q : List Instr) : (s.withPending q).nextPos = s.nextPos := rfl
@[simp] theorem claims_withPending (s : State) (q : List Instr) : (s.withPending q).claims = s.claims := rfl
@[simp] theorem overdue_withPending (s : State) (q : List Instr) : (s.withPending q).overdue = s.overdue := rfl
@[simp] theorem ru_withPending (s : State) (q : List Instr) : (s.withPending q).ru = s.ru := rfl
@[simp] theorem buffer_withPending (s : State) (q : List Instr) : (s.withPending q).buffer = s.buffer := rfl
@[simp] theorem workList_withPending (s : State) (q : List Instr) : (s.withPending q).workList = s.workList := rfl
@[simp] theorem stalled_withPending (s : State) (q : List Instr) : (s.withPending q).stalled = s.stalled := rfl
@[simp] theorem params_withPending (s : State) (q : List Instr) : (s.withPending q).params = s.params := rfl

@[simp] theorem ru_modRu (s : State) (f : Relocation → Relocation) : (s.modRu f).ru = f s.ru := rfl

@[simp] theorem pending_withPending (s : State) (q : List Instr) : (s.withPending q).pending = q := rfl

theorem records_modRequest (s : State) (pos : Nat) (f : Record → Record) :
    (s.modRequest pos f).records = s.records.map fun r => if r.pos == pos then f r else r := rfl

theorem records_freeRequest (s : State) (pos : Nat) :
    (s.freeRequest pos).records = s.records.filter fun r => r.pos != pos := rfl

@[simp] theorem port_modDrive (s : State) (d : DriveId) (f : Drive → Drive) (x : PortId) : (s.modDrive d f).port x = s.port x := rfl
@[simp] theorem port_modPath (s : State) (k : PathId) (f : Path → Path) (x : PortId) : (s.modPath k f).port x = s.port x := rfl
@[simp] theorem port_modRu (s : State) (f : Relocation → Relocation) (x : PortId) : (s.modRu f).port x = s.port x := rfl
@[simp] theorem port_modRequest (s : State) (pos : Nat) (f : Record → Record) (x : PortId) : (s.modRequest pos f).port x = s.port x := rfl
@[simp] theorem port_freeRequest (s : State) (pos : Nat) (x : PortId) : (s.freeRequest pos).port x = s.port x := rfl
@[simp] theorem port_withPending (s : State) (q : List Instr) (x : PortId) : (s.withPending q).port x = s.port x := rfl

@[simp] theorem drive_modPort (s : State) (p : PortId) (f : Port → Port) (x : DriveId) : (s.modPort p f).drive x = s.drive x := rfl
@[simp] theorem drive_modPath (s : State) (k : PathId) (f : Path → Path) (x : DriveId) : (s.modPath k f).drive x = s.drive x := rfl
@[simp] theorem drive_modRu (s : State) (f : Relocation → Relocation) (x : DriveId) : (s.modRu f).drive x = s.drive x := rfl
@[simp] theorem drive_modRequest (s : State) (pos : Nat) (f : Record → Record) (x : DriveId) : (s.modRequest pos f).drive x = s.drive x := rfl
@[simp] theorem drive_freeRequest (s : State) (pos : Nat) (x : DriveId) : (s.freeRequest pos).drive x = s.drive x := rfl
@[simp] theorem drive_withPending (s : State) (q : List Instr) (x : DriveId) : (s.withPending q).drive x = s.drive x := rfl

@[simp] theorem path_modPort (s : State) (p : PortId) (f : Port → Port) (x : PathId) : (s.modPort p f).path x = s.path x := rfl
@[simp] theorem path_modDrive (s : State) (d : DriveId) (f : Drive → Drive) (x : PathId) : (s.modDrive d f).path x = s.path x := rfl
@[simp] theorem path_modRu (s : State) (f : Relocation → Relocation) (x : PathId) : (s.modRu f).path x = s.path x := rfl
@[simp] theorem path_modRequest (s : State) (pos : Nat) (f : Record → Record) (x : PathId) : (s.modRequest pos f).path x = s.path x := rfl
@[simp] theorem path_freeRequest (s : State) (pos : Nat) (x : PathId) : (s.freeRequest pos).path x = s.path x := rfl
@[simp] theorem path_withPending (s : State) (q : List Instr) (x : PathId) : (s.withPending q).path x = s.path x := rfl

/-! ### Lookups -/

@[simp] theorem request?_modPort (s : State) (p : PortId) (f : Port → Port) (n : Nat) :
    (s.modPort p f).request? n = s.request? n := rfl

@[simp] theorem request?_modDrive (s : State) (d : DriveId) (f : Drive → Drive) (n : Nat) :
    (s.modDrive d f).request? n = s.request? n := rfl

@[simp] theorem request?_modPath (s : State) (k : PathId) (f : Path → Path) (n : Nat) :
    (s.modPath k f).request? n = s.request? n := rfl

@[simp] theorem request?_modRu (s : State) (f : Relocation → Relocation) (n : Nat) :
    (s.modRu f).request? n = s.request? n := rfl

@[simp] theorem outstanding_modPort (s : State) (p : PortId) (f : Port → Port) (x : PortId) :
    (s.modPort p f).outstanding x = s.outstanding x := rfl

@[simp] theorem outstanding_modDrive (s : State) (d : DriveId) (f : Drive → Drive) (x : PortId) :
    (s.modDrive d f).outstanding x = s.outstanding x := rfl

@[simp] theorem outstanding_modPath (s : State) (k : PathId) (f : Path → Path) (x : PortId) :
    (s.modPath k f).outstanding x = s.outstanding x := rfl

@[simp] theorem outstanding_modRu (s : State) (f : Relocation → Relocation) (x : PortId) :
    (s.modRu f).outstanding x = s.outstanding x := rfl

@[simp] theorem pathOf_modPort (s : State) (p : PortId) (f : Port → Port) (n : Nat) :
    (s.modPort p f).pathOf n = s.pathOf n := rfl

@[simp] theorem pathOf_modDrive (s : State) (d : DriveId) (f : Drive → Drive) (n : Nat) :
    (s.modDrive d f).pathOf n = s.pathOf n := rfl

@[simp] theorem pathOf_modRu (s : State) (f : Relocation → Relocation) (n : Nat) :
    (s.modRu f).pathOf n = s.pathOf n := rfl

@[simp] theorem pathOf_modRequest (s : State) (pos : Nat) (f : Record → Record) (n : Nat) :
    (s.modRequest pos f).pathOf n = s.pathOf n := rfl

@[simp] theorem pathOf_freeRequest (s : State) (pos : Nat) (n : Nat) :
    (s.freeRequest pos).pathOf n = s.pathOf n := rfl

@[simp] theorem pathOnDrive_modPort (s : State) (p : PortId) (f : Port → Port) (x : DriveId) :
    (s.modPort p f).pathOnDrive x = s.pathOnDrive x := rfl

@[simp] theorem pathOnDrive_modDrive (s : State) (d : DriveId) (f : Drive → Drive) (x : DriveId) :
    (s.modDrive d f).pathOnDrive x = s.pathOnDrive x := rfl

@[simp] theorem pathOnDrive_modRu (s : State) (f : Relocation → Relocation) (x : DriveId) :
    (s.modRu f).pathOnDrive x = s.pathOnDrive x := rfl

@[simp] theorem pathOnDrive_modRequest (s : State) (pos : Nat) (f : Record → Record) (x : DriveId) :
    (s.modRequest pos f).pathOnDrive x = s.pathOnDrive x := rfl

@[simp] theorem pathOnDrive_freeRequest (s : State) (pos : Nat) (x : DriveId) :
    (s.freeRequest pos).pathOnDrive x = s.pathOnDrive x := rfl

@[simp] theorem claimOf_modPort (s : State) (p : PortId) (f : Port → Port) (x : DriveId) :
    (s.modPort p f).claimOf x = s.claimOf x := rfl

@[simp] theorem claimOf_modDrive (s : State) (d : DriveId) (f : Drive → Drive) (x : DriveId) :
    (s.modDrive d f).claimOf x = s.claimOf x := rfl

@[simp] theorem claimOf_modPath (s : State) (k : PathId) (f : Path → Path) (x : DriveId) :
    (s.modPath k f).claimOf x = s.claimOf x := rfl

@[simp] theorem claimOf_modRu (s : State) (f : Relocation → Relocation) (x : DriveId) :
    (s.modRu f).claimOf x = s.claimOf x := rfl

@[simp] theorem claimOf_modRequest (s : State) (pos : Nat) (f : Record → Record) (x : DriveId) :
    (s.modRequest pos f).claimOf x = s.claimOf x := rfl

@[simp] theorem claimOf_freeRequest (s : State) (pos : Nat) (x : DriveId) :
    (s.freeRequest pos).claimOf x = s.claimOf x := rfl

@[simp] theorem entry?_modPort (s : State) (p : PortId) (f : Port → Port) (x : DriveId) (h : Track) :
    (s.modPort p f).entry? x h = s.entry? x h := rfl

@[simp] theorem entry?_modPath (s : State) (k : PathId) (f : Path → Path) (x : DriveId) (h : Track) :
    (s.modPath k f).entry? x h = s.entry? x h := rfl

@[simp] theorem entry?_modRu (s : State) (f : Relocation → Relocation) (x : DriveId) (h : Track) :
    (s.modRu f).entry? x h = s.entry? x h := rfl

@[simp] theorem entry?_modRequest (s : State) (pos : Nat) (f : Record → Record) (x : DriveId) (h : Track) :
    (s.modRequest pos f).entry? x h = s.entry? x h := rfl

@[simp] theorem entry?_freeRequest (s : State) (pos : Nat) (x : DriveId) (h : Track) :
    (s.freeRequest pos).entry? x h = s.entry? x h := rfl

/-! ### Tables -/

theorem portIndex_injective (p q : PortId) (h : portIndex p = portIndex q) : p = q := by
  cases p <;> cases q <;> first | rfl | exact absurd h (by decide)

/-- Reading a vector at a place of its range. -/
theorem get_eq_getElem {α : Type} {n : Nat} (v : Vector α n) (i : Fin n) : v.get i = v[i.val] := rfl

@[simp] theorem port_modPort_same (s : State) (p : PortId) (f : Port → Port) : (s.modPort p f).port p = f (s.port p) := by
  simp only [State.port, State.modPort, get_eq_getElem, Vector.getElem_set_self]

theorem port_modPort_other (s : State) (p q : PortId) (f : Port → Port) (h : q ≠ p) :
    (s.modPort p f).port q = s.port q := by
  have hi : (portIndex p).val ≠ (portIndex q).val := fun e => h (portIndex_injective _ _ (Fin.ext e)).symm
  simp only [State.port, State.modPort, get_eq_getElem, Vector.getElem_set, hi, if_false]

theorem port_modPort (s : State) (p q : PortId) (f : Port → Port) :
    (s.modPort p f).port q = if q = p then f (s.port p) else s.port q := by
  by_cases h : q = p
  · subst h; simp
  · simp [h, port_modPort_other]

@[simp] theorem drive_modDrive_same (s : State) (d : DriveId) (f : Drive → Drive) :
    (s.modDrive d f).drive d = f (s.drive d) := by
  simp only [State.drive, State.modDrive, get_eq_getElem, Vector.getElem_set_self]

theorem drive_modDrive_other (s : State) (d e : DriveId) (f : Drive → Drive) (h : e ≠ d) :
    (s.modDrive d f).drive e = s.drive e := by
  have hi : d.val ≠ e.val := fun x => h (Fin.ext x).symm
  simp only [State.drive, State.modDrive, get_eq_getElem, Vector.getElem_set, hi, if_false]

theorem drive_modDrive (s : State) (d e : DriveId) (f : Drive → Drive) :
    (s.modDrive d f).drive e = if e = d then f (s.drive d) else s.drive e := by
  by_cases h : e = d
  · subst h; simp
  · simp [h, drive_modDrive_other]

@[simp] theorem path_modPath_same (s : State) (k : PathId) (f : Path → Path) : (s.modPath k f).path k = f (s.path k) := by
  simp only [State.path, State.modPath, get_eq_getElem, Vector.getElem_set_self]

theorem path_modPath_other (s : State) (k j : PathId) (f : Path → Path) (h : j ≠ k) :
    (s.modPath k f).path j = s.path j := by
  have hi : k.val ≠ j.val := fun x => h (Fin.ext x).symm
  simp only [State.path, State.modPath, get_eq_getElem, Vector.getElem_set, hi, if_false]

theorem path_modPath (s : State) (k j : PathId) (f : Path → Path) :
    (s.modPath k f).path j = if j = k then f (s.path k) else s.path j := by
  by_cases h : j = k
  · subst h; simp
  · simp [h, path_modPath_other]

@[simp] theorem port_reset (p : PortId) : State.reset.port p = Port.reset := by cases p <;> rfl

@[simp] theorem drive_reset (d : DriveId) : State.reset.drive d = Drive.reset := by
  simp only [State.reset, State.drive, get_eq_getElem, Vector.getElem_replicate]

@[simp] theorem path_reset (k : PathId) : State.reset.path k = Path.free := by
  simp only [State.reset, State.path, get_eq_getElem, Vector.getElem_replicate]

end Sys2Proof.Machine
end

