-- ==== Sys2Proof/Laws/Keeps.lean ====
section
/-! SUPPORT. What the end of an event leaves unchanged: the relation `Keeps`, the updates that satisfy it, and one lemma
per shared operation that the end of an event uses. -/

namespace Sys2Proof.Machine

set_option Elab.async false

/-- The part of a port that the end of an event never changes. -/
def Port.kept (P : Port) : Port :=
  { Port.reset with
    opLine := P.opLine, lossTimer := P.lossTimer, threshold := P.threshold, lockLost := P.lockLost
    portBusy := P.portBusy, byteTaken := P.byteTaken, dataOut := P.dataOut }

/-- The part of a drive that the end of an event never changes. -/
def Drive.kept (D : Drive) : Drive :=
  { Drive.reset with
    readyLine := D.readyLine, typeCode := D.typeCode, faultLine := D.faultLine, state := D.state, type := D.type
    mapBuilt := D.mapBuilt, rpc := D.rpc, valid := D.valid, cyl := D.cyl, arm := D.arm, seekTimer := D.seekTimer
    scan := D.scan, freeze := D.freeze, health := D.health, lock := D.lock }

/-- What almost every command leaves of a state: the parameters, read thresholds, lock-lost marks, freeze marks and locks,
the queue; the store does not grow past its size, nor a drive's queue past its count, nor a port's list of outstanding
requests; the records stay in order and the drives in their bounds. -/
structure Steady (s t : State) : Prop where
  params : t.params = s.params
  pending : t.pending = s.pending
  threshold : ∀ p, (t.port p).threshold = (s.port p).threshold
  lockLost : ∀ p, (t.port p).lockLost = (s.port p).lockLost
  freeze : ∀ d, (t.drive d).freeze = (s.drive d).freeze
  lock : ∀ d, (t.drive d).lock = (s.drive d).lock
  store : s.records.length ≤ Config.storeSize → t.records.length ≤ Config.storeSize
  queued : ∀ d, s.queueCount d ≤ Config.queueLimit → t.queueCount d ≤ Config.queueLimit
  outstanding : ∀ p, ((t.outstanding p).map (·.pos)).Sublist ((s.outstanding p).map (·.pos))
  ordered : s.recordsOrdered → t.recordsOrdered
  bounds : ∀ d, (s.drive d).inBounds → (t.drive d).inBounds

/-- What every command but a tick, a fall of the ready line and a reset leaves beside that: the drives' counters. -/
structure Still (s t : State) : Prop extends Steady s t where
  clock : ∀ d, (t.drive d).rpc = (s.drive d).rpc ∧ (t.drive d).valid = (s.drive d).valid

/-- What the end of an event leaves of a state beside that: the kept parts of ports and drives, the homes of the map
tables, the state and the sending of every port not connected to a path, the status queue and the attention set of every
port in LOST, the status queue and the held reports of every port with no outstanding request; no drive leaves an
attention set, no port enters LOST, and no claim is made. -/
structure Keeps (s t : State) : Prop extends Still s t where
  port : ∀ p, (t.port p).kept = (s.port p).kept
  calm : ∀ p, (s.port p).dataConn = none →
    (t.port p).state = (s.port p).state ∧ (t.port p).sending = (s.port p).sending
  lost : ∀ p, (s.port p).state = .lost →
    (t.port p).statusQueue = (s.port p).statusQueue ∧ (t.port p).attention = (s.port p).attention
  silent : ∀ p, s.outstanding p = [] →
    (t.port p).statusQueue = (s.port p).statusQueue ∧ (t.port p).reports = (s.port p).reports
  claims : t.claims.Sublist s.claims
  attended : ∀ p d, d ∈ (s.port p).attention → d ∈ (t.port p).attention
  notLost : ∀ p, (s.port p).state ≠ .lost → (t.port p).state ≠ .lost
  drive : ∀ d, (t.drive d).kept = (s.drive d).kept
  homes : ∀ d, (t.drive d).map.map (·.home) = (s.drive d).map.map (·.home)

theorem Steady.refl (s : State) : Steady s s :=
  ⟨rfl, rfl, fun _ => rfl, fun _ => rfl, fun _ => rfl, fun _ => rfl, id, fun _ => id, fun _ => .refl _, id,
    fun _ => id⟩

theorem Steady.trans {s t u : State} (h : Steady s t) (g : Steady t u) : Steady s u where
  params := g.params.trans h.params
  pending := g.pending.trans h.pending
  threshold p := (g.threshold p).trans (h.threshold p)
  lockLost p := (g.lockLost p).trans (h.lockLost p)
  freeze d := (g.freeze d).trans (h.freeze d)
  lock d := (g.lock d).trans (h.lock d)
  store x := g.store (h.store x)
  queued d x := g.queued d (h.queued d x)
  outstanding p := (g.outstanding p).trans (h.outstanding p)
  ordered x := g.ordered (h.ordered x)
  bounds d x := g.bounds d (h.bounds d x)

/-- A state that differs in other fields only. -/
theorem Steady.of_eq {s t : State} (h1 : t.params = s.params) (h2 : t.pending = s.pending) (h3 : t.ports = s.ports)
    (h4 : t.drives = s.drives) (h5 : t.records = s.records) (h6 : t.nextPos = s.nextPos := by rfl) : Steady s t where
  params := h1
  pending := h2
  threshold p := by simp [State.port, h3]
  lockLost p := by simp [State.port, h3]
  freeze d := by simp [State.drive, h4]
  lock d := by simp [State.drive, h4]
  store x := by rw [h5]; exact x
  queued d x := by simpa [State.queueCount, h5] using x
  outstanding p := by simp [State.outstanding, h5]
  ordered x := by simp only [State.recordsOrdered, h5, h6]; exact x
  bounds d := by simp [State.drive, h4]

theorem Steady.modPort (s : State) (p : PortId) (f : Port → Port)
    (h : (f (s.port p)).threshold = (s.port p).threshold ∧ (f (s.port p)).lockLost = (s.port p).lockLost) :
    Steady s (s.modPort p f) where
  params := rfl
  pending := rfl
  threshold q := by rw [port_modPort]; split <;> simp_all
  lockLost q := by rw [port_modPort]; split <;> simp_all
  freeze _ := rfl
  lock _ := rfl
  store := id
  queued _ := id
  outstanding _ := List.Sublist.refl _
  ordered := id
  bounds _ := id

theorem Steady.modDrive (s : State) (d : DriveId) (f : Drive → Drive)
    (h : (f (s.drive d)).freeze = (s.drive d).freeze ∧ (f (s.drive d)).lock = (s.drive d).lock)
    (hb : (s.drive d).inBounds → (f (s.drive d)).inBounds := by first | exact id | (split <;> exact id)) :
    Steady s (s.modDrive d f) where
  params := rfl
  pending := rfl
  threshold _ := rfl
  lockLost _ := rfl
  freeze e := by rw [drive_modDrive]; split <;> simp_all
  lock e := by rw [drive_modDrive]; split <;> simp_all
  store := id
  queued _ := id
  outstanding _ := List.Sublist.refl _
  ordered := id
  bounds e := by
    rw [drive_modDrive]
    split
    · rename_i he
      exact he ▸ hb
    · exact id

theorem sublist_filter_map {α β : Type} (q : α → Bool) (g : α → β) (f : α → α)
    (h : ∀ x, q (f x) = true → q x = true) (hg : ∀ x, g (f x) = g x) (l : List α) :
    (((l.map f).filter q).map g).Sublist ((l.filter q).map g) := by
  induction l with
  | nil => exact .refl _
  | cons a l ih =>
    simp only [List.map_cons, List.filter_cons]
    by_cases hf : q (f a) = true
    · simp only [hf, h a hf, if_true, List.map_cons, hg]
      exact ih.cons_cons _
    · by_cases hq : q a = true
      · simp only [hf, hq, if_true, List.map_cons]
        exact ih.cons _
      · simpa [hf, hq] using ih

/-- A record changed in none of the parts on which the bounds of the store and of the queues rest, its marks only set. -/
structure Record.Same (r x : Record) : Prop where
  pos : x.pos = r.pos
  source : x.source = r.source
  detached : r.detached = true → x.detached = true
  drive : x.drive = r.drive
  listed : x.listed = r.listed
  ended : r.ended = true → x.ended = true

theorem Record.Same.refl (r : Record) : r.Same r := ⟨rfl, rfl, id, rfl, rfl, id⟩

/-- A change of records that keeps each one the same in these parts. -/
theorem Steady.mapRecords (s : State) (f : Record → Record)
    (h : ∀ r : Record, r.Same (f r)) :
    Steady s { s with records := s.records.map f } where
  params := rfl
  pending := rfl
  threshold _ := rfl
  lockLost _ := rfl
  freeze _ := rfl
  lock _ := rfl
  store x := by simpa using x
  queued d x := by
    refine Nat.le_trans ?_ x
    unfold State.queueCount
    rw [List.countP_map]
    refine List.countP_mono_left fun r _ hr => ?_
    have g := h r
    simp only [Function.comp_apply, Record.inQueueCount, g.drive, g.listed, Bool.and_eq_true,
      Bool.not_eq_true'] at hr ⊢
    refine ⟨hr.1, ?_⟩
    cases he : r.ended with
    | false => rfl
    | true => rw [g.ended he] at hr; exact hr.2
  outstanding p := sublist_filter_map _ _ _ (fun r hr => by
    have g := h r
    simp only [Record.outstandingFor, g.source, Bool.and_eq_true, Bool.not_eq_true'] at hr ⊢
    refine ⟨hr.1, ?_⟩
    cases hd : r.detached with
    | false => rfl
    | true => rw [g.detached hd] at hr; exact hr.2) (fun r => (h r).pos) _
  ordered x := by
    refine ⟨List.pairwise_map.2 (x.1.imp fun {a b} hab => ?_), fun r hr => ?_⟩
    · rw [(h a).pos, (h b).pos]; exact hab
    · obtain ⟨a, ha, rfl⟩ := List.mem_map.1 hr
      rw [(h a).pos]; exact x.2 a ha
  bounds _ := id

theorem Steady.modRequest (s : State) (pos : Nat) (f : Record → Record)
    (h : ∀ r : Record, r.Same (f r)) : Steady s (s.modRequest pos f) :=
  .mapRecords s _ fun r => by
    split
    · exact h r
    · exact .refl r

theorem Steady.freeRequest (s : State) (pos : Nat) : Steady s (s.freeRequest pos) where
  params := rfl
  pending := rfl
  threshold _ := rfl
  lockLost _ := rfl
  freeze _ := rfl
  lock _ := rfl
  store x := Nat.le_trans (List.length_filter_le _ _) x
  queued _ x := Nat.le_trans List.filter_sublist.countP_le x
  outstanding p := by
    unfold State.outstanding State.freeRequest
    exact ((List.filter_sublist (l := s.records)).filter _).map _
  ordered x := ⟨x.1.filter _, fun r hr => x.2 r (List.mem_filter.1 hr).1⟩
  bounds _ := id

theorem Steady.modPath (s : State) (k : PathId) (f : Path → Path) : Steady s (s.modPath k f) :=
  .of_eq rfl rfl rfl rfl rfl

theorem Steady.modRu (s : State) (f : Relocation → Relocation) : Steady s (s.modRu f) := .of_eq rfl rfl rfl rfl rfl

/-- A fold of steady steps. -/
theorem Steady.foldl {α : Type} (f : State → α → State) (h : ∀ s a, Steady s (f s a)) (l : List α) (s : State) :
    Steady s (l.foldl f s) := by
  induction l generalizing s with
  | nil => exact .refl s
  | cons a l ih => exact (h s a).trans (ih _)

/-! ### Still -/

theorem Still.refl (s : State) : Still s s := ⟨.refl s, fun _ => ⟨rfl, rfl⟩⟩

theorem Still.trans {s t u : State} (h : Still s t) (g : Still t u) : Still s u where
  toSteady := h.toSteady.trans g.toSteady
  clock d := ⟨(g.clock d).1.trans (h.clock d).1, (g.clock d).2.trans (h.clock d).2⟩

theorem Still.of_eq {s t : State} (h1 : t.params = s.params) (h2 : t.pending = s.pending) (h3 : t.ports = s.ports)
    (h4 : t.drives = s.drives) (h5 : t.records = s.records) (h6 : t.nextPos = s.nextPos := by rfl) : Still s t where
  toSteady := .of_eq h1 h2 h3 h4 h5 h6
  clock d := by simp [State.drive, h4]

theorem Still.modPort (s : State) (p : PortId) (f : Port → Port)
    (h : (f (s.port p)).threshold = (s.port p).threshold ∧ (f (s.port p)).lockLost = (s.port p).lockLost) :
    Still s (s.modPort p f) := ⟨.modPort s p f h, fun _ => ⟨rfl, rfl⟩⟩

/-- A drive changed in none of the parts that `Still` speaks of. -/
structure Drive.Same (D E : Drive) : Prop where
  freeze : E.freeze = D.freeze
  lock : E.lock = D.lock
  rpc : E.rpc = D.rpc
  valid : E.valid = D.valid
  health : E.health = D.health
  map : E.map = D.map

theorem Drive.Same.trans {D E F : Drive} (h : D.Same E) (g : E.Same F) : D.Same F :=
  ⟨g.1.trans h.1, g.2.trans h.2, g.3.trans h.3, g.4.trans h.4, g.5.trans h.5, g.6.trans h.6⟩

/-- A change of a drive that leaves freeze mark, lock, counter and valid mark, and keeps the drive in its bounds. -/
theorem Still.modDrive (s : State) (d : DriveId) (f : Drive → Drive)
    (h : (f (s.drive d)).freeze = (s.drive d).freeze ∧ (f (s.drive d)).lock = (s.drive d).lock
      ∧ (f (s.drive d)).rpc = (s.drive d).rpc ∧ (f (s.drive d)).valid = (s.drive d).valid)
    (hb : (s.drive d).inBounds → (f (s.drive d)).inBounds) : Still s (s.modDrive d f) where
  toSteady := .modDrive s d f ⟨h.1, h.2.1⟩ hb
  clock e := by
    rw [drive_modDrive]
    split
    · rename_i he
      exact he ▸ h.2.2
    · exact ⟨rfl, rfl⟩

theorem Still.same (s : State) (d : DriveId) (f : Drive → Drive) (h : (s.drive d).Same (f (s.drive d))) :
    Still s (s.modDrive d f) :=
  .modDrive s d f ⟨h.freeze, h.lock, h.rpc, h.valid⟩ fun b => by
    unfold Drive.inBounds
    rw [h.rpc, h.health, h.map]
    exact b

theorem Still.mapRecords (s : State) (f : Record → Record)
    (h : ∀ r : Record, r.Same (f r)) :
    Still s { s with records := s.records.map f } := ⟨.mapRecords s f h, fun _ => ⟨rfl, rfl⟩⟩

theorem Still.modRequest (s : State) (pos : Nat) (f : Record → Record)
    (h : ∀ r : Record, r.Same (f r)) :
    Still s (s.modRequest pos f) := ⟨.modRequest s pos f h, fun _ => ⟨rfl, rfl⟩⟩

theorem Still.freeRequest (s : State) (pos : Nat) : Still s (s.freeRequest pos) :=
  ⟨.freeRequest s pos, fun _ => ⟨rfl, rfl⟩⟩

theorem Still.modPath (s : State) (k : PathId) (f : Path → Path) : Still s (s.modPath k f) :=
  .of_eq rfl rfl rfl rfl rfl

theorem Still.modRu (s : State) (f : Relocation → Relocation) : Still s (s.modRu f) := .of_eq rfl rfl rfl rfl rfl

/-- A fold of still steps. -/
theorem Still.foldl {α : Type} (f : State → α → State) (h : ∀ s a, Still s (f s a)) (l : List α) (s : State) :
    Still s (l.foldl f s) := by
  induction l generalizing s with
  | nil => exact .refl s
  | cons a l ih => exact (h s a).trans (ih _)

/-! ### Keeps -/

theorem Keeps.refl (s : State) : Keeps s s where
  toStill := .refl s
  port _ := rfl
  calm _ _ := ⟨rfl, rfl⟩
  lost _ _ := ⟨rfl, rfl⟩
  silent _ _ := ⟨rfl, rfl⟩
  claims := .refl _
  attended _ _ := id
  notLost _ := id
  drive _ := rfl
  homes _ := rfl

theorem dataConn_of_state {P Q : Port} (h : P.state = Q.state) : P.dataConn = Q.dataConn := by
  simp [Port.dataConn, h]

theorem dataConn_of_lost {P : Port} (h : P.state = .lost) : P.dataConn = none := by
  simp [Port.dataConn, h]

theorem Keeps.trans {s t u : State} (h : Keeps s t) (g : Keeps t u) : Keeps s u where
  toStill := h.toStill.trans g.toStill
  port p := (g.port p).trans (h.port p)
  calm p c :=
    have a := h.calm p c
    have b := g.calm p ((dataConn_of_state a.1).trans c)
    ⟨b.1.trans a.1, b.2.trans a.2⟩
  lost p c :=
    have a := h.lost p c
    have b := g.lost p ((h.calm p (dataConn_of_lost c)).1.trans c)
    ⟨b.1.trans a.1, b.2.trans a.2⟩
  silent p c :=
    have a := h.silent p c
    have b := g.silent p (by
      have l := h.outstanding p
      rw [c] at l
      simpa using l)
    ⟨b.1.trans a.1, b.2.trans a.2⟩
  claims := g.claims.trans h.claims
  attended p d x := g.attended p d (h.attended p d x)
  notLost p x := g.notLost p (h.notLost p x)
  drive d := (g.drive d).trans (h.drive d)
  homes d := (g.homes d).trans (h.homes d)

/-- A state that differs in other fields only, and in claims only by losing some. -/
theorem Keeps.of_filter {s t : State} (h1 : t.params = s.params) (h2 : t.pending = s.pending) (h3 : t.ports = s.ports)
    (h4 : t.drives = s.drives) (h5 : t.records = s.records) (h6 : t.nextPos = s.nextPos)
    (h7 : t.claims.Sublist s.claims) : Keeps s t where
  toStill := .of_eq h1 h2 h3 h4 h5 h6
  port p := by simp [State.port, h3]
  calm p _ := by simp [State.port, h3]
  lost p _ := by simp [State.port, h3]
  silent p _ := by simp [State.port, h3]
  claims := h7
  attended p d := by simp [State.port, h3]
  notLost p := by simp [State.port, h3]
  drive d := by simp [State.drive, h4]
  homes d := by simp [State.drive, h4]

/-- A state that differs in other fields only. -/
theorem Keeps.of_eq {s t : State} (h1 : t.params = s.params) (h2 : t.pending = s.pending) (h3 : t.ports = s.ports)
    (h4 : t.drives = s.drives) (h5 : t.records = s.records) (h6 : t.nextPos = s.nextPos := by rfl)
    (h7 : t.claims = s.claims := by rfl) : Keeps s t :=
  .of_filter h1 h2 h3 h4 h5 h6 (h7 ▸ .refl _)

theorem Keeps.modPort (s : State) (p : PortId) (f : Port → Port) (h : (f (s.port p)).kept = (s.port p).kept)
    (c : (s.port p).dataConn = none →
      (f (s.port p)).state = (s.port p).state ∧ (f (s.port p)).sending = (s.port p).sending)
    (l : (s.port p).state = .lost → (f (s.port p)).statusQueue = (s.port p).statusQueue
      ∧ (f (s.port p)).attention = (s.port p).attention := by exact fun _ => ⟨rfl, rfl⟩)
    (a : ∀ d, d ∈ (s.port p).attention → d ∈ (f (s.port p)).attention := by exact fun _ => id)
    (n : (s.port p).state ≠ .lost → (f (s.port p)).state ≠ .lost := by first | exact id | (intro _ h; cases h))
    (q : s.outstanding p = [] → (f (s.port p)).statusQueue = (s.port p).statusQueue
      ∧ (f (s.port p)).reports = (s.port p).reports := by exact fun _ => ⟨rfl, rfl⟩) :
    Keeps s (s.modPort p f) where
  toStill := .modPort s p f
    ⟨by simpa [Port.kept] using congrArg Port.threshold h, by simpa [Port.kept] using congrArg Port.lockLost h⟩
  port q := by rw [port_modPort]; split <;> simp_all
  calm q hq := by rw [port_modPort]; split <;> simp_all
  lost q hq := by rw [port_modPort]; split <;> simp_all
  claims := .refl _
  silent q' hq := by
    rw [port_modPort]
    split
    · rename_i hp
      exact hp ▸ q (hp ▸ hq)
    · exact ⟨rfl, rfl⟩
  attended q d hq := by
    rw [port_modPort]
    split
    · rename_i hp
      exact a d (hp ▸ hq)
    · exact hq
  notLost q hq := by
    rw [port_modPort]
    split
    · rename_i hp
      exact n (hp ▸ hq)
    · exact hq
  drive _ := rfl
  homes _ := rfl

theorem mapWithin_of_homes {l m : List MapEntry} (h : m.map (·.home) = l.map (·.home)) (hl : mapWithin l) :
    mapWithin m := by
  have g : (l.map (·.home)).Pairwise fun a b => trackBefore a b = true := List.pairwise_map.2 hl.2
  have n : m.length = l.length := by simpa using congrArg List.length h
  rw [← h] at g
  exact ⟨n ▸ hl.1, List.pairwise_map.1 g⟩

theorem Keeps.modDrive (s : State) (d : DriveId) (f : Drive → Drive) (h : (f (s.drive d)).kept = (s.drive d).kept)
    (hm : (f (s.drive d)).map.map (·.home) = (s.drive d).map.map (·.home) := by first | rfl | (split <;> rfl)) :
    Keeps s (s.modDrive d f) where
  toStill :=
    have h1 : (f (s.drive d)).rpc = (s.drive d).rpc := by simpa [Drive.kept] using congrArg Drive.rpc h
    have h2 : (f (s.drive d)).health = (s.drive d).health := by simpa [Drive.kept] using congrArg Drive.health h
    have h3 : (f (s.drive d)).valid = (s.drive d).valid := by simpa [Drive.kept] using congrArg Drive.valid h
    have h4 : (f (s.drive d)).freeze = (s.drive d).freeze := by simpa [Drive.kept] using congrArg Drive.freeze h
    have h5 : (f (s.drive d)).lock = (s.drive d).lock := by simpa [Drive.kept] using congrArg Drive.lock h
    .modDrive s d f ⟨h4, h5, h1, h3⟩ fun b => ⟨h1 ▸ b.1, h2 ▸ b.2.1, mapWithin_of_homes hm b.2.2⟩
  port _ := rfl
  calm _ _ := ⟨rfl, rfl⟩
  lost _ _ := ⟨rfl, rfl⟩
  silent _ _ := ⟨rfl, rfl⟩
  claims := .refl _
  attended _ _ := id
  notLost _ := id
  drive e := by rw [drive_modDrive]; split <;> simp_all
  homes e := by
    rw [drive_modDrive]
    split
    · rename_i he
      exact he ▸ hm
    · rfl

theorem Keeps.modPath (s : State) (k : PathId) (f : Path → Path) : Keeps s (s.modPath k f) :=
  .of_eq rfl rfl rfl rfl rfl

theorem Keeps.modRu (s : State) (f : Relocation → Relocation) : Keeps s (s.modRu f) := .of_eq rfl rfl rfl rfl rfl

theorem Keeps.mapRecords (s : State) (f : Record → Record)
    (h : ∀ r : Record, r.Same (f r)) :
    Keeps s { s with records := s.records.map f } :=
  ⟨.mapRecords s f h, fun _ => rfl, fun _ _ => ⟨rfl, rfl⟩, fun _ _ => ⟨rfl, rfl⟩, fun _ _ => ⟨rfl, rfl⟩, .refl _, fun _ _ => id,
    fun _ => id, fun _ => rfl, fun _ => rfl⟩

theorem Keeps.modRequest (s : State) (pos : Nat) (f : Record → Record)
    (h : ∀ r : Record, r.Same (f r)) :
    Keeps s (s.modRequest pos f) :=
  ⟨.modRequest s pos f h, fun _ => rfl, fun _ _ => ⟨rfl, rfl⟩, fun _ _ => ⟨rfl, rfl⟩, fun _ _ => ⟨rfl, rfl⟩, .refl _, fun _ _ => id,
    fun _ => id, fun _ => rfl, fun _ => rfl⟩

theorem Keeps.freeRequest (s : State) (pos : Nat) : Keeps s (s.freeRequest pos) :=
  ⟨.freeRequest s pos, fun _ => rfl, fun _ _ => ⟨rfl, rfl⟩, fun _ _ => ⟨rfl, rfl⟩, fun _ _ => ⟨rfl, rfl⟩, .refl _, fun _ _ => id,
    fun _ => id, fun _ => rfl, fun _ => rfl⟩

/-- A fold of steps that each keep. -/
theorem Keeps.foldl {α : Type} (f : State → α → State) (h : ∀ s a, Keeps s (f s a)) (l : List α) (s : State) :
    Keeps s (l.foldl f s) := by
  induction l generalizing s with
  | nil => exact .refl s
  | cons a l ih => exact (h s a).trans (ih _)

/-! ### Ports and paths -/

theorem keeps_disconnect (s : State) (k : PathId) : Keeps s (s.disconnect k) := by
  unfold State.disconnect
  split
  · exact .refl s
  · rename_i p _
    split
    · rename_i h
      refine .modPort s p _ rfl fun c => ?_
      simp [Port.connectedTo, c] at h
    · exact .refl s

theorem keeps_withdrawAsk (s : State) (k : PathId) : Keeps s (s.withdrawAsk k) := by
  unfold State.withdrawAsk
  split
  · exact .refl s
  · exact .modPort s _ _ rfl fun _ => ⟨rfl, rfl⟩

theorem keeps_closeGates (s : State) (d : DriveId) : Keeps s (s.closeGates d) := .modDrive s d _ rfl

theorem keeps_giveOffset (s : State) (d : DriveId) (o : Offset) : Keeps s (s.giveOffset d o) := .modDrive s d _ rfl

theorem keeps_closeGates? (s : State) (d : Option DriveId) : Keeps s (s.closeGates? d) := by
  unfold State.closeGates?
  split
  · exact .refl s
  · exact keeps_closeGates s _

theorem keeps_releasePath (s : State) (k : PathId) : Keeps s (s.releasePath k) := by
  unfold State.releasePath
  refine Keeps.trans ?_ (.modPath _ _ _)
  refine Keeps.trans ?_ (keeps_closeGates? _ _)
  refine Keeps.trans ?_ (keeps_withdrawAsk _ _)
  refine Keeps.trans ?_ (keeps_disconnect _ _)
  split
  · exact .modRequest s _ _ fun _ => ⟨rfl, rfl, id, rfl, rfl, id⟩
  · exact .refl s

theorem keeps_clearDrive (s : State) (pos : Nat) : Keeps s (s.clearDrive pos) := by
  unfold State.clearDrive
  split
  · exact .refl s
  · refine Keeps.trans (.modDrive s _ _ ?_) (.of_filter rfl rfl rfl rfl rfl rfl List.filter_sublist)
    split <;> rfl

theorem keeps_leaveDrive (s : State) (pos : Nat) : Keeps s (s.leaveDrive pos) :=
  (keeps_clearDrive s pos).trans (.of_eq rfl rfl rfl rfl rfl)

theorem keeps_selectHead (s : State) (d : DriveId) (h : Nat) : Keeps s (s.selectHead d h) := .modDrive s d _ rfl

/-! ### Reports and statuses -/

theorem keeps_setReport (s : State) (p : PortId) (d : DriveId) (r : Option Report) (o : s.outstanding p ≠ []) :
    Keeps s (s.setReport p d r) :=
  .modPort s p _ rfl (fun _ => ⟨rfl, rfl⟩) (q := fun x => absurd x o)

theorem keeps_passStatus (s : State) (p : PortId) (r : Record) (i : EndInfo) (o : s.outstanding p ≠ []) :
    Keeps s (s.passStatus p r i) := by
  unfold State.passStatus
  split
  · split <;> exact keeps_setReport s _ _ _ o
  · exact .refl s

theorem keeps_appendStatus (s : State) (p : PortId) (e : StatusEntry) (h : (s.port p).state ≠ .lost)
    (o : s.outstanding p ≠ []) : Keeps s (s.appendStatus p e) :=
  .modPort s p _ rfl (fun _ => ⟨rfl, rfl⟩) (fun l => absurd l h) (q := fun x => absurd x o)

theorem keeps_presentStatus (s : State) (p : PortId) (k : PathId) (e : StatusEntry)
    (h : (s.port p).connectedTo k = true) : Keeps s (s.presentStatus p k e) :=
  .modPort s p _ rfl fun c => by simp [Port.connectedTo, c] at h

theorem ownConnection_connected {s : State} {p : PortId} {pos : Nat} {k : PathId} (h : s.ownConnection p pos = some k) :
    (s.port p).connectedTo k = true := by
  unfold State.ownConnection at h
  split at h
  · split at h
    · cases h; assumption
    · cases h
  · cases h

/-- A port with a request that is not detached has an outstanding request, marked ended or not. -/
theorem outstanding_ne_nil {s : State} {pos : Nat} {r : Record} {p : PortId} (h : s.request? pos = some r)
    (hs : r.source = .port p) (hd : r.detached = false) :
    (s.modRequest pos fun x => { x with ended := true }).outstanding p ≠ [] := by
  have hr : r ∈ s.records := List.mem_of_find?_eq_some h
  have hp : r.pos = pos := by simpa using List.find?_some h
  refine List.ne_nil_of_mem (a := { r with ended := true }) (List.mem_filter.2 ⟨?_, ?_⟩)
  · exact List.mem_map.2 ⟨r, hr, by simp [hp]⟩
  · simp [Record.outstandingFor, hs, hd]

theorem keeps_issueStatus (s : State) (pos : Nat) (i : EndInfo) : Keeps s (s.issueStatus pos i) := by
  unfold State.issueStatus
  split
  · exact .refl s
  · rename_i hr
    split
    · exact .refl s
    · rename_i hs
      split
      · exact .refl s
      · split
        · exact .freeRequest s pos
        · rename_i hl
          simp only [Bool.or_eq_true, not_or, Bool.not_eq_true] at hl
          have o := outstanding_ne_nil hr hs hl.1
          have hm := Keeps.modRequest s pos (fun x => { x with ended := true }) fun _ =>
            ⟨rfl, rfl, id, rfl, rfl, fun _ => rfl⟩
          dsimp only
          split
          · rename_i h
            exact (hm.trans (keeps_presentStatus _ _ _ _ (ownConnection_connected h))).trans (keeps_passStatus _ _ _ _ o)
          · refine (hm.trans (keeps_appendStatus _ _ _ (fun c => ?_) o)).trans (keeps_passStatus _ _ _ _ o)
            have c' : (s.port _).state = .lost := c
            simp [c'] at hl

theorem mem_insertDrive {d x : DriveId} {l : List DriveId} : x ∈ insertDrive d l ↔ x = d ∨ x ∈ l := by
  induction l with
  | nil => simp [insertDrive]
  | cons a l ih =>
    unfold insertDrive
    split
    · simp
    · split
      · rename_i h
        simp [h]
      · simp only [List.mem_cons, ih]
        exact or_left_comm

theorem keeps_attend (s : State) (d : DriveId) : Keeps s (s.attend d) :=
  .foldl _ (fun s p => .modPort s p _ (by split <;> rfl) (fun _ => by split <;> exact ⟨rfl, rfl⟩) (fun l => by simp [l])
    (fun x hx => by
      split
      · exact hx
      · exact mem_insertDrive.2 (.inr hx)) (by split <;> exact id) fun _ => by split <;> exact ⟨rfl, rfl⟩) _ s

/-- A change of entries that keeps each one's home keeps the homes of the table. -/
theorem homes_map (l : List MapEntry) (f : MapEntry → MapEntry) (h : ∀ e, (f e).home = e.home) :
    (l.map f).map (·.home) = l.map (·.home) := by
  rw [List.map_map]
  exact List.map_congr_left fun e _ => h e

theorem keeps_modEntry (s : State) (d : DriveId) (h : Track) (f : MapEntry → MapEntry)
    (hf : ∀ e, (f e).home = e.home := by exact fun _ => rfl) : Keeps s (s.modEntry d h f) :=
  .modDrive s d _ rfl (homes_map _ _ fun e => by split <;> simp [hf])

theorem keeps_endMapChange (s : State) (pos : Nat) (st : Status) : Keeps s (s.endMapChange pos st) := by
  unfold State.endMapChange
  split
  · exact .refl s
  · refine Keeps.trans ?_ (keeps_issueStatus _ _ _)
    split
    · exact keeps_modEntry s _ _ _ fun e => by split <;> rfl
    · exact .refl s

theorem keeps_endLinked (s : State) (l : Option Nat) (st : Status) : Keeps s (s.endLinked l st) := by
  unfold State.endLinked
  split
  · exact .refl s
  · exact keeps_endMapChange s _ _

/-! ### Ends and returns of requests -/

theorem keeps_endRequest (s : State) (pos : Nat) (i : EndInfo) : Keeps s (s.endRequest pos i) := by
  have h := (keeps_leaveDrive s pos).trans (keeps_issueStatus (s.leaveDrive pos) pos i)
  unfold State.endRequest
  dsimp only
  split
  · exact h
  · split
    · exact h.trans (keeps_releasePath _ _)
    · split
      · exact h.trans ((keeps_closeGates? _ _).trans (.modPath _ _ _))
      · exact h.trans (keeps_releasePath _ _)

theorem keeps_endHere (s : State) (pos : Nat) (st : Status) : Keeps s (s.endHere pos st) := by
  unfold State.endHere
  split
  · exact .refl s
  · exact keeps_endRequest s _ _

theorem keeps_endStopped (s : State) (pos : Nat) (st : Status) : Keeps s (s.endStopped pos st) := by
  unfold State.endStopped
  split
  · exact .refl s
  · exact (keeps_giveOffset s _ _).trans (keeps_endHere _ _ _)

theorem keeps_stopRequest (s : State) (pos : Nat) : Keeps s (s.stopRequest pos) := by
  unfold State.stopRequest
  split
  · exact .refl s
  · refine Keeps.trans ?_ (.freeRequest _ _)
    have h := (keeps_giveOffset s (by assumption : Record).drive .off).trans (keeps_leaveDrive _ pos)
    split
    · exact h.trans (keeps_releasePath _ _)
    · exact h

theorem keeps_returnToQueue (s : State) (pos : Nat) : Keeps s (s.returnToQueue pos) :=
  (keeps_clearDrive s pos).trans (.modRequest _ _ _ fun _ => ⟨rfl, rfl, id, rfl, rfl, id⟩)

theorem keeps_stopBy (s : State) (pos : Nat) (c : StopKind) : Keeps s (s.stopBy pos c) := by
  cases c
  · exact keeps_stopRequest s pos
  · exact keeps_endStopped s pos _
  · exact keeps_endStopped s pos _

theorem keeps_releaseAndReturn (s : State) (k : PathId) : Keeps s (s.releaseAndReturn k) := by
  unfold State.releaseAndReturn
  split
  · exact keeps_releasePath s k
  · split
    · exact keeps_releasePath s k
    · split
      · exact keeps_stopBy s _ _
      · exact (keeps_releasePath s k).trans (keeps_returnToQueue _ _)

theorem keeps_refuse (s : State) (k : PathId) : Keeps s (s.refuse k) := by
  have h := Keeps.modPath s k fun P => { P with conn := .none, window := none }
  unfold State.refuse
  dsimp only
  split
  · exact h
  · split
    · exact h
    · split
      · exact h.trans (.modRequest _ _ _ fun _ => ⟨rfl, rfl, id, rfl, rfl, id⟩)
      · exact h.trans (keeps_endStopped _ _ _)

/-- The refusal of a TRANSFERRING request's path leaves the ending to the next sector boundary (R125). -/
theorem refuse_transferring {s : State} {k : PathId} {r : Record} (h : (s.path k).holder = some r.pos)
    (q : s.request? r.pos = some r) (t : r.state = .transferring) (e : r.ended = false) :
    s.refuse k = (s.modPath k fun P => { P with conn := .none, window := none }).modRequest r.pos fun x =>
      { x with lossStop := true } := by
  simp only [State.refuse, h, request?_modPath, q, t, e]
  rfl

theorem keeps_ask (s : State) (k : PathId) : Keeps s (s.ask k) := by
  unfold State.ask
  split
  · exact .refl s
  · split
    · exact keeps_refuse s k
    · exact (Keeps.modPort s _ _ rfl fun _ => ⟨rfl, rfl⟩).trans (.modPath _ _ _)

theorem keeps_askRead (s : State) (k : PathId) : Keeps s (s.askRead k) := by
  unfold State.askRead
  dsimp only
  split
  · split
    · split
      · exact keeps_ask s k
      · exact .refl s
    · exact .refl s
  · exact .refl s

theorem keeps_askAll (s : State) : Keeps s s.askAll := .foldl _ keeps_askRead _ s

end Sys2Proof.Machine
end

