-- ==== Sys2Proof/Laws/Settle.lean ====
section
/-! SUPPORT. The end of an event keeps what `Keeps` names: the paths' part, the relocation unit's part, the choices and the
offers, one lemma each. -/

namespace Sys2Proof.Machine

set_option Elab.async false

/-! ### The paths' part -/

theorem keeps_holdEnding (s : State) (k : PathId) (r : Record) (h : Held) : Keeps s (s.holdEnding k r h) := by
  unfold State.holdEnding
  dsimp only
  have g := (Keeps.modPath s k fun P =>
    { P with
      ending := some h, reading := none, ladder := none, fifo := P.fifo.filter fun i => i.cond == .complete }).trans
    (Keeps.modRequest _ r.pos (fun x => { x with state := .transferring }) fun _ => ⟨rfl, rfl, id, rfl, rfl, id⟩)
  split
  · exact g.trans (keeps_endRequest _ _ _)
  · exact g

theorem keeps_dataLate (s : State) (k : PathId) (r : Record) (ord : Nat) : Keeps s (s.dataLate k r ord) := by
  unfold State.dataLate
  dsimp only
  split
  · exact (Keeps.modPath s _ _).trans (.modRequest _ _ _ fun _ => ⟨rfl, rfl, id, rfl, rfl, id⟩)
  · split
    · exact keeps_holdEnding s _ _ _
    · exact keeps_endRequest s _ _

theorem keeps_beginRead (s : State) (k : PathId) (r : Record) (ord : Nat) : Keeps s (s.beginRead k r ord) :=
  ((Keeps.modPath s _ _).trans (.modDrive _ _ _ rfl)).trans (.modRequest _ _ _ fun _ => ⟨rfl, rfl, id, rfl, rfl, id⟩)

theorem keeps_startRead (s : State) (k : PathId) (r : Record) (ord : Nat) (a : SectorAddr) (e : Entered) :
    Keeps s (s.startRead k r ord a e) := by
  unfold State.startRead
  dsimp only
  split
  · exact (Keeps.modPath s _ _).trans (keeps_beginRead _ _ _ _)
  · split
    · exact (Keeps.modPath s _ _).trans (keeps_beginRead _ _ _ _)
    · exact keeps_dataLate s _ _ _

theorem keeps_startWrite (s : State) (k : PathId) (r : Record) (ord : Nat) : Keeps s (s.startWrite k r ord) := by
  unfold State.startWrite
  split
  · split
    · exact ((Keeps.modPath s _ _).trans (.modDrive _ _ _ rfl)).trans (.modRequest _ _ _ fun _ => ⟨rfl, rfl, id, rfl, rfl, id⟩)
    · split
      · exact .refl s
      · exact keeps_dataLate s _ _ _
  · exact keeps_dataLate s _ _ _

theorem keeps_startSector (s : State) (k : PathId) : Keeps s (s.startSector k) := by
  unfold State.startSector
  dsimp only
  split
  · split
    · exact .refl s
    · split
      · exact .refl s
      · split
        · exact .refl s
        · split
          · split
            · exact .refl s
            · exact keeps_startRead s _ _ _ _ _
          · exact keeps_beginRead s _ _ _
          · split
            · exact .refl s
            · exact keeps_startWrite s _ _ _
          · exact .refl s
  · exact .refl s

theorem keeps_enterForReading (s : State) (k : PathId) (r : Record) (ord : Nat) :
    Keeps s (s.enterForReading k r ord) := by
  unfold State.enterForReading
  split
  · exact .refl s
  · dsimp only
    split
    · split
      · exact .modPath s _ _
      · exact (keeps_selectHead s _ _).trans (.modPath _ _ _)
    · split
      · exact keeps_releaseAndReturn s k
      · exact .modPath s _ _

theorem keeps_enterForWriting {s t : State} {k : PathId} {r : Record} {x : Nat} {a : SectorAddr}
    (h : s.enterForWriting k r x a = some t) : Keeps s t := by
  unfold State.enterForWriting at h
  dsimp only at h
  split at h
  · cases h
    refine Keeps.trans ?_ (.modPath _ _ _)
    split
    · exact keeps_selectHead s _ _
    · exact .refl s
  · cases h

theorem keeps_readDrain (s : State) (k : PathId) : Keeps s (s.readDrain k) := by
  unfold State.readDrain
  dsimp only
  split
  · split
    · exact .refl s
    · split
      · split
        · exact keeps_endRequest s _ _
        · split
          · exact keeps_releaseAndReturn s k
          · exact (keeps_disconnect s k).trans (.modPath _ _ _)
      · exact .refl s
  · exact .refl s

theorem keeps_drainAll (s : State) : Keeps s s.drainAll := .foldl _ keeps_readDrain _ s

theorem keeps_openGap (s : State) (d : DriveId) : Keeps s (s.openGap d) := .modDrive s d _ rfl

theorem keeps_beginService (s : State) (k : PathId) (r : Record) : Keeps s (s.beginService k r) := by
  unfold State.beginService
  split
  case h_3 =>
    split
    · exact .refl s
    · split
      · rename_i h
        exact (keeps_enterForWriting h).trans (keeps_ask _ _)
      · exact keeps_releaseAndReturn s k
  case h_4 => exact keeps_openGap s _
  case h_5 => exact .refl s
  all_goals
    dsimp only
    split
    · exact (keeps_enterForReading s k r r.done).trans (keeps_startSector _ _)
    · exact keeps_enterForReading s k r r.done

theorem keeps_dropClaim (s : State) (pos : Nat) : Keeps s (s.dropClaim pos) :=
  .of_filter rfl rfl rfl rfl rfl rfl List.filter_sublist

theorem keeps_grant (s : State) (k : PathId) (c : Claim) : Keeps s (s.grant k c) := by
  unfold State.grant
  dsimp only
  split
  · exact keeps_dropClaim s _
  · refine Keeps.trans ?_ (keeps_beginService _ _ _)
    refine Keeps.trans ?_ (.modPath _ _ _)
    refine Keeps.trans ?_ (.modDrive _ _ _ rfl)
    refine Keeps.trans ?_ (.modRequest _ _ _ fun _ => ⟨rfl, rfl, id, rfl, rfl, id⟩)
    exact (keeps_dropClaim s c.request).trans (.of_eq rfl rfl rfl rfl rfl)

theorem keeps_grantLoop (n : Nat) (s : State) : Keeps s (State.grantLoop n s) := by
  induction n generalizing s with
  | zero => exact .refl s
  | succ n ih =>
    unfold State.grantLoop
    split
    · exact (keeps_grant s _ _).trans (ih _)
    · exact .refl s

theorem keeps_arbitrate (s : State) : Keeps s s.arbitrate := keeps_grantLoop _ s

theorem keeps_settlePaths (s : State) : Keeps s s.settlePaths :=
  ((keeps_drainAll s).trans (keeps_askAll _)).trans (keeps_arbitrate _)

/-! ### The relocation unit's part -/

/-- A record appended at the next position keeps the order. -/
theorem recordsOrdered_append (s : State) (r : Record) (hr : r.pos = s.nextPos) (h : s.recordsOrdered) {t : State}
    (ht : t.records = s.records ++ [r] := by rfl) (hn : t.nextPos = s.nextPos + 1 := by rfl) : t.recordsOrdered := by
  refine ⟨?_, fun x hx => ?_⟩
  · rw [ht, List.pairwise_append]
    refine ⟨h.1, List.pairwise_singleton _ _, fun a ha b hb => ?_⟩
    rw [List.mem_singleton.1 hb, hr]
    exact h.2 a ha
  · rw [hn]
    rw [ht] at hx
    rcases List.mem_append.1 hx with hx | hx
    · exact Nat.lt_succ_of_lt (h.2 x hx)
    · rw [List.mem_singleton.1 hx, hr]; exact Nat.lt_succ_self _

/-- A record appended to a queue with room keeps its count within its bound. -/
theorem queueCount_append {s t : State} {r : Record} {d : DriveId}
    (room : r.inQueueCount d = true → s.queueCount d < Config.queueLimit) (x : s.queueCount d ≤ Config.queueLimit)
    (ht : t.records = s.records ++ [r] := by rfl) : t.queueCount d ≤ Config.queueLimit := by
  unfold State.queueCount at room x ⊢
  rw [ht, List.countP_append, List.countP_singleton]
  split
  · rename_i h
    exact room h
  · exact x

theorem keeps_admitStep (s : State) (q : StepRequest) (h : s.hasRoom q.drive = true) : Keeps s (s.admitStep q) where
  toStill :=
    { params := rfl, pending := rfl, threshold := fun _ => rfl, lockLost := fun _ => rfl, freeze := fun _ => rfl
      lock := fun _ => rfl, bounds := fun _ => id, clock := fun _ => ⟨rfl, rfl⟩
      ordered := fun x => recordsOrdered_append s _ rfl x
      store := fun _ => by
        simp only [State.hasRoom, Bool.and_eq_true, decide_eq_true_eq] at h
        simp only [State.admitStep, List.length_append, List.length_cons, List.length_nil]
        exact h.1
      queued := fun d x => by
        simp only [State.hasRoom, Bool.and_eq_true, decide_eq_true_eq] at h
        refine queueCount_append ?_ x
        intro hd
        have : q.drive = d := by simpa [Record.inQueueCount, stepRecord] using hd
        exact this ▸ h.2
      outstanding := fun p => by
        simp [State.admitStep, State.outstanding, Record.outstandingFor, stepRecord] }
  port _ := rfl
  calm _ _ := ⟨rfl, rfl⟩
  lost _ _ := ⟨rfl, rfl⟩
  silent _ _ := ⟨rfl, rfl⟩
  claims := .refl _
  attended _ _ := id
  notLost _ := id
  drive _ := rfl
  homes _ := rfl

theorem keeps_handStep (s : State) (q : StepRequest) : Keeps s (s.handStep q) := by
  unfold State.handStep
  split
  · rename_i h
    exact keeps_admitStep s q h
  · exact .modRu s _

theorem keeps_admitWaiting (s : State) : Keeps s s.admitWaiting := by
  unfold State.admitWaiting
  split
  · split
    · rename_i h
      exact keeps_admitStep s _ h
    · exact .refl s
  · exact .refl s

theorem keeps_toSource (s : State) (ref : EntryRef) : Keeps s (s.toSource ref) := by
  unfold State.toSource
  split
  · exact .of_eq rfl rfl rfl rfl rfl
  · exact .modRu s _

theorem keeps_restartCheck (s : State) (ref : EntryRef) : Keeps s (s.restartCheck ref) := by
  unfold State.restartCheck
  split
  · dsimp only
    split
    · exact Keeps.trans (.modRu s _) (.modRu _ _)
    · refine Keeps.trans ?_ (keeps_toSource _ _)
      exact .modRu s _
  · exact .refl s

theorem keeps_placeNext (s : State) (ref : EntryRef) : Keeps s (s.placeNext ref) := by
  unfold State.placeNext
  split
  · exact .refl s
  · split
    · exact .refl s
    · split
      · exact keeps_handStep s _
      · exact .refl s

theorem keeps_ruPoint (s : State) : Keeps s s.ruPoint := by
  unfold State.ruPoint
  split
  · exact .refl s
  · dsimp only
    split
    · exact (keeps_restartCheck s _).trans (.modRu _ _)
    · exact (keeps_restartCheck s _).trans (keeps_placeNext _ _)

theorem keeps_toStage (s : State) (st : Stage) : Keeps s (s.toStage st) := (Keeps.modRu s _).trans (keeps_ruPoint _)

theorem keeps_ruIdle (s : State) : Keeps s s.ruIdle := .of_eq rfl rfl rfl rfl rfl

theorem keeps_passHeldPoint (s : State) : Keeps s s.passHeldPoint := by
  unfold State.passHeldPoint
  split
  · split
    · exact keeps_ruPoint s
    · exact .refl s
  · exact .refl s

theorem keeps_resume (s : State) : Keeps s s.resume := (Keeps.modRu s _).trans (keeps_ruPoint _)

theorem keeps_resumeIfDue (s : State) : Keeps s s.resumeIfDue := by
  unfold State.resumeIfDue
  split
  · exact keeps_resume s
  · exact .refl s

theorem keeps_setSpare (s : State) (d : DriveId) (t : Track) (st : SpareState) : Keeps s (s.setSpare d t st) :=
  .modDrive s d _ rfl

theorem keeps_setSpare? (s : State) (d : DriveId) (t : Option Track) (st : SpareState) :
    Keeps s (s.setSpare? d t st) := by
  unfold State.setSpare?
  split
  · exact .refl s
  · exact keeps_setSpare s _ _ _

theorem keeps_appendStalled (s : State) (r : EntryRef) : Keeps s (s.appendStalled r) := by
  unfold State.appendStalled
  split
  · exact .refl s
  · exact .of_eq rfl rfl rfl rfl rfl

theorem backOut_home (e : MapEntry) : e.backOut.home = e.home := by
  unfold MapEntry.backOut
  split <;> rfl

theorem allocated_home (e : MapEntry) (t : Track) : (e.allocated t).home = e.home := by
  unfold MapEntry.allocated
  split <;> rfl

theorem keeps_stallEntry (s : State) (ref : EntryRef) : Keeps s (s.stallEntry ref) :=
  (((keeps_modEntry s _ _ _ backOut_home).trans (keeps_appendStalled _ _)).trans (keeps_endLinked _ _ _)).trans (keeps_ruIdle _)

theorem keeps_allocate (s : State) (ref : EntryRef) (onward : State → State) (h : ∀ s, Keeps s (onward s)) :
    Keeps s (s.allocate ref onward) := by
  unfold State.allocate
  split
  · exact ((keeps_setSpare s _ _ _).trans (keeps_modEntry _ _ _ _ fun e => allocated_home e _)).trans (h _)
  · exact (keeps_attend s _).trans (keeps_stallEntry _ _)

theorem keeps_takeEntry (s : State) (ref : EntryRef) : Keeps s (s.takeEntry ref) := by
  have src (t : State) : Keeps t (t.toSource ref).ruPoint := (keeps_toSource t ref).trans (keeps_ruPoint _)
  unfold State.takeEntry
  dsimp only
  split
  · exact .of_eq rfl rfl rfl rfl rfl
  · split
    · refine Keeps.trans ?_ (keeps_allocate _ _ _ src)
      exact .of_eq rfl rfl rfl rfl rfl
    · split
      · refine Keeps.trans ?_ (keeps_allocate _ _ _ src)
        exact .of_eq rfl rfl rfl rfl rfl
      · split
        · refine Keeps.trans ?_ (keeps_toStage _ _)
          refine Keeps.trans ?_ (keeps_modEntry _ _ _ _)
          exact .of_eq rfl rfl rfl rfl rfl
        · exact .of_eq rfl rfl rfl rfl rfl

theorem keeps_takeLoop (n : Nat) (s : State) : Keeps s (State.takeLoop n s) := by
  induction n generalizing s with
  | zero => exact .refl s
  | succ n ih =>
    unfold State.takeLoop
    split
    · split
      · exact (keeps_takeEntry s _).trans (ih _)
      · exact .refl s
    · exact .refl s

theorem keeps_takeNow (s : State) : Keeps s s.takeNow := keeps_takeLoop _ s

theorem keeps_placeRestore (s : State) : Keeps s s.placeRestore := by
  unfold State.placeRestore
  split
  · split
    · exact keeps_handStep s _
    · exact .refl s
  · exact .refl s

theorem keeps_settleUnit (s : State) : Keeps s s.settleUnit :=
  (((keeps_admitWaiting s).trans (keeps_passHeldPoint _)).trans (keeps_placeRestore _)).trans (keeps_takeNow _)

/-! ### Choices and offers -/

theorem afterChoice_same (n : Nat) (l : List Nat) (r : Record) : r.Same (Record.afterChoice n l r) := by
  unfold Record.afterChoice
  split
  · exact ⟨rfl, rfl, id, rfl, rfl, id⟩
  · split <;> exact ⟨rfl, rfl, id, rfl, rfl, id⟩

theorem keeps_commitChoice (s : State) (d : DriveId) (l : List Record) (r : Record) :
    Keeps s (s.commitChoice d l r) := by
  unfold State.commitChoice
  refine Keeps.trans (t := { s with records := s.records.map (Record.afterChoice r.pos (l.map fun x => x.pos)) }) ?_ ?_
  · exact .mapRecords s _ (afterChoice_same _ _)
  · exact .modDrive _ _ _ rfl

theorem keeps_chooseFor (s : State) (d : DriveId) : Keeps s (s.chooseFor d) := by
  unfold State.chooseFor
  dsimp only
  split
  · split
    · exact keeps_commitChoice s _ _ _
    · exact .refl s
  · exact .refl s

theorem keeps_chooseAll (s : State) : Keeps s s.chooseAll := .foldl _ keeps_chooseFor _ s

theorem keeps_settleChoices (s : State) : Keeps s s.settleChoices :=
  (((keeps_chooseAll s).trans (keeps_resumeIfDue _)).trans (keeps_admitWaiting _)).trans (keeps_chooseAll _)

theorem offerNow_kept (P : Port) :
    P.offerNow.kept = P.kept ∧ P.offerNow.state = P.state ∧ P.offerNow.sending = P.sending
      ∧ P.offerNow.statusQueue = P.statusQueue ∧ P.offerNow.attention = P.attention ∧ P.offerNow.reports = P.reports := by
  unfold Port.offerNow
  split <;> exact ⟨rfl, rfl, rfl, rfl, rfl, rfl⟩

theorem keeps_offerAll (s : State) : Keeps s s.offerAll :=
  .foldl _ (fun s p => .modPort s p _ (offerNow_kept _).1
    (fun _ => ⟨(offerNow_kept _).2.1, (offerNow_kept _).2.2.1⟩)
    (fun _ => ⟨(offerNow_kept _).2.2.2.1, (offerNow_kept _).2.2.2.2.1⟩)
    (fun _ => by rw [(offerNow_kept _).2.2.2.2.1]; exact id) (by rw [(offerNow_kept _).2.1]; exact id)
    fun _ => ⟨(offerNow_kept _).2.2.2.1, (offerNow_kept _).2.2.2.2.2⟩) _ s

/-- The end of an event keeps what `Keeps` names. -/
theorem keeps_settle (s : State) : Keeps s s.settle :=
  (((keeps_settlePaths s).trans (keeps_settleUnit _)).trans (keeps_settleChoices _)).trans (keeps_offerAll _)

end Sys2Proof.Machine
end

