-- ==== Sys2Proof/Laws/Transfer.lean ====
section
/-! SUPPORT. The operations of transfers, health, relocation and the arbiter leave counters, locks and bounds still: one lemma for each. -/

namespace Sys2Proof.Machine

set_option Elab.async false

/-! ### Bounds of the health list, order of the map table -/

theorem healthWithin_map (l : List HealthEntry) (f : HealthEntry → HealthEntry)
    (hf : ∀ h, (f h).track = h.track ∧ (f h).soft = h.soft ∧ (f h).hard = h.hard) (hl : healthWithin l) :
    healthWithin (l.map f) := by
  refine ⟨by simpa using hl.1, ?_, fun h hh => ?_⟩
  · have e : (l.map f).map (·.track) = l.map (·.track) := by
      rw [List.map_map]
      exact List.map_congr_left fun h _ => (hf h).1
    rw [e]
    exact hl.2.1
  · obtain ⟨a, ha, rfl⟩ := List.mem_map.1 hh
    rw [(hf a).2.1, (hf a).2.2]
    exact hl.2.2 a ha

theorem healthWithin_filter (l : List HealthEntry) (q : HealthEntry → Bool) (hl : healthWithin l) :
    healthWithin (l.filter q) :=
  ⟨Nat.le_trans (List.length_filter_le _ _) hl.1, (List.filter_sublist.map _).nodup hl.2.1,
    fun h hh => hl.2.2 h (List.mem_filter.1 hh).1⟩

/-- The entry of a recording stands for the recorded track. -/
theorem raisedEntry_track (t : Track) (k : OutcomeKind) (l : List HealthEntry) :
    (raisedEntry t k (l.find? fun x => x.track == t)).track = t := by
  cases h : l.find? fun x => x.track == t with
  | none => cases k <;> rfl
  | some e =>
    have : e.track = t := by simpa using List.find?_some h
    cases k <;> exact this

/-- The others do not hold the recorded track. -/
theorem track_notMem_othersAfter (t : Track) (l : List HealthEntry) : t ∉ (othersAfter t l).map (·.track) := by
  unfold othersAfter
  intro h
  obtain ⟨e, he, rfl⟩ := List.mem_map.1 h
  split at he
  · simpa using (List.mem_filter.1 he).2
  · rename_i hn
    exact hn (List.any_eq_true.2 ⟨e, List.mem_of_mem_take he, by simp⟩)

theorem othersAfter_sublist (t : Track) (l : List HealthEntry) : (othersAfter t l).Sublist l := by
  unfold othersAfter
  split
  · exact List.filter_sublist
  · exact List.take_sublist _ _

/-- An outcome taken back keeps the health list within its bounds. -/
theorem healthWithin_takeBackSoft (t : Track) (l : List HealthEntry) (hl : healthWithin l) :
    healthWithin (takeBackSoft t l) := by
  have track : (takeBackSoft t l).map (·.track) = l.map (·.track) := by
    rw [takeBackSoft, List.map_map]
    exact List.map_congr_left fun h _ => by simp only [Function.comp]; split <;> rfl
  refine ⟨by simpa [takeBackSoft] using hl.1, track ▸ hl.2.1, fun h hh => ?_⟩
  obtain ⟨x, hx, rfl⟩ := List.mem_map.1 hh
  have b := hl.2.2 x hx
  split
  · exact ⟨Nat.le_trans (Nat.sub_le _ _) b.1, b.2⟩
  · exact b

/-- A recording keeps the health list within its bounds. -/
theorem healthWithin_record (t : Track) (k : OutcomeKind) (l : List HealthEntry) (hl : healthWithin l) :
    healthWithin (raisedEntry t k (l.find? fun x => x.track == t) :: othersAfter t l) := by
  have hnew : (raisedEntry t k (l.find? fun x => x.track == t)).soft ≤ Config.tallyLimit
      ∧ (raisedEntry t k (l.find? fun x => x.track == t)).hard ≤ Config.tallyLimit := by
    cases hfind : l.find? fun x => x.track == t with
    | none => cases k <;> simp [raisedEntry, satSucc, Config.tallyLimit]
    | some e =>
      have he := hl.2.2 e (List.mem_of_find?_eq_some hfind)
      cases k
      · exact ⟨Nat.min_le_right _ _, he.2⟩
      · exact ⟨he.1, Nat.min_le_right _ _⟩
  refine ⟨?_, ?_, ?_⟩
  · simp only [List.length_cons, othersAfter]
    split
    · rename_i h
      obtain ⟨x, hx, hxt⟩ := List.any_eq_true.1 h
      have hlt : (l.filter fun h => h.track != t).length < l.length :=
        List.length_filter_lt_length_iff_exists.2 ⟨x, hx, by simpa using hxt⟩
      exact Nat.le_trans hlt hl.1
    · rw [List.length_take]
      exact Nat.succ_le_of_lt (Nat.lt_of_le_of_lt (Nat.min_le_left _ _) (by decide))
  · rw [List.map_cons, raisedEntry_track]
    exact List.nodup_cons.2 ⟨track_notMem_othersAfter t l, ((othersAfter_sublist t l).map _).nodup hl.2.1⟩
  · intro h hh
    rcases List.mem_cons.1 hh with hh | hh
    · rw [hh]; exact hnew
    · exact hl.2.2 h ((othersAfter_sublist t l).subset hh)

theorem trackBefore_of_not {a b : Track} (h : trackBefore a b = false) (hne : a ≠ b) : trackBefore b a = true := by
  obtain ⟨ac, ah⟩ := a
  obtain ⟨bc, bh⟩ := b
  simp only [trackBefore, Bool.or_eq_false_iff, Bool.and_eq_false_iff, decide_eq_false_iff_not, beq_eq_false_iff_ne,
    Bool.or_eq_true, Bool.and_eq_true, decide_eq_true_eq, beq_iff_eq, ne_eq, Track.mk.injEq] at h hne ⊢
  omega

theorem trackBefore_trans {a b c : Track} (h : trackBefore a b = true) (g : trackBefore b c = true) :
    trackBefore a c = true := by
  obtain ⟨ac, ah⟩ := a
  obtain ⟨bc, bh⟩ := b
  obtain ⟨cc, ch⟩ := c
  simp only [trackBefore, Bool.or_eq_true, Bool.and_eq_true, decide_eq_true_eq, beq_iff_eq] at h g ⊢
  omega

theorem mem_insertEntry {e x : MapEntry} {l : List MapEntry} (h : x ∈ insertEntry e l) : x = e ∨ x ∈ l := by
  induction l with
  | nil => simpa [insertEntry] using h
  | cons a l ih =>
    unfold insertEntry at h
    split at h
    · simpa using h
    · rcases List.mem_cons.1 h with h | h
      · exact .inr (h ▸ List.mem_cons_self)
      · rcases ih h with h | h
        · exact .inl h
        · exact .inr (List.mem_cons_of_mem _ h)

theorem length_insertEntry (e : MapEntry) (l : List MapEntry) : (insertEntry e l).length = l.length + 1 := by
  induction l with
  | nil => rfl
  | cons a l ih =>
    unfold insertEntry
    split
    · rfl
    · simp [ih]

/-- A new home's entry keeps the order of the table. -/
theorem ascending_insert (e : MapEntry) (l : List MapEntry) (hne : ∀ x ∈ l, x.home ≠ e.home)
    (hl : l.Pairwise fun a b => trackBefore a.home b.home = true) :
    (insertEntry e l).Pairwise fun a b => trackBefore a.home b.home = true := by
  induction l with
  | nil => exact List.pairwise_singleton _ _
  | cons a l ih =>
    have hc := List.pairwise_cons.1 hl
    unfold insertEntry
    split
    · rename_i h
      refine List.pairwise_cons.2 ⟨fun x hx => ?_, hl⟩
      rcases List.mem_cons.1 hx with hx | hx
      · rw [hx]; exact h
      · exact trackBefore_trans h (hc.1 x hx)
    · rename_i h
      refine List.pairwise_cons.2 ⟨fun x hx => ?_, ih (fun x hx => hne x (List.mem_cons_of_mem _ hx)) hc.2⟩
      rcases mem_insertEntry hx with hx | hx
      · rw [hx]
        exact trackBefore_of_not (by simpa using h) (hne a List.mem_cons_self).symm
      · exact hc.1 x hx

theorem homes_ne_of_entry?_none {s : State} {d : DriveId} {home : Track} (h : s.entry? d home = none) :
    ∀ x ∈ (s.drive d).map, x.home ≠ home := by
  intro x hx he
  have := List.find?_eq_none.1 h x hx
  simp [he] at this

/-! ### Health -/

theorem still_setWaiting (s : State) (d : DriveId) (t : Track) (w : Bool) : Still s (s.setWaiting d t w) :=
  .modDrive s d _ ⟨rfl, rfl, rfl, rfl⟩ fun b => ⟨b.1, healthWithin_map _ _ (fun h => by split <;> exact ⟨rfl, rfl, rfl⟩) b.2.1, b.2.2⟩

theorem still_dropHealth (s : State) (d : DriveId) (t : Track) : Still s (s.dropHealth d t) :=
  .modDrive s d _ ⟨rfl, rfl, rfl, rfl⟩ fun b => ⟨b.1, healthWithin_filter _ _ b.2.1, b.2.2⟩

theorem keeps_appendWork (s : State) (r : EntryRef) : Keeps s (s.appendWork r) := by
  unfold State.appendWork
  split
  · exact .refl s
  · exact .of_eq rfl rfl rfl rfl rfl

theorem still_addEntry (s : State) (d : DriveId) (e : MapEntry) (h : s.entry? d e.home = none) :
    Still s (s.addEntry d e) :=
  .modDrive s d _ ⟨rfl, rfl, rfl, rfl⟩ fun b => by
    refine ⟨b.1, b.2.1, ?_⟩
    dsimp only
    split
    · rename_i hl
      refine ⟨?_, ascending_insert _ _ (homes_ne_of_entry?_none h) b.2.2.2⟩
      rw [length_insertEntry]
      exact hl
    · exact b.2.2

theorem still_judgeTrack (s : State) (d : DriveId) (t : Track) : Still s (s.judgeTrack d t) := by
  unfold State.judgeTrack
  dsimp only
  split
  · split
    · exact ((keeps_modEntry s _ _ _).toStill.trans ((keeps_appendWork _ _).toStill)).trans (still_dropHealth _ _ _)
    · exact still_setWaiting s _ _ _
  · split
    · exact still_setWaiting s _ _ _
    · rename_i h
      split
      · exact ((still_addEntry s _ _ h).trans ((keeps_appendWork _ _).toStill)).trans (still_dropHealth _ _ _)
      · exact still_setWaiting s _ _ _

theorem still_recordOutcome (s : State) (pos : Nat) (d : DriveId) (t : Track) (k : OutcomeKind) :
    Still s (s.recordOutcome pos d t k) := by
  unfold State.recordOutcome
  dsimp only
  split
  · refine Still.trans ?_ (still_judgeTrack _ _ _)
    refine Still.trans ?_ (.modRequest _ _ _ fun _ => ⟨rfl, rfl, id, rfl, rfl, id⟩)
    exact .modDrive s d _ ⟨rfl, rfl, rfl, rfl⟩ fun b => ⟨b.1, healthWithin_record t k _ b.2.1, b.2.2⟩
  · refine Still.trans ?_ (.modRequest _ _ _ fun _ => ⟨rfl, rfl, id, rfl, rfl, id⟩)
    exact .modDrive s d _ ⟨rfl, rfl, rfl, rfl⟩ fun b => ⟨b.1, healthWithin_record t k _ b.2.1, b.2.2⟩

theorem still_recordOnce (s : State) (r : Record) (ord : Nat) (t : Track) (k : OutcomeKind) :
    Still s (s.recordOnce r ord t k) := by
  unfold State.recordOnce
  dsimp only
  split
  · exact .refl s
  · exact (still_recordOutcome s _ _ _ _).trans (.modRequest _ _ _ fun _ => ⟨rfl, rfl, id, rfl, rfl, id⟩)
  · refine Still.trans ?_ (still_recordOutcome _ _ _ _ _)
    exact .modDrive s _ _ ⟨rfl, rfl, rfl, rfl⟩ fun b => ⟨b.1, healthWithin_takeBackSoft _ _ b.2.1, b.2.2⟩
  · exact still_recordOutcome s _ _ _ _

theorem still_retryWaiting (s : State) (d : DriveId) : Still s (s.retryWaiting d) :=
  .foldl _ (fun s t => still_judgeTrack s d t) _ s

/-! ### Reading -/

theorem keeps_reachEnding (s : State) (k : PathId) (r : Record) (h : Held) : Keeps s (s.reachEnding k r h) := by
  unfold State.reachEnding
  split
  · exact (keeps_holdEnding s _ _ _)
  · refine Keeps.trans ?_ (keeps_endRequest _ _ _)
    exact .modRequest s _ _ fun _ => ⟨rfl, rfl, id, rfl, rfl, id⟩

theorem keeps_goOn (s : State) (k : PathId) (pos : Nat) : Keeps s (s.goOn k pos) := by
  unfold State.goOn
  split
  · dsimp only
    split
    · exact .refl s
    · have go (t : State) (h : Keeps s t) :
          Keeps s (if (t.path k).holder == some pos then t.startSector k else t) := by
        split
        · exact h.trans (keeps_startSector _ _)
        · exact h
      apply go
      split
      · exact .refl s
      · exact (keeps_enterForReading s _ _ _)
  · exact .refl s

theorem still_goodSector (s : State) (k : PathId) (r : Record) (ord : Nat) (soft : Bool) (serving : Track)
    (bytes : List Byte) : Still s (s.goodSector k r ord soft serving bytes) := by
  unfold State.goodSector
  extract_lets s1 r1 s2 isRead s3
  have h1 : Still s s1 := by
    show Still s (if soft = true then _ else s)
    split
    · exact (still_recordOnce s _ _ _ _).trans (.modRequest _ _ _ fun _ => ⟨rfl, rfl, id, rfl, rfl, id⟩)
    · exact .refl s
  have h2 : Still s s2 := by
    refine h1.trans ?_
    show Still s1 (if _ then _ else s1)
    split
    · exact (keeps_giveOffset _ _ _).toStill.trans (.modPath _ _ _)
    · exact .refl _
  have h3 : Still s s3 := by
    refine h2.trans ?_
    show Still s2 (if _ then _ else _)
    split
    · exact .modPath _ _ _
    · exact .modRequest _ _ _ fun _ => ⟨rfl, rfl, id, rfl, rfl, id⟩
  split
  · split
    · exact h3.trans (keeps_holdEnding _ _ _ _).toStill
    · exact h3.trans (keeps_endHere _ _ _).toStill
  · exact h3

theorem still_failedAttempt (s : State) (k : PathId) (r : Record) (ord n : Nat) (serving : Track) :
    Still s (s.failedAttempt k r ord n serving) := by
  unfold State.failedAttempt
  split
  · refine Still.trans ?_ (.modRequest _ _ _ fun _ => ⟨rfl, rfl, id, rfl, rfl, id⟩)
    refine Still.trans ?_ (keeps_giveOffset _ _ _).toStill
    exact .modPath s _ _
  · exact ((still_recordOnce s _ _ _ _).trans (keeps_giveOffset _ _ _).toStill).trans ((keeps_reachEnding _ _ _ _).toStill)

theorem still_takeOutcome (s : State) (k : PathId) (r : Record) (ord n : Nat) (serving : Track) (o : Outcome)
    (bytes : List Byte) : Still s (s.takeOutcome k r ord n serving o bytes) := by
  unfold State.takeOutcome
  split
  · exact (keeps_giveOffset s _ _).toStill.trans ((keeps_reachEnding _ _ _ _).toStill)
  · split
    · exact still_goodSector s _ _ _ _ _ _
    · exact still_goodSector s _ _ _ _ _ _
    · exact still_failedAttempt s _ _ _ _ _

theorem keeps_afterSector (s : State) (k : PathId) (pos : Nat) (good : Bool) : Keeps s (s.afterSector k pos good) := by
  unfold State.afterSector
  split
  · exact .refl s
  · split
    · exact .refl s
    · split
      · exact (keeps_stopBy s _ _)
      · split
        · exact keeps_goOn s _ _
        · exact .refl s

theorem still_sectorOutcome (s : State) (d : DriveId) (sr : SectorRead) : Still s (s.sectorOutcome d sr) := by
  unfold State.sectorOutcome
  split
  · exact .refl s
  · dsimp only
    split
    · split
      · exact .refl s
      · split
        · exact .refl s
        · split
          · exact .refl s
          · refine Still.trans ?_ ((keeps_afterSector _ _ _ _).toStill)
            refine Still.trans ?_ (still_takeOutcome _ _ _ _ _ _ _ _)
            exact (Still.modPath s _ _).trans (keeps_closeGates _ _).toStill
    · exact .refl s

theorem still_takeReadByte (s : State) (p : PortId) : Still s (s.takeReadByte p) := by
  unfold State.takeReadByte
  split
  · dsimp only
    split
    · split
      · split
        · split
          · refine Still.trans ?_ (.modRequest _ _ _ fun _ => ⟨rfl, rfl, id, rfl, rfl, id⟩)
            refine Still.trans ?_ (.modPath _ _ _)
            exact .modPort s p _ ⟨rfl, rfl⟩
          · refine Still.trans ?_ (.modPath _ _ _)
            exact .modPort s p _ ⟨rfl, rfl⟩
        · exact .refl s
      · exact .refl s
    · exact .refl s
  · exact .refl s

/-! ### Writing -/

theorem keeps_endTaking (s : State) (k : PathId) : Keeps s (s.endTaking k) :=
  (keeps_disconnect s k).trans (.modPath _ _ _)

theorem keeps_leaveForWriting (s : State) (k : PathId) : Keeps s (s.leaveForWriting k) := by
  have h := (keeps_endTaking s k).trans (Keeps.modPath _ k fun P => { P with leaving := true })
  unfold State.leaveForWriting
  dsimp only
  split
  · exact h.trans (keeps_releaseAndReturn _ _)
  · exact h

theorem keeps_portParity (s : State) (k : PathId) (r : Record) (ord : Nat) : Keeps s (s.portParity k r ord) := by
  unfold State.portParity
  dsimp only
  split
  · exact (Keeps.modPath s _ _).trans (keeps_issueStatus _ _ _)
  · exact (keeps_endRequest s _ _)

theorem still_storeWriteByte (s : State) (p : PortId) (k : PathId) (r : Record) (ord : Nat) (b : LineByte) :
    Still s (s.storeWriteByte p k r ord b) := by
  have h := Still.modPort s p (fun Q => { Q with byteTaken := true }) ⟨rfl, rfl⟩
  unfold State.storeWriteByte
  dsimp only
  split
  · split
    · exact (h.trans (.modPath _ _ _)).trans ((keeps_endTaking _ _).toStill)
    · exact h.trans (.modPath _ _ _)
  · exact h.trans ((keeps_portParity _ _ _ _).toStill)

theorem still_firstByte (s : State) (p : PortId) (k : PathId) (r : Record) (ord : Nat) (b : LineByte) :
    Still s (s.firstByte p k r ord b) := by
  unfold State.firstByte
  split
  · dsimp only
    split
    · exact (keeps_leaveForWriting s k).toStill
    · rename_i h
      refine Still.trans ?_ (still_storeWriteByte _ _ _ _ _ _)
      refine Still.trans ?_ (.modPath _ _ _)
      split at h
      · cases h; exact .refl s
      · exact (keeps_enterForWriting h).toStill
  · exact .refl s

theorem still_giveWriteByte (s : State) (p : PortId) (b : LineByte) : Still s (s.giveWriteByte p b) := by
  have h := Still.modPort s p (fun Q => { Q with byteTaken := false }) ⟨rfl, rfl⟩
  unfold State.giveWriteByte
  dsimp only
  split
  · split
    · exact h
    · split
      · exact h
      · split
        · split
          · exact h.trans (still_storeWriteByte _ _ _ _ _ _)
          · exact h.trans (still_firstByte _ _ _ _ _ _)
        · exact h
  · exact h

theorem keeps_clearLost (s : State) (d : DriveId) (t : Track) (n : Nat) : Keeps s (s.clearLost d t n) := by
  unfold State.clearLost
  split
  · exact .refl s
  · exact (keeps_modEntry s _ _ _)

theorem keeps_notice (s : State) (d : DriveId) (h : Track) : Keeps s (s.notice d h) := by
  unfold State.notice
  split
  · exact .modRu s _
  · exact .refl s

theorem keeps_headForNext (s : State) (k : PathId) (d : DriveId) : Keeps s (s.headForNext k d) := by
  unfold State.headForNext
  split
  · split
    · exact .refl s
    · exact (keeps_selectHead s _ _)
  · exact .refl s

/-- What a parting does to a port: all but its state stays, and its state unless it presents on the path. -/
theorem part_eq (P : Port) (k : PathId) :
    P.part k = P ∨ ∃ e, P.state = .connected (.data k (some e)) ∧ P.part k = { P with state := .connected (.parting e) } := by
  unfold Port.part
  split
  · rename_i j e h
    split
    · rename_i hj
      exact .inr ⟨e, by rw [h, eq_of_beq hj], rfl⟩
    · exact .inl rfl
  · exact .inl rfl

theorem keeps_part (s : State) (p : PortId) (k : PathId) : Keeps s (s.modPort p fun Q => Q.part k) := by
  rcases part_eq (s.port p) k with h | ⟨e, he, h⟩
  · exact .modPort s p _ (by rw [h]) (fun _ => by rw [h]; exact ⟨rfl, rfl⟩) (fun _ => by rw [h]; exact ⟨rfl, rfl⟩)
      (fun _ => by rw [h]; exact id) (by rw [h]; exact id) (fun _ => by rw [h]; exact ⟨rfl, rfl⟩)
  · exact .modPort s p _ (by rw [h]; rfl) (fun c => by simp [Port.dataConn, he] at c)
      (fun _ => by rw [h]; exact ⟨rfl, rfl⟩) (fun _ => by rw [h]; exact id) (fun _ => by rw [h]; exact fun c => by cases c)
      (fun _ => by rw [h]; exact ⟨rfl, rfl⟩)

theorem keeps_finishParity (s : State) (k : PathId) (d : DriveId) : Keeps s (s.finishParity k d) := by
  unfold State.finishParity
  dsimp only
  have h (f : Drive → Drive) (hf : (f (s.drive d)).kept = (s.drive d).kept)
      (hm : (f (s.drive d)).map.map (·.home) = (s.drive d).map.map (·.home)) (l : List Nat) :
      Keeps s { s.modDrive d f with overdue := l } :=
    (Keeps.modDrive s d f hf hm).trans (.of_eq rfl rfl rfl rfl rfl)
  split
  · exact ((h _ (by split <;> rfl) (by split <;> rfl) _).trans (keeps_part _ _ _)).trans (keeps_releasePath _ _)
  · exact (h _ (by split <;> rfl) (by split <;> rfl) _).trans (keeps_releasePath _ _)

theorem keeps_afterWrite (s : State) (k : PathId) (d : DriveId) (r : Record) : Keeps s (s.afterWrite k d r) := by
  unfold State.afterWrite
  split
  · exact (keeps_stopBy s _ _)
  · split
    · exact (keeps_endHere s _ _)
    · split
      · exact (keeps_releaseAndReturn s _)
      · exact (keeps_headForNext s _ _).trans (keeps_startSector _ _)

theorem keeps_writeSectorEnd (s : State) (d : DriveId) : Keeps s (s.writeSectorEnd d) := by
  unfold State.writeSectorEnd
  split
  · exact .refl s
  · dsimp only
    split
    · split
      · exact .refl s
      · rename_i k _ _ _ i rest pos _ _ _
        have h : Keeps s ((((s.modPath k fun P => { P with fifo := rest }).closeGates d).clearLost d i.serving
            i.sector).notice d i.home) :=
          (((Keeps.modPath s _ _).trans (keeps_closeGates _ _)).trans (keeps_clearLost _ _ _ _)).trans
            (keeps_notice _ _ _)
        split
        · exact h.trans (keeps_finishParity _ _ _)
        · split
          · exact h.trans (keeps_finishParity _ _ _)
          · refine Keeps.trans ?_ (keeps_afterWrite _ _ _ _)
            refine Keeps.trans h ?_
            exact .modRequest _ _ _ fun _ => ⟨rfl, rfl, id, rfl, rfl, id⟩
    · exact .refl s

theorem keeps_windowExpired (s : State) (k : PathId) : Keeps s (s.windowExpired k) := by
  unfold State.windowExpired
  dsimp only
  split
  · split
    · exact .refl s
    · split
      · exact .refl s
      · split
        · exact (keeps_endRequest s _ _)
        · split
          · refine Keeps.trans ?_ (keeps_releaseAndReturn _ _)
            exact .modRequest s _ _ fun _ => ⟨rfl, rfl, id, rfl, rfl, id⟩
          · refine Keeps.trans ?_ (keeps_endRequest _ _ _)
            exact .modRequest s _ _ fun _ => ⟨rfl, rfl, id, rfl, rfl, id⟩
  · exact .refl s

/-! ### Boundaries -/

theorem keeps_boundaryStop (s : State) (k : PathId) : Keeps s (s.boundaryStop k) := by
  unfold State.boundaryStop
  dsimp only
  split
  · exact .refl s
  · split
    · exact .refl s
    · split
      · exact .refl s
      · split
        · exact (keeps_stopBy s _ _)
        · exact .refl s

theorem keeps_stepBoundary (s : State) (k : PathId) (d : DriveId) : Keeps s (s.stepBoundary k d) := by
  unfold State.stepBoundary
  dsimp only
  split
  · exact .refl s
  · split
    · exact (Keeps.modPath s _ _).trans (.modDrive _ _ _ rfl)
    · split
      · split
        · exact (Keeps.modPath s _ _).trans (keeps_giveOffset _ _ _)
        · exact .modPath s _ _
      · exact .refl s
  · exact .refl s

theorem keeps_pathBoundary (s : State) (d : DriveId) : Keeps s (s.pathBoundary d) := by
  unfold State.pathBoundary
  split
  · exact .refl s
  · dsimp only
    split
    · rename_i k _ _
      have h : Keeps s ((((s.modPath k fun P =>
          if P.flowFrom == some (s.drive d).rpc then { P with flowFrom := none } else P).boundaryStop k)).stepBoundary
            k d) :=
        ((Keeps.modPath s _ _).trans (keeps_boundaryStop _ _)).trans (keeps_stepBoundary _ _ _)
      split
      · exact h.trans (keeps_startSector _ _)
      · exact h
    · exact .modPath s _ _

/-! ### The arbiter -/

theorem keeps_missRevolution (s : State) (pos : Nat) : Keeps s (s.missRevolution pos) := by
  unfold State.missRevolution
  split
  · exact .refl s
  · dsimp only
    split
    · rename_i r _ _
      refine Keeps.trans (t := s.modRequest pos fun x => { x with missedRev := satSucc Config.missedRevolutionLimit r.missedRev }) ?_
        (.of_eq rfl rfl rfl rfl rfl)
      exact .modRequest s _ _ fun _ => ⟨rfl, rfl, id, rfl, rfl, id⟩
    · exact .modRequest s _ _ fun _ => ⟨rfl, rfl, id, rfl, rfl, id⟩

theorem keeps_missClaim (s : State) (d : DriveId) : Keeps s (s.missClaim d) := by
  unfold State.missClaim
  split
  · exact .refl s
  · split
    · exact ((keeps_dropClaim s _).trans (keeps_missRevolution _ _)).trans (keeps_returnToQueue _ _)
    · exact .refl s

theorem keeps_missFullTrack (s : State) (d : DriveId) : Keeps s (s.missFullTrack d) := by
  unfold State.missFullTrack
  split
  · split
    · exact keeps_missRevolution s _
    · exact .refl s
  · exact .refl s

theorem still_makeClaim (s : State) (r : Record) : Still s (s.makeClaim r) := by
  unfold State.makeClaim
  dsimp only
  refine Still.trans ?_ (.of_eq (s := (s.modRequest r.pos fun x => { x with state := .claiming }).modDrive r.drive
    fun D => { D with due := some r.duePoint }) rfl rfl rfl rfl rfl)
  refine Still.trans ?_ (.same _ _ _ ⟨rfl, rfl, rfl, rfl, rfl, rfl⟩)
  exact .modRequest s _ _ fun _ => ⟨rfl, rfl, id, rfl, rfl, id⟩

/-! ### Relocation results -/

theorem keeps_targetFailure (s : State) (ref : EntryRef) : Keeps s (s.targetFailure ref) := by
  unfold State.targetFailure
  dsimp only
  refine Keeps.trans ?_ (keeps_toStage _ _)
  refine Keeps.trans ?_ (.modRu _ _)
  exact (keeps_setSpare? s _ _ _).trans (keeps_modEntry _ _ _ _)

theorem keeps_commit (s : State) (ref : EntryRef) : Keeps s (s.commit ref) := by
  unfold State.commit
  split
  · exact (keeps_ruIdle s)
  · rename_i e _
    dsimp only
    have h : Keeps s ((State.endLinked { ((s.modEntry ref.drive ref.home fun x => x.committed (bufferLost
        s.buffer)).setSpare? ref.drive e.previous .unusable) with buffer := none } e.linked .complete).attend
          ref.drive) := by
      refine Keeps.trans ?_ (keeps_attend _ _)
      refine Keeps.trans ?_ (keeps_endLinked _ _ _)
      refine Keeps.trans ?_ (.of_eq (s := (s.modEntry ref.drive ref.home fun x => x.committed (bufferLost
        s.buffer)).setSpare? ref.drive e.previous .unusable) rfl rfl rfl rfl rfl)
      exact (keeps_modEntry s _ _ _).trans (keeps_setSpare? _ _ _ _)
    split
    · exact (h.trans (.modRu _ _)).trans (keeps_toStage _ _)
    · exact h.trans (keeps_ruIdle _)

theorem keeps_abandonReturn (s : State) (ref : EntryRef) : Keeps s (s.abandonReturn ref) :=
  (((keeps_modEntry s _ _ _ backOut_home).trans (keeps_attend _ _)).trans ((keeps_endLinked _ _ _).trans (keeps_ruIdle _)))

theorem still_removeEntry (s : State) (d : DriveId) (h : Track) : Still s (s.removeEntry d h) :=
  .modDrive s d _ ⟨rfl, rfl, rfl, rfl⟩ fun b =>
    ⟨b.1, b.2.1, Nat.le_trans (List.length_filter_le _ _) b.2.2.1, b.2.2.2.filter _⟩

theorem keeps_rejoinStalled (s : State) (d : DriveId) : Keeps s (s.rejoinStalled d) := by
  unfold State.rejoinStalled
  refine Keeps.trans ?_ (.foldl _ keeps_appendWork _ _)
  exact .of_eq rfl rfl rfl rfl rfl

theorem still_releaseAlternate (s : State) (ref : EntryRef) : Still s (s.releaseAlternate ref) := by
  unfold State.releaseAlternate
  split
  · exact (keeps_ruIdle s).toStill
  · rename_i e _
    dsimp only
    refine Still.trans ?_ (keeps_ruIdle _).toStill
    refine Still.trans ?_ (still_retryWaiting _ _)
    refine Still.trans ?_ ((keeps_rejoinStalled _ _).toStill)
    refine Still.trans ?_ (keeps_attend _ _).toStill
    refine Still.trans ?_ (keeps_endLinked _ _ _).toStill
    refine Still.trans ?_ (.of_eq (s := (s.removeEntry ref.drive ref.home).setSpare? ref.drive e.alternate .free)
      rfl rfl rfl rfl rfl)
    exact (still_removeEntry s _ _).trans (keeps_setSpare? _ _ _ _).toStill

theorem keeps_rejectDone (s : State) (ref : EntryRef) : Keeps s (s.rejectDone ref) := by
  unfold State.rejectDone
  split
  · exact (keeps_allocate s ref _ fun t => keeps_toStage t _)
  · dsimp only
    refine Keeps.trans ?_ (keeps_stallEntry _ _)
    split
    · split
      · exact (keeps_attend s _)
      · exact .refl s
    · exact .refl s

theorem still_headerResult (s : State) (ok : Bool) : Still s (s.headerResult ok) := by
  unfold State.headerResult
  split
  · exact (keeps_ruIdle s).toStill
  · split
    · exact (keeps_toStage s _).toStill
    · exact (keeps_targetFailure s _).toStill
  · split
    · exact (keeps_commit s _).toStill
    · exact (keeps_targetFailure s _).toStill
  · exact (keeps_ruIdle s).toStill
  · exact (keeps_rejectDone s _).toStill
  · split
    · exact still_releaseAlternate s _
    · exact (Still.modRu s _).trans (keeps_toStage _ _).toStill
  · exact (keeps_abandonReturn s _).toStill
  · exact .refl s

theorem keeps_readResult (s : State) (entries : List BufEntry) : Keeps s (s.readResult entries) := by
  unfold State.readResult
  split
  · refine Keeps.trans ?_ (keeps_toStage _ _)
    exact .of_eq rfl rfl rfl rfl rfl
  · dsimp only
    refine Keeps.trans ?_ (keeps_toStage _ _)
    refine Keeps.trans ?_ (keeps_modEntry _ _ _ _)
    exact .of_eq rfl rfl rfl rfl rfl
  · exact .refl s

theorem keeps_writeResult (s : State) : Keeps s s.writeResult := by
  unfold State.writeResult
  split
  · exact (keeps_toStage s _)
  · exact (keeps_toStage s _)
  · exact .refl s

theorem keeps_verifyResult (s : State) (o : List Outcome) : Keeps s (s.verifyResult o) := by
  unfold State.verifyResult
  split
  · split
    · exact (keeps_toStage s _)
    · exact keeps_targetFailure s _
  · split
    · split
      · exact (keeps_toStage s _)
      · exact keeps_abandonReturn s _
    · exact .refl s
  · exact .refl s

theorem keeps_removeStep (s : State) : Keeps s s.removeStep := by
  unfold State.removeStep
  refine Keeps.trans ?_ (.modRu _ _)
  split
  · exact (keeps_stopRequest s _)
  · exact .refl s

theorem keeps_frontWork (s : State) (r : EntryRef) : Keeps s (s.frontWork r) := .of_eq rfl rfl rfl rfl rfl

theorem keeps_abortEntry (s : State) (ref : EntryRef) (e : MapEntry) : Keeps s (s.abortEntry ref e) := by
  unfold State.abortEntry
  split
  · exact ((keeps_setSpare? s _ _ _).trans (keeps_modEntry _ _ _ _ backOut_home)).trans (keeps_frontWork _ _)
  · exact (((keeps_setSpare? s _ _ _).trans (keeps_modEntry _ _ _ _ backOut_home)).trans (keeps_frontWork _ _)).trans
      (keeps_attend _ _)
  · exact (((keeps_modEntry s _ _ _ backOut_home).trans (keeps_endLinked _ _ _)).trans (keeps_attend _ _))
  · exact .refl s
  · exact .refl s

theorem keeps_abortFaulted (s : State) (d : DriveId) : Keeps s (s.abortFaulted d) := by
  unfold State.abortFaulted
  split
  · split
    · split
      · exact (keeps_removeStep s).trans (keeps_ruIdle _)
      · dsimp only
        have h := fun (r : EntryRef) (e : MapEntry) => ((keeps_removeStep s).trans (keeps_abortEntry _ r e)).trans
          (keeps_ruIdle _)
        split
        · exact (h _ _).trans (.modRu _ _)
        · exact h _ _
    · exact .refl s
  · split
    · exact keeps_removeStep s
    · exact .refl s
  · exact .refl s

theorem keeps_abortNotReady (s : State) (d : DriveId) : Keeps s (s.abortNotReady d) := by
  unfold State.abortNotReady
  split
  · split
    · exact (keeps_removeStep s).trans (keeps_ruIdle _)
    · exact .refl s
  · split
    · exact (keeps_removeStep s).trans (keeps_ruIdle _)
    · exact .refl s
  · exact .refl s

end Sys2Proof.Machine
end

