-- ==== Sys2Proof/Laws/Events.lean ====
section
/-! SUPPORT. The events of drives, ports and relocation steps leave counters, locks and bounds still, or, where the
counter moves, are steady: one lemma for each operation an event is made of,
up to the operation its command runs before the end of the event. -/

namespace Sys2Proof.Machine

set_option Elab.async false

/-! ### Positioning -/

theorem still_headReady (s : State) (d : DriveId) : Still s (s.headReady d) := by
  unfold State.headReady
  dsimp only
  have h : Still s (s.modDrive d Drive.clearPositioning) := .same s d _ ⟨rfl, rfl, rfl, rfl, rfl, rfl⟩
  split
  · exact h.trans (.same _ _ _ ⟨rfl, rfl, rfl, rfl, rfl, rfl⟩)
  · split
    · exact h
    · split
      · exact h.trans (keeps_endHere _ _ _).toStill
      · split
        · exact h.trans (keeps_stopBy _ _ _).toStill
        · exact h.trans (still_makeClaim _ _)
      · split
        · exact h.trans (keeps_stopBy _ _ _).toStill
        · exact h.trans (still_makeClaim _ _)
      · split
        · exact h.trans (keeps_stopBy _ _ _).toStill
        · exact h.trans (still_makeClaim _ _)
      · exact h.trans (still_makeClaim _ _)
      · exact h
      · exact h

theorem still_setup (s : State) (d : DriveId) : Still s (s.setup d) := by
  unfold State.setup
  dsimp only
  split
  · split
    · exact .same s d _ ⟨rfl, rfl, rfl, rfl, rfl, rfl⟩
    · split
      · exact .refl s
      · split
        · exact (keeps_selectHead s _ _).toStill.trans (still_headReady _ _)
        · exact .same s d _ ⟨rfl, rfl, rfl, rfl, rfl, rfl⟩
  · exact .refl s

theorem takeConfirmSector_same (D : Drive) : D.Same D.takeConfirmSector := by
  unfold Drive.takeConfirmSector
  split <;> exact ⟨rfl, rfl, rfl, rfl, rfl, rfl⟩

theorem seekDone_same (D : Drive) : D.Same D.seekDone := by
  unfold Drive.seekDone
  dsimp only
  split
  · exact ⟨rfl, rfl, rfl, rfl, rfl, rfl⟩
  · exact ⟨rfl, rfl, rfl, rfl, rfl, rfl⟩
  · split <;> exact ⟨rfl, rfl, rfl, rfl, rfl, rfl⟩
  · exact ⟨rfl, rfl, rfl, rfl, rfl, rfl⟩
  · exact ⟨rfl, rfl, rfl, rfl, rfl, rfl⟩
  · exact ⟨rfl, rfl, rfl, rfl, rfl, rfl⟩

/-! ### Drive states -/

theorem keeps_finishParity? (s : State) (d : DriveId) (pos : Nat) :
    Keeps s (match s.pathOf pos with
      | some k => s.finishParity k d
      | none => s) := by
  split
  · exact keeps_finishParity s _ _
  · exact .refl s

theorem keeps_cutRequest (s : State) (d : DriveId) (pos : Nat) (st : Status) : Keeps s (s.cutRequest d pos st) := by
  unfold State.cutRequest
  split
  · exact keeps_finishParity? s _ _
  · split
    · exact .refl s
    · split
      · exact (keeps_stopRequest s _)
      · split
        · exact keeps_finishParity? s _ _
        · dsimp only
          refine Keeps.trans ?_ (keeps_endRequest _ _ _)
          split
          · exact (keeps_releasePath s _)
          · exact .refl s

theorem keeps_endDriveWork (s : State) (d : DriveId) (st : Status) : Keeps s (s.endDriveWork d st) := by
  unfold State.endDriveWork
  dsimp only
  refine Keeps.trans ?_ (.foldl _ (fun t r => (keeps_endHere t _ _)) _ _)
  split
  · exact keeps_cutRequest s _ _ _
  · exact .refl s

theorem still_faultDrive (s : State) (d : DriveId) : Still s (s.faultDrive d) := by
  unfold State.faultDrive
  split
  · refine Still.trans ?_ (keeps_attend _ _).toStill
    refine Still.trans ?_ (.same _ _ _ ⟨rfl, rfl, rfl, rfl, rfl, rfl⟩)
    refine Still.trans ?_ ((keeps_abortFaulted _ _).toStill)
    refine Still.trans ?_ ((keeps_endDriveWork _ _ _).toStill)
    exact .same s d _ ⟨rfl, rfl, rfl, rfl, rfl, rfl⟩
  · exact .refl s

theorem healthWithin_nil : healthWithin [] := ⟨by decide, List.nodup_nil, fun _ h => nomatch h⟩

theorem mapWithin_nil : mapWithin [] := ⟨by decide, List.Pairwise.nil⟩

theorem still_forgetEntries (s : State) (d : DriveId) : Still s (s.forgetEntries d) :=
  .of_eq rfl rfl rfl rfl rfl

theorem steady_loseReady (s : State) (d : DriveId) : Steady s (s.loseReady d) := by
  unfold State.loseReady
  dsimp only
  refine Steady.trans (t := s.modDrive d Drive.enterNotReady) ?_ (Still.toSteady ?_)
  · exact .modDrive s d _ ⟨rfl, rfl⟩ fun _ => ⟨Nat.zero_lt_succ _, healthWithin_nil, mapWithin_nil⟩
  · refine Still.trans ?_ (keeps_attend _ _).toStill
    refine Still.trans ?_ (.same _ _ _ ⟨rfl, rfl, rfl, rfl, rfl, rfl⟩)
    refine Still.trans ?_ (.foldl _ (fun t pos => (keeps_endMapChange t _ _).toStill) _ _)
    refine Still.trans ?_ ((keeps_endDriveWork _ _ _).toStill)
    exact (still_forgetEntries _ _).trans ((keeps_abortNotReady _ _).toStill)

theorem still_takeReady (s : State) (d : DriveId) (code : Nat) : Still s (s.takeReady d code) := by
  unfold State.takeReady
  refine .same s d _ ?_
  dsimp only
  split <;> exact ⟨rfl, rfl, rfl, rfl, rfl, rfl⟩

theorem still_enterReady (s : State) (d : DriveId) : Still s (s.enterReady d) :=
  (Still.same s d _ ⟨rfl, rfl, rfl, rfl, rfl, rfl⟩).trans (keeps_attend _ _).toStill

theorem scanGates_same (D : Drive) : D.Same D.scanGates := by
  unfold Drive.scanGates
  split <;> exact ⟨rfl, rfl, rfl, rfl, rfl, rfl⟩

theorem still_scanTo (s : State) (d : DriveId) (j : ScanJob) (t : Track) (l r : List Track) :
    Still s (s.scanTo d j t l r) := by
  unfold State.scanTo
  refine .same s d _ ?_
  dsimp only
  split
  · refine Drive.Same.trans ?_ (scanGates_same _)
    exact ⟨rfl, rfl, rfl, rfl, rfl, rfl⟩
  · exact ⟨rfl, rfl, rfl, rfl, rfl, rfl⟩

theorem still_enterScanning (s : State) (d : DriveId) : Still s (s.enterScanning d) := by
  unfold State.enterScanning
  refine Still.trans ?_ (still_scanTo _ _ _ _ _ _)
  refine (still_forgetEntries s d).trans ?_
  exact .modDrive _ d _ ⟨rfl, rfl, rfl, rfl⟩ fun b => ⟨b.1, b.2.1, mapWithin_nil⟩

theorem entry?_setSpare (s : State) (d e : DriveId) (t home : Track) (st : SpareState) :
    (s.setSpare d t st).entry? e home = s.entry? e home := by
  unfold State.entry? State.setSpare
  rw [drive_modDrive]
  split
  · rename_i h; rw [h]
  · rfl

theorem still_takeHeader (s : State) (d : DriveId) (ty : DriveType) (t : Track) (l : List Track) (h : HeaderResult) :
    Still s (s.takeHeader d ty t l h).1 := by
  unfold State.takeHeader
  have sp (t : Track) (st : SpareState) : Still s (s.setSpare d t st) := (keeps_setSpare s d t st).toStill
  split
  · exact sp _ _
  · exact sp _ _
  · exact sp _ _
  · exact sp _ _
  · split
    · split
      · rename_i he
        exact (sp _ _).trans (still_addEntry _ _ _ (by rw [entry?_setSpare]; exact he))
      · split
        · exact ((sp _ _).trans (keeps_setSpare? _ _ _ _).toStill).trans (keeps_modEntry _ _ _ _).toStill
        · exact sp _ _
    · exact sp _ _

theorem still_scanComplete (s : State) (d : DriveId) : Still s (s.scanComplete d) :=
  (Still.same s d _ ⟨rfl, rfl, rfl, rfl, rfl, rfl⟩).trans (still_enterReady _ _)

theorem still_scanRebuild (s : State) (d : DriveId) (l : List Track) : Still s (s.scanRebuild d l) := by
  unfold State.scanRebuild
  split
  · exact still_scanComplete s d
  · exact still_scanTo s d _ _ _ _

theorem still_scanDiscard (s : State) (d : DriveId) (l : List Track) : Still s (s.scanDiscard d l) := by
  unfold State.scanDiscard
  split
  · exact still_scanRebuild s d _
  · exact still_scanTo s d _ _ _ _

theorem still_scanHeader (s : State) (d : DriveId) (h : Option RawHeader) : Still s (s.scanHeader d h) := by
  unfold State.scanHeader
  dsimp only
  split
  · split
    · split
      · exact (still_takeHeader s d _ _ _ _).trans (still_scanTo _ _ _ _ _ _)
      · exact (still_takeHeader s d _ _ _ _).trans (still_scanDiscard _ _ _)
    · exact .refl s
  · exact .refl s

theorem still_scanDiscarded (s : State) (d : DriveId) : Still s (s.scanDiscarded d) := by
  unfold State.scanDiscarded
  dsimp only
  split
  · split
    · refine Still.trans ?_ (still_scanDiscard _ _ _)
      exact .same s d _ ⟨rfl, rfl, rfl, rfl, rfl, rfl⟩
    · exact .refl s
  · exact .refl s

theorem still_scanRebuilt (s : State) (d : DriveId) (reads : List SectorRead) : Still s (s.scanRebuilt d reads) := by
  unfold State.scanRebuilt
  dsimp only
  split
  · split
    · refine Still.trans ?_ (still_scanRebuild _ _ _)
      exact .modDrive s d _ ⟨rfl, rfl, rfl, rfl⟩ fun b =>
        ⟨b.1, b.2.1, mapWithin_of_homes (homes_map _ _ fun e => by split <;> rfl) b.2.2⟩
    · exact .refl s
  · exact .refl s

theorem still_calibrateDone (s : State) (d : DriveId) : Still s (s.calibrateDone d) := by
  unfold State.calibrateDone
  extract_lets s1 s2
  have h1 : Still s s1 := .same s d _ ⟨rfl, rfl, rfl, rfl, rfl, rfl⟩
  have h2 : Still s1 s2 := by
    unfold s2
    split
    · exact (keeps_endHere s1 _ _).toStill
    · exact .refl s1
  split
  · exact (h1.trans h2).trans (still_enterReady _ _)
  · exact (h1.trans h2).trans (still_enterScanning _ _)

theorem still_seekCompleted (s : State) (d : DriveId) : Still s (s.seekCompleted d) := by
  have h : Still s (s.modDrive d Drive.seekDone) := .same s d _ (seekDone_same _)
  unfold State.seekCompleted
  dsimp only
  split
  · exact .refl s
  · split
    · exact .refl s
    · exact .refl s
    · exact still_calibrateDone s d
    · exact h
    · split
      · split
        · exact h.trans (keeps_endHere _ _ _).toStill
        · exact h
      · exact h

theorem still_confirmed (s : State) (d : DriveId) (i : Option RawIdent) : Still s (s.confirmed d i) := by
  unfold State.confirmed
  dsimp only
  split
  · exact .refl s
  · split
    · exact .refl s
    · split
      · refine Still.trans ?_ (still_headReady _ _)
        exact .same s d _ ⟨rfl, rfl, rfl, rfl, rfl, rfl⟩
      · split
        · exact .same s d _ ⟨rfl, rfl, rfl, rfl, rfl, rfl⟩
        · exact still_faultDrive s d
        · exact .refl s

theorem still_seekExpired (s : State) (d : DriveId) : Still s (s.seekExpired d) := by
  unfold State.seekExpired
  dsimp only
  split
  · split
    · exact still_faultDrive s d
    · exact .refl s
  · exact .refl s

theorem still_readyRise (s : State) (d : DriveId) (code : Nat) : Still s (s.readyRise d code) := by
  unfold State.readyRise
  split
  · exact .refl s
  · exact still_takeReady s d code

theorem steady_readyFall (s : State) (d : DriveId) : Steady s (s.readyFall d) := by
  have h : Still s (s.modDrive d fun D => { D with readyLine := false }) := .same s d _ ⟨rfl, rfl, rfl, rfl, rfl, rfl⟩
  unfold State.readyFall
  dsimp only
  split
  · exact h.toSteady
  · exact h.toSteady.trans (steady_loseReady _ _)

theorem still_faultRise (s : State) (d : DriveId) : Still s (s.faultRise d) :=
  (Still.same s d _ ⟨rfl, rfl, rfl, rfl, rfl, rfl⟩).trans (still_faultDrive _ _)

/-! ### Ports -/

theorem keeps_releaseUnlessWriting (s : State) (k : PathId) : Keeps s (s.releaseUnlessWriting k) := by
  unfold State.releaseUnlessWriting
  split
  · exact .modPath s _ _
  · exact (keeps_releasePath s k)

theorem keeps_removeRequest (s : State) (pos : Nat) : Keeps s (s.removeRequest pos) :=
  (keeps_leaveDrive s pos).trans (.freeRequest _ _)

theorem keeps_detach (s : State) (pos : Nat) : Keeps s (s.detach pos) :=
  .modRequest s pos _ fun _ => ⟨rfl, rfl, fun _ => rfl, rfl, rfl, id⟩

theorem still_cutConnection (s : State) (p : PortId) (c : Conn) : Still s (s.cutConnection p c) := by
  unfold State.cutConnection
  split
  · exact (Still.modPort s p _ ⟨rfl, rfl⟩).trans ((keeps_releaseUnlessWriting _ _).toStill)
  · exact (keeps_refuse s _).toStill
  · exact .modPort s p _ ⟨rfl, rfl⟩
  · exact .refl s
  · exact .modPort s p _ ⟨rfl, rfl⟩

theorem still_refuseWaiting (s : State) (p : PortId) : Still s (s.refuseWaiting p) := by
  unfold State.refuseWaiting
  dsimp only
  refine Still.trans ?_ (.foldl _ (fun t k => (keeps_refuse t k).toStill) _ _)
  exact .modPort s p _ ⟨rfl, rfl⟩

theorem still_lineFall (s : State) (p : PortId) : Still s (s.lineFall p) := by
  unfold State.lineFall
  dsimp only
  split
  · refine Still.trans ?_ (.mapRecords _ (markLoss p) fun r => by
      unfold markLoss
      split <;> exact ⟨rfl, rfl, id, rfl, rfl, id⟩)
    refine Still.trans ?_ (still_refuseWaiting _ _)
    have h : Still s (s.modPort p fun P =>
        { P with
          opLine := false, state := .offline, lossTimer := some 0, offer := none, sending := [], portBusy := false
          byteTaken := false }) := .modPort s p _ ⟨rfl, rfl⟩
    split
    · exact h.trans (still_cutConnection _ _ _)
    · exact h
  · exact .refl s

theorem still_lineRise (s : State) (p : PortId) : Still s (s.lineRise p) := by
  refine .modPort s p _ ?_
  dsimp only
  split <;> exact ⟨rfl, rfl⟩

theorem keeps_loseRequest (s : State) (pos : Nat) : Keeps s (s.loseRequest pos) := by
  unfold State.loseRequest
  dsimp only
  split
  · exact .refl s
  · split
    · exact .freeRequest s pos
    · split
      · exact keeps_detach s pos
      · split
        · exact keeps_removeRequest s pos
        · split
          · split
            · exact (keeps_detach s pos).trans (keeps_endStopped _ _ _)
            · exact (keeps_detach s pos).trans (keeps_endStopped _ _ _)
            · exact (keeps_detach s pos).trans (.modRequest _ _ _ fun _ => ⟨rfl, rfl, id, rfl, rfl, id⟩)
          · exact keeps_detach s pos

theorem still_enterLost (s : State) (p : PortId) : Still s (s.enterLost p) := by
  unfold State.enterLost
  dsimp only
  refine Still.trans ?_ (.foldl _ (fun t n => (keeps_loseRequest t n).toStill) _ _)
  exact .modPort s p _ ⟨rfl, rfl⟩

theorem still_lossExpired (s : State) (p : PortId) : Still s (s.lossExpired p) := by
  unfold State.lossExpired
  split
  · split
    · exact still_enterLost s p
    · exact .refl s
  · exact .refl s

theorem still_countLoss (s : State) (p : PortId) : Still s (s.countLoss p) := by
  unfold State.countLoss
  split
  · split
    · exact still_enterLost s p
    · exact .modPort s p _ ⟨rfl, rfl⟩
  · exact .refl s

theorem still_countLosses (s : State) : Still s s.countLosses := .foldl _ still_countLoss _ s

theorem still_select (s : State) (p : PortId) : Still s (s.modPort p Port.select) := by
  refine .modPort s p _ ?_
  unfold Port.select
  split <;> exact ⟨rfl, rfl⟩

theorem still_answerTaken (s : State) (p : PortId) : Still s (s.modPort p Port.answerTaken) := by
  refine .modPort s p _ ?_
  unfold Port.answerTaken
  split <;> exact ⟨rfl, rfl⟩

theorem still_accepted (s : State) (p : PortId) : Still s (s.accepted p) := by
  unfold State.accepted
  dsimp only
  split
  · refine Still.trans ?_ (.modPath _ _ _)
    exact .modPort s p _ ⟨rfl, rfl⟩
  · split
    · exact .modPort s p _ ⟨rfl, rfl⟩
    · exact .refl s
  · exact .modPort s p _ ⟨rfl, rfl⟩
  · exact .refl s

theorem still_portIdle (s : State) (p : PortId) : Still s (s.portIdle p) := .modPort s p _ ⟨rfl, rfl⟩

theorem still_statusTaken (s : State) (p : PortId) : Still s (s.statusTaken p) := by
  unfold State.statusTaken
  split
  · split
    · refine Still.trans ?_ (.freeRequest _ _)
      exact (still_portIdle s p).trans (.modPort _ _ _ ⟨rfl, rfl⟩)
    · exact still_portIdle s p
  · exact ((still_portIdle s p).trans (.freeRequest _ _)).trans ((keeps_releaseUnlessWriting _ _).toStill)
  · exact (still_portIdle s p).trans (.freeRequest _ _)
  · exact .refl s

theorem still_attentionTaken (s : State) (p : PortId) : Still s (s.attentionTaken p) := by
  unfold State.attentionTaken
  split
  · exact still_portIdle s p
  · exact .refl s

/-! ### Slot and index events -/

theorem still_settle (s : State) : Still s s.settle := (keeps_settle s).toStill

theorem still_forceDue (s : State) (d : DriveId) : Still s (s.forceDue d) := by
  unfold State.forceDue
  have miss : Still s (s.forceMiss d) := by
    unfold State.forceMiss
    split
    · exact ((keeps_missClaim s d).toStill).trans (still_settle _)
    · exact .refl s
  have win (t : State) (k : PathId) : Still t (State.forceWindow d t k) := by
    unfold State.forceWindow
    split
    · exact ((keeps_windowExpired t k).toStill).trans (still_settle _)
    · exact .refl t
  have seek (t : State) : Still t (t.forceSeek d) := by
    unfold State.forceSeek
    split
    · exact (still_seekExpired t d).trans (still_settle _)
    · exact .refl t
  exact (miss.trans (.foldl _ win _ _)).trans (seek _)

theorem steady_advance (s : State) (d : DriveId) (index : Bool) : Steady s (s.advance d index) := by
  unfold State.advance
  refine Steady.trans ?_ (.foldl _ (fun t k => .modPath t k _) _ _)
  refine .modDrive s d _ ⟨rfl, rfl⟩ fun b => ⟨?_, b.2⟩
  unfold Drive.advance
  dsimp only
  split
  · decide
  · exact Nat.mod_lt _ (by decide)

theorem still_indexWork (s : State) (d : DriveId) : Still s (s.indexWork d) := by
  unfold State.indexWork
  extract_lets s1 s2 s3 s4
  have h1 : Still s s1 := by
    show Still s (if _ then _ else _)
    split
    · exact still_countLosses s
    · exact .refl s
  have h2 : Still s1 s2 := by
    show Still s1 (if _ then _ else _)
    split
    · exact .modRu s1 _
    · exact .refl s1
  have h3 : Still s2 s3 := .foldl _ (fun t k => .modPath t k _) _ _
  have h4 : Still s3 s4 := .same s3 d _ ⟨rfl, rfl, rfl, rfl, rfl, rfl⟩
  exact (((h1.trans h2).trans h3).trans h4).trans ((keeps_missFullTrack _ _).toStill)

theorem atBoundary_same (D : Drive) : D.Same D.atBoundary := by
  unfold Drive.atBoundary
  dsimp only
  refine Drive.Same.trans ?_ (takeConfirmSector_same _)
  refine Drive.Same.trans ?_ (scanGates_same _)
  exact ⟨rfl, rfl, rfl, rfl, rfl, rfl⟩

theorem still_headerGap (s : State) (d : DriveId) : Still s (s.headerGap d) := by
  unfold State.headerGap
  split
  · exact .refl s
  · split
    · exact (keeps_openGap s d).toStill
    · exact .refl s

theorem still_setupEvent (s : State) (d : DriveId) : Still s (s.setupEvent d) := by
  unfold State.setupEvent
  dsimp only
  split
  · have h := (still_setup s d).trans (keeps_arbitrate _).toStill
    split
    · exact h.trans ((keeps_missClaim _ _).toStill)
    · exact h
  · exact .refl s

/-- What a boundary does after the counters have advanced. -/
theorem still_atBoundary (s : State) (d : DriveId) :
    Still s ((((s.modDrive d Drive.atBoundary).setupEvent d).headerGap d).pathBoundary d) := by
  refine Still.trans ?_ ((keeps_pathBoundary _ _).toStill)
  refine Still.trans ?_ (still_headerGap _ _)
  refine Still.trans ?_ (still_setupEvent _ _)
  exact .same _ _ _ (atBoundary_same _)

theorem steady_boundary (s : State) (d : DriveId) (index : Bool) : Steady s (s.boundary d index) := by
  unfold State.boundary
  dsimp only
  have h := (still_forceDue s d).toSteady.trans (steady_advance _ d index)
  refine Steady.trans ?_ (still_atBoundary _ _).toSteady
  split
  · exact h.trans (still_indexWork _ _).toSteady
  · exact h

theorem steady_tick (s : State) (d : DriveId) (index : Bool) : Steady s (s.tick d index) := by
  unfold State.tick
  split
  · exact .refl s
  · exact steady_boundary s d index

theorem still_revolutionPulse (s : State) : Still s s.revolutionPulse := by
  unfold State.revolutionPulse
  split
  · exact still_countLosses s
  · exact .refl s

/-! ### Relocation steps and timers -/

theorem keeps_completeStep (s : State) (k : PathId) (r : Record) : Keeps s (s.completeStep k r) := by
  unfold State.completeStep
  refine Keeps.trans ?_ (.modRu _ _)
  refine Keeps.trans ?_ (.freeRequest _ _)
  exact ((keeps_leaveDrive s _).trans (keeps_releasePath _ _))

theorem still_setRecorded (s : State) (d : DriveId) (x : Recorded) : Still s (s.setRecorded d x) :=
  .same s d _ ⟨rfl, rfl, rfl, rfl, rfl, rfl⟩

theorem still_headerStepDone (s : State) (d : DriveId) (w : Bool) : Still s (s.headerStepDone d w) := by
  unfold State.headerStepDone
  split
  · split
    · dsimp only
      refine Still.trans ?_ (still_headerResult _ _)
      refine Still.trans ?_ ((keeps_completeStep _ _ _).toStill)
      split
      · exact still_setRecorded s _ _
      · exact .refl s
    · exact .refl s
  · exact .refl s

theorem still_trackReadDone (s : State) (d : DriveId) (reads : List (List SectorRead)) :
    Still s (s.trackReadDone d reads) := by
  unfold State.trackReadDone
  dsimp only
  split
  · split
    · exact ((keeps_giveOffset s _ _).toStill.trans ((keeps_completeStep _ _ _).toStill)).trans ((keeps_readResult _ _).toStill)
    · exact .refl s
  · exact .refl s

theorem still_trackWriteDone (s : State) (d : DriveId) : Still s (s.trackWriteDone d) := by
  unfold State.trackWriteDone
  split
  · split
    · dsimp only
      refine Still.trans ?_ ((keeps_writeResult _).toStill)
      refine Still.trans ?_ ((keeps_completeStep _ _ _).toStill)
      split
      · exact still_setRecorded s _ _
      · exact .refl s
    · exact .refl s
  · exact .refl s

theorem still_trackVerifyDone (s : State) (d : DriveId) (reads : List SectorRead) :
    Still s (s.trackVerifyDone d reads) := by
  unfold State.trackVerifyDone
  split
  · split
    · exact ((keeps_completeStep s _ _).toStill).trans ((keeps_verifyResult _ _).toStill)
    · exact .refl s
  · exact .refl s

theorem still_progressExpired (s : State) : Still s s.progressExpired := .modRu s _

theorem still_suspensionExpired (s : State) : Still s s.suspensionExpired := by
  unfold State.suspensionExpired
  split
  · exact (keeps_resume s).toStill
  · exact .refl s

theorem still_resumeIdle (s : State) : Still s s.resumeIdle := by
  unfold State.resumeIdle
  split
  · exact (keeps_resume s).toStill
  · exact .refl s

end Sys2Proof.Machine
end

