-- ==== Sys2Proof/Laws/Endings.lean ====
section
/-! SUPPORT. What an ending leaves in its port, what the point between steps and the clearing of a link leave of a map, and
where a scan goes on: one lemma each, cited in place of the definitions. -/

namespace Sys2Proof.Machine

set_option Elab.async false

/-! ### Records and ports -/

theorem request?_modRequest {s : State} {pos : Nat} {r : Record} (f : Record → Record) (hf : ∀ x, (f x).pos = x.pos)
    (h : s.request? pos = some r) : (s.modRequest pos f).request? pos = some (f r) := by
  unfold State.request? at h ⊢
  rw [records_modRequest, List.find?_map]
  have e : (fun r : Record => r.pos == pos) ∘ (fun r => if r.pos == pos then f r else r) = fun r => r.pos == pos := by
    funext x
    simp only [Function.comp]
    split <;> simp_all
  rw [e, h]
  have := List.find?_some h
  simp_all

theorem port_congr {s t : State} (h : t.ports = s.ports) (p : PortId) : t.port p = s.port p := by
  unfold State.port; rw [h]

theorem ownConnection_congr {s t : State} (h1 : t.ports = s.ports) (h2 : t.paths = s.paths) (p : PortId) (pos : Nat) :
    t.ownConnection p pos = s.ownConnection p pos := by
  unfold State.ownConnection State.pathOf State.path State.port; rw [h1, h2]

theorem clearDrive_same (s : State) (pos : Nat) :
    (s.clearDrive pos).ports = s.ports ∧ (s.clearDrive pos).paths = s.paths
      ∧ (s.clearDrive pos).records = s.records := by
  unfold State.clearDrive; split <;> exact ⟨rfl, rfl, rfl⟩

theorem port_closeGates? (s : State) (d : Option DriveId) (p : PortId) : (s.closeGates? d).port p = s.port p := by
  unfold State.closeGates?; split <;> rfl

theorem statusQueue_releasePath (s : State) (k : PathId) (p : PortId) :
    ((s.releasePath k).port p).statusQueue = (s.port p).statusQueue := by
  have a : ∀ s : State, ((s.disconnect k).port p).statusQueue = (s.port p).statusQueue := by
    intro s
    unfold State.disconnect
    split
    · rfl
    · split
      · rw [port_modPort]; split <;> simp_all
      · rfl
  have b : ∀ s : State, ((s.withdrawAsk k).port p).statusQueue = (s.port p).statusQueue := by
    intro s
    unfold State.withdrawAsk
    split
    · rfl
    · rw [port_modPort]; split <;> simp_all
  unfold State.releasePath
  simp only [port_modPath, port_closeGates?, a, b]
  split <;> rfl

/-! ### The ending status -/

/-- An ending status once in a queue stays there while the queue does. -/
theorem State.endedWith.of_queue {s t : State} {p : PortId} {r : Record} {st : Status} (e : s.endedWith p r st)
    (h : (t.port p).statusQueue = (s.port p).statusQueue) : t.endedWith p r st := by
  unfold State.endedWith at *; rw [h]; exact e

/-- A request of a port that is not connected to it goes on so where port, holders and record stay in these parts. -/
theorem State.endsQueued.congr {s t : State} {p : PortId} {r x : Record} (h : s.endsQueued p r) (hp : t.port p = s.port p)
    (hk : ∀ k, (t.path k).holder = (s.path k).holder) (hx : t.request? r.pos = some x) (hs : r.Same x)
    (he : x.ended = false) (hd : x.detached = false) : t.endsQueued p x := by
  obtain ⟨_, h2, _, _, h5, h6⟩ := h
  have e : t.pathOf r.pos = s.pathOf r.pos := by unfold State.pathOf; simp only [hk]
  refine ⟨by rw [hs.pos]; exact hx, by rw [hs.source, h2], he, hd, by rw [hp]; exact h5, ?_⟩
  unfold State.ownConnection at h6 ⊢
  rw [hs.pos, e, hp]; exact h6

/-- The port link appends the ending status of a request that is not connected. -/
theorem endedWith_issueStatus {s : State} {p : PortId} {r : Record} (h : s.endsQueued p r) (i : EndInfo)
    (hi : i.residual = r.total - r.done) (ha : i.address = r.addressAt r.done) :
    (s.issueStatus r.pos i).endedWith p r i.status := by
  obtain ⟨h1, h2, h3, h4, h5, h6⟩ := h
  unfold State.issueStatus
  rw [h1]
  simp only [h2, h3, h4, h6]
  simp only [Bool.false_eq_true, if_false, Bool.false_or, beq_iff_eq, h5]
  refine ⟨r.statusEntry i, ?_, rfl, rfl, rfl, rfl, hi, ha⟩
  unfold State.passStatus State.setReport
  simp only [State.appendStatus]
  split
  · split <;> simp
  · simp

/-- An ending of a request that is not connected leaves its status in the port's queue. -/
theorem endedWith_endRequest {s : State} {p : PortId} {r : Record} (h : s.endsQueued p r) (i : EndInfo)
    (hi : i.residual = r.total - r.done) (ha : i.address = r.addressAt r.done) :
    (s.endRequest r.pos i).endedWith p r i.status := by
  obtain ⟨a, b, c⟩ := clearDrive_same s r.pos
  have key : (s.leaveDrive r.pos).endsQueued p r := by
    obtain ⟨h1, h2, h3, h4, h5, h6⟩ := h
    refine ⟨?_, h2, h3, h4, ?_, (ownConnection_congr (t := s.leaveDrive r.pos) a b _ _).trans h6⟩
    · unfold State.request? State.leaveDrive; simp only [c]; exact h1
    · unfold State.leaveDrive State.port; simp only [a]; exact h5
  have key := endedWith_issueStatus key i hi ha
  unfold State.endRequest
  generalize (s.leaveDrive r.pos).issueStatus r.pos i = u at key
  dsimp only
  split
  · exact key
  · split
    · exact key.of_queue (statusQueue_releasePath _ _ _)
    · split
      · exact key.of_queue (by rw [port_modPath, port_closeGates?])
      · exact key.of_queue (statusQueue_releasePath _ _ _)

theorem infoHere_at (s : State) (r : Record) (st : Status) :
    (s.infoHere r st).residual = r.total - r.done ∧ (s.infoHere r st).address = r.addressAt r.done
      ∧ (s.infoHere r st).status = st := by
  unfold State.infoHere; split <;> exact ⟨rfl, rfl, rfl⟩

theorem endedWith_endHere {s : State} {p : PortId} {r : Record} (h : s.endsQueued p r) (st : Status) :
    (s.endHere r.pos st).endedWith p r st := by
  obtain ⟨a, b, c⟩ := infoHere_at s r st
  have e := endedWith_endRequest h _ a b
  unfold State.endHere
  rw [h.1]
  rwa [c] at e

/-- The linked request of an entry ends with its status in its port's queue. -/
theorem endedWith_endLinked {s : State} {p : PortId} {r : Record} (h : s.endsQueued p r) (st : Status) :
    (s.endLinked (some r.pos) st).endedWith p r st := by
  obtain ⟨a, b, c⟩ := infoHere_at s r st
  obtain ⟨h1, h2, h3, h4, h5, h6⟩ := h
  unfold State.endLinked State.endMapChange
  simp only [h1]
  have hu : ∀ u : State, u.records = s.records → u.ports = s.ports → u.paths = s.paths →
      (u.issueStatus r.pos (s.infoHere r st)).endedWith p r st := by
    intro u ur up uk
    have e := endedWith_issueStatus (s := u) (p := p) (r := r)
      ⟨by unfold State.request?; rw [ur]; exact h1, h2, h3, h4, by rw [port_congr up]; exact h5,
        (ownConnection_congr up uk _ _).trans h6⟩ _ a b
    rwa [c] at e
  apply hu <;> (split <;> rfl)

/-! ### Attention -/

theorem attend_same (s : State) (d : DriveId) :
    (s.attend d).drives = s.drives ∧ (s.attend d).ru = s.ru ∧ (s.attend d).stalled = s.stalled
      ∧ (s.attend d).workList = s.workList ∧ (s.attend d).buffer = s.buffer := by
  simp [State.attend, allPorts, State.modPort]

theorem mem_attention_attend (s : State) (d : DriveId) (p : PortId) (h : (s.port p).state ≠ .lost) :
    d ∈ ((s.attend d).port p).attention := by
  cases p <;> simp [State.attend, allPorts, port_modPort, h, mem_insertDrive]

theorem statusQueue_attend (s : State) (d : DriveId) (p : PortId) :
    ((s.attend d).port p).statusQueue = (s.port p).statusQueue := by
  cases p <;> simp [State.attend, allPorts, port_modPort] <;> split <;> rfl

/-! ### Maps and the relocation unit -/

theorem home_of_entry? {s : State} {d : DriveId} {home : Track} {e : MapEntry} (h : s.entry? d home = some e) :
    e.home = home := by
  have := List.find?_some h
  simpa using this

theorem entry?_modEntry {s : State} {d : DriveId} {home : Track} {e : MapEntry} (f : MapEntry → MapEntry)
    (hf : (f e).home = home) (h : s.entry? d home = some e) : (s.modEntry d home f).entry? d home = some (f e) := by
  have go : ∀ l : List MapEntry, l.find? (fun e => e.home == home) = some e →
      (l.map fun e => if e.home == home then f e else e).find? (fun e => e.home == home) = some (f e) := by
    intro l
    induction l with
    | nil => simp
    | cons x xs ih =>
      intro h
      simp only [List.map_cons, List.find?_cons] at h ⊢
      by_cases hx : x.home == home
      · simp only [hx, if_true] at h ⊢
        obtain rfl : x = e := by simpa using h
        simp [hf]
      · simp only [hx, if_false, Bool.false_eq_true] at h ⊢
        exact ih (by simpa using h)
  unfold State.entry? State.modEntry at *
  rw [drive_modDrive_same]; exact go _ h

theorem pool_modEntry (s : State) (d e : DriveId) (home : Track) (f : MapEntry → MapEntry) :
    ((s.modEntry d home f).drive e).pool = (s.drive e).pool := by
  unfold State.modEntry; rw [drive_modDrive]; split <;> simp_all

theorem entry?_setSpare? (s : State) (d e : DriveId) (t : Option Track) (st : SpareState) (home : Track) :
    (s.setSpare? d t st).entry? e home = s.entry? e home := by
  unfold State.setSpare?
  split
  · rfl
  · exact entry?_setSpare _ _ _ _ _ _

theorem pool_setSpare? (s : State) (d : DriveId) (t : Option Track) (st : SpareState) :
    ((s.setSpare? d t st).drive d).pool = t.elim (s.drive d).pool fun t => setPool t st (s.drive d).pool := by
  unfold State.setSpare?
  split
  · rfl
  · simp [State.setSpare]

/-- The point between steps touches the unit, its buffer and the store alone. -/
theorem ruPoint_same (s : State) :
    s.ruPoint.drives = s.drives ∧ s.ruPoint.ports = s.ports ∧ s.ruPoint.paths = s.paths
      ∧ s.ruPoint.stalled = s.stalled ∧ s.ruPoint.workList = s.workList := by
  unfold State.ruPoint State.restartCheck State.toSource State.placeNext State.handStep State.admitStep State.modRu
  repeat' split
  all_goals (try (dsimp only; repeat' split))
  all_goals (exact ⟨rfl, rfl, rfl, rfl, rfl⟩)

/-- REJECT-TARGET is never put off by a restart. -/
theorem toStage_rejectTarget (s : State) :
    (s.toStage .rejectTarget).ru.stage = some .rejectTarget ∧ (s.toStage .rejectTarget).ru.spare = s.ru.spare
      ∧ (s.toStage .rejectTarget).ru.verifyFailures = s.ru.verifyFailures := by
  unfold State.toStage State.ruPoint State.restartCheck State.placeNext State.handStep State.admitStep State.modRu
  dsimp only
  repeat' split
  all_goals simp_all

theorem issueStatus_same (s : State) (pos : Nat) (i : EndInfo) :
    (s.issueStatus pos i).drives = s.drives ∧ (s.issueStatus pos i).ru = s.ru
      ∧ (s.issueStatus pos i).workList = s.workList ∧ (s.issueStatus pos i).stalled = s.stalled
      ∧ (s.issueStatus pos i).buffer = s.buffer ∧ (s.issueStatus pos i).paths = s.paths := by
  unfold State.issueStatus State.passStatus State.setReport State.presentStatus State.appendStatus State.freeRequest
    State.modRequest State.modPort
  repeat' split
  all_goals (try (dsimp only; repeat' split))
  all_goals (exact ⟨rfl, rfl, rfl, rfl, rfl, rfl⟩)

/-! ### Paths after the arbiter -/

theorem paths_admitWaiting (s : State) : s.admitWaiting.paths = s.paths := by
  unfold State.admitWaiting State.admitStep
  split
  · split <;> rfl
  · rfl

theorem paths_endLinked (s : State) (l : Option Nat) (st : Status) : (s.endLinked l st).paths = s.paths := by
  unfold State.endLinked
  split
  · rfl
  · unfold State.endMapChange
    split
    · rfl
    · refine (issueStatus_same _ _ _).2.2.2.2.2.trans ?_
      split <;> rfl

theorem paths_allocate (s : State) (ref : EntryRef) (f : State → State) (h : ∀ s, (f s).paths = s.paths) :
    (s.allocate ref f).paths = s.paths := by
  unfold State.allocate
  split
  · exact h _
  · unfold State.stallEntry
    refine (paths_endLinked _ _ _).trans ?_
    simp only [State.appendStalled, State.modEntry, State.attend, allPorts, State.modPort, State.modDrive, List.foldl]
    split <;> rfl

theorem paths_takeEntry (s : State) (ref : EntryRef) : (s.takeEntry ref).paths = s.paths := by
  have h : ∀ t : State, ((t.toSource ref).ruPoint).paths = t.paths := by
    intro t
    refine (ruPoint_same _).2.2.1.trans ?_
    unfold State.toSource
    split <;> rfl
  unfold State.takeEntry
  dsimp only
  split
  · rfl
  · split
    · exact paths_allocate _ _ _ h
    · split
      · exact paths_allocate _ _ _ h
      · split
        · exact (ruPoint_same _).2.2.1
        · rfl

theorem paths_takeLoop (n : Nat) (s : State) : (State.takeLoop n s).paths = s.paths := by
  induction n generalizing s with
  | zero => rfl
  | succ n ih =>
    unfold State.takeLoop
    split
    · split
      · exact (ih _).trans (paths_takeEntry _ _)
      · rfl
    · rfl

theorem paths_settleUnit (s : State) : s.settleUnit.paths = s.paths := by
  have a : ∀ s : State, s.passHeldPoint.paths = s.paths := by
    intro s
    unfold State.passHeldPoint
    split
    · split
      · exact (ruPoint_same _).2.2.1
      · rfl
    · rfl
  have b : ∀ s : State, s.placeRestore.paths = s.paths := by
    intro s
    unfold State.placeRestore State.handStep State.admitStep
    split
    · split
      · split <;> rfl
      · rfl
    · rfl
  unfold State.settleUnit State.takeNow
  rw [paths_takeLoop, b, a, paths_admitWaiting]

theorem paths_settleChoices (s : State) : s.settleChoices.paths = s.paths := by
  have a : ∀ s : State, s.chooseAll.paths = s.paths := by
    have one : ∀ (s : State) (d : DriveId), (s.chooseFor d).paths = s.paths := by
      intro s d
      unfold State.chooseFor State.commitChoice
      dsimp only
      split
      · split <;> rfl
      · rfl
    intro s
    simp only [State.chooseAll, allDrives, List.foldl, one]
  have b : ∀ s : State, s.resumeIfDue.paths = s.paths := by
    intro s
    unfold State.resumeIfDue
    split
    · exact (ruPoint_same _).2.2.1
    · rfl
  unfold State.settleChoices
  rw [a, paths_admitWaiting, b, a]

/-- Nothing after the arbiter frees a path or takes one. -/
theorem paths_settle (s : State) : s.settle.paths = s.settlePaths.paths := by
  have a : ∀ s : State, s.offerAll.paths = s.paths := fun s => rfl
  unfold State.settle
  rw [a, paths_settleChoices, paths_settleUnit]

/-! ### The scan -/

theorem scanTo_drive (s : State) (d : DriveId) (j : ScanJob) (t : Track) (l r : List Track) :
    ((s.scanTo d j t l r).drive d).map = (s.drive d).map ∧ ((s.scanTo d j t l r).drive d).pool = (s.drive d).pool
      ∧ ((s.scanTo d j t l r).drive d).state = (s.drive d).state
      ∧ ((s.scanTo d j t l r).drive d).scan = some ⟨j, t, l, r, (s.drive d).cyl == some t.cyl, none, false⟩ := by
  unfold State.scanTo Drive.scanGates; rw [drive_modDrive_same]; dsimp only; split <;> simp

theorem scansOn_scanRebuild (s : State) (D : Drive) (d : DriveId) (l : List Track) (hs : (s.drive d).state = .scanning)
    (hc : (s.drive d).cyl = D.cyl) :
    D.scansOn ((s.scanRebuild d l).drive d) [] l ∧ ((s.scanRebuild d l).drive d).map = (s.drive d).map
      ∧ ((s.scanRebuild d l).drive d).pool = (s.drive d).pool := by
  unfold State.scanRebuild
  cases l with
  | nil =>
    have e : ∀ t : State, (t.attend d).drive d = t.drive d := fun t => by unfold State.drive; rw [(attend_same t d).1]
    simp [State.scanComplete, State.enterReady, e, Drive.scansOn]
  | cons t rest =>
    obtain ⟨a, b, c, e⟩ := scanTo_drive s d .rebuild t [] rest
    exact ⟨⟨c.trans hs, by rw [e, hc]⟩, a, b⟩

theorem scansOn_scanDiscard (s : State) (D : Drive) (d : DriveId) (l : List Track) (hs : (s.drive d).state = .scanning)
    (hc : (s.drive d).cyl = D.cyl) :
    D.scansOn ((s.scanDiscard d l).drive d) l (activeAlternates (s.drive d).map)
      ∧ ((s.scanDiscard d l).drive d).map = (s.drive d).map
      ∧ ((s.scanDiscard d l).drive d).pool = (s.drive d).pool := by
  unfold State.scanDiscard
  cases l with
  | nil => exact scansOn_scanRebuild s D d _ hs hc
  | cons t rest =>
    obtain ⟨a, b, c, e⟩ := scanTo_drive s d .discard t rest []
    exact ⟨⟨c.trans hs, by rw [e, hc]⟩, a, b⟩

/-- The end of an event leaves where a scan stands. -/
theorem scansOn_settle {D : Drive} (s : State) (d : DriveId) (l a : List Track) (h : D.scansOn (s.drive d) l a) :
    D.scansOn (s.settle.drive d) l a := by
  have k := (keeps_settle s).drive d
  simp only [Drive.kept, Drive.mk.injEq] at k
  unfold Drive.scansOn at *
  simp_all

end Sys2Proof.Machine
end

