-- ==== Sys2Proof/Laws/Orders.lean ====
section
/-! SUPPORT. Orders and resets: when the check sequence passes an order, what an accepted order does to the store, the
locks and the parameters, and that the invariants of Safety.lean stand after each of them. -/

namespace Sys2Proof.Machine

set_option Elab.async false

/-! ### The check sequence -/

theorem refuseIf_eq_none {c : Bool} {x : AcceptCode} : refuseIf c x = none ↔ c = false := by
  cases c <;> simp [refuseIf]

theorem orElse_eq_none {α : Type} {a b : Option α} : (a <|> b) = none ↔ a = none ∧ b = none := by
  cases a <;> simp

/-- An order to a drive passes steps 3 to 9 exactly when it passes each of them. -/
theorem checkDrive_eq_none {s : State} {p : PortId} {tag : Byte} {d : DriveId} {o : DriveOrder} :
    s.checkDrive p tag d o = none ↔
      checkDriveState o (s.drive d).state = none
        ∧ (checksLock o && heldElsewhere (s.drive d).lock p) = false
        ∧ s.lockLostMark p d = false
        ∧ (o != .report && (s.reportOf p d).isSome) = false
        ∧ (DriveOrder.isQueued o && s.tagInUse p tag) = false
        ∧ (DriveOrder.isQueued o && s.noRoom p d o) = false
        ∧ s.checkSpecific p tag d o = none := by
  unfold State.checkDrive
  dsimp only
  simp only [orElse_eq_none, refuseIf_eq_none]

/-- A queued order that passes finds the store, its port's count and, where it enters it, the drive's queue below their
limits (R46). -/
theorem room_of_checkDrive {s : State} {p : PortId} {tag : Byte} {d : DriveId} {o : DriveOrder}
    (h : s.checkDrive p tag d o = none) (hq : DriveOrder.isQueued o = true) :
    s.records.length < Config.storeSize ∧ (s.outstanding p).length < Config.portLimit
      ∧ (entersQueue o (s.drive d).state = true → s.queueCount d < Config.queueLimit) := by
  have hr := (checkDrive_eq_none.1 h).2.2.2.2.2.1
  simp only [hq, Bool.true_and, State.noRoom, Bool.or_eq_false_iff, decide_eq_false_iff_not, Nat.not_le] at hr
  exact ⟨hr.1.1, hr.2, fun he => by simpa [he] using hr.1.2⟩

/-! ### The invariants -/

/-- What every command keeps: each invariant of Safety.lean, from the state before to the state after. -/
structure Sound (s t : State) : Prop where
  params : s.paramsInRange → t.paramsInRange
  store : s.storeWithin → t.storeWithin
  ordered : s.recordsOrdered → t.recordsOrdered
  drives : s.drivesInBounds → t.drivesInBounds

theorem Steady.sound {s t : State} (h : Steady s t) : Sound s t where
  params x := ⟨by rw [h.params]; exact x.1, fun p => by rw [h.threshold p]; exact x.2 p⟩
  store x := ⟨h.store x.1, fun p => by
    have l := (h.outstanding p).length_le
    simp only [List.length_map] at l
    exact Nat.le_trans l (x.2.1 p), fun d => h.queued d (x.2.2 d)⟩
  ordered := h.ordered
  drives x d := h.bounds d (x d)

/-- A still operation is sound. -/
theorem Still.sound {s t : State} (h : Still s t) : Sound s t := h.toSteady.sound

theorem Sound.trans {s t u : State} (h : Sound s t) (g : Sound t u) : Sound s u where
  params x := g.params (h.params x)
  store x := g.store (h.store x)
  ordered x := g.ordered (h.ordered x)
  drives x := g.drives (h.drives x)

theorem Sound.refl (s : State) : Sound s s := (Still.refl s).sound

/-- A change of a port that keeps its read threshold. -/
theorem Sound.modPort (s : State) (p : PortId) (f : Port → Port)
    (h : (f (s.port p)).threshold = (s.port p).threshold) : Sound s (s.modPort p f) where
  params x := ⟨x.1, fun q => by
    rw [port_modPort]
    split
    · rw [h]; exact x.2 p
    · exact x.2 q⟩
  store := id
  ordered := id
  drives := id

/-- A change of a drive that keeps it in its bounds. -/
theorem Sound.modDrive (s : State) (d : DriveId) (f : Drive → Drive)
    (h : (s.drive d).inBounds → (f (s.drive d)).inBounds) : Sound s (s.modDrive d f) where
  params := id
  store := id
  ordered := id
  drives x e := by
    rw [drive_modDrive]
    split
    · rename_i he
      exact h (x d)
    · exact x e

theorem Sound.foldl {α : Type} (f : State → α → State) (h : ∀ s a, Sound s (f s a)) (l : List α) (s : State) :
    Sound s (l.foldl f s) := by
  induction l generalizing s with
  | nil => exact .refl s
  | cons a l ih => exact (h s a).trans (ih _)

/-! ### The effects of orders -/

theorem outstanding_addRequest (s : State) (p q : PortId) (tag : Byte) (d : DriveId) (k : Kind) (es : List Extent)
    (t : Option Track) (st : RecState) :
    ((s.addRequest p tag d k es t st).outstanding q).length
      = (s.outstanding q).length + (if p = q then 1 else 0) := by
  by_cases h : p = q
  · simp [State.addRequest, State.outstanding, Record.outstandingFor, hostRecord, h]
  · simp [State.addRequest, State.outstanding, Record.outstandingFor, hostRecord, h]

theorem sound_addRequest (s : State) (p : PortId) (tag : Byte) (d : DriveId) (k : Kind) (es : List Extent)
    (t : Option Track) (st : RecState) (hs : s.records.length < Config.storeSize)
    (hp : (s.outstanding p).length < Config.portLimit)
    (hq : (hostRecord s.nextPos p tag d k es t st).listed = true → s.queueCount d < Config.queueLimit) :
    Sound s (s.addRequest p tag d k es t st) where
  params := id
  store x := by
    refine ⟨?_, fun q => ?_, fun e => queueCount_append (fun h => ?_) (x.2.2 e)⟩
    · simp only [State.addRequest, List.length_append, List.length_cons, List.length_nil]
      exact hs
    · rw [outstanding_addRequest]
      split
      · rename_i h
        exact h ▸ hp
      · exact x.2.1 q
    · simp only [Record.inQueueCount, Bool.and_eq_true, beq_iff_eq] at h
      have hd : d = e := h.1.1
      exact hd ▸ hq h.1.2
  ordered x := recordsOrdered_append s _ rfl x
  drives := id

theorem entry?_addRequest (s : State) (p : PortId) (tag : Byte) (d e : DriveId) (k : Kind) (es : List Extent)
    (t : Option Track) (st : RecState) (home : Track) :
    (s.addRequest p tag d k es t st).entry? e home = s.entry? e home := rfl

theorem sound_acceptCalibrate (s : State) (p : PortId) (tag : Byte) (d : DriveId)
    (hs : s.records.length < Config.storeSize) (hp : (s.outstanding p).length < Config.portLimit)
    (hq : (s.drive d).state ≠ .faulted → s.queueCount d < Config.queueLimit) :
    Sound s (s.acceptCalibrate p tag d) := by
  unfold State.acceptCalibrate
  split
  · exact (sound_addRequest s p tag d .calibrate [] none .seeking hs hp nofun).trans (.modDrive _ _ _ id)
  · rename_i h
    exact sound_addRequest s p tag d .calibrate [] none .queued hs hp fun _ => hq (by simpa using h)

theorem still_dropStalled (s : State) (r : EntryRef) : Still s (s.dropStalled r) := .of_eq rfl rfl rfl rfl rfl

theorem sound_acceptDeclare (s : State) (p : PortId) (tag : Byte) (d : DriveId) (nc : Bool) (t : Track)
    (hs : s.records.length < Config.storeSize) (hp : (s.outstanding p).length < Config.portLimit) :
    Sound s (s.acceptDeclare p tag d nc t) := by
  have h := sound_addRequest s p tag d (.mapChange .declare nc) [] (some t) .queued hs hp nofun
  unfold State.acceptDeclare
  dsimp only
  split
  · rename_i he
    exact h.trans ((still_addEntry _ _ _ he).trans ((keeps_appendWork _ _).toStill)).sound
  · split
    · exact h.trans (((keeps_modEntry _ _ _ _).toStill.trans (still_dropStalled _ _)).trans
        ((keeps_appendWork _ _).toStill)).sound
    · exact h.trans ((keeps_modEntry _ _ _ _).toStill.trans ((keeps_appendWork _ _).toStill)).sound

theorem sound_acceptRetire (s : State) (p : PortId) (tag : Byte) (d : DriveId) (t : Track)
    (hs : s.records.length < Config.storeSize) (hp : (s.outstanding p).length < Config.portLimit) :
    Sound s (s.acceptRetire p tag d t) := by
  have h := sound_addRequest s p tag d (.mapChange .retire false) [] (some t) .queued hs hp nofun
  exact h.trans ((keeps_modEntry _ _ _ _).toStill.trans ((keeps_appendWork _ _).toStill)).sound

theorem still_markCancel (s : State) (pos : Nat) : Still s (s.markCancel pos) :=
  .modRequest s pos _ fun _ => ⟨rfl, rfl, id, rfl, rfl, id⟩

theorem still_acceptCancel (s : State) (p : PortId) (tag : Byte) : Still s (s.acceptCancel p tag) := by
  unfold State.acceptCancel
  split
  · exact .refl s
  · split
    · exact (keeps_endHere s _ _).toStill
    · split
      · split
        · exact still_markCancel s _
        · exact (keeps_endStopped s _ _).toStill
      · split
        · exact still_markCancel s _
        · exact (keeps_endStopped s _ _).toStill
      · exact still_markCancel s _

theorem sound_setLock (s : State) (d : DriveId) (h : Option PortId) : Sound s (s.setLock d h) := .modDrive s d _ id

theorem sound_setLockLost (s : State) (p : PortId) (d : DriveId) (m : Bool) : Sound s (s.setLockLost p d m) :=
  .modPort s p _ rfl

theorem sound_acceptSeize (s : State) (p : PortId) (d : DriveId) : Sound s (s.acceptSeize p d) := by
  unfold State.acceptSeize
  split
  · exact (sound_setLockLost s _ _ _).trans (sound_setLock _ _ _)
  · exact sound_setLock s _ _

/-- A clamped field lies in its range (R62). -/
theorem clampField_mem {lo hi old : Nat} (f : Option Byte) (hl : lo ≤ hi) (h : lo ≤ old ∧ old ≤ hi) :
    lo ≤ clampField lo hi old f ∧ clampField lo hi old f ≤ hi := by
  cases f with
  | none => exact h
  | some b => exact ⟨Nat.le_max_left _ _, Nat.max_le.2 ⟨hl, Nat.min_le_left _ _⟩⟩

theorem sound_setThreshold (s : State) (p : PortId) (f : Option Byte) : Sound s (s.setThreshold p f) where
  params x := ⟨x.1, fun q => by
    unfold State.setThreshold
    rw [port_modPort]
    split
    · exact clampField_mem f (by decide) (x.2 p)
    · exact x.2 q⟩
  store := id
  ordered := id
  drives := id

theorem params_after_inRange (q : Params) (f : ParameterFields) (h : q.inRange) : (q.after f).inRange := by
  obtain ⟨h1, h2, h3, h4, h5, h6⟩ := h
  exact ⟨(clampField_mem f.reversal (by decide) ⟨Nat.zero_le _, h1⟩).2,
    (clampField_mem f.softThreshold (by decide) ⟨h2, h3⟩).1, (clampField_mem f.softThreshold (by decide) ⟨h2, h3⟩).2,
    (clampField_mem f.progressInterval (by decide) ⟨h4, h5⟩).1,
    (clampField_mem f.progressInterval (by decide) ⟨h4, h5⟩).2,
    (clampField_mem f.priority (by decide) ⟨Nat.zero_le _, h6⟩).2⟩

theorem sound_acceptParameters (s : State) (f : ParameterFields) : Sound s (s.acceptParameters f) := by
  unfold State.acceptParameters
  have h : Sound s { s with params := s.params.after f } :=
    ⟨fun x => ⟨params_after_inRange _ f x.1, x.2⟩, id, id, id⟩
  exact (((h.trans (sound_setThreshold _ _ _)).trans (sound_setThreshold _ _ _)).trans (sound_setThreshold _ _ _)).trans
    (sound_setThreshold _ _ _)

/-- An order to a drive that passed the checks keeps the invariants. -/
theorem sound_acceptDrive (s : State) (p : PortId) (tag : Byte) (d : DriveId) (o : DriveOrder)
    (h : s.checkDrive p tag d o = none) : Sound s (s.acceptDrive p tag d o) := by
  have room (hq : DriveOrder.isQueued o = true) := room_of_checkDrive h hq
  have queued (k : Kind) (es : List Extent) (t : Option Track) (hq : DriveOrder.isQueued o = true)
      (he : entersQueue o (s.drive d).state = true) : Sound s (s.addRequest p tag d k es t .queued) :=
    sound_addRequest s p tag d k es t .queued (room hq).1 (room hq).2.1 fun _ => (room hq).2.2 he
  cases o
  case read es => exact queued _ _ _ rfl rfl
  case write es => exact queued _ _ _ rfl rfl
  case verify es => exact queued _ _ _ rfl rfl
  case position t => exact queued _ _ _ rfl rfl
  case calibrate =>
    refine sound_acceptCalibrate s p tag d (room rfl).1 (room rfl).2.1 fun hf => (room rfl).2.2 ?_
    have hs := (checkDrive_eq_none.1 h).1
    cases hd : (s.drive d).state <;> simp_all [checkDriveState, checksDriveState, DriveOrder.isQueued, entersQueue]
  case declare nc r t => exact sound_acceptDeclare s p tag d nc t (room rfl).1 (room rfl).2.1
  case retire t => exact sound_acceptRetire s p tag d t (room rfl).1 (room rfl).2.1
  case report => exact Sound.modPort s p (fun P => { P with reports := P.reports.set d.val none d.isLt }) rfl
  case cancel => exact (still_acceptCancel s p tag).sound
  case lock => exact sound_setLock s d _
  case unlock => exact sound_setLock s d _
  case seize => exact sound_acceptSeize s p d
  case mapQuery t => exact .refl s
  case mapList => exact .refl s
  case mapFreeze => exact .modDrive s d (fun D => { D with freeze := true }) id

theorem sound_answer (s : State) (p : PortId) (c : AcceptCode) (r : List Byte) : Sound s (s.answer p c r) :=
  .modPort s p _ rfl

theorem sound_takeOrder (s : State) (p : PortId) (b : OrderBlock) : Sound s (s.takeOrder p b) := by
  unfold State.takeOrder
  split
  · refine Sound.trans ?_ (sound_answer _ _ _ _)
    unfold State.refused
    split
    · split
      · exact sound_setLockLost s _ _ _
      · exact .refl s
    · exact .refl s
    · exact .refl s
  · rename_i h
    refine Sound.trans ?_ (sound_answer _ _ _ _)
    unfold State.acceptOrder
    unfold State.checkOrder at h
    split
    · rename_i hb
      rw [hb] at h
      exact sound_acceptDrive s p _ _ _ h
    · exact .refl s
    · exact sound_acceptParameters s _

theorem sound_orderTaken (s : State) (p : PortId) (b : OrderBlock) : Sound s (s.orderTaken p b) := by
  unfold State.orderTaken
  split
  · split
    · exact sound_takeOrder s p b
    · exact sound_answer s _ _ _
  · exact .refl s

theorem sound_blockTaken (s : State) (p : PortId) (l : List LineByte) : Sound s (s.blockTaken p l) := by
  unfold State.blockTaken
  split
  · split
    · exact sound_answer s _ _ _
    · split
      · exact sound_answer s _ _ _
      · split
        · exact sound_takeOrder s p _
        · exact sound_answer s _ _ _
  · exact .refl s

/-! ### Resets -/

theorem freeLockOf_inBounds (p : PortId) (D : Drive) (h : D.inBounds) : (D.freeLockOf p).inBounds := by
  unfold Drive.freeLockOf
  split <;> exact h

theorem still_dropWaiting (s : State) (p : PortId) : Still s (s.dropWaiting p) := by
  unfold State.dropWaiting
  dsimp only
  refine Still.trans ?_ (.modPort _ _ _ ⟨rfl, rfl⟩)
  exact .foldl _ (fun t k => .modPath t k _) _ s

theorem keeps_resetRequest (s : State) (pos : Nat) : Keeps s (s.resetRequest pos) := by
  unfold State.resetRequest
  split
  · exact .refl s
  · split
    · exact .freeRequest s pos
    · split
      · exact keeps_detach s pos
      · split
        · exact keeps_removeRequest s pos
        · split
          · split
            · exact (keeps_stopRequest s pos)
            · exact .modRequest s pos _ fun _ => ⟨rfl, rfl, fun _ => rfl, rfl, rfl, id⟩
          · exact keeps_detach s pos

theorem keeps_resetConnection (s : State) (c : Conn) : Keeps s (s.resetConnection c) := by
  unfold State.resetConnection
  split
  · exact keeps_releaseUnlessWriting s _
  · exact .modPath s _ _
  · exact .refl s
  · exact .refl s
  · exact .refl s

theorem sound_resetPort (s : State) (p : PortId) : Sound s (s.resetPort p) := by
  unfold State.resetPort
  dsimp only
  refine Sound.trans ?_ (Keeps.foldl _ keeps_resetRequest _ _).toStill.sound
  have h : Sound s (allDrives.foldl (fun t d => t.modDrive d (Drive.freeLockOf p))
      ((s.dropWaiting p).modPort p Port.afterReset)) := by
    refine Sound.trans ?_ (.foldl _ (fun t d => .modDrive t d _ (freeLockOf_inBounds p _)) _ _)
    exact (still_dropWaiting s p).sound.trans (.modPort _ _ _ rfl)
  split
  · exact h.trans ((keeps_resetConnection _ _).toStill).sound
  · exact h

theorem port_powerOn (s : State) (p : PortId) : s.powerOn.port p = { Port.reset with opLine := (s.port p).opLine } := by
  simp [State.powerOn, State.port, get_eq_getElem]

theorem drive_powerOn (s : State) (d : DriveId) :
    s.powerOn.drive d = { Drive.reset with
      readyLine := (s.drive d).readyLine, typeCode := (s.drive d).typeCode, faultLine := (s.drive d).faultLine } := by
  simp [State.powerOn, State.drive, get_eq_getElem]

theorem sound_powerOn (s : State) : Sound s s.powerOn where
  params _ := ⟨by simp [Params.inRange, State.powerOn, State.reset, Params.reset], fun p => by
    rw [port_powerOn]; exact (by decide : 1 ≤ 2 ∧ 2 ≤ 4)⟩
  store _ := ⟨Nat.zero_le _, fun _ => Nat.zero_le _, fun _ => Nat.zero_le _⟩
  ordered _ := ⟨List.Pairwise.nil, fun _ h => nomatch h⟩
  drives _ d := by
    rw [drive_powerOn]
    exact ⟨Nat.zero_lt_succ _, healthWithin_nil, mapWithin_nil⟩

theorem sound_powerOnReset (s : State) : Sound s s.powerOnReset := by
  unfold State.powerOnReset
  refine (sound_powerOn s).trans (Still.sound ?_)
  refine Still.trans ?_ (.foldl _ (fun t d => ?_) _ _)
  · refine .foldl _ (fun t p => ?_) _ _
    unfold State.lineIfHigh
    split
    · exact still_lineRise t p
    · exact .refl t
  · unfold State.readyIfHigh
    split
    · exact still_takeReady t d _
    · exact .refl t

end Sys2Proof.Machine
end

