-- ==== Sys2Proof/Laws/Exec.lean ====
section
/-! SUPPORT. Every command is one operation and then the end of the event: `effect` names that operation, and the lemmas say
how a command, an order and an answer meet the end of the event. -/

namespace Sys2Proof.Machine

set_option Elab.async false

/-- The operation of a command, before the end of the event. -/
def State.effect (s : State) : Instr → State
  | .powerOnReset => s.powerOnReset
  | .portReset p => s.resetPort p
  | .operationalLineFall p => s.lineFall p
  | .operationalLineRise p => s.lineRise p
  | .portLossTimerExpiry p => s.lossExpired p
  | .select p => s.modPort p Port.select
  | .orderBlockReceived p block => s.blockTaken p block
  | .read p d tag es => s.orderTaken p ⟨tag, .drive d (.read es)⟩
  | .write p d tag es => s.orderTaken p ⟨tag, .drive d (.write es)⟩
  | .verify p d tag es => s.orderTaken p ⟨tag, .drive d (.verify es)⟩
  | .position p d tag t => s.orderTaken p ⟨tag, .drive d (.position t)⟩
  | .calibrate p d tag => s.orderTaken p ⟨tag, .drive d .calibrate⟩
  | .declare p d tag noCopy replace t => s.orderTaken p ⟨tag, .drive d (.declare noCopy replace t)⟩
  | .retire p d tag t => s.orderTaken p ⟨tag, .drive d (.retire t)⟩
  | .report p d tag => s.orderTaken p ⟨tag, .drive d .report⟩
  | .cancel p d tag => s.orderTaken p ⟨tag, .drive d .cancel⟩
  | .lock p d tag => s.orderTaken p ⟨tag, .drive d .lock⟩
  | .unlock p d tag => s.orderTaken p ⟨tag, .drive d .unlock⟩
  | .seize p d tag => s.orderTaken p ⟨tag, .drive d .seize⟩
  | .mapQuery p d tag t => s.orderTaken p ⟨tag, .drive d (.mapQuery t)⟩
  | .mapList p d tag => s.orderTaken p ⟨tag, .drive d .mapList⟩
  | .mapFreeze p d tag => s.orderTaken p ⟨tag, .drive d .mapFreeze⟩
  | .stringStatus p tag => s.orderTaken p ⟨tag, .stringStatus⟩
  | .setParameters p tag f => s.orderTaken p ⟨tag, .setParameters f⟩
  | .answerTaken p => s.modPort p Port.answerTaken
  | .accept p => s.accepted p
  | .statusBlockTaken p => s.statusTaken p
  | .attentionBlockTaken p => s.attentionTaken p
  | .writeDataByte p b => s.giveWriteByte p b
  | .readDataByteTaken p => s.takeReadByte p
  | .reconnectWindowExpiry k => s.windowExpired k
  | .readyLineRise d code => s.readyRise d code
  | .readyLineFall d => s.readyFall d
  | .faultLineRise d => s.faultRise d
  | .seekTimerExpiry d => s.seekExpired d
  | .slotEvent d => s.tick d false
  | .indexEvent d => s.tick d true
  | .seekComplete d => s.seekCompleted d
  | .identConfirmation d i => s.confirmed d i
  | .claimMiss d => s.missClaim d
  | .sectorReadOutcome d r => s.sectorOutcome d r
  | .sectorWriteComplete d => s.writeSectorEnd d
  | .waitingStepAdmitted => s.admitWaiting
  | .commitPointWriteEnd => s.passHeldPoint
  | .progressTimerExpiry => s.progressExpired
  | .suspensionTimerExpiry => s.suspensionExpired
  | .relocationResume => s.resumeIdle
  | .headerStepComplete d w => s.headerStepDone d w
  | .trackReadStepComplete d reads => s.trackReadDone d reads
  | .trackWriteStepComplete d => s.trackWriteDone d
  | .trackVerifyStepComplete d reads => s.trackVerifyDone d reads
  | .scanHeaderRead d h => s.scanHeader d h
  | .scanDiscardWrite d _ => s.scanDiscarded d
  | .rebuildPass d reads => s.scanRebuilt d reads
  | .internalRevolutionPulse => s.revolutionPulse

/-- Every command is its operation and then the end of the event. -/
theorem exec_eq_effect (c : Instr) (s : State) : exec c s = .next (s.effect c).settle := by cases c <;> rfl

/-- The next state of a command. -/
theorem eq_of_exec {c : Instr} {s t : State} (h : exec c s = .next t) : t = (s.effect c).settle := by
  rw [exec_eq_effect] at h
  exact (Host.Outcome.next.inj h).symm

/-- An order's command takes the order. -/
theorem effect_command (p : PortId) (b : OrderBlock) (s : State) : s.effect (b.command p) = s.orderTaken p b := by
  obtain ⟨tag, o⟩ := b
  cases o with
  | drive d o => cases o <;> rfl
  | stringStatus => rfl
  | setParameters f => rfl

/-- An answer stands through the end of the event. -/
theorem answered_settle (s : State) (p : PortId) (c : AcceptCode) (l : List Byte) :
    ((s.answer p c l).settle).answered p (c.code :: l) := by
  have h := (keeps_settle (s.answer p c l)).calm p (by simp [State.answer, Port.dataConn])
  exact ⟨h.1.trans (by simp [State.answer]), h.2.trans (by simp [State.answer])⟩

theorem heldElsewhere_of_lockFreeFor {s : State} {p : PortId} {d : DriveId} (h : s.lockFreeFor p d) :
    heldElsewhere (s.drive d).lock p = false := by
  rcases h with h | h <;> simp [heldElsewhere, h]

/-- An order for a READY drive's queue passes steps 3 to 8 on the conditions of `takesQueued`. -/
theorem checkDrive_of_takesQueued {s : State} {p : PortId} {d : DriveId} {tag : Byte} (o : DriveOrder)
    (h : s.takesQueued p d tag) (hs : s.checkSpecific p tag d o = none) : s.checkDrive p tag d o = none := by
  obtain ⟨⟨⟨_, h2, h3⟩, h4, h5, h6, h7⟩, h8, h9⟩ := h
  refine checkDrive_eq_none.2 ⟨by simp [checkDriveState, h8], by simp [heldElsewhere_of_lockFreeFor h4], h2,
    by simp [h3], ?_, ?_, hs⟩
  · simp only [State.tagInUse, Bool.and_eq_false_iff, List.any_eq_false, beq_iff_eq]
    exact .inr h5
  · simp [State.noRoom, Nat.not_le.2 h6, Nat.not_le.2 h7, Nat.not_le.2 h9]

end Sys2Proof.Machine
end

