-- ==== Sys2Proof/WellFormed.lean ====
section
/-! DEFINITION. Well-formed commands: every operand within the width of the lines and fields that carry it, and every order
within the limits of form that step 2 checks (R42). Anything else the manual forbids is refused by the unit itself, as an
effect of the command. -/

namespace Sys2Proof

/-- Numbers of a two-byte and of a one-byte field (R195, R198). -/
def fits16 (n : Nat) : Bool := n < 65536
def fits8 (n : Nat) : Bool := n < 256

/-- A recorded ident's fields (R198). -/
def RawIdent.wf (i : RawIdent) : Bool := fits16 i.cyl && fits8 i.head && fits8 i.sector

/-- A recorded header's fields (R198). -/
def RawHeader.wf (h : RawHeader) : Bool := fits16 h.cyl && fits8 h.head && fits16 h.linkCyl && fits8 h.linkHead

/-- A read delivers a whole sector, or nothing where the data field is uncorrectable (R8). -/
def SectorRead.wf (r : SectorRead) : Bool :=
  r.ident.all RawIdent.wf &&
    (r.bytes.length == Config.sectorBytes || (r.data == .uncorrectable && r.bytes.isEmpty))

/-- The reads of a track, one for each sector (R124, R140). -/
def trackReadsWf (rs : List SectorRead) : Bool := rs.length == Config.sectors && rs.all SectorRead.wf

/-- The reads a track read step makes: for each sector one to seven (R123). -/
def stepReadsWf (rs : List (List SectorRead)) : Bool :=
  rs.length == Config.sectors
    && rs.all fun l => 1 ≤ l.length && l.length ≤ Config.attempts && l.all SectorRead.wf

/-- Well-formed commands. -/
def Instr.wf : Instr → Bool
  | .orderBlockReceived _ block => !block.isEmpty
  | .read _ _ _ es | .write _ _ _ es | .verify _ _ _ es => extentsOk es
  | .position _ _ _ t | .declare _ _ _ _ _ t | .retire _ _ _ t | .mapQuery _ _ _ t => trackOk t
  | .readyLineRise _ code => code < 4
  | .identConfirmation _ i => i.all RawIdent.wf
  | .sectorReadOutcome _ r => r.wf
  | .trackReadStepComplete _ rs => stepReadsWf rs
  | .trackVerifyStepComplete _ rs => trackReadsWf rs
  | .scanHeaderRead _ h => h.all RawHeader.wf
  | .rebuildPass _ rs => trackReadsWf rs
  | .powerOnReset | .portReset _ | .operationalLineFall _ | .operationalLineRise _ | .portLossTimerExpiry _
  | .select _ | .calibrate _ _ _ | .report _ _ _ | .cancel _ _ _ | .lock _ _ _ | .unlock _ _ _ | .seize _ _ _
  | .mapList _ _ _ | .mapFreeze _ _ _ | .stringStatus _ _ | .setParameters _ _ _ | .answerTaken _ | .accept _
  | .statusBlockTaken _ | .attentionBlockTaken _ | .writeDataByte _ _ | .readDataByteTaken _
  | .reconnectWindowExpiry _ | .readyLineFall _ | .faultLineRise _ | .seekTimerExpiry _ | .slotEvent _
  | .indexEvent _ | .seekComplete _ | .claimMiss _ | .sectorWriteComplete _ | .waitingStepAdmitted
  | .commitPointWriteEnd | .progressTimerExpiry | .suspensionTimerExpiry | .relocationResume
  | .headerStepComplete _ _ | .trackWriteStepComplete _ | .scanDiscardWrite _ _ | .internalRevolutionPulse => true

end Sys2Proof
end

