-- ==== Sys2Proof/Tests/Slice0.lean ====
section
/-! SUPPORT. The author's own tests: ill-formed commands that the check refuses, the manual's worked figures, order bytes
written out from the manual's formats, and a witness for the hypotheses of each statement. -/

namespace Sys2Proof.Tests

open Sys2Proof Sys2Proof.Machine

set_option Elab.async false

/-! ### Ill-formed commands -/

def anIdent : RawIdent := ⟨50, 3, 0, 0, true⟩
def aHeader : RawHeader := ⟨101, 0, 2, 1, 0, 0, 0, true⟩
def aRead : SectorRead := ⟨some anIdent, .agrees, zeroSector⟩

theorem test_wf_refuses_empty_block : Instr.wf (.orderBlockReceived .a []) = false := by decide
theorem test_wf_refuses_no_extent : Instr.wf (.read .a 0 0 []) = false := by decide
theorem test_wf_refuses_nine_extents : Instr.wf (.write .a 0 0 (List.replicate 9 ⟨0, 0, 0, 1⟩)) = false := by decide
theorem test_wf_refuses_head_12_in_extent : Instr.wf (.verify .a 0 0 [⟨0, 12, 0, 1⟩]) = false := by decide
theorem test_wf_refuses_sector_16 : Instr.wf (.read .a 0 0 [⟨0, 0, 16, 1⟩]) = false := by decide
theorem test_wf_refuses_empty_extent : Instr.wf (.read .a 0 0 [⟨0, 0, 0, 0⟩]) = false := by decide
theorem test_wf_refuses_head_12 : Instr.wf (.position .a 0 0 ⟨0, 12⟩) = false := by decide
theorem test_wf_refuses_wide_cylinder : Instr.wf (.retire .a 0 0 ⟨65536, 0⟩) = false := by decide
theorem test_wf_refuses_type_code_4 : Instr.wf (.readyLineRise 0 4) = false := by decide
theorem test_wf_refuses_wide_ident : Instr.wf (.identConfirmation 0 (some { anIdent with sector := 256 })) = false := by
  decide
theorem test_wf_refuses_wide_header : Instr.wf (.scanHeaderRead 0 (some { aHeader with linkCyl := 65536 })) = false := by
  decide
theorem test_wf_refuses_short_sector : Instr.wf (.sectorReadOutcome 0 { aRead with bytes := [0] }) = false := by
  decide +kernel
theorem test_wf_refuses_fifteen_reads : Instr.wf (.rebuildPass 0 (List.replicate 15 aRead)) = false := by decide +kernel
theorem test_wf_refuses_fifteen_sectors : Instr.wf (.trackReadStepComplete 0 (List.replicate 15 [aRead])) = false := by
  decide +kernel
theorem test_wf_refuses_sector_without_read : Instr.wf (.trackReadStepComplete 0 (List.replicate 16 [])) = false := by
  decide +kernel
theorem test_wf_refuses_eight_attempts :
    Instr.wf (.trackReadStepComplete 0 (List.replicate 16 (List.replicate 8 { aRead with data := .uncorrectable, bytes := [] })))
      = false := by decide +kernel
theorem test_wf_takes_a_track : Instr.wf (.trackVerifyStepComplete 0 (List.replicate 16 aRead)) = true := by
  decide +kernel

/-! ### Worked figures of the manual -/

theorem test_translation_examples :
    [0, 100, 101, 201, 202, 403, 807].map physicalCylinder = [0, 100, 102, 202, 204, 406, 814]
      ∧ [102, 204, 814].map logicalCylinder = [101, 202, 807] := by decide

theorem test_seek_times :
    [0, 1, 2, 10, 20, 50, 100, 200, 300, 407, 512, 815].map (seekTime .type1)
        = [0, 24, 26, 35, 41, 52, 68, 91, 111, 131, 150, 196]
      ∧ [0, 1, 2, 10, 20, 50, 100, 200, 300, 407].map (seekTime .type2)
        = [0, 24, 26, 35, 42, 53, 68, 91, 110, 128] := by decide

/-- The costs of a record by the stages of the access-cost computation. -/
def cost (ty : DriveType) (p c0 : Nat) (sw : Sweep) (h b c : Nat) (w : WaitRule) (isStep : Bool) : Nat :=
  finalCost (penalised sw h c0 c (rawCost ty p c0 c w)) b isStep

theorem test_three_reads_on_type_1 :
    cost .type1 10 300 .inward 16 0 400 (.sector 20 0) false = 74
      ∧ cost .type1 10 300 .inward 16 3 260 (.sector 8 0) false = 63
      ∧ cost .type1 10 300 .inward 16 0 300 (.sector 4 0) false = 58
      ∧ cost .type1 10 300 .inward 0 3 260 (.sector 8 0) false = 50 := by decide

theorem test_mixed_queue_on_type_2 :
    cost .type2 40 120 .outward 16 2 130 (.sector 12 8) false = 101
      ∧ cost .type2 40 120 .outward 16 0 101 .boundary true = 88
      ∧ cost .type2 40 120 .outward 16 9 118 (.sector 48 0) false = 36 := by decide

theorem test_allocation_all_free :
    [⟨0, 7⟩, ⟨152, 5⟩, ⟨250, 3⟩, ⟨760, 0⟩, ⟨814, 11⟩].map (fun t => chooseSpare t (spareTracks .type1))
      = [some ⟨101, 7⟩, some ⟨101, 5⟩, some ⟨203, 3⟩, some ⟨713, 0⟩, some ⟨815, 11⟩] := by decide +kernel

theorem test_allocation_101_full :
    [⟨0, 7⟩, ⟨152, 5⟩, ⟨250, 3⟩].map (fun t => chooseSpare t
        ((spareTracks .type1).filter fun x => x.cyl != 101 && x != ⟨203, 5⟩))
      = [some ⟨203, 7⟩, some ⟨203, 0⟩, some ⟨203, 3⟩] := by decide +kernel

theorem test_generations :
    laterGeneration 5 4 = true ∧ laterGeneration 72 200 = false ∧ laterGeneration 200 72 = false
      ∧ laterGeneration 0 255 = true := by decide

theorem test_source_orders :
    sourceOrder 6 = [.port .b, .port .a, .port .d, .port .c, .relocation]
      ∧ sourceOrder 9 = [.relocation, .port .c, .port .d, .port .a, .port .b]
      ∧ sourceOrder 15 = [.relocation, .port .d, .port .c, .port .b, .port .a] := by decide

theorem test_clamping :
    clampField 0 63 16 (some 100) = 63 ∧ clampField 2 15 6 (some 1) = 2 ∧ clampField 2 15 6 (some 200) = 15
      ∧ clampField 1 15 4 (some 0) = 1 ∧ clampField 1 4 2 (some 9) = 4 ∧ clampField 0 15 0 (some 16) = 15
      ∧ clampField 0 63 16 none = 16 := by decide

/-! ### Order bytes, written out from the order block's format -/

theorem test_read_bytes :
    decodeOrder [0x01, 0x02, 0x07, 0x00, 0x01, 0x03, 0x27, 0x0B, 0x0F, 0xFF]
      = some ⟨7, .drive 2 (.read [⟨807, 11, 15, 255⟩])⟩ := by decide +kernel
theorem test_write_bytes :
    decodeOrder [0x02, 0x07, 0xFF, 0x00, 0x02, 0x00, 0x32, 0x03, 0x00, 0x01, 0x00, 0x00, 0x00, 0x04, 0x02]
      = some ⟨0xFF, .drive 7 (.write [⟨50, 3, 0, 1⟩, ⟨0, 0, 4, 2⟩])⟩ := by decide +kernel
theorem test_position_bytes :
    decodeOrder [0x04, 0x00, 0x01, 0x00, 0x01, 0x00, 0x0B] = some ⟨1, .drive 0 (.position ⟨256, 11⟩)⟩ := by decide +kernel
theorem test_declare_bytes :
    decodeOrder [0x06, 0x05, 0x21, 0x01, 0x00, 0x65, 0x02] = some ⟨0x21, .drive 5 (.declare true false ⟨101, 2⟩)⟩
      ∧ decodeOrder [0x06, 0x05, 0x21, 0x02, 0x00, 0x65, 0x02] = some ⟨0x21, .drive 5 (.declare false true ⟨101, 2⟩)⟩
      ∧ decodeOrder [0x06, 0x05, 0x21, 0x04, 0x00, 0x65, 0x02] = none := by decide +kernel
theorem test_short_order_bytes :
    decodeOrder [0x05, 0x03, 0x09, 0x00] = some ⟨9, .drive 3 .calibrate⟩
      ∧ decodeOrder [0x10, 0x03, 0x09, 0x00] = some ⟨9, .drive 3 .report⟩
      ∧ decodeOrder [0x11, 0x03, 0x09, 0x00] = some ⟨9, .drive 3 .cancel⟩
      ∧ decodeOrder [0x12, 0x03, 0x09, 0x00] = some ⟨9, .drive 3 .lock⟩
      ∧ decodeOrder [0x13, 0x03, 0x09, 0x00] = some ⟨9, .drive 3 .unlock⟩
      ∧ decodeOrder [0x14, 0x03, 0x09, 0x00] = some ⟨9, .drive 3 .seize⟩
      ∧ decodeOrder [0x19, 0x03, 0x09, 0x00] = some ⟨9, .drive 3 .mapList⟩
      ∧ decodeOrder [0x1A, 0x03, 0x09, 0x00] = some ⟨9, .drive 3 .mapFreeze⟩
      ∧ decodeOrder [0x1E, 0x0F, 0x09, 0x00] = some ⟨9, .stringStatus⟩ := by decide +kernel
theorem test_parameter_bytes :
    decodeOrder [0x1F, 0x0F, 0x01, 0x00, 0x81, 0x3F, 0, 0, 0, 0, 0, 0, 0x06]
      = some ⟨1, .setParameters ⟨some 0x3F, none, none, none, none, none, none, some 0x06⟩⟩ := by decide +kernel
theorem test_bytes_refused :
    decodeOrder [0x01, 0x08, 0, 0, 1, 0, 0, 0, 0, 1] = none ∧ decodeOrder [0x01, 0, 0, 0, 1, 0, 0, 12, 0, 1] = none
      ∧ decodeOrder [0x01, 0, 0, 0, 2, 0, 0, 0, 0, 1] = none ∧ decodeOrder [0x12, 0, 0, 0, 0] = none
      ∧ decodeOrder [0x1E, 0, 0, 0] = none ∧ decodeOrder [0x08, 0, 0, 0] = none ∧ decodeOrder [0x12, 0, 0] = none := by
  decide +kernel

/-! ### Small states -/

/-- Port A in a state, its line high. -/
def portIn (st : PortState) (s : State) : State := s.modPort .a fun P => { P with opLine := true, state := st }

/-- Drive 0, type 1, in a state, its arm on cylinder 0. -/
def driveIn (st : DriveState) (s : State) : State :=
  s.modDrive 0 fun D =>
    { D with
      readyLine := true, typeCode := 1, state := st, type := some .type1, mapBuilt := true, valid := true, cyl := some 0 }

/-- Port A awaits an order block; drive 0 is in a state. -/
def awaiting (st : DriveState) : State := driveIn st (portIn (.selected false) State.reset)

/-- A request of port A for sector 0 of track (0, 0) of drive 0, at position 0. -/
def aRequest (kind : Kind) (st : RecState) : Record := hostRecord 0 .a 7 0 kind [⟨0, 0, 0, 1⟩] none st

/-- The request in the store. -/
def stored (r : Record) (s : State) : State := { s with records := [r], nextPos := 1 }

/-- The track (0, 0) entered. -/
def track0 : Entered := ⟨0, ⟨0, 0⟩, ⟨0, 0⟩, ⟨0, 0⟩⟩

/-- An image of sector 0. -/
def anImage (c : ImageCond) (bytes : List Byte) : Image := ⟨0, 0, 0, ⟨0, 0⟩, ⟨0, 0⟩, c, bytes⟩

/-- DP-0 held by the request at position 0 on drive 0. -/
def served (service : Service) (fifo : List Image) (s : State) : State :=
  (s.modPath 0 fun P =>
    { P with
      holder := some 0, drive := some 0, port := some .a, service := some service, entered := some track0, fifo := fifo
      conn := .connected }).modDrive 0 fun D => { D with active := some 0 }

/-- The drive's counter. -/
def atSlot (n : Nat) (s : State) : State := s.modDrive 0 fun D => { D with rpc := n }

/-- A status entry. -/
def anEntry : StatusEntry := ⟨0, 7, 0, .read, .complete, 0, ⟨0, 0, 0⟩⟩

/-! ### A witness for the hypotheses of each statement -/

theorem test_front_command_witness :
    (State.reset.withPending [.select .a]).pending = [.select .a] ∧ State.reset.pending = [] := by decide

/-- One small state satisfies every invariant and steps. -/
theorem test_invariants_witness : let s := (awaiting .ready).withPending [.slotEvent 0]
    s.paramsInRange ∧ s.storeWithin ∧ s.recordsOrdered ∧ s.drivesInBounds ∧ ∃ t, step s = .next t := by
  refine ⟨⟨by unfold Params.inRange; decide, ?_⟩, ⟨by decide, ?_, by decide⟩, ⟨by decide, by decide⟩, ?_, _, rfl⟩
  · intro p; cases p <;> decide
  · intro p; cases p <;> decide
  · unfold State.drivesInBounds Drive.inBounds healthWithin mapWithin; decide +kernel

theorem test_frame_witness :
    (∃ t, exec (.select .a) State.reset = .next t) ∧ OrderBlock.command .a ⟨0, .stringStatus⟩ = .stringStatus .a 0
      ∧ decodeOrder ([withParity 0x1E, withParity 0x0F, withParity 1, withParity 0].map fun x => x.byte)
          = some ⟨1, .stringStatus⟩
      ∧ decodeOrder ([withParity 0x08].map fun x => x.byte) = none := ⟨⟨_, rfl⟩, rfl, by decide, by decide⟩

theorem test_operational_line_witness :
    ((portIn .idle State.reset).port .a).opLine = true ∧ (State.reset.port .a).opLine = false
      ∧ (State.reset.port .a).state = .offline ∧ ((portIn .lost State.reset).port .a).state = .lost
      ∧ ((portIn .idle State.reset).port .a).state ≠ .offline ∧ ((portIn .idle State.reset).port .a).state ≠ .lost := by
  decide

/-- An OFFLINE port whose loss timer has counted n revolutions. -/
def offlineFor (n : Nat) : State := State.reset.modPort .a fun P => { P with lossTimer := some n }

theorem test_loss_timer_witness :
    ((offlineFor 120).port .a).state = .offline ∧ ((offlineFor 120).port .a).lossTimer = some 120
      ∧ ((offlineFor 119).port .a).lossTimer = some 119 := by decide

theorem test_revolution_pulse_witness :
    (∀ d, ((offlineFor 119).drive d).state = .notReady) ∧ ((offlineFor 119).port .a).state = .offline
      ∧ ((offlineFor 119).port .a).lossTimer = some 119 ∧ ((awaiting .ready).drive 0).state ≠ .notReady := by decide

theorem test_select_witness :
    ((portIn .idle State.reset).port .a).state = .idle
      ∧ ((portIn (.selected true) State.reset).port .a).state = .selected true
      ∧ ((portIn (.connected .status) State.reset).port .a).state = .connected .status
      ∧ (State.reset.port .a).state = .offline ∧ ((portIn .lost State.reset).port .a).state = .lost := by decide

/-- An IDLE port with an offer in hand. -/
def offering (o : Offer) : State :=
  (portIn .idle State.reset).modPort .a fun P => { P with offer := some o, statusQueue := [anEntry], attention := [0] }

theorem test_accept_witness :
    ((offering .status).port .a).state = .idle ∧ ((offering .status).port .a).offer = some .status
      ∧ ((offering .status).port .a).statusQueue = [anEntry] ∧ ((offering .attention).port .a).state = .idle
      ∧ ((offering .attention).port .a).offer = some .attention ∧ ((offering (.data 0)).port .a).state = .idle
      ∧ ((offering (.data 0)).port .a).offer = some (.data 0) := by decide

/-- An IDLE port with no offer in hand, a status queue and an attention set. -/
def idlePort (q : List StatusEntry) (a : List DriveId) : Port :=
  { Port.reset with state := .idle, statusQueue := q, attention := a }

theorem test_offer_witness :
    (idlePort [anEntry] [0]).state = .idle ∧ (idlePort [anEntry] [0]).waiting = [] ∧ (idlePort [] [0]).statusQueue = []
      ∧ (idlePort [] []).attention = [] ∧ ({ idlePort [] [] with waiting := [1, 0] } : Port).waiting = [1, 0]
      ∧ ({ idlePort [] [0] with offer := some .status } : Port).offer = some .status
      ∧ ({ idlePort [] [0] with offer := some (.data 0) } : Port).offer = some (.data 0)
      ∧ Port.reset.state ≠ .idle := by decide

theorem test_blocks_taken_witness :
    (((offering .status).modPort .a fun P => { P with state := .connected .status }).port .a).state = .connected .status
      ∧ ((portIn (.connected (.data 0 (some anEntry))) State.reset).port .a).state = .connected (.data 0 (some anEntry))
      ∧ ((portIn (.connected (.parting anEntry)) State.reset).port .a).state = .connected (.parting anEntry)
      ∧ ((portIn (.connected (.attention [0])) State.reset).port .a).state = .connected (.attention [0]) := by decide

theorem test_order_form_witness :
    Order.formOk (.drive 7 (.read (List.replicate 8 ⟨65535, 11, 15, 255⟩))) = true
      ∧ Order.formOk (.drive 0 (.declare true true ⟨65535, 11⟩)) = true ∧ Order.formOk .stringStatus = true := by decide

/-- Bytes of LOCK, the last with its parity inverted. -/
def badBlock : List LineByte := [withParity 0x12, withParity 0, withParity 1, ⟨0, false⟩]

theorem test_order_block_witness :
    ((awaiting .ready).port .a).state = .selected false ∧ (∃ x ∈ badBlock, parityOk x = false)
      ∧ (∀ x ∈ List.replicate 46 (withParity 0), parityOk x = true) ∧ 45 < (List.replicate 46 (withParity 0)).length
      ∧ (∀ x ∈ [withParity 0x08], parityOk x = true)
      ∧ decodeOrder ([withParity 0x08].map fun x => x.byte) = none := by
  refine ⟨by decide, ⟨⟨0, false⟩, by decide, by decide⟩, by decide, by decide, by decide, by decide⟩

theorem test_order_block_accept_witness :
    (∀ x ∈ [0x05, 0, 1, 0].map withParity, parityOk x = true) ∧ ([0x05, 0, 1, 0].map withParity).length ≤ 45
      ∧ decodeOrder (([0x05, 0, 1, 0].map withParity).map fun x => x.byte) = some ⟨1, .drive 0 .calibrate⟩ := by decide

theorem test_refused_and_accepted_witness :
    (awaiting .notReady).checkOrder .a ⟨1, .drive 0 .calibrate⟩ = some .notReady
      ∧ (awaiting .ready).checkOrder .a ⟨1, .drive 0 .calibrate⟩ = none
      ∧ (awaiting .ready).checkOrder .a ⟨1, .stringStatus⟩ = none := by decide +kernel

/-- Drive 0 locked by a port. -/
def lockedBy (q : PortId) (s : State) : State := s.modDrive 0 fun D => { D with lock := some q }

theorem test_state_and_lock_witness :
    checksDriveState .calibrate = true ∧ checksLock .mapFreeze = true ∧ checksLock .unlock = false
      ∧ ((awaiting .notReady).drive 0).state = .notReady ∧ ((awaiting .calibrating).drive 0).state = .calibrating
      ∧ ((awaiting .scanning).drive 0).state = .scanning ∧ ((awaiting .faulted).drive 0).state = .faulted
      ∧ ((lockedBy .b (awaiting .ready)).drive 0).state = .ready
      ∧ ((lockedBy .b (awaiting .ready)).drive 0).lock = some .b := by decide

/-- Port A with its lock-lost mark for drive 0 set. -/
def marked : State := (awaiting .ready).setLockLost .a 0 true

theorem test_lock_lost_witness :
    (marked.port .a).state = .selected false ∧ DriveOrder.formOk .lock = true
      ∧ checkDriveState .lock (marked.drive 0).state = none ∧ checkDriveState .calibrate (marked.drive 0).state = none
      ∧ marked.lockFreeFor .a 0 ∧ marked.lockLostMark .a 0 = true := by
  refine ⟨by decide, by decide, by decide, by decide, Or.inl (by decide), by decide⟩

theorem takesQueued_awaiting : (awaiting .ready).takesQueued .a 0 7 := by
  unfold State.takesQueued State.takesRecord State.hears State.lockFreeFor; decide +kernel
theorem takesRecord_faulted : (awaiting .faulted).takesRecord .a 0 7 := by
  unfold State.takesRecord State.hears State.lockFreeFor; decide +kernel

theorem test_transfer_orders_witness :
    (awaiting .ready).takesQueued .a 0 7 ∧ extentsOk [⟨807, 11, 15, 1⟩] = true
      ∧ ∀ e ∈ [(⟨807, 11, 15, 1⟩ : Extent)],
          extentStart e + e.count - 1 ≤ lastSector (Drive.limits ((awaiting .ready).drive 0)) :=
  ⟨takesQueued_awaiting, by decide, by decide⟩

theorem test_position_and_calibrate_witness :
    (awaiting .ready).takesQueued .a 0 7 ∧ trackOk ⟨807, 11⟩ = true
      ∧ (807 : Nat) ≤ (Drive.limits ((awaiting .ready).drive 0)).lastLogical
      ∧ (awaiting .faulted).takesRecord .a 0 7 ∧ ((awaiting .faulted).drive 0).state = .faulted :=
  ⟨takesQueued_awaiting, by decide, by decide, takesRecord_faulted, by decide⟩

/-- Drive 0 READY with one map entry for home (0, 0). -/
def mapped (e : MapEntry) : State := (awaiting .ready).modDrive 0 fun D => { D with map := [e] }
def activeEntry : MapEntry := scannedEntry ⟨0, 0⟩ ⟨101, 0⟩ 0

theorem test_declare_witness :
    (mapped activeEntry).takesRecord .a 0 7 ∧ ((mapped activeEntry).drive 0).state = .ready
      ∧ ((mapped activeEntry).drive 0).freeze = false ∧ ((mapped activeEntry).drive 0).map.length < 128
      ∧ (awaiting .ready).entry? 0 (homeOf ⟨0, 0⟩) = none
      ∧ (mapped activeEntry).entry? 0 (homeOf ⟨0, 0⟩) = some activeEntry
      ∧ (mapped activeEntry).isStalled 0 (homeOf ⟨0, 0⟩) = false ∧ activeEntry.state = .active
      ∧ activeEntry.replacement = false ∧ activeEntry.named = false := by
  refine ⟨?_, by decide, by decide, by decide, by decide, by decide, by decide, by decide, by decide, by decide⟩
  unfold State.takesRecord State.hears State.lockFreeFor; decide +kernel

/-- The same with the entry stalled. -/
def stalledOn (e : MapEntry) : State := { mapped e with stalled := [⟨0, ⟨0, 0⟩⟩] }
def stalledReplacement : MapEntry := { activeEntry with replacement := true }

theorem test_declare_stalled_witness :
    (stalledOn (pendingEntry ⟨0, 0⟩ .host none)).takesRecord .a 0 7
      ∧ (stalledOn (pendingEntry ⟨0, 0⟩ .host none)).isStalled 0 (homeOf ⟨0, 0⟩) = true
      ∧ (stalledOn (pendingEntry ⟨0, 0⟩ .host none)).entry? 0 (homeOf ⟨0, 0⟩) = some (pendingEntry ⟨0, 0⟩ .host none)
      ∧ (stalledOn stalledReplacement).entry? 0 (homeOf ⟨0, 0⟩) = some stalledReplacement
      ∧ stalledReplacement.state = .active ∧ stalledReplacement.replacement = true := by
  refine ⟨?_, by decide, by decide, by decide, by decide, by decide⟩
  unfold State.takesRecord State.hears State.lockFreeFor; decide +kernel

theorem test_retire_witness :
    (mapped activeEntry).takesRecord .a 0 7 ∧ trackOk ⟨0, 0⟩ = true
      ∧ (0 : Nat) ≤ (Drive.limits ((mapped activeEntry).drive 0)).lastLogical
      ∧ (mapped activeEntry).entry? 0 (homeOf ⟨0, 0⟩) = some activeEntry ∧ activeEntry.state = .active :=
  ⟨test_declare_witness.1, by decide, by decide, by decide, by decide⟩

theorem test_report_witness :
    ((awaiting .notReady).port .a).state = .selected false ∧ (awaiting .notReady).lockLostMark .a 0 = false := by decide

/-- Port A awaits an order and has a request in a state. -/
def withRequest (kind : Kind) (st : RecState) : State := stored (aRequest kind st) (awaiting .ready)

theorem test_cancel_witness :
    (withRequest .read .queued).hears .a 0 ∧ (withRequest .read .queued).cancelTarget .a 7 = some (aRequest .read .queued)
      ∧ (aRequest .read .queued).isWaiting = true ∧ (aRequest .read .continuation).isWaiting = true
      ∧ (withRequest .write .claiming).cancelTarget .a 7 = some (aRequest .write .claiming)
      ∧ (aRequest .write .claiming).isWaiting = false ∧ (withRequest .write .claiming).endingHeld 0 = false
      ∧ (withRequest .verify .paused).cancelTarget .a 7 = some (aRequest .verify .paused)
      ∧ (aRequest .verify .paused).isWaiting = false ∧ (withRequest .verify .paused).endingHeld 0 = false
      ∧ (withRequest .read .seeking).cancelTarget .a 7 = some (aRequest .read .seeking)
      ∧ (aRequest .read .seeking).isWaiting = false
      ∧ (withRequest .read .transferring).cancelTarget .a 7 = some (aRequest .read .transferring) := by
  refine ⟨by unfold State.hears; decide, ?_⟩
  decide

theorem test_lock_orders_witness :
    (awaiting .notReady).hears .a 0 ∧ (awaiting .notReady).lockFreeFor .a 0
      ∧ (lockedBy .a (awaiting .ready)).lockFreeFor .a 0 ∧ ((lockedBy .a (awaiting .ready)).drive 0).lock = some .a
      ∧ (((lockedBy .b (awaiting .ready)).modPort .b fun P => { P with state := .lost }).port .b).state = .lost
      ∧ ((lockedBy .b (awaiting .ready)).modPort .b fun P => { P with state := .lost }).hears .a 0 := by
  unfold State.hears State.lockFreeFor; decide

theorem test_reading_orders_witness :
    (awaiting .scanning).hears .a 0 ∧ trackOk ⟨807, 0⟩ = true
      ∧ (807 : Nat) ≤ (Drive.limits ((awaiting .scanning).drive 0)).lastLogical := by
  unfold State.hears; decide

theorem test_map_freeze_witness :
    (awaiting .ready).hears .a 0 ∧ (awaiting .ready).lockFreeFor .a 0 ∧ ((awaiting .ready).drive 0).state = .ready := by
  unfold State.hears State.lockFreeFor; decide

/-- A WRITE connected for data, with its first image filling. -/
def writing (bytes : List Byte) : State :=
  served .hostWrite [anImage .filling bytes] (stored (aRequest .write .transferring)
    (driveIn .ready (portIn (.connected (.data 0 none)) State.reset)))

theorem test_write_data_witness : let s := writing [1]
    (s.port .a).state = .connected (.data 0 none) ∧ (s.path 0).holder = some 0
      ∧ s.request? 0 = some (aRequest .write .transferring) ∧ (s.path 0).service = some .hostWrite
      ∧ (s.path 0).takenAll = false ∧ (s.path 0).byteCount < 4096 ∧ (s.path 0).fillingOrd = some 0
      ∧ parityOk (withParity 3) = true ∧ parityOk ⟨3, false⟩ = false ∧ s.pathOf 0 = some 0
      ∧ (s.path 0).port = some .a := by decide

/-- A WRITE of sector 0 and of a second extent, its images held, none being filled. -/
def writingOn (e : Extent) (fifo : List Image) : State :=
  served .hostWrite fifo (stored (hostRecord 0 .a 7 0 .write [⟨0, 0, 0, 1⟩, e] none .transferring)
    (driveIn .ready (portIn (.connected (.data 0 none)) State.reset)))
def nextHead : Extent := ⟨0, 1, 0, 1⟩
def nextCylinder : Extent := ⟨5, 0, 0, 1⟩
def heldImage : List Image := [anImage .full []]

/-- A byte that begins an image: on the next head, on another cylinder with an image held or with none, on the track entered;
and a byte that the path cannot take. -/
theorem test_first_byte_witness : let s := writingOn nextHead heldImage
    (s.path 0).fillingOrd = none ∧ (s.path 0).byteCount < 4096 ∧ (s.path 0).entered = some track0
      ∧ s.request? 0 = some (hostRecord 0 .a 7 0 .write [⟨0, 0, 0, 1⟩, nextHead] none .transferring)
      ∧ (hostRecord 0 .a 7 0 .write [⟨0, 0, 0, 1⟩, nextHead] none .transferring).sectorAt 1 = some (1, ⟨0, 1, 0⟩)
      ∧ track0.covers 1 ⟨0, 1, 0⟩ = false ∧ (s.drive 0).cyl = some (s.entryFor 0 1 ⟨0, 1, 0⟩).serving.cyl
      ∧ s.movingWrite 0 (s.entryFor 0 1 ⟨0, 1, 0⟩).home = false ∧ track0.covers 0 ⟨0, 0, 0⟩ = true
      ∧ ((writingOn nextCylinder heldImage).drive 0).cyl
          ≠ some ((writingOn nextCylinder heldImage).entryFor 0 1 ⟨5, 0, 0⟩).serving.cyl
      ∧ ((writingOn nextHead []).path 0).fifo = []
      ∧ (hostRecord 0 .a 7 0 .write [nextCylinder] none .transferring).stop? = none
      ∧ 4096 ≤ ((writingOn nextHead (List.replicate 4 (anImage .reserved []))).path 0).byteCount := by decide

/-- A READ connected for data, with its first image COMPLETE. -/
def reading (bytes : List Byte) : State :=
  served .hostRead [anImage .complete bytes] (stored (aRequest .read .transferring)
    (driveIn .ready (portIn (.connected (.data 0 none)) State.reset)))

theorem test_read_data_witness :
    ((reading [1, 2]).port .a).state = .connected (.data 0 none) ∧ ((reading [1, 2]).path 0).service = some .hostRead
      ∧ ((reading [1, 2]).path 0).holder = some 0 ∧ ((reading [1, 2]).path 0).fifo = [anImage .complete [1, 2]]
      ∧ ((reading [2]).path 0).fifo = [anImage .complete [2]]
      ∧ (reading [2]).request? 0 = some (aRequest .read .transferring) := by decide

/-- A READ whose path asks, its window at n slots. -/
def asking (n : Nat) (ending : Option Held) (r : Record) : State :=
  (served .hostRead [] (stored r (driveIn .ready (portIn .idle State.reset)))).modPath 0 fun P =>
    { P with conn := .asking, window := some n, ending := ending }
def missedTwice : Record := { aRequest .read .transferring with missedReconnect := 2 }

theorem test_window_witness : let s := asking 128 none missedTwice
    (s.path 0).holder = some 0 ∧ (s.path 0).window = some 128 ∧ (s.path 0).conn = .asking
      ∧ s.request? 0 = some missedTwice ∧ (s.path 0).ending = none ∧ missedTwice.missedReconnect = 2
      ∧ ((asking 127 none missedTwice).path 0).window = some 127
      ∧ ((asking 128 (some ⟨.complete, 0, 0, none⟩) missedTwice).path 0).ending = some ⟨.complete, 0, 0, none⟩
      ∧ (asking 128 none (aRequest .read .transferring)).request? 0 = some (aRequest .read .transferring)
      ∧ (aRequest .read .transferring).missedReconnect < 2 := by decide

theorem test_ready_rise_witness :
    (State.reset.drive 0).readyLine = false ∧ (State.reset.drive 0).state = .notReady
      ∧ driveTypeOf 1 = some .type1 ∧ driveTypeOf 2 = some .type2 ∧ driveTypeOf 3 = none ∧ driveTypeOf 0 = none
      ∧ ((awaiting .ready).drive 0).readyLine = true := by decide

theorem test_ready_fall_and_fault_witness :
    ((awaiting .ready).drive 0).state ≠ .notReady ∧ ((awaiting .ready).drive 0).state.faultable = true
      ∧ ((awaiting .calibrating).drive 0).state.faultable = true ∧ ((awaiting .faulted).drive 0).state.faultable = false
      ∧ ((awaiting .ready).port .a).state ≠ .lost := by decide

/-- A record whose request is stored alone, at drive 0, nothing else in the string. -/
theorem test_ready_fall_endings_witness :
    (withRequest .read .queued).recordsOrdered ∧ (aRequest .read .queued).isWaiting = true
      ∧ aRequest .read .queued ∈ (withRequest .read .queued).records
      ∧ (∀ k, ((withRequest .read .queued).path k).holder ≠ some 0)
      ∧ (aRequest (.mapChange .retire false) .queued).kind.isMapChange = true
      ∧ ((reading []).drive 0).active = some 0
      ∧ (∀ j, ((reading []).path j).holder = some 0 → j = 0)
      ∧ (reading []).ru.step ≠ .placed 0 ∧ (aRequest .read .transferring).kind.isStep = false
      ∧ (aRequest .read .transferring).ended = false ∧ (aRequest .read .transferring).detached = false
      ∧ (aRequest .read .transferring).resetStop = false := by
  refine ⟨⟨by decide, by decide⟩, by decide, ?_⟩
  decide

/-- Drive 0 with an arm command outstanding for n slots. -/
def moving (st : DriveState) (c : ArmCommand) (n : Nat) : State :=
  (awaiting st).modDrive 0 fun D => { D with arm := some c, seekTimer := some n, phase := .seek }

theorem test_seek_timer_witness :
    ((moving .ready (.seek 5) 256).drive 0).seekTimer = some 256 ∧ ((moving .ready (.seek 5) 256).drive 0).arm ≠ none
      ∧ ((moving .ready (.seek 5) 256).drive 0).state.faultable = true
      ∧ ((moving .ready (.seek 5) 255).drive 0).seekTimer = some 255 := by decide

theorem test_ticks_witness :
    ((atSlot 63 (awaiting .ready)).drive 0).state ≠ .notReady ∧ (State.reset.drive 0).state = .notReady := by decide

theorem test_timers_witness :
    (State.reset.port .a).state = .offline ∧ ((offlineFor 119).port .a).lossTimer = some 119
      ∧ (awaiting .ready).referenceDrive = some 0 ∧ (awaiting .ready).claimDue 0 = false
      ∧ (∀ k, (awaiting .ready).windowDue 0 k = false) ∧ ((awaiting .ready).drive 0).seekDue = false
      ∧ (∀ e : DriveId, e ≠ 0 → ((awaiting .ready).drive e).state = .notReady) := by decide

theorem test_seek_complete_witness :
    ((moving .calibrating .calibrate 9).drive 0).state = .calibrating
      ∧ ((moving .calibrating .calibrate 9).drive 0).arm = some .calibrate
      ∧ ((moving .scanning (.seek 5) 9).drive 0).state = .scanning
      ∧ ((moving .scanning (.seek 5) 9).drive 0).phase = .seek
      ∧ ((moving .scanning (.seek 5) 9).drive 0).arm = some (.seek 5) ∧ ((awaiting .ready).drive 0).arm = none := by
  decide

/-- Drive 0 confirming an ident in a phase. -/
def confirming (ph : Phase) (k : Nat) : State :=
  (atSlot (4 * k + 1) (awaiting .ready)).modDrive 0 fun D =>
    { D with phase := ph, confirm := some k, target := some ⟨0, 0⟩ }

theorem test_ident_witness :
    ((confirming .confirm 15).drive 0).confirm = some 15 ∧ ((confirming .confirm 15).drive 0).rpc = 4 * 15 + 1
      ∧ ((confirming .confirm 15).drive 0).identMatches 15 (some ⟨0, 0, 15, 0, true⟩) = true
      ∧ ((confirming .confirm 15).drive 0).identMatches 15 none = false
      ∧ ((confirming .confirm 15).drive 0).phase = .confirm ∧ ((confirming .reconfirm 0).drive 0).phase = .reconfirm
      ∧ ((confirming .reconfirm 0).drive 0).identMatches 0 none = false
      ∧ ((confirming .reconfirm 0).drive 0).state.faultable = true := by decide

/-- A claim of drive 0 due at slot 0. -/
def claiming : State := { withRequest .read .claiming with claims := [⟨0, .port .a, .slot 0, 0⟩] }

theorem test_claim_miss_witness :
    claiming.claimOf 0 = some ⟨0, .port .a, .slot 0, 0⟩ ∧ (claiming.drive 0).rpc = 0 ∧ State.reset.claimOf 0 = none := by
  decide

/-- A VERIFY with the read of its sector 0 in flight. -/
def verifying (slot : Nat) : State :=
  (served .hostVerify [] (atSlot slot (withRequest .verify .transferring))).modPath 0 fun P =>
    { P with reading := some 0 }
def ident0 : RawIdent := ⟨0, 0, 0, 0, true⟩

theorem test_sector_outcome_witness : let s := verifying 4
    s.pathOnDrive 0 = some 0 ∧ (s.path 0).holder = some 0 ∧ (s.path 0).reading = some 0
      ∧ (s.path 0).entered = some track0 ∧ s.request? 0 = some (aRequest .verify .transferring)
      ∧ (aRequest .verify .transferring).sectorAt 0 = some (0, ⟨0, 0, 0⟩) ∧ (s.drive 0).rpc = (4 * 0 + 4) % 64
      ∧ ((verifying 5).drive 0).rpc ≠ (4 * 0 + 4) % 64 ∧ (s.path 0).ladder = none
      ∧ judgeRead track0.serving 0 ⟨some ident0, .agrees, zeroSector⟩ = .clean false
      ∧ judgeRead track0.serving 0 ⟨some ident0, .corrected, zeroSector⟩ = .corrected false
      ∧ (raisedEntry track0.serving .soft ((s.drive 0).health.find? fun y => y.track == track0.serving)).soft
          < s.params.softThreshold
      ∧ (raisedEntry track0.serving .soft ((s.drive 0).health.find? fun y => y.track == track0.serving)).hard = 0 := by
  decide +kernel

/-- Outcomes and records that the sector's clauses speak of: the last sector and one short of it, a failed attempt, a LOST
flag, a sector recorded before. -/
theorem test_outcome_clauses_witness :
    Outcome.good (.clean false) = true ∧ Outcome.lost (.corrected false) = false ∧ Outcome.good (.uncorrectable false) = false
      ∧ Outcome.good .identMismatch = false ∧ Outcome.lost .identMismatch = false ∧ Outcome.lost (.clean true) = true
      ∧ (verifying 4).request? 0 = some (aRequest .verify .transferring) ∧ (aRequest .verify .transferring).total = 1
      ∧ (hostRecord 0 .a 7 0 .read [⟨0, 0, 0, 2⟩] none .transferring).total = 2
      ∧ ((verifying 4).path 0).service = some .hostVerify ∧ ((reading [1]).path 0).service = some .hostRead
      ∧ (∃ i ∈ ((reading [1]).path 0).fifo, i.ord = 0)
      ∧ (((reading [1]).path 0).fifo.filter fun i => i.cond == .complete) ≠ []
      ∧ Record.softTrack { aRequest .read .queued with recordedSectors := [(0, ⟨0, 0⟩)] } (logicalIndex ⟨0, 0, 0⟩)
          = some ⟨0, 0⟩
      ∧ Record.softTrack (aRequest .read .queued) (logicalIndex ⟨0, 0, 0⟩) = none := by decide

/-- A request of port A, not connected to it, and one that its drive has in progress. -/
theorem endsQueued_queued (kind : Kind) (st : RecState) : (withRequest kind st).endsQueued .a (aRequest kind st) :=
  ⟨rfl, rfl, rfl, rfl, fun h => (nomatch (show PortState.selected false = .lost from h)), rfl⟩

theorem test_ending_queued_witness :
    (verifying 4).endsQueued .a (aRequest .verify .transferring)
      ∧ (asking 3 none (aRequest .read .transferring)).endsQueued .a (aRequest .read .transferring)
      ∧ (((asking 3 none (aRequest .read .transferring)).path 0).fifo.filter fun i => i.cond == .complete) = [] := by
  refine ⟨⟨by decide, by decide, by decide, by decide, by decide, by decide⟩,
    ⟨by decide, by decide, by decide, by decide, by decide, by decide⟩, by decide⟩

/-- A WRITE with its sector 0 being written. -/
def sectorWriting (slot : Nat) : State :=
  served .hostWrite [anImage .writing []] (atSlot slot (withRequest .write .transferring))

theorem test_sector_write_witness : let s := sectorWriting 4
    s.pathOnDrive 0 = some 0 ∧ (s.path 0).fifo = [anImage .writing []] ∧ (s.path 0).holder = some 0
      ∧ s.request? 0 = some (aRequest .write .transferring) ∧ (s.drive 0).rpc = (4 * 0 + 4) % 64
      ∧ ((sectorWriting 3).drive 0).rpc ≠ (4 * 0 + 4) % 64 := by decide

/-- A held report of port A for drive 0. -/
def aReport (s : State) : Report := s.newReport (aRequest .read .transferring) (s.infoHere (aRequest .read .transferring) .uncorrectable)

theorem test_ending_status_witness :
    (reading []).request? 0 = some (aRequest .read .transferring) ∧ ((reading []).port .a).state ≠ .lost
      ∧ (reading []).ownConnection .a 0 = some 0 ∧ (withRequest .read .queued).ownConnection .a 0 = none
      ∧ Status.isError .uncorrectable = true ∧ Status.isError .complete = false ∧ (reading []).reportOf .a 0 = none
      ∧ ((reading []).setReport .a 0 (some (aReport (reading [])))).reportOf .a 0 = some (aReport (reading [])) := by
  decide +kernel

/-! ### Relocation and scan -/

/-- A step for the spare (101, 0) of drive 0. -/
def aStep : StepRequest := ⟨0, ⟨101, 0⟩, .header, .commitTarget, some ⟨.alternate, ⟨0, 0⟩, 1⟩⟩

/-- The relocation unit RUNNING on home (0, 0) of drive 0. -/
def relocating (st : Stage) (step : StepPlace) (s : State) : State :=
  s.modRu fun u =>
    { u with
      state := .running, entry := some ⟨0, ⟨0, 0⟩⟩, direction := some .forward, stage := some st, step := step
      progress := .running 3 4 }

/-- The same with 96 records in use. -/
def fullStore (s : State) : State := { s with records := List.replicate 96 (aRequest .position .queued) }

theorem test_waiting_step_witness :
    (relocating .commitTarget (.waiting aStep) State.reset).ru.step = .waiting aStep
      ∧ (relocating .commitTarget (.waiting aStep) State.reset).records.length < 96
      ∧ (relocating .commitTarget (.waiting aStep) State.reset).queueCount 0 < 24
      ∧ (fullStore (relocating .commitTarget (.waiting aStep) State.reset)).ru.step = .waiting aStep
      ∧ 96 ≤ (fullStore (relocating .commitTarget (.waiting aStep) State.reset)).records.length := by decide

/-- A held point: a WRITE in progress has entered home (0, 0), or not. -/
def heldPoint (homes : List Track) : State :=
  relocating .commitTarget .point ((writing []).modPath 0 fun P => { P with homes := homes })

theorem test_held_point_witness :
    (heldPoint [⟨0, 0⟩]).ru.state = .running ∧ (heldPoint [⟨0, 0⟩]).ru.entry = some ⟨0, ⟨0, 0⟩⟩
      ∧ (heldPoint [⟨0, 0⟩]).ru.stage = some .commitTarget ∧ (heldPoint [⟨0, 0⟩]).ru.step = .point
      ∧ (heldPoint [⟨0, 0⟩]).writeEntered ⟨0, ⟨0, 0⟩⟩ = true ∧ (heldPoint []).writeEntered ⟨0, ⟨0, 0⟩⟩ = false := by decide

/-- The unit SUSPENDED for n revolutions. -/
def suspendedFor (n : Nat) (s : State) : State :=
  (relocating .verifyTarget .point s).modRu fun u => { u with state := .suspended, suspension := some n }

theorem test_unit_timers_witness :
    (relocating .readSource .point State.reset).ru.progress = .running 3 4
      ∧ ((relocating .readSource .point State.reset).modRu fun u => { u with progress := .running 4 4 }).ru.progress
          = .running 4 4
      ∧ (suspendedFor 16 State.reset).ru.state = .suspended ∧ (suspendedFor 16 State.reset).ru.suspension = some 16
      ∧ (suspendedFor 15 State.reset).ru.suspension = some 15
      ∧ (suspendedFor 15 State.reset).ru.entry = some ⟨0, ⟨0, 0⟩⟩ ∧ (suspendedFor 15 State.reset).hostWaits 0 = false
      ∧ (suspendedFor 15 (withRequest .read .queued)).hostWaits 0 = true := by decide

/-- A relocation step in progress on DP-0 with its operation done. -/
def stepping (kind : StepKind) (st : Stage) : State :=
  (served (.step kind) [] (relocating st (.placed 0) (stored
    { stepRecord 0 { aStep with kind := kind, stage := st } with state := .transferring } (awaiting .ready)))).modPath 0
      fun P => { P with opDue := true, passStart := some 0, passes := 1 }
def stepOf (kind : StepKind) (st : Stage) : Record :=
  { stepRecord 0 { aStep with kind := kind, stage := st } with state := .transferring }
def goodTrack : List (List SectorRead) :=
  (List.range 16).map fun n => [⟨some ⟨101, 0, n, 0, true⟩, .agrees, []⟩]

theorem test_step_completion_witness :
    (stepping .header .commitTarget).stepDue 0 .header = some (0, stepOf .header .commitTarget)
      ∧ ((stepping .header .commitTarget).drive 0).rpc = 0
      ∧ (stepOf .header .commitTarget).header = some ⟨.alternate, ⟨0, 0⟩, 1⟩
      ∧ (stepping .read .readSource).stepDue 0 .read = some (0, stepOf .read .readSource)
      ∧ (stepping .read .readSource).atPassEnd 0 0 = true
      ∧ ((stepping .read .readSource).path 0).passes = passesOf (readEntries (stepOf .read .readSource).stepTrack goodTrack)
      ∧ (stepping .write .writeTarget).stepDue 0 .write = some (0, stepOf .write .writeTarget)
      ∧ (stepping .write .writeTarget).atPassEnd 0 0 = true
      ∧ (stepOf .write .writeTarget).stage = some .writeTarget
      ∧ (stepping .verify .verifyTarget).stepDue 0 .verify = some (0, stepOf .verify .verifyTarget)
      ∧ (stepping .verify .verifyTarget).atPassEnd 0 0 = true := by decide +kernel

theorem test_verify_judgement_witness :
    (List.replicate 16 (Outcome.clean false)).length = 16
      ∧ verifyPasses 0 (List.replicate 16 (.clean false)) = true
      ∧ verifyPasses 1 (List.replicate 16 (.clean false)) = false := by decide

/-- The unit RUNNING at a stage on the entry of home (0, 0), a request linked to it. -/
def relocatingOn (e : MapEntry) (st : Stage) : State :=
  (relocating st .point (stored (aRequest (.mapChange .declare false) .queued) (mapped e))).modRu fun u =>
    { u with verifyFailures := 3 }
def forwardEntry : MapEntry :=
  { pendingEntry ⟨0, 0⟩ .host (some 0) with state := .moving .forward, target := some ⟨101, 0⟩ }
def replacedEntry : MapEntry :=
  { activeEntry with state := .moving .replacement, alternate := none, previous := some ⟨101, 0⟩, target := some ⟨101, 1⟩ }
def returningEntry : MapEntry := { activeEntry with state := .moving .ret, named := true, linked := some 0 }

theorem test_stage_results_witness :
    (relocatingOn forwardEntry .commitTarget).entry? 0 ⟨0, 0⟩ = some forwardEntry
      ∧ (relocatingOn replacedEntry .commitTarget).entry? 0 ⟨0, 0⟩ = some replacedEntry
      ∧ (relocatingOn replacedEntry .commitTarget).ru.sourceChanged = false
      ∧ (relocatingOn returningEntry .releaseAlternate).entry? 0 ⟨0, 0⟩ = some returningEntry
      ∧ (∀ h ∈ ((relocatingOn returningEntry .releaseAlternate).drive 0).health, h.waiting = false)
      ∧ (relocatingOn forwardEntry .rejectTarget).ru.verifyFailures = 3
      ∧ (relocatingOn forwardEntry .commitTarget).ru.state ≠ .aborting
      ∧ (relocatingOn forwardEntry .commitTarget).ru.entry = some ⟨0, ⟨0, 0⟩⟩
      ∧ ((relocatingOn returningEntry .restoreHeader).modRu fun u => { u with state := .aborting }).ru.state = .aborting
      ∧ ((relocatingOn forwardEntry .commitTarget).port .a).state ≠ .lost := by decide

theorem test_linked_request_witness :
    (relocatingOn forwardEntry .commitTarget).endsQueued .a (aRequest (.mapChange .declare false) .queued)
      ∧ (relocatingOn forwardEntry .commitTarget).ru.step ≠ .placed 0
      ∧ (aRequest (.mapChange .declare false) .queued).pos = 0 := by
  refine ⟨⟨by decide, by decide, by decide, by decide, by decide, by decide⟩, by decide, by decide⟩

/-- A header step of the unit on the path of drive 0, its entry in the map. -/
def steppingOn (e : MapEntry) (st : Stage) : State := (stepping .header st).modDrive 0 fun D => { D with map := [e] }

theorem test_abort_witness :
    (steppingOn forwardEntry .commitTarget).stepHoldsPath = true
      ∧ (steppingOn forwardEntry .commitTarget).ru.stage = some .commitTarget
      ∧ (relocatingOn forwardEntry .commitTarget).stepHoldsPath = false
      ∧ (steppingOn forwardEntry .commitTarget).restoreAfter ⟨0, ⟨0, 0⟩⟩ forwardEntry
          = some ⟨0, ⟨101, 0⟩, plainHeader .free⟩
      ∧ (steppingOn returningEntry .releaseAlternate).restoreAfter ⟨0, ⟨0, 0⟩⟩ returningEntry
          = some ⟨0, ⟨101, 0⟩, ⟨.alternate, ⟨0, 0⟩, 0⟩⟩
      ∧ (steppingOn activeEntry .discardOld).restoreAfter ⟨0, ⟨0, 0⟩⟩ activeEntry = none
      ∧ (steppingOn activeEntry .discardOld).entry? 0 ⟨0, 0⟩ = some activeEntry ∧ activeEntry.state = .active := by decide

theorem test_recorded_forms_witness :
    ([(false, zeroSector)] : List (Bool × List Byte))[0]? = some (false, zeroSector) := rfl

/-- A scan's operation done. -/
def scanned (job : ScanJob) (t : Track) (losers rebuilds : List Track) : State :=
  (awaiting .scanning).modDrive 0 fun D => { D with scan := some ⟨job, t, losers, rebuilds, true, none, true⟩ }

theorem test_scan_witness :
    ((scanned .header ⟨101, 11⟩ [] []).drive 0).state = .scanning
      ∧ ((scanned .header ⟨101, 11⟩ [] []).drive 0).scan = some ⟨.header, ⟨101, 11⟩, [], [], true, none, true⟩
      ∧ ((scanned .header ⟨101, 11⟩ [] []).drive 0).type = some .type1 ∧ nextSpare .type1 ⟨101, 11⟩ = some ⟨203, 0⟩
      ∧ nextSpare .type1 ⟨815, 11⟩ = none
      ∧ ((scanned .discard ⟨101, 0⟩ [⟨305, 4⟩] []).drive 0).scan
          = some ⟨.discard, ⟨101, 0⟩, [⟨305, 4⟩], [], true, none, true⟩
      ∧ activeAlternates ((scanned .discard ⟨101, 0⟩ [] []).drive 0).map = []
      ∧ ((scanned .rebuild ⟨203, 7⟩ [] [⟨305, 0⟩]).drive 0).scan
          = some ⟨.rebuild, ⟨203, 7⟩, [], [⟨305, 0⟩], true, none, true⟩
      ∧ ((scanned .rebuild ⟨203, 7⟩ [] []).drive 0).scan = some ⟨.rebuild, ⟨203, 7⟩, [], [], true, none, true⟩ := by
  decide +kernel

theorem test_scan_dispute_witness :
    isHomeTrack .type1 ⟨0, 0⟩ = true ∧ isHomeTrack .type1 ⟨101, 0⟩ = false ∧ (awaiting .scanning).entry? 0 ⟨0, 0⟩ = none
      ∧ ((awaiting .scanning).drive 0).map.length < 128 ∧ (mapped activeEntry).entry? 0 ⟨0, 0⟩ = some activeEntry
      ∧ activeEntry.generation = 0 ∧ laterGeneration 1 0 = true ∧ laterGeneration 0 0 = false
      ∧ activeEntry.alternate = some ⟨101, 0⟩ := by decide +kernel

/-! ### Functions of the manual -/

theorem test_serving_witness :
    (State.reset.entry? 0 ⟨0, 0⟩ = none) ∧ (mapped forwardEntry).entry? 0 ⟨0, 0⟩ = some forwardEntry
      ∧ forwardEntry.state = .moving .forward ∧ (pendingEntry ⟨0, 0⟩ .host none).state = .pending
      ∧ (mapped activeEntry).entry? 0 ⟨0, 0⟩ = some activeEntry ∧ activeEntry.alternate = some ⟨101, 0⟩
      ∧ returningEntry.state = .moving .ret ∧ returningEntry.alternate = some ⟨101, 0⟩
      ∧ (mapped replacedEntry).entry? 0 ⟨0, 0⟩ = some replacedEntry ∧ replacedEntry.state = .moving .replacement
      ∧ replacedEntry.previous = some ⟨101, 0⟩ := by decide

theorem test_arbiter_witness :
    claiming.bestClaim = some ⟨0, .port .a, .slot 0, 0⟩ ∧ claiming.freePath = some 0
      ∧ claiming.request? 0 = some (aRequest .read .claiming) ∧ (∀ x ∈ claiming.claims, x.request ∉ claiming.overdue)
      ∧ ({ claiming with overdue := [0] } : State).bestClaim = some ⟨0, .port .a, .slot 0, 0⟩
      ∧ (∃ x ∈ claiming.claims, x.request ∈ ({ claiming with overdue := [0] } : State).overdue) := by decide

theorem test_eligibility_witness :
    (withRequest .write .queued).eligible (aRequest .write .queued) = true
      ∧ ((withRequest .read .queued).setReport .a 0 (some (aReport (reading [])))).eligible (aRequest .read .queued) = false
      ∧ (relocating .writeTarget .point (mapped forwardEntry)).eligible (aRequest .write .queued) = false := by
  decide +kernel

theorem test_function_witness :
    (0 + 1) % 102 ≠ 0 ∧ DriveType.type1.curve[6]? = some (512, 150) ∧ DriveType.type1.curve[6 + 1]? = some (815, 196)
      ∧ DriveType.type2.curve[7]? = some (407, 128)
      ∧ State.reset.pick [aRequest .read .queued] = some (aRequest .read .queued)
      ∧ State.reset.pick [] = none ∧ ((withRequest .read .queued).drive 0).cyl = some 0
      ∧ ((withRequest .read .queued).drive 0).type = some .type1 ∧ ((withRequest .read .queued).drive 0).active = none
      ∧ (withRequest .read .queued).pick (((withRequest .read .queued).queue 0).filter (withRequest .read .queued).eligible)
          = some (aRequest .read .queued) ∧ (aRequest .calibrate .queued).kind = .calibrate
      ∧ (∀ t ∈ [withRequest .verify .queued], ∀ r ∈ [aRequest .verify .queued],
          (withRequest .verify .queued).costOf r = t.costOf r) ∧ chooseSpare ⟨0, 0⟩ [] = none ∧ chooseSpare ⟨0, 7⟩ [⟨101, 3⟩] = some ⟨101, 3⟩ := by
  decide +kernel

/-! ### A few commands run -/

/-- What a command answers from a state, read by a test. -/
def after (c : Instr) (s : State) (test : State → Bool) : Bool :=
  match exec c s with
  | .next t => test t
  | _ => false

theorem test_select_takes : after (.select .a) (portIn .idle State.reset) (fun t => (t.port .a).state == .selected false) = true := by
  decide +kernel
theorem test_lock_bytes_lock_the_drive :
    after (.orderBlockReceived .a ([0x12, 0x00, 0x09, 0x00].map withParity)) (awaiting .ready) (fun t =>
      (t.drive 0).lock == some .a && (t.port .a).sending == sentAnswer [0x00]) = true := by decide +kernel
theorem test_read_is_chosen_at_once :
    after (.read .a 0 9 [⟨5, 2, 3, 4⟩]) (awaiting .ready) (fun t =>
      (t.drive 0).active == some 0 && (t.drive 0).target == some ⟨5, 2⟩ && (t.drive 0).phase == .setup) = true := by
  decide +kernel
theorem test_order_out_of_range :
    after (.read .a 0 9 [⟨808, 0, 0, 1⟩]) (awaiting .ready) (fun t => (t.port .a).sending == sentAnswer [0x0B]) = true := by
  decide +kernel
theorem test_ready_rise_calibrates :
    after (.readyLineRise 3 2) State.reset (fun t =>
      (t.drive 3).state == .calibrating && (t.drive 3).arm == some .calibrate && (t.drive 3).type == some .type2) = true := by
  decide +kernel
theorem test_calibrated_drive_scans :
    after (.seekComplete 0) ((moving .calibrating .calibrate 9).modDrive 0 fun D => { D with mapBuilt := false })
      (fun t => (t.drive 0).state == .scanning && ((t.drive 0).scan.map (·.track)) == some ⟨101, 0⟩) = true := by
  decide +kernel
theorem test_clean_verify_completes :
    after (.sectorReadOutcome 0 ⟨some ident0, .agrees, zeroSector⟩) (verifying 4) (fun t =>
      (t.port .a).statusQueue == [⟨0, 7, 0, .verify, .complete, 0, ⟨0, 0, 0⟩⟩] && (t.path 0).holder.isNone) = true := by
  decide +kernel
theorem test_lost_verify_transfers :
    after (.sectorReadOutcome 0 ⟨some { ident0 with flags := 1 }, .agrees, zeroSector⟩) (verifying 4) (fun t =>
      (t.port .a).statusQueue == [⟨0, 7, 0, .verify, .dataLost, 0, ⟨0, 0, 0⟩⟩]) = true := by decide +kernel
theorem test_next_head_is_entered :
    after (.writeDataByte .a (withParity 3)) (writingOn nextHead heldImage) (fun t =>
      (t.port .a).byteTaken && ((t.path 0).fifo.map (·.bytes)) == [[], [3]]
        && ((t.path 0).entered.map (·.serving)) == some ⟨0, 1⟩) = true := by decide +kernel
theorem test_next_cylinder_is_left :
    after (.writeDataByte .a (withParity 3)) (writingOn nextCylinder heldImage) (fun t =>
      !(t.port .a).byteTaken && (t.path 0).leaving && (t.port .a).state == .idle) = true := by decide +kernel
/-- A VERIFY on its seventh attempt at a sector whose soft outcome it has had recorded. -/
def seventhAttempt : State :=
  (((verifying 4).recordOnce (aRequest .verify .transferring) 0 ⟨0, 0⟩ .soft).modPath 0 fun P =>
    { P with ladder := some (0, 7) })
theorem test_hard_outcome_takes_the_place :
    after (.sectorReadOutcome 0 ⟨some ident0, .uncorrectable, zeroSector⟩) seventhAttempt (fun t =>
      ((t.port .a).reports.get 0).map (fun x => (x.cause, x.soft, x.hard, x.last))
        == some (.uncorrectable, 0, 1, some .hard)) = true := by
  decide +kernel
/-- A request ended PORT PARITY whose sector is still written, at that sector's end, its status in presentation. -/
def parityEnding : State :=
  ((sectorWriting 4).modRequest 0 fun r => { r with ended := true }).modPort .a fun P =>
    { P with state := .connected (.data 0 (some anEntry)) }
theorem test_parity_ending_witness :
    (parityEnding.path 0).fifo = [anImage .writing []] ∧ (parityEnding.path 0).holder = some 0
      ∧ parityEnding.request? 0 = some { aRequest .write .transferring with ended := true }
      ∧ parityEnding.pathOnDrive 0 = some 0 ∧ (parityEnding.drive 0).active = some 0
      ∧ (parityEnding.path 0).port = some .a
      ∧ (parityEnding.drive 0).rpc = (4 * 0 + 4) % 64
      ∧ (parityEnding.port .a).state = .connected (.data 0 (some anEntry)) := by decide
theorem test_parity_status_goes_on_without_its_path :
    after (.sectorWriteComplete 0) parityEnding (fun t =>
      (t.path 0).holder.isNone && (t.port .a).state == .connected (.parting anEntry)
        && after (.statusBlockTaken .a) t (fun u => (u.port .a).state == .idle && u.records.isEmpty)) = true := by
  decide +kernel
theorem test_refused_write_ends_at_the_boundary :
    after (.operationalLineFall .a) (atSlot 2 (writing [1])) (fun t =>
      (t.port .a).statusQueue.isEmpty && after (.slotEvent 0) t (fun u => (u.port .a).statusQueue.isEmpty
        && after (.slotEvent 0) u (fun v => (v.port .a).statusQueue.map (·.status) == [.portLost]))) = true := by
  decide +kernel
theorem test_cancelled_drain_ends_port_lost :
    after (.operationalLineFall .a) (atSlot 3 (((reading [1]).modPath 0 fun P =>
      { P with ending := some ⟨.complete, 0, 0, none⟩ }).modRequest 0 fun r => { r with cancel := true })) (fun t =>
        after (.slotEvent 0) t (fun u => (u.port .a).statusQueue.map (·.status) == [.portLost]
          && (u.path 0).holder.isNone)) = true := by decide +kernel
theorem test_refused_pause_ends_at_once :
    after (.operationalLineFall .a) ((writing [1]).modRequest 0 fun r =>
      { r with state := .paused }) (fun t => (t.port .a).statusQueue.map (·.status) == [.portLost]) = true := by
  decide +kernel
theorem test_ready_fall_ends_queued :
    after (.readyLineFall 0) (withRequest .read .queued) (fun t =>
      (t.port .a).statusQueue == [⟨0, 7, 0, .read, .driveNotReady, 1, ⟨0, 0, 0⟩⟩] && t.queueCount 0 == 0) = true := by
  decide +kernel
theorem test_fault_aborts_a_forward :
    after (.faultLineRise 0) (steppingOn forwardEntry .commitTarget) (fun t =>
      t.ru.state == .aborting && t.workList == [⟨0, ⟨0, 0⟩⟩] && (t.drive 0).pool == [(⟨101, 0⟩, .free)]
        && ((t.drive 0).map.map (·.state)) == [.pending]) = true := by decide +kernel
theorem test_port_reset_frees_a_queued_record :
    after (.portReset .a) (withRequest .read .queued) (fun t => t.records.isEmpty && (t.port .a).state == .idle) = true := by
  decide +kernel
theorem test_counter_wraps :
    after (.slotEvent 0) (atSlot 63 (awaiting .ready)) (fun t => (t.drive 0).rpc == 0) = true := by decide +kernel

end Sys2Proof.Tests
end

namespace Sys2Proof.Machine

/-! ### What a command can do to counters and bounds -/

/-- The kinds of operation behind the commands, as far as counters, bounds and locks go: most leave them still; an order
goes to the decoder; the others are the resets, the ticks and a fall of the ready line. -/
inductive EffectCase (s : State) : Instr → Prop
  | still {c : Instr} (h : Still s (s.effect c)) : EffectCase s c
  | order {c : Instr} (p : PortId) (b : OrderBlock) (h : s.effect c = s.orderTaken p b) : EffectCase s c
  | block (p : PortId) (l : List LineByte) : EffectCase s (.orderBlockReceived p l)
  | portReset (p : PortId) : EffectCase s (.portReset p)
  | powerOnReset : EffectCase s .powerOnReset
  | slot (d : DriveId) : EffectCase s (.slotEvent d)
  | index (d : DriveId) : EffectCase s (.indexEvent d)
  | readyFall (d : DriveId) : EffectCase s (.readyLineFall d)

theorem effectCase (s : State) : ∀ c, EffectCase s c
  | .powerOnReset => .powerOnReset
  | .portReset p => .portReset p
  | .orderBlockReceived p l => .block p l
  | .slotEvent d => .slot d
  | .indexEvent d => .index d
  | .readyLineFall d => .readyFall d
  | .read p _ _ _ | .write p _ _ _ | .verify p _ _ _ | .position p _ _ _ | .calibrate p _ _ | .declare p _ _ _ _ _
  | .retire p _ _ _ | .report p _ _ | .cancel p _ _ | .lock p _ _ | .unlock p _ _ | .seize p _ _ | .mapQuery p _ _ _
  | .mapList p _ _ | .mapFreeze p _ _ | .stringStatus p _ | .setParameters p _ _ => .order p _ rfl
  | .operationalLineFall p => .still (still_lineFall s p)
  | .operationalLineRise p => .still (still_lineRise s p)
  | .portLossTimerExpiry p => .still (still_lossExpired s p)
  | .select p => .still (still_select s p)
  | .answerTaken p => .still (still_answerTaken s p)
  | .accept p => .still (still_accepted s p)
  | .statusBlockTaken p => .still (still_statusTaken s p)
  | .attentionBlockTaken p => .still (still_attentionTaken s p)
  | .writeDataByte p b => .still (still_giveWriteByte s p b)
  | .readDataByteTaken p => .still (still_takeReadByte s p)
  | .reconnectWindowExpiry k => .still (keeps_windowExpired s k).toStill
  | .readyLineRise d code => .still (still_readyRise s d code)
  | .faultLineRise d => .still (still_faultRise s d)
  | .seekTimerExpiry d => .still (still_seekExpired s d)
  | .seekComplete d => .still (still_seekCompleted s d)
  | .identConfirmation d i => .still (still_confirmed s d i)
  | .claimMiss d => .still (keeps_missClaim s d).toStill
  | .sectorReadOutcome d r => .still (still_sectorOutcome s d r)
  | .sectorWriteComplete d => .still (keeps_writeSectorEnd s d).toStill
  | .waitingStepAdmitted => .still (keeps_admitWaiting s).toStill
  | .commitPointWriteEnd => .still (keeps_passHeldPoint s).toStill
  | .progressTimerExpiry => .still (still_progressExpired s)
  | .suspensionTimerExpiry => .still (still_suspensionExpired s)
  | .relocationResume => .still (still_resumeIdle s)
  | .headerStepComplete d w => .still (still_headerStepDone s d w)
  | .trackReadStepComplete d reads => .still (still_trackReadDone s d reads)
  | .trackWriteStepComplete d => .still (still_trackWriteDone s d)
  | .trackVerifyStepComplete d reads => .still (still_trackVerifyDone s d reads)
  | .scanHeaderRead d h => .still (still_scanHeader s d h)
  | .scanDiscardWrite d _ => .still (still_scanDiscarded s d)
  | .rebuildPass d reads => .still (still_scanRebuilt s d reads)
  | .internalRevolutionPulse => .still (still_revolutionPulse s)

/-- Every operation of a command keeps the invariants. -/
theorem sound_effect (s : State) (c : Instr) : Sound s (s.effect c) := by
  cases effectCase s c with
  | still h => exact h.sound
  | order p b h => exact h ▸ sound_orderTaken s p b
  | block p l => exact sound_blockTaken s p l
  | portReset p => exact sound_resetPort s p
  | powerOnReset => exact sound_powerOnReset s
  | slot d => exact (steady_tick s d false).sound
  | index d => exact (steady_tick s d true).sound
  | readyFall d => exact (steady_readyFall s d).sound

theorem sound_exec {c : Instr} {s t : State} (h : exec c s = .next t) : Sound s t :=
  eq_of_exec h ▸ (sound_effect s c).trans (still_settle _).sound

/-- The queue of commands is no part of what the invariants speak of. -/
theorem sound_withPending (s : State) (q : List Instr) : Sound s (s.withPending q) := ⟨id, id, id, id⟩

/-- Every step keeps each invariant of Safety.lean. -/
theorem sound_step {s t : State} (h : step s = .next t) : Sound s t := by
  unfold step at h
  split at h
  · cases h
    exact .refl s
  · exact (sound_withPending s _).trans (sound_exec h)

/-- Settles O8: a step is a command and the end of the event, and each of them is sound. -/
theorem stepKeepsDriveBounds : Obligations.StepKeepsDriveBounds := fun _ _ hs h => (sound_step h).drives hs

/-! ### What leaves the counter of one drive -/

/-- The counter of drive d and its valid mark stand as they stood. -/
def State.sameClock (d : DriveId) (s t : State) : Prop :=
  (t.drive d).rpc = (s.drive d).rpc ∧ (t.drive d).valid = (s.drive d).valid

theorem State.sameClock.trans {d : DriveId} {s t u : State} (h : s.sameClock d t) (g : t.sameClock d u) :
    s.sameClock d u := ⟨g.1.trans h.1, g.2.trans h.2⟩

theorem State.sameClock.refl (d : DriveId) (s : State) : s.sameClock d s := ⟨rfl, rfl⟩

theorem Still.sameClock {s t : State} (h : Still s t) (d : DriveId) : s.sameClock d t := h.clock d

theorem Keeps.sameClock {s t : State} (h : Keeps s t) (d : DriveId) : s.sameClock d t := h.clock d

theorem sameClock_modDrive (s : State) (d e : DriveId) (f : Drive → Drive)
    (hf : ∀ D : Drive, (f D).rpc = D.rpc ∧ (f D).valid = D.valid := by exact fun _ => ⟨rfl, rfl⟩) :
    s.sameClock d (s.modDrive e f) := by
  unfold State.sameClock
  rw [drive_modDrive]
  split
  · rename_i h
    exact h ▸ hf _
  · exact ⟨rfl, rfl⟩

theorem sameClock_modDrive_other (s : State) {d e : DriveId} (f : Drive → Drive) (h : d ≠ e) :
    s.sameClock d (s.modDrive e f) := by
  unfold State.sameClock
  rw [drive_modDrive_other _ _ _ _ h]
  exact ⟨rfl, rfl⟩

theorem State.sameClock.foldl {α : Type} {d : DriveId} (f : State → α → State) (h : ∀ (s : State) a, s.sameClock d (f s a))
    (l : List α) (s : State) : s.sameClock d (l.foldl f s) := by
  induction l generalizing s with
  | nil => exact .refl d s
  | cons a l ih => exact (h s a).trans (ih _)

/-- An accepted order moves no counter, whatever drive it names. -/
theorem sameClock_acceptDrive (s : State) (p : PortId) (tag : Byte) (d e : DriveId) (o : DriveOrder) :
    s.sameClock e (s.acceptDrive p tag d o) := by
  cases o with
  | read | write | verify | position | report | mapQuery | mapList => exact ⟨rfl, rfl⟩
  | lock | unlock | mapFreeze => exact sameClock_modDrive s e d _
  | calibrate =>
    show s.sameClock e (s.acceptCalibrate p tag d)
    unfold State.acceptCalibrate
    split
    · exact sameClock_modDrive (s.addRequest p tag d .calibrate [] none .seeking) e d _
    · exact ⟨rfl, rfl⟩
  | declare noCopy _ t =>
    show s.sameClock e (s.acceptDeclare p tag d noCopy t)
    unfold State.acceptDeclare
    dsimp only
    refine State.sameClock.trans (t := s.addRequest p tag d (.mapChange .declare noCopy) [] (some t) .queued) ⟨rfl, rfl⟩ ?_
    split
    · exact (sameClock_modDrive _ e d _).trans ((keeps_appendWork _ _).sameClock e)
    · split
      · exact (((keeps_modEntry _ _ _ _).toStill.trans (still_dropStalled _ _)).sameClock e).trans
          ((keeps_appendWork _ _).sameClock e)
      · exact ((keeps_modEntry _ _ _ _).trans (keeps_appendWork _ _)).sameClock e
  | retire t => exact (sameClock_modDrive (s.addRequest _ _ _ _ _ _ _) e d _).trans ((keeps_appendWork _ _).sameClock e)
  | cancel => exact (still_acceptCancel s p tag).sameClock e
  | seize =>
    show s.sameClock e (s.acceptSeize p d)
    unfold State.acceptSeize
    split <;> exact sameClock_modDrive _ e d _

theorem sameClock_takeOrder (s : State) (p : PortId) (b : OrderBlock) (e : DriveId) : s.sameClock e (s.takeOrder p b) := by
  unfold State.takeOrder
  split
  · unfold State.refused
    split
    · split <;> exact ⟨rfl, rfl⟩
    · exact ⟨rfl, rfl⟩
    · exact ⟨rfl, rfl⟩
  · show s.sameClock e (s.acceptOrder p b)
    unfold State.acceptOrder
    split
    · exact sameClock_acceptDrive s p _ _ e _
    · exact ⟨rfl, rfl⟩
    · exact ⟨rfl, rfl⟩

theorem sameClock_orderTaken (s : State) (p : PortId) (b : OrderBlock) (e : DriveId) :
    s.sameClock e (s.orderTaken p b) := by
  unfold State.orderTaken
  split
  · split
    · exact sameClock_takeOrder s p b e
    · exact ⟨rfl, rfl⟩
  · exact ⟨rfl, rfl⟩

theorem sameClock_blockTaken (s : State) (p : PortId) (l : List LineByte) (e : DriveId) :
    s.sameClock e (s.blockTaken p l) := by
  unfold State.blockTaken
  split
  · split
    · exact ⟨rfl, rfl⟩
    · split
      · exact ⟨rfl, rfl⟩
      · split
        · exact sameClock_takeOrder s p _ e
        · exact ⟨rfl, rfl⟩
  · exact ⟨rfl, rfl⟩

theorem sameClock_resetPort (s : State) (p : PortId) (e : DriveId) : s.sameClock e (s.resetPort p) := by
  unfold State.resetPort
  extract_lets requests before s1 s2 s3
  have h1 : s.sameClock e s1 := ((still_dropWaiting s p).sameClock e).trans ⟨rfl, rfl⟩
  have h2 : s1.sameClock e s2 := .foldl _ (fun t d => sameClock_modDrive t e d (Drive.freeLockOf p) fun D => by
    unfold Drive.freeLockOf
    split <;> exact ⟨rfl, rfl⟩) _ _
  have h3 : s2.sameClock e s3 := by
    unfold s3
    clear_value before
    split
    · exact (keeps_resetConnection s2 _).sameClock e
    · exact .refl e s2
  exact ((h1.trans h2).trans h3).trans ((Keeps.foldl _ keeps_resetRequest _ _).sameClock e)

/-! ### Ticks and the fall of the ready line on another drive -/

/-- The counters of slots of one drive are those of that drive alone. -/
theorem drive_advance (s : State) (d e : DriveId) (index : Bool) :
    (s.advance d index).drive e = if e = d then (s.drive d).advance index else s.drive e :=
  drive_modDrive s d e _

theorem sameClock_tick (s : State) {d e : DriveId} (index : Bool) (h : e ≠ d) : s.sameClock e (s.tick d index) := by
  unfold State.tick State.boundary
  split
  · exact .refl e s
  · extract_lets s1 s2
    have h1 : s.sameClock e s1 := by
      refine ((still_forceDue s d).sameClock e).trans ?_
      unfold State.sameClock
      rw [drive_advance, if_neg h]
      exact ⟨rfl, rfl⟩
    have h2 : s1.sameClock e s2 := by
      unfold s2
      split
      · exact (still_indexWork s1 d).sameClock e
      · exact .refl e s1
    exact (h1.trans h2).trans ((still_atBoundary s2 d).sameClock e)

/-- What a fall of the ready line does once the adapter has entered NOT-READY. -/
theorem keeps_loseReady_rest (s : State) (d : DriveId) : Keeps (s.modDrive d Drive.enterNotReady) (s.loseReady d) := by
  unfold State.loseReady
  dsimp only
  refine Keeps.trans ?_ (keeps_attend _ _)
  refine Keeps.trans ?_ (.modDrive _ _ _ rfl)
  refine Keeps.trans ?_ (.foldl _ (fun t pos => keeps_endMapChange t _ _) _ _)
  refine Keeps.trans ?_ (keeps_endDriveWork _ _ _)
  refine Keeps.trans ?_ (keeps_abortNotReady _ _)
  exact .of_eq rfl rfl rfl rfl rfl

theorem sameClock_readyFall (s : State) {d e : DriveId} (h : e ≠ d) : s.sameClock e (s.readyFall d) := by
  have h1 := sameClock_modDrive_other s (fun D => { D with readyLine := false }) h
  unfold State.readyFall
  dsimp only
  split
  · exact h1
  · exact (h1.trans (sameClock_modDrive_other _ Drive.enterNotReady h)).trans ((keeps_loseReady_rest _ d).sameClock e)

/-- Settles O11: of the operations that are not still, orders and port resets change no counter, and a tick or a fall of the
ready line only that of the drive it names. -/
theorem frameCounters : Obligations.FrameCounters := by
  intro c s t d h hslot hindex hfall hreset
  rw [eq_of_exec h]
  refine State.sameClock.trans (t := s.effect c) ?_ ((keeps_settle _).sameClock d)
  cases effectCase s c with
  | still h => exact h.sameClock d
  | order p b h => exact h ▸ sameClock_orderTaken s p b d
  | block p l => exact sameClock_blockTaken s p l d
  | portReset p => exact sameClock_resetPort s p d
  | powerOnReset => exact absurd rfl hreset
  | slot e => exact sameClock_tick s false fun he => hslot (he ▸ rfl)
  | index e => exact sameClock_tick s true fun he => hindex (he ▸ rfl)
  | readyFall e => exact sameClock_readyFall s fun he => hfall (he ▸ rfl)

end Sys2Proof.Machine

namespace Sys2Proof.Machine

/-! ### What the ending of one request leaves

An ending, a stop or the loss of a request touches that request's record, its path and its port's queue. `LeavesUnit` says
what it leaves of the relocation unit, the pools and the queues, `Ends q` what work on request q leaves beside that, and
`EndsApart q` that it leaves the map tables too. -/

/-- The relocation unit, its lists and the spare pools stand as they stood, and no status is taken out of a queue. -/
structure LeavesUnit (s t : State) : Prop where
  ru : t.ru = s.ru
  buffer : t.buffer = s.buffer
  workList : t.workList = s.workList
  stalled : t.stalled = s.stalled
  pool : ∀ d, (t.drive d).pool = (s.drive d).pool
  queue : ∀ p x, x ∈ (s.port p).statusQueue → x ∈ (t.port p).statusQueue

theorem LeavesUnit.refl (s : State) : LeavesUnit s s := ⟨rfl, rfl, rfl, rfl, fun _ => rfl, fun _ _ => id⟩

theorem LeavesUnit.trans {s t u : State} (h : LeavesUnit s t) (g : LeavesUnit t u) : LeavesUnit s u where
  ru := g.ru.trans h.ru
  buffer := g.buffer.trans h.buffer
  workList := g.workList.trans h.workList
  stalled := g.stalled.trans h.stalled
  pool d := (g.pool d).trans (h.pool d)
  queue p x hx := g.queue p x (h.queue p x hx)

theorem LeavesUnit.foldl {α : Type} (f : State → α → State) (h : ∀ s a, LeavesUnit s (f s a)) (l : List α) (s : State) :
    LeavesUnit s (l.foldl f s) := by
  induction l generalizing s with
  | nil => exact .refl s
  | cons a l ih => exact (h s a).trans (ih _)

/-- t stands after work on request q, if on any: no port newly connected or LOST, no path newly held, every other request
with its record, its paths and its place in progress. -/
structure Ends (q : Option Nat) (s t : State) : Prop extends LeavesUnit s t where
  connected : ∀ p k, (t.port p).connectedTo k = true → (s.port p).connectedTo k = true
  notLost : ∀ p, (s.port p).state ≠ .lost → (t.port p).state ≠ .lost
  holder : ∀ k pos, (t.path k).holder = some pos → (s.path k).holder = some pos
  held : ∀ k pos, some pos ≠ q → (s.path k).holder = some pos → (t.path k).holder = some pos
  other : ∀ pos, some pos ≠ q → t.request? pos = s.request? pos
  active : ∀ d pos, some pos ≠ q → (s.drive d).active = some pos → (t.drive d).active = some pos

/-- As `Ends`, and every map table stands as it stood. -/
structure EndsApart (q : Option Nat) (s t : State) : Prop extends Ends q s t where
  map : ∀ d, (t.drive d).map = (s.drive d).map

theorem Ends.trans {q : Option Nat} {s t u : State} (h : Ends q s t) (g : Ends q t u) : Ends q s u where
  toLeavesUnit := h.toLeavesUnit.trans g.toLeavesUnit
  connected p k hk := h.connected p k (g.connected p k hk)
  notLost p hp := g.notLost p (h.notLost p hp)
  holder k pos hk := h.holder k pos (g.holder k pos hk)
  held k pos hne hk := g.held k pos hne (h.held k pos hne hk)
  other pos hne := (g.other pos hne).trans (h.other pos hne)
  active d pos hne hd := g.active d pos hne (h.active d pos hne hd)

theorem EndsApart.trans {q : Option Nat} {s t u : State} (h : EndsApart q s t) (g : EndsApart q t u) : EndsApart q s u where
  toEnds := h.toEnds.trans g.toEnds
  map d := (g.map d).trans (h.map d)

/-- A state that differs in other fields only. -/
theorem EndsApart.of_eq {q : Option Nat} {s t : State} (h1 : t.ports = s.ports := by rfl) (h2 : t.drives = s.drives := by rfl)
    (h3 : t.paths = s.paths := by rfl) (h4 : t.records = s.records := by rfl) (h5 : t.ru = s.ru := by rfl)
    (h6 : t.buffer = s.buffer := by rfl) (h7 : t.workList = s.workList := by rfl)
    (h8 : t.stalled = s.stalled := by rfl) : EndsApart q s t where
  ru := h5
  buffer := h6
  workList := h7
  stalled := h8
  pool d := by simp [State.drive, h2]
  queue p x := by simp [State.port, h1]
  connected p k := by simp [State.port, h1]
  notLost p := by simp [State.port, h1]
  holder k pos := by simp [State.path, h3]
  held k pos _ := by simp [State.path, h3]
  other pos _ := by simp [State.request?, h4]
  active d pos _ := by simp [State.drive, h2]
  map d := by simp [State.drive, h2]

theorem EndsApart.refl (q : Option Nat) (s : State) : EndsApart q s s := .of_eq

theorem EndsApart.modPort {q : Option Nat} (s : State) (p : PortId) (f : Port → Port)
    (hq : ∀ x ∈ (s.port p).statusQueue, x ∈ (f (s.port p)).statusQueue := by exact fun _ => id)
    (hc : ∀ k, (f (s.port p)).connectedTo k = true → (s.port p).connectedTo k = true := by exact fun _ => id)
    (hl : (s.port p).state ≠ .lost → (f (s.port p)).state ≠ .lost := by exact id) : EndsApart q s (s.modPort p f) where
  ru := rfl
  buffer := rfl
  workList := rfl
  stalled := rfl
  pool _ := rfl
  queue r x := by
    rw [port_modPort]
    split
    · rename_i h
      exact h ▸ hq x
    · exact id
  connected r k := by
    rw [port_modPort]
    split
    · rename_i h
      exact h ▸ hc k
    · exact id
  notLost r := by
    rw [port_modPort]
    split
    · rename_i h
      exact h ▸ hl
    · exact id
  holder _ _ := id
  held _ _ _ := id
  other _ _ := rfl
  active _ _ _ := id
  map _ := rfl

theorem EndsApart.modDrive {q : Option Nat} (s : State) (d : DriveId) (f : Drive → Drive)
    (hp : (f (s.drive d)).pool = (s.drive d).pool := by rfl) (hm : (f (s.drive d)).map = (s.drive d).map := by rfl)
    (ha : ∀ pos, some pos ≠ q → (s.drive d).active = some pos → (f (s.drive d)).active = some pos := by
      exact fun _ _ => id) : EndsApart q s (s.modDrive d f) where
  ru := rfl
  buffer := rfl
  workList := rfl
  stalled := rfl
  pool e := by rw [drive_modDrive]; split <;> simp_all
  queue _ _ := id
  connected _ _ := id
  notLost _ := id
  holder _ _ := id
  held _ _ _ := id
  other _ _ := rfl
  active e pos hne := by
    rw [drive_modDrive]
    split
    · rename_i h
      exact h ▸ ha pos hne
    · exact id
  map e := by rw [drive_modDrive]; split <;> simp_all

theorem EndsApart.modPath {q : Option Nat} (s : State) (k : PathId) (f : Path → Path)
    (h1 : ∀ pos, (f (s.path k)).holder = some pos → (s.path k).holder = some pos := by exact fun _ => id)
    (h2 : ∀ pos, some pos ≠ q → (s.path k).holder = some pos → (f (s.path k)).holder = some pos := by
      exact fun _ _ => id) : EndsApart q s (s.modPath k f) where
  toLeavesUnit := ⟨rfl, rfl, rfl, rfl, fun _ => rfl, fun _ _ => id⟩
  connected _ _ := id
  notLost _ := id
  holder j pos := by
    rw [path_modPath]
    split
    · rename_i h
      exact h ▸ h1 pos
    · exact id
  held j pos hne := by
    rw [path_modPath]
    split
    · rename_i h
      exact h ▸ h2 pos hne
    · exact id
  other _ _ := rfl
  active _ _ _ := id
  map _ := rfl

theorem request?_modRequest_other (s : State) {pos q : Nat} (f : Record → Record) (hf : ∀ x, (f x).pos = x.pos)
    (h : pos ≠ q) : (s.modRequest q f).request? pos = s.request? pos := by
  have same : (fun r : Record => r.pos == pos) ∘ (fun r => if r.pos == q then f r else r) = fun r => r.pos == pos := by
    funext x
    simp only [Function.comp]
    split <;> simp [hf]
  unfold State.request?
  rw [records_modRequest, List.find?_map, same]
  cases hr : s.records.find? fun r => r.pos == pos with
  | none => rfl
  | some r =>
    have hp : r.pos = pos := by simpa using List.find?_some hr
    simp [hp, h]

theorem request?_freeRequest_other (s : State) {pos q : Nat} (h : pos ≠ q) :
    (s.freeRequest q).request? pos = s.request? pos := by
  unfold State.request?
  rw [records_freeRequest, List.find?_filter]
  congr 1
  funext r
  by_cases hr : r.pos = pos
  · simp [hr, h]
  · simp [hr]

theorem EndsApart.modRequest (q : Nat) (s : State) (f : Record → Record) (hf : ∀ x, (f x).pos = x.pos := by exact fun _ => rfl) :
    EndsApart (some q) s (s.modRequest q f) where
  toLeavesUnit := ⟨rfl, rfl, rfl, rfl, fun _ => rfl, fun _ _ => id⟩
  connected _ _ := id
  notLost _ := id
  holder _ _ := id
  held _ _ _ := id
  other _ hne := request?_modRequest_other s f hf fun h => hne (congrArg some h)
  active _ _ _ := id
  map _ := rfl

theorem EndsApart.freeRequest (q : Nat) (s : State) : EndsApart (some q) s (s.freeRequest q) where
  toLeavesUnit := ⟨rfl, rfl, rfl, rfl, fun _ => rfl, fun _ _ => id⟩
  connected _ _ := id
  notLost _ := id
  holder _ _ := id
  held _ _ _ := id
  other _ hne := request?_freeRequest_other s fun h => hne (congrArg some h)
  active _ _ _ := id
  map _ := rfl

/-! ### Paths and ports -/

theorem not_connectedTo {P : Port} (h : P.dataConn = none) (k : PathId) : P.connectedTo k = false := by
  simp [Port.connectedTo, h]

theorem endsApart_disconnect (q : Option Nat) (s : State) (k : PathId) : EndsApart q s (s.disconnect k) := by
  unfold State.disconnect
  split
  · exact .refl q s
  · split
    · refine .modPort s _ _ (hc := fun j hj => ?_) (hl := fun _ h => nomatch h)
      rw [not_connectedTo (by rfl) j] at hj
      cases hj
    · exact .refl q s

theorem endsApart_withdrawAsk (q : Option Nat) (s : State) (k : PathId) : EndsApart q s (s.withdrawAsk k) := by
  unfold State.withdrawAsk
  split
  · exact .refl q s
  · exact .modPort s _ _

theorem endsApart_closeGates? (q : Option Nat) (s : State) (d : Option DriveId) : EndsApart q s (s.closeGates? d) := by
  unfold State.closeGates?
  split
  · exact .refl q s
  · exact .modDrive s _ _

theorem endsApart_giveOffset (q : Option Nat) (s : State) (d : DriveId) (o : Offset) : EndsApart q s (s.giveOffset d o) :=
  .modDrive s d _

theorem path_disconnect (s : State) (k j : PathId) : (s.disconnect k).path j = s.path j := by
  unfold State.disconnect
  split
  · rfl
  · split <;> rfl

theorem path_withdrawAsk (s : State) (k j : PathId) : (s.withdrawAsk k).path j = s.path j := by
  unfold State.withdrawAsk
  split <;> rfl

theorem path_closeGates? (s : State) (d : Option DriveId) (j : PathId) : (s.closeGates? d).path j = s.path j := by
  unfold State.closeGates?
  split <;> rfl

/-- A path released is FREE, and the other path stands. -/
theorem path_releasePath (s : State) (k j : PathId) :
    (s.releasePath k).path j = if j = k then Path.free else s.path j := by
  unfold State.releasePath
  dsimp only
  rw [path_modPath]
  split
  · rfl
  · rw [path_closeGates?, path_withdrawAsk, path_disconnect]
    split <;> rfl

/-- The release of a path is work on the request that holds it. -/
theorem endsApart_releasePath (s : State) (k : PathId) : EndsApart (s.path k).holder s (s.releasePath k) := by
  unfold State.releasePath
  extract_lets P written
  have h1 : EndsApart P.holder s written := by
    unfold written
    split
    · rename_i pos hpos
      exact hpos ▸ .modRequest pos s _
    · exact .refl _ s
  have same : written.path k = s.path k := by
    unfold written
    split <;> rfl
  refine (((h1.trans (endsApart_disconnect _ _ k)).trans (endsApart_withdrawAsk _ _ k)).trans
    (endsApart_closeGates? _ _ _)).trans (.modPath _ k _ (fun _ hp => nomatch hp) fun pos hne hp => ?_)
  rw [path_closeGates?, path_withdrawAsk, path_disconnect, same] at hp
  exact absurd hp.symm hne

theorem endsApart_clearDrive (q : Nat) (s : State) : EndsApart (some q) s (s.clearDrive q) := by
  unfold State.clearDrive
  split
  · exact .refl (some q) s
  · refine EndsApart.trans (.modDrive s _ _ ?_ ?_ ?_) .of_eq
    · split <;> rfl
    · split <;> rfl
    · intro pos hne hp
      rw [hp, if_neg (by simpa using hne)]
      exact hp

theorem endsApart_leaveDrive (q : Nat) (s : State) : EndsApart (some q) s (s.leaveDrive q) :=
  (endsApart_clearDrive q s).trans .of_eq

/-! ### Statuses and endings -/

theorem endsApart_passStatus (q : Option Nat) (s : State) (p : PortId) (r : Record) (i : EndInfo) :
    EndsApart q s (s.passStatus p r i) := by
  unfold State.passStatus
  split
  · split <;> exact .modPort s _ _
  · exact .refl q s

theorem endsApart_presentStatus (q : Option Nat) (s : State) (p : PortId) (k : PathId) (e : StatusEntry)
    (h : (s.port p).connectedTo k = true) : EndsApart q s (s.presentStatus p k e) := by
  refine .modPort s p _ (hc := fun j hj => ?_) (hl := fun _ h => nomatch h)
  have : k = j := by simpa [Port.connectedTo, Port.dataConn] using hj
  exact this ▸ h

theorem endsApart_issueStatus (q : Nat) (s : State) (i : EndInfo) : EndsApart (some q) s (s.issueStatus q i) := by
  unfold State.issueStatus
  split
  · exact .refl (some q) s
  · split
    · exact .refl (some q) s
    · split
      · exact .refl (some q) s
      · split
        · exact .freeRequest q s
        · extract_lets marked placed
          have h1 : EndsApart (some q) s marked := .modRequest q s _
          have h2 : EndsApart (some q) marked placed := by
            unfold placed
            split
            · rename_i h
              exact endsApart_presentStatus (some q) marked _ _ _ (ownConnection_connected h)
            · exact .modPort marked _ _ (hq := fun x hx => List.mem_append_left _ hx)
          exact (h1.trans h2).trans (endsApart_passStatus (some q) _ _ _ _)

/-- The path found for a request is held by it. -/
theorem holder_of_pathOf {s : State} {pos : Nat} {k : PathId} (h : s.pathOf pos = some k) :
    (s.path k).holder = some pos := by
  simpa using List.find?_some h

/-- The release of the path found for a request is work on that request. -/
theorem endsApart_releasePath_of {q : Nat} {s : State} {k : PathId} (h : s.pathOf q = some k) :
    EndsApart (some q) s (s.releasePath k) :=
  holder_of_pathOf h ▸ endsApart_releasePath s k

theorem endsApart_endRequest (q : Nat) (s : State) (i : EndInfo) : EndsApart (some q) s (s.endRequest q i) := by
  unfold State.endRequest
  extract_lets t
  have h1 : EndsApart (some q) s t := (endsApart_leaveDrive q s).trans (endsApart_issueStatus q _ i)
  split
  · exact h1
  · rename_i k hk
    have release := h1.trans (endsApart_releasePath_of hk)
    split
    · exact release
    · split
      · exact (h1.trans (endsApart_closeGates? _ t _)).trans (.modPath _ k _)
      · exact release

theorem endsApart_endHere (q : Nat) (s : State) (st : Status) : EndsApart (some q) s (s.endHere q st) := by
  unfold State.endHere
  split
  · exact .refl (some q) s
  · exact endsApart_endRequest q s _

theorem endsApart_endStopped (q : Nat) (s : State) (st : Status) : EndsApart (some q) s (s.endStopped q st) := by
  unfold State.endStopped
  split
  · exact .refl (some q) s
  · exact (endsApart_giveOffset _ s _ _).trans (endsApart_endHere q _ st)

theorem endsApart_stopRequest (q : Nat) (s : State) : EndsApart (some q) s (s.stopRequest q) := by
  unfold State.stopRequest
  split
  · exact .refl (some q) s
  · extract_lets t u
    have h1 : EndsApart (some q) s t := (endsApart_giveOffset _ s _ _).trans (endsApart_leaveDrive q _)
    have h2 : EndsApart (some q) t u := by
      unfold u
      split
      · rename_i k hk
        exact endsApart_releasePath_of hk
      · exact .refl (some q) t
    exact (h1.trans h2).trans (.freeRequest q _)

theorem endsApart_part (q : Option Nat) (s : State) (p : PortId) (k : PathId) :
    EndsApart q s (s.modPort p fun P => P.part k) := by
  rcases part_eq (s.port p) k with h | ⟨e, he, h⟩
  · exact .modPort s p _ (by simp [h]) (by simp [h]) (by simp [h])
  · refine .modPort s p _ (by simp [h]) (fun j hj => ?_) (by simp [h])
    rw [h, not_connectedTo (by rfl)] at hj
    cases hj

/-- The end of the last sector of a WRITE that has ended is work on the request that holds the path. -/
theorem endsApart_finishParity (s : State) (k : PathId) (d : DriveId) :
    EndsApart (s.path k).holder s (s.finishParity k d) := by
  unfold State.finishParity
  extract_lets P t u
  have h1 : EndsApart P.holder s t := by
    refine .modDrive s d _ ?_ ?_ fun pos hne hp => ?_
    · split <;> rfl
    · split <;> rfl
    · rw [hp, if_neg (by simpa using hne)]
      exact hp
  have h2 : EndsApart P.holder s u := h1.trans .of_eq
  split
  · rename_i p _
    have h3 : EndsApart P.holder s (u.modPort p fun Q => Q.part k) := h2.trans (endsApart_part _ u p k)
    exact h3.trans (endsApart_releasePath (u.modPort p fun Q => Q.part k) k)
  · exact h2.trans (endsApart_releasePath u k)

theorem endsApart_finishParity? (q : Nat) (s : State) (d : DriveId) :
    EndsApart (some q) s (match s.pathOf q with
      | some k => s.finishParity k d
      | none => s) := by
  split
  · rename_i k hk
    exact holder_of_pathOf hk ▸ endsApart_finishParity s k d
  · exact .refl (some q) s

theorem endsApart_releasePath? (q : Nat) (s : State) :
    EndsApart (some q) s (match s.pathOf q with
      | some k => s.releasePath k
      | none => s) := by
  split
  · rename_i k hk
    exact endsApart_releasePath_of hk
  · exact .refl (some q) s

theorem endsApart_cutRequest (q : Nat) (s : State) (d : DriveId) (st : Status) :
    EndsApart (some q) s (s.cutRequest d q st) := by
  unfold State.cutRequest
  split
  · exact endsApart_finishParity? q s d
  · split
    · exact .refl (some q) s
    · split
      · exact endsApart_stopRequest q s
      · split
        · exact endsApart_finishParity? q s d
        · exact (endsApart_releasePath? q s).trans (endsApart_endRequest q _ _)

theorem Ends.modEntry (q : Option Nat) (s : State) (d : DriveId) (home : Track) (f : MapEntry → MapEntry) :
    Ends q s (s.modEntry d home f) where
  ru := rfl
  buffer := rfl
  workList := rfl
  stalled := rfl
  pool e := pool_modEntry s d e home f
  queue _ _ := id
  connected _ _ := id
  notLost _ := id
  holder _ _ := id
  held _ _ _ := id
  other _ _ := rfl
  active e pos _ := by
    unfold State.modEntry
    rw [drive_modDrive]
    split
    · rename_i h
      exact h ▸ id
    · exact id

theorem ends_endMapChange (q : Nat) (s : State) (st : Status) : Ends (some q) s (s.endMapChange q st) := by
  unfold State.endMapChange
  split
  · exact (EndsApart.refl (some q) s).toEnds
  · refine Ends.trans ?_ (endsApart_issueStatus q _ _).toEnds
    split
    · exact .modEntry _ s _ _ _
    · exact (EndsApart.refl (some q) s).toEnds

/-! ### The relocation step removed -/

/-- The record of a step that has been placed. -/
def StepPlace.request? : StepPlace → Option Nat
  | .placed pos => some pos
  | .point | .waiting _ => none

theorem placed_of_request? {x : StepPlace} {pos : Nat} (h : x.request? = some pos) : x = .placed pos := by
  cases x with
  | placed n => exact congrArg _ (Option.some.inj h)
  | point | waiting => cases h

/-- The removal of the unit's step is work on the record of the step, and then the step's place is the point. -/
theorem removeStep_eq (s : State) :
    ∃ u, EndsApart s.ru.step.request? s u ∧ s.removeStep = u.modRu fun x => { x with step := .point } := by
  refine ⟨_, ?_, rfl⟩
  split
  · rename_i pos h
    exact h ▸ endsApart_stopRequest pos s
  · exact .refl _ s

/-! ### A request still to end -/

theorem State.endedWith.of_leaves {s t : State} {p : PortId} {r : Record} {st : Status}
    (h : s.endedWith p r st) (e : LeavesUnit s t) : t.endedWith p r st := by
  obtain ⟨x, hx, rest⟩ := h
  exact ⟨x, e.queue p x hx, rest⟩

theorem pathOf_of_ends {q : Option Nat} {s t : State} {pos : Nat} (e : Ends q s t) (h : some pos ≠ q) :
    t.pathOf pos = s.pathOf pos := by
  unfold State.pathOf
  congr 1
  funext k
  rw [Bool.eq_iff_iff, beq_iff_eq, beq_iff_eq]
  exact ⟨e.holder k pos, e.held k pos h⟩

/-- Work on another request leaves a request as it was to end. -/
theorem State.endsQueued.of_ends {q : Option Nat} {s t : State} {p : PortId} {r : Record} (h : s.endsQueued p r)
    (e : Ends q s t) (hne : some r.pos ≠ q) : t.endsQueued p r := by
  obtain ⟨h1, h2, h3, h4, h5, h6⟩ := h
  refine ⟨(e.other _ hne).trans h1, h2, h3, h4, e.notLost p h5, ?_⟩
  unfold State.ownConnection at h6 ⊢
  rw [pathOf_of_ends e hne]
  split at h6
  · rename_i k hk
    rw [ite_eq_right_iff]
    intro hc
    rw [if_pos (e.connected p k hc)] at h6
    cases h6
  · rfl

/-- A request whose path none holds is not connected. -/
theorem ownConnection_of_no_holder {s : State} {p : PortId} {pos : Nat} (h : ∀ k, (s.path k).holder ≠ some pos) :
    s.ownConnection p pos = none := by
  unfold State.ownConnection
  split
  · rename_i k hk
    exact absurd (holder_of_pathOf hk) (h k)
  · rfl

theorem request?_of_mem {s : State} {r : Record} (h : s.recordsOrdered) (hr : r ∈ s.records) :
    s.request? r.pos = some r := by
  unfold State.request?
  obtain ⟨asc, _⟩ := h
  revert hr asc
  induction s.records with
  | nil => exact fun hr => nomatch hr
  | cons a l ih =>
    intro hr asc
    obtain ⟨first, rest⟩ := List.pairwise_cons.1 asc
    rcases List.mem_cons.1 hr with rfl | hl
    · simp
    · have : a.pos ≠ r.pos := Nat.ne_of_lt (first r hl)
      rw [List.find?_cons_of_neg (by simpa using this)]
      exact ih hl rest

section

variable {α : Type} {f : State → α → State} {pos : α → Nat} {p : PortId} {r : Record} {st : Status}

/-- Of a list of requests ended one after the other, each that was still to end has ended, and so has one that had ended
before. -/
theorem ending_foldl (he : ∀ t a, Ends (some (pos a)) t (f t a))
    (hit : ∀ t a, pos a = r.pos → t.endsQueued p r → (f t a).endedWith p r st) (l : List α) {s : State}
    (h : s.endedWith p r st ∨ s.endsQueued p r) :
    (l.foldl f s).endedWith p r st ∨ (l.foldl f s).endsQueued p r ∧ ∀ a ∈ l, pos a ≠ r.pos := by
  induction l generalizing s with
  | nil => exact h.imp_right fun g => ⟨g, fun _ ha => nomatch ha⟩
  | cons a l ih =>
    rcases h with h | h
    · exact .inl (h.of_leaves (.foldl f (fun t a => (he t a).toLeavesUnit) (a :: l) s))
    · by_cases ha : pos a = r.pos
      · exact .inl ((hit s a ha h).of_leaves (.foldl f (fun t a => (he t a).toLeavesUnit) l _))
      · refine (ih (.inr (h.of_ends (he s a) fun x => ha (Option.some.inj x).symm))).imp_right fun g => ⟨g.1, ?_⟩
        intro b hb
        rcases List.mem_cons.1 hb with rfl | hb
        · exact ha
        · exact g.2 b hb

end

theorem endedWith_endMapChange {s : State} {p : PortId} {r : Record} (h : s.endsQueued p r) (st : Status) :
    (s.endMapChange r.pos st).endedWith p r st := endedWith_endLinked h st

end Sys2Proof.Machine

namespace Sys2Proof.Machine

/-- A command whose operation leads to t ends its event there. -/
theorem exec_of_effect {c : Instr} {s t : State} (h : s.effect c = t) : exec c s = .next t.settle :=
  h ▸ exec_eq_effect c s

/-! ### The fall of the ready line -/

theorem leavesUnit_attend (s : State) (d : DriveId) : LeavesUnit s (s.attend d) := by
  obtain ⟨drives, ru, stalled, workList, buffer⟩ := attend_same s d
  exact ⟨ru, buffer, workList, stalled, fun e => by unfold State.drive; rw [drives],
    fun p x hx => by rw [statusQueue_attend]; exact hx⟩

theorem leavesUnit_noActive (s : State) (d : DriveId) : LeavesUnit s (s.modDrive d Drive.noActive) where
  ru := rfl
  buffer := rfl
  workList := rfl
  stalled := rfl
  pool e := by rw [drive_modDrive]; split <;> simp_all [Drive.noActive]
  queue _ _ := id

theorem leavesUnit_endDriveWork (s : State) (d : DriveId) (st : Status) : LeavesUnit s (s.endDriveWork d st) := by
  unfold State.endDriveWork
  refine LeavesUnit.trans ?_ (.foldl _ (fun t (r : Record) => (endsApart_endHere r.pos t st).toLeavesUnit) _ _)
  split
  · exact (endsApart_cutRequest _ s d st).toLeavesUnit
  · exact .refl s

/-- The unit as a fall of the ready line leaves it before it ends anything: the adapter NOT-READY, its entries off the work
list and the stalled order. -/
def State.unready (s : State) (d : DriveId) : State :=
  ((s.modDrive d fun D => { D with readyLine := false }).modDrive d Drive.enterNotReady).forgetEntries d

/-- The requests of the drive ended, in the order of R17. -/
def State.endUnready (s : State) (d : DriveId) (changes : List Nat) : State :=
  changes.foldl (fun t pos => t.endMapChange pos .driveNotReady) (s.endDriveWork d .driveNotReady)

theorem readyFall_eq {s : State} {d : DriveId} (h : (s.drive d).state ≠ .notReady) :
    s.readyFall d = ((((s.unready d).abortNotReady d).endUnready d (s.mapChanges d)).modDrive d Drive.noActive).attend d := by
  unfold State.readyFall
  dsimp only
  rw [if_neg (by simpa using h)]
  rfl

theorem leavesUnit_endUnready (s : State) (d : DriveId) (l : List Nat) : LeavesUnit s (s.endUnready d l) :=
  (leavesUnit_endDriveWork s d _).trans (.foldl _ (fun t q => (ends_endMapChange q t _).toLeavesUnit) _ _)

theorem keeps_endUnready (s : State) (d : DriveId) (l : List Nat) : Keeps s (s.endUnready d l) :=
  (keeps_endDriveWork s d _).trans (.foldl _ (fun t q => keeps_endMapChange t q _) _ _)

/-- What a fall of the ready line does after the abort takes nothing from the relocation unit, the pools and the queues. -/
theorem leavesUnit_readyFall {s : State} {d : DriveId} (h : (s.drive d).state ≠ .notReady) :
    LeavesUnit ((s.unready d).abortNotReady d) (s.readyFall d) := by
  rw [readyFall_eq h]
  exact ((leavesUnit_endUnready _ d _).trans (leavesUnit_noActive _ d)).trans (leavesUnit_attend _ d)

/-- The abort by NOT-READY is the removal of the unit's step, and beside that touches the unit's record and buffer alone. -/
theorem abortNotReady_eq (s : State) (d : DriveId) :
    ∃ u x b, EndsApart s.ru.step.request? s u ∧ s.abortNotReady d = { u with ru := x, buffer := b } := by
  have keep : ∃ u x b, EndsApart s.ru.step.request? s u ∧ s = { u with ru := x, buffer := b } :=
    ⟨s, s.ru, s.buffer, .refl _ s, rfl⟩
  have idle : ∃ u x b, EndsApart s.ru.step.request? s u ∧ s.removeStep.ruIdle = { u with ru := x, buffer := b } := by
    obtain ⟨u, hu, h⟩ := removeStep_eq s
    exact ⟨u, Relocation.reset, none, hu, by rw [h]; rfl⟩
  unfold State.abortNotReady
  split
  · split
    · exact idle
    · exact keep
  · split
    · exact idle
    · exact keep
  · exact keep

theorem abortNotReady_in_hand {s : State} {d : DriveId} {ref : EntryRef} (h : s.ru.entry = some ref) (hd : ref.drive = d) :
    s.abortNotReady d = s.removeStep.ruIdle := by
  unfold State.abortNotReady
  simp [h, hd]

theorem unready_drive (s : State) (d : DriveId) :
    (s.unready d).drive d = { s.drive d with readyLine := false }.enterNotReady := by
  unfold State.unready
  show ((s.modDrive d _).modDrive d Drive.enterNotReady).drive d = _
  rw [drive_modDrive_same, drive_modDrive_same]

/-! ### The endings of a fall of the ready line -/

/-- Of a request, its record as the release of its path leaves it (R105). -/
theorem request?_releasePath {s : State} {k : PathId} {r : Record} (h : (s.path k).holder = some r.pos)
    (q : s.request? r.pos = some r) :
    (s.releasePath k).request? r.pos = some { r with late := (s.path k).late } := by
  have records : (s.releasePath k).records = (s.modRequest r.pos fun x => { x with late := (s.path k).late }).records := by
    have a (t : State) : (t.disconnect k).records = t.records := by
      unfold State.disconnect
      split
      · rfl
      · split <;> rfl
    have b (t : State) : (t.withdrawAsk k).records = t.records := by
      unfold State.withdrawAsk
      split <;> rfl
    have c (t : State) (d : Option DriveId) : (t.closeGates? d).records = t.records := by
      unfold State.closeGates?
      split <;> rfl
    unfold State.releasePath
    simp only [h, records_modPath, a, b, c]
  unfold State.request?
  rw [records]
  exact request?_modRequest _ (fun _ => rfl) q

/-- A request in progress cut off with its drive ends with its status in its port's queue: its path is released first, so that
nothing connects it. -/
theorem endedWith_cutRequest {s : State} {d : DriveId} {p : PortId} {r : Record} (st : Status)
    (hq : s.request? r.pos = some r) (hp : r.source = .port p) (he : r.ended = false) (hd : r.detached = false)
    (hr : r.resetStop = false) (hk : r.kind.isStep = false) (hl : (s.port p).state ≠ .lost)
    (one : ∀ j k, (s.path j).holder = some r.pos → (s.path k).holder = some r.pos → j = k) :
    (s.cutRequest d r.pos st).endedWith p r st := by
  obtain ⟨residual, address, status⟩ := infoHere_at s r st
  unfold State.cutRequest
  simp only [hq, hk, hr, he, Bool.false_eq_true, if_false]
  split
  · rename_i k hpath
    have hold := holder_of_pathOf hpath
    have free (j : PathId) : ((s.releasePath k).path j).holder ≠ some r.pos := by
      rw [path_releasePath]
      split
      · exact nofun
      · rename_i hj
        exact fun h => hj (one j k h hold)
    have key : (s.releasePath k).endsQueued p { r with late := (s.path k).late } :=
      ⟨request?_releasePath (r := r) hold hq, hp, he, hd, (endsApart_releasePath s k).notLost p hl, ownConnection_of_no_holder free⟩
    have ended : ((s.releasePath k).endRequest r.pos (s.infoHere r st)).endedWith p r (s.infoHere r st).status :=
      endedWith_endRequest key _ residual address
    rwa [status] at ended
  · rename_i hpath
    have key : s.endsQueued p r := ⟨hq, hp, he, hd, hl, by unfold State.ownConnection; rw [hpath]⟩
    have ended := endedWith_endRequest key _ residual address
    rwa [status] at ended

/-- A request of a drive whose work ends: in progress or waiting in the queue, it ends with that status; any other still
stands to end. -/
theorem ending_endDriveWork {s : State} {d : DriveId} {p : PortId} {r : Record} (st : Status)
    (hq : s.request? r.pos = some r) (hp : r.source = .port p) (he : r.ended = false) (hd : r.detached = false)
    (hr : r.resetStop = false) (hk : r.kind.isStep = false) (hl : (s.port p).state ≠ .lost) (drive : r.drive = d)
    (one : ∀ j k, (s.path j).holder = some r.pos → (s.path k).holder = some r.pos → j = k)
    (held : (s.drive d).active ≠ some r.pos → ∀ k, (s.path k).holder ≠ some r.pos) :
    (s.endDriveWork d st).endedWith p r st
      ∨ (s.endDriveWork d st).endsQueued p r ∧ (s.drive d).active ≠ some r.pos ∧ r.isWaiting = false := by
  have fold (t : State) (l : List Record) := ending_foldl (f := fun t r => t.endHere r.pos st) (pos := Record.pos)
    (s := t) (p := p) (r := r) (st := st) (fun t a => (endsApart_endHere a.pos t st).toEnds)
    (fun t a ha h => ha ▸ endedWith_endHere h st) l
  unfold State.endDriveWork
  dsimp only
  by_cases ha : (s.drive d).active = some r.pos
  · rw [ha]
    exact .inl ((endedWith_cutRequest st hq hp he hd hr hk hl one).of_leaves
      (.foldl _ (fun t (r : Record) => (endsApart_endHere r.pos t st).toLeavesUnit) _ _))
  have key : s.endsQueued p r := ⟨hq, hp, he, hd, hl, ownConnection_of_no_holder (held ha)⟩
  refine (fold _ _ (.inr ?_)).imp_right fun ⟨h, out⟩ => ⟨h, ha, ?_⟩
  · split
    · rename_i pos hpos
      exact key.of_ends (endsApart_cutRequest pos s d st).toEnds fun h => ha (hpos.trans h.symm)
    · exact key
  cases w : r.isWaiting with
  | false => rfl
  | true =>
    have mem : r ∈ s.queue d := List.mem_filter.2 ⟨List.mem_of_find?_eq_some hq, by simp only [drive, w, BEq.rfl, Bool.and_self]⟩
    exact (out r (List.mem_filter.2 ⟨mem, by rw [hk]; rfl⟩) rfl).elim

/-- Every host request of the drive that R17 names ends DRIVE NOT READY with its sectors not transferred as residual. -/
theorem endedWith_readyFall {s : State} {d : DriveId} {r : Record} {p : PortId} (h : (s.drive d).state ≠ .notReady)
    (ordered : s.recordsOrdered) (mem : r ∈ s.records) (drive : r.drive = d) (hp : r.source = .port p)
    (he : r.ended = false) (hd : r.detached = false) (hr : r.resetStop = false) (hk : r.kind.isStep = false)
    (hl : (s.port p).state ≠ .lost) (hstep : s.ru.step ≠ .placed r.pos)
    (hold : ∀ k, (s.path k).holder = some r.pos →
      (s.drive d).active = some r.pos ∧ ∀ j, (s.path j).holder = some r.pos → j = k)
    (named : (s.drive d).active = some r.pos ∨ r.isWaiting = true ∨ r.kind.isMapChange = true) :
    (s.readyFall d).endedWith p r .driveNotReady := by
  obtain ⟨u, x, b, hu, hv⟩ := abortNotReady_eq (s.unready d) d
  have other : some r.pos ≠ (s.unready d).ru.step.request? := fun e => hstep (placed_of_request? e.symm)
  have hq : u.request? r.pos = some r := (hu.other _ other).trans (request?_of_mem ordered mem)
  have active : (s.drive d).active = some r.pos → (u.drive d).active = some r.pos := fun ha =>
    hu.active d _ other (by rw [unready_drive]; exact ha)
  have work := ending_endDriveWork (s := { u with ru := x, buffer := b }) .driveNotReady hq hp he hd hr hk
    (hu.notLost p hl) drive
    (fun j k hj hk => (hold k (hu.holder k _ hk)).2 j (hu.holder j _ hj))
    (fun ha k hk => ha (active (hold k (hu.holder k _ hk)).1))
  rw [readyFall_eq h, hv]
  refine State.endedWith.of_leaves ?_ ((leavesUnit_noActive _ d).trans (leavesUnit_attend _ d))
  rcases work with done | ⟨left, notActive, notWaiting⟩
  · exact done.of_leaves (.foldl _ (fun t q => (ends_endMapChange q t _).toLeavesUnit) _ _)
  · refine (ending_foldl (pos := id) (fun t q => ends_endMapChange q t .driveNotReady)
      (fun t q (hq : q = r.pos) g => hq.symm ▸ endedWith_endMapChange g .driveNotReady)
      (s.mapChanges d) (.inr left)).resolve_right fun ⟨_, out⟩ => ?_
    have change : r.kind.isMapChange = true := by
      rcases named with g | g | g
      · exact absurd (active g) notActive
      · exact absurd (notWaiting.symm.trans g) nofun
      · exact g
    exact out r.pos (List.mem_map.2 ⟨r, List.mem_filter.2 ⟨mem, by simp [drive, change, he]⟩, rfl⟩) rfl

/-! ### What a drive and its ports hold after an event -/

/-- A part of a drive that the end of an event never changes. -/
theorem Keeps.field {α : Type} {s t : State} (h : Keeps s t) (g : Drive → α) (d : DriveId)
    (hg : ∀ D : Drive, g D.kept = g D := by exact fun _ => rfl) : g (t.drive d) = g (s.drive d) := by
  rw [← hg, ← hg (s.drive d), h.drive d]

theorem map_eq_nil_of_keeps {s t : State} (h : Keeps s t) (d : DriveId) (hs : (s.drive d).map = []) :
    (t.drive d).map = [] := by
  have homes := h.homes d
  rw [hs] at homes
  exact List.map_eq_nil_iff.1 homes

/-- Settles O40: the abort and the endings leave the unit's lists and the pools, each request of the drive comes to end in
the order of R17, and what is left of the drive is kept to the end of the event. -/
theorem readyFall : Obligations.ReadyFall := by
  intro s d h
  have leaves := leavesUnit_readyFall h
  obtain ⟨u, x, b, hu, hv⟩ := abortNotReady_eq (s.unready d) d
  have k : Keeps ((s.modDrive d fun D => { D with readyLine := false }).modDrive d Drive.enterNotReady)
      (s.readyFall d).settle := by
    refine Keeps.trans ?_ (keeps_settle _)
    unfold State.readyFall
    dsimp only
    rw [if_neg (by simpa using h)]
    exact keeps_loseReady_rest _ d
  refine ⟨⟨exec_eq_effect _ s, ?_, ?_, ?_, ?_, ?_⟩, (s.readyFall d).settle, exec_eq_effect _ s, ?_⟩
  · rw [leaves.pool d, hv]
    exact (hu.pool d).trans (by rw [unready_drive]; rfl)
  · rw [leaves.workList, hv]
    exact hu.workList
  · rw [leaves.stalled, hv]
    exact hu.stalled
  · intro ref href hd
    rw [leaves.ru, leaves.buffer, abortNotReady_in_hand (s := s.unready d) href hd]
    exact ⟨rfl, rfl⟩
  · intro r p ordered mem drive hp he hd hr hk hl hstep hold named
    exact endedWith_readyFall h ordered mem drive hp he hd hr hk hl hstep hold named
  · have field {α : Type} (g : Drive → α) (hg : ∀ D : Drive, g D.kept = g D := by exact fun _ => rfl) :
        g ((s.readyFall d).settle.drive d) = g { s.drive d with readyLine := false }.enterNotReady := by
      rw [k.field g d hg, drive_modDrive_same, drive_modDrive_same]
    refine ⟨field Drive.state, field Drive.type, field Drive.mapBuilt, field Drive.rpc, field Drive.valid,
      field Drive.cyl, field Drive.arm, field Drive.seekTimer, field Drive.health, map_eq_nil_of_keeps k d ?_,
      field Drive.lock, field Drive.freeze, ?_⟩
    · rw [drive_modDrive_same]
      rfl
    · intro p hp
      refine (keeps_settle _).attended p d ?_
      rw [readyFall_eq h]
      exact mem_attention_attend _ d p (((keeps_abortNotReady (s.unready d) d).trans (keeps_endUnready _ d _)).notLost p hp)

/-! ### Faults -/

/-- What a fault does once the adapter has entered FAULTED. -/
theorem keeps_faultDrive_rest {s : State} {d : DriveId} (h : (s.drive d).state.faultable = true) :
    Keeps (s.modDrive d Drive.enterFaulted) (s.faultDrive d) := by
  unfold State.faultDrive
  rw [if_pos h]
  refine Keeps.trans ?_ (keeps_attend _ _)
  refine Keeps.trans ?_ (.modDrive _ _ _ rfl)
  exact (keeps_endDriveWork _ _ _).trans (keeps_abortFaulted _ _)

/-- A fault attends the drive at every port that is not LOST. -/
theorem mem_attention_faultDrive {s : State} {d : DriveId} (h : (s.drive d).state.faultable = true) {p : PortId}
    (hp : (s.port p).state ≠ .lost) : d ∈ ((s.faultDrive d).port p).attention := by
  unfold State.faultDrive
  rw [if_pos h]
  exact mem_attention_attend _ d p (((keeps_endDriveWork (s.modDrive d Drive.enterFaulted) d _).trans
    (keeps_abortFaulted _ d)).notLost p hp)

/-- A faulted drive at the end of the event. -/
theorem field_faultDrive {α : Type} {s : State} {d : DriveId} (h : (s.drive d).state.faultable = true) (g : Drive → α)
    (hg : ∀ D : Drive, g D.kept = g D := by exact fun _ => rfl) :
    g ((s.faultDrive d).settle.drive d) = g (s.drive d).enterFaulted := by
  rw [((keeps_faultDrive_rest h).trans (keeps_settle _)).field g d hg, drive_modDrive_same]

/-- Settles O42: an expiry at 256 slots is a fault of the drive, an earlier one changes nothing. -/
theorem seekTimerExpiry : Obligations.SeekTimerExpiry := by
  refine ⟨fun s d n ht hn ha hf => ⟨(s.faultDrive d).settle, ?_, field_faultDrive hf Drive.state,
    field_faultDrive hf Drive.arm, field_faultDrive hf Drive.seekTimer⟩, fun s d n ht hn => ?_⟩
  · have due : s.seekExpired d = s.faultDrive d := by
      simp [State.seekExpired, ht, Config.seekLimit, hn, Option.isSome_iff_ne_none.2 ha]
    exact exec_of_effect due
  · have early : s.seekExpired d = s := by
      simp [State.seekExpired, ht, Config.seekLimit, Nat.not_le.2 hn]
    exact exec_of_effect early

/-! ### The abort of a relocation -/

theorem entry?_of_map {s t : State} {d : DriveId} (h : (t.drive d).map = (s.drive d).map) (home : Track) :
    t.entry? d home = s.entry? d home := by
  unfold State.entry?
  rw [h]

theorem entry?_removeStep (s : State) (d : DriveId) (home : Track) : s.removeStep.entry? d home = s.entry? d home := by
  obtain ⟨u, hu, h⟩ := removeStep_eq s
  rw [h]
  exact entry?_of_map (hu.map d) home

theorem leavesUnit_removeStep (s : State) :
    s.removeStep.workList = s.workList ∧ ∀ d, (s.removeStep.drive d).pool = (s.drive d).pool := by
  obtain ⟨u, hu, h⟩ := removeStep_eq s
  rw [h]
  exact ⟨hu.workList, hu.pool⟩

theorem endsQueued_removeStep {s : State} {p : PortId} {r : Record} (h : s.endsQueued p r)
    (hr : s.ru.step ≠ .placed r.pos) : s.removeStep.endsQueued p r := by
  obtain ⟨u, hu, he⟩ := removeStep_eq s
  rw [he]
  have left : u.endsQueued p r := h.of_ends hu.toEnds fun e => hr (placed_of_request? e.symm)
  exact left

/-- The unit after an abort by FAULTED: what the abort leaves of the entry, the buffer empty, and the unit IDLE or ABORTING
with its restore order. -/
theorem abortFaulted_eq {s : State} {ref : EntryRef} {e : MapEntry} (h : s.ru.entry = some ref)
    (he : s.entry? ref.drive ref.home = some e) :
    s.abortFaulted ref.drive = { s.removeStep.abortEntry ref e with
      buffer := none
      ru := (s.restoreAfter ref e).elim Relocation.reset fun o =>
        { Relocation.reset with state := .aborting, stage := some .restoreHeader, restore := some o } } := by
  unfold State.abortFaulted
  simp only [h, he, beq_self_eq_true, if_true]
  cases s.restoreAfter ref e <;> rfl

/-- A relocation with a target backed out: the target FREE, the entry as before its allocation, in front of the work list. -/
def State.backedOut (s : State) (ref : EntryRef) (e : MapEntry) : State :=
  ((s.setSpare? ref.drive e.target .free).modEntry ref.drive ref.home MapEntry.backOut).frontWork ref

theorem keeps_backedOut (s : State) (ref : EntryRef) (e : MapEntry) : Keeps s (s.backedOut ref e) :=
  ((keeps_setSpare? s _ _ _).trans (keeps_modEntry _ _ _ _ backOut_home)).trans (keeps_frontWork _ ref)

theorem backedOut_leaves {s : State} {ref : EntryRef} {e : MapEntry} (he : s.entry? ref.drive ref.home = some e) :
    (s.backedOut ref e).entry? ref.drive ref.home = some e.backOut
      ∧ ((s.backedOut ref e).drive ref.drive).pool
          = e.target.elim (s.drive ref.drive).pool (fun x => setPool x .free (s.drive ref.drive).pool)
      ∧ (s.backedOut ref e).workList = ref :: s.workList.filter (fun x => x != ref) := by
  refine ⟨entry?_modEntry MapEntry.backOut ((backOut_home e).trans (home_of_entry? he))
    (by rw [entry?_setSpare?]; exact he), ?_, ?_⟩
  · exact (pool_modEntry _ _ _ _ _).trans (pool_setSpare? _ _ _ _)
  · unfold State.backedOut State.frontWork State.modEntry State.setSpare?
    cases e.target <;> rfl

/-- A change of one entry, seen at any place of the table. -/
theorem entry?_modEntry_any {s : State} {d e : DriveId} {home h : Track} {x : MapEntry} (f : MapEntry → MapEntry)
    (hf : ∀ x, (f x).home = x.home) (hx : s.entry? e h = some x) :
    (s.modEntry d home f).entry? e h = some (if e = d ∧ h = home then f x else x) := by
  by_cases hd : e = d
  · subst hd
    by_cases hh : h = home
    · subst hh
      rw [if_pos ⟨rfl, rfl⟩]
      exact entry?_modEntry f ((hf x).trans (home_of_entry? hx)) hx
    · have home_x := home_of_entry? hx
      have same : (fun y : MapEntry => y.home == h) ∘ (fun y => if y.home == home then f y else y)
          = fun y => y.home == h := by
        funext y
        simp only [Function.comp]
        split <;> simp [hf]
      unfold State.entry? State.modEntry at *
      rw [drive_modDrive_same, List.find?_map, same, hx]
      simp [home_x, hh]
  · rw [if_neg fun g => hd g.1]
    refine (entry?_of_map ?_ h).trans hx
    unfold State.modEntry
    rw [drive_modDrive_other _ _ _ _ hd]

/-- The ending of a linked request changes nothing of an entry but its link. -/
theorem entry?_endLinked {s : State} {d : DriveId} {home : Track} {e : MapEntry} (link : Option Nat) (st : Status)
    (h : s.entry? d home = some e) : ∃ l, (s.endLinked link st).entry? d home = some { e with linked := l } := by
  cases link with
  | none => exact ⟨e.linked, h⟩
  | some pos =>
    show ∃ l, (s.endMapChange pos st).entry? d home = some { e with linked := l }
    unfold State.endMapChange
    split
    · exact ⟨e.linked, h⟩
    · extract_lets info t
      have ht : ∃ l, t.entry? d home = some { e with linked := l } := by
        unfold t
        split
        · rw [entry?_modEntry_any _ (fun x => by split <;> rfl) h]
          split
          · split
            · exact ⟨none, rfl⟩
            · exact ⟨e.linked, rfl⟩
          · exact ⟨e.linked, rfl⟩
        · exact ⟨e.linked, h⟩
      obtain ⟨l, hl⟩ := ht
      exact ⟨l, (entry?_of_map (by unfold State.drive; rw [(issueStatus_same _ _ _).1]) home).trans hl⟩

theorem leavesUnit_endLinked (s : State) (link : Option Nat) (st : Status) : LeavesUnit s (s.endLinked link st) := by
  cases link with
  | none => exact .refl s
  | some pos => exact (ends_endMapChange pos s st).toLeavesUnit

theorem entry?_attend (s : State) (d e : DriveId) (home : Track) : (s.attend d).entry? e home = s.entry? e home :=
  entry?_of_map (by unfold State.drive; rw [(attend_same s d).1]) home

/-- The abort of a FORWARD relocation: the entry PENDING again, its target FREE. -/
theorem abort_forward {s : State} {ref : EntryRef} {e : MapEntry} (he : s.entry? ref.drive ref.home = some e)
    (hs : e.state = .moving .forward) :
    (s.abortEntry ref e).entry? ref.drive ref.home = some { e with state := .pending, target := none }
      ∧ ((s.abortEntry ref e).drive ref.drive).pool
          = e.target.elim (s.drive ref.drive).pool (fun t => setPool t .free (s.drive ref.drive).pool)
      ∧ (s.abortEntry ref e).workList = ref :: s.workList.filter (fun x => x != ref) := by
  have backed : e.backOut = { e with state := .pending, target := none } := by simp [MapEntry.backOut, hs]
  have step : s.abortEntry ref e = s.backedOut ref e := by
    simp only [State.abortEntry, hs]
    rfl
  rw [step, ← backed]
  exact backedOut_leaves he

/-- The abort of a REPLACEMENT: the entry ACTIVE on its previous alternate, its target FREE, the drive attended. -/
theorem abort_replacement {s : State} {ref : EntryRef} {e : MapEntry} (he : s.entry? ref.drive ref.home = some e)
    (hs : e.state = .moving .replacement) :
    (s.abortEntry ref e).entry? ref.drive ref.home
        = some { e with state := .active, alternate := e.previous, previous := none, target := none }
      ∧ ((s.abortEntry ref e).drive ref.drive).pool
          = e.target.elim (s.drive ref.drive).pool (fun t => setPool t .free (s.drive ref.drive).pool)
      ∧ (s.abortEntry ref e).workList = ref :: s.workList.filter (fun x => x != ref)
      ∧ ∀ p, (s.port p).state ≠ .lost → ref.drive ∈ ((s.abortEntry ref e).port p).attention := by
  have backed : e.backOut = { e with state := .active, alternate := e.previous, previous := none, target := none } := by
    simp [MapEntry.backOut, hs]
  have step : s.abortEntry ref e = (s.backedOut ref e).attend ref.drive := by
    simp only [State.abortEntry, hs]
    rfl
  obtain ⟨entry, pool, work⟩ := backedOut_leaves he
  have attend := leavesUnit_attend (s.backedOut ref e) ref.drive
  rw [step, ← backed]
  exact ⟨(entry?_attend _ _ _ _).trans entry, (attend.pool _).trans pool, attend.workList.trans work,
    fun p hp => mem_attention_attend _ _ p ((keeps_backedOut s ref e).notLost p hp)⟩

/-- The abort of a relocation back to its home: the entry ACTIVE and no more named, the pool and the work list as they stood,
the drive attended, and the linked request ended DRIVE FAULT. -/
theorem abort_return {s : State} {ref : EntryRef} {e : MapEntry} (he : s.entry? ref.drive ref.home = some e)
    (hs : e.state = .moving .ret) :
    (∃ f, (s.abortEntry ref e).entry? ref.drive ref.home = some f ∧ f.state = .active ∧ f.named = false
        ∧ f.alternate = e.alternate)
      ∧ ((s.abortEntry ref e).drive ref.drive).pool = (s.drive ref.drive).pool
      ∧ (s.abortEntry ref e).workList = s.workList
      ∧ (∀ p, (s.port p).state ≠ .lost → ref.drive ∈ ((s.abortEntry ref e).port p).attention)
      ∧ ∀ p r, e.linked = some r.pos → s.endsQueued p r → (s.abortEntry ref e).endedWith p r .driveFault := by
  have backed : e.backOut = { e with state := .active, named := false } := by simp [MapEntry.backOut, hs]
  have step : s.abortEntry ref e
      = (((s.modEntry ref.drive ref.home MapEntry.backOut).endLinked e.linked .driveFault).attend ref.drive) := by
    simp [State.abortEntry, hs]
  have leaves := (Ends.modEntry none s ref.drive ref.home MapEntry.backOut).toLeavesUnit.trans
    ((leavesUnit_endLinked _ e.linked .driveFault).trans (leavesUnit_attend _ ref.drive))
  rw [step]
  refine ⟨?_, leaves.pool _, leaves.workList, fun p hp => ?_, fun p r hl hr => ?_⟩
  · have entry := entry?_modEntry MapEntry.backOut ((backOut_home e).trans (home_of_entry? he)) he
    obtain ⟨l, hl⟩ := entry?_endLinked e.linked .driveFault entry
    exact ⟨_, (entry?_attend _ _ _ _).trans hl, by simp [backed], by simp [backed], by simp [backed]⟩
  · exact mem_attention_attend _ _ p ((keeps_endLinked (s.modEntry ref.drive ref.home MapEntry.backOut) _ _).notLost p hp)
  · have left := hr.of_ends (Ends.modEntry none s ref.drive ref.home MapEntry.backOut) nofun
    rw [hl]
    exact (endedWith_endLinked left .driveFault).of_leaves (leavesUnit_attend _ _)

/-- The restore order of an abort, by the stage that the step removed was carrying out (R178). -/
theorem restoreAfter_eq {s : State} (ref : EntryRef) (e : MapEntry) :
    (s.stepHoldsPath = false → s.restoreAfter ref e = none)
      ∧ (s.stepHoldsPath = true → s.ru.stage = some .commitTarget →
          s.restoreAfter ref e = e.target.map fun t => ⟨ref.drive, t, plainHeader .free⟩)
      ∧ (s.stepHoldsPath = true → s.ru.stage = some .releaseAlternate ∨ s.ru.stage = some .restoreHeader →
          s.restoreAfter ref e = e.alternate.map fun t => ⟨ref.drive, t, ⟨.alternate, e.home, e.generation⟩⟩) := by
  unfold State.restoreAfter
  refine ⟨fun h => by simp [h], fun h hs => by simp [h, hs], fun h hs => ?_⟩
  rcases hs with hs | hs <;> simp [h, hs]

/-- Settles O41: the abort by the direction of the entry in hand, and the adapter's fault kept to the end of the event. -/
theorem faultRise : Obligations.FaultRise := by
  refine ⟨fun s d h => if_pos h, ?_, fun s d h => ?_, fun s d h => ?_⟩
  · rintro s _ ref e hru rfl he
    have he' : s.removeStep.entry? ref.drive ref.home = some e := (entry?_removeStep s _ _).trans he
    have lost (p : PortId) (hp : (s.port p).state ≠ .lost) := (keeps_removeStep s).notLost p hp
    obtain ⟨work, pool⟩ := leavesUnit_removeStep s
    have forward := abort_forward he'
    have replacement := abort_replacement he'
    have ret := abort_return he'
    have active (hs : e.state = .active) : s.removeStep.abortEntry ref e = s.removeStep := by
      simp [State.abortEntry, hs]
    dsimp only
    rw [abortFaulted_eq hru he]
    rw [pool, work] at forward replacement ret
    generalize s.removeStep.abortEntry ref e = v at forward replacement ret active
    refine ⟨rfl, forward, fun hs => ?_, fun hs => ?_, fun hs => ?_, fun o ho => by simp [ho], fun ho => by simp [ho],
      restoreAfter_eq ref e⟩
    · obtain ⟨entry, pool', work', attended⟩ := replacement hs
      exact ⟨entry, pool', work', fun p hp => attended p (lost p hp)⟩
    · obtain ⟨entry, pool', work', attended, ended⟩ := ret hs
      exact ⟨entry, pool', work', fun p hp => attended p (lost p hp),
        fun p r hl hr hne => ended p r hl (endsQueued_removeStep hr hne)⟩
    · cases active hs
      exact ⟨he', pool _, work⟩
  · have hf : ((s.modDrive d fun D => { D with faultLine := true }).drive d).state.faultable = true := by
      rw [drive_modDrive_same]
      exact h
    have field {α : Type} (g : Drive → α) (hg : ∀ D : Drive, g D.kept = g D := by exact fun _ => rfl) :
        g ((s.faultRise d).settle.drive d) = g ({ s.drive d with faultLine := true }).enterFaulted :=
      (field_faultDrive hf g hg).trans (by rw [drive_modDrive_same])
    exact ⟨_, exec_eq_effect _ s, field Drive.state, field Drive.arm, field Drive.seekTimer, field Drive.scan,
      field Drive.faultLine, field Drive.mapBuilt, field Drive.lock,
      fun p hp => (keeps_settle _).attended p d (mem_attention_faultDrive hf hp)⟩
  · refine exec_of_effect (if_neg ?_)
    rw [drive_modDrive_same]
    exact Bool.eq_false_iff.1 h

end Sys2Proof.Machine

namespace Sys2Proof.Machine

/-! ### After reset -/

/-- Settles O4. -/
theorem invariantsHoldAtReset : Obligations.InvariantsHoldAtReset := by
  refine ⟨⟨by simp [Params.inRange, State.reset, Params.reset], fun p => ?_⟩, ⟨Nat.zero_le _, fun _ => Nat.zero_le _, fun _ => Nat.zero_le _⟩,
    ⟨List.Pairwise.nil, fun _ h => nomatch h⟩, fun d => ?_⟩
  · rw [port_reset]
    decide
  · rw [drive_reset]
    exact ⟨Nat.zero_lt_succ _, healthWithin_nil, mapWithin_nil⟩

/-! ### Cylinders and serving tracks -/

/-- The physical cylinder of a logical one is no spare cylinder, and translates back (R2, R3). -/
theorem logicalCylinder_physicalCylinder (l : Nat) :
    (physicalCylinder l + 1) % 102 ≠ 0 ∧ logicalCylinder (physicalCylinder l) = l := by
  unfold physicalCylinder logicalCylinder
  omega

theorem physicalCylinder_logicalCylinder {p : Nat} (h : (p + 1) % 102 ≠ 0) :
    physicalCylinder (logicalCylinder p) = p := by
  unfold physicalCylinder logicalCylinder
  omega

theorem serving_of_entry? {s : State} {d : DriveId} {home : Track} {e : MapEntry} (h : s.entry? d home = some e) :
    s.serving d home = e.serving := by
  unfold State.serving
  rw [h]

/-- Settles O54: the translation is arithmetic, and the serving track is Table 7-4 read by the entry's state. -/
theorem translation : Obligations.Translation := by
  refine ⟨fun l => ⟨rfl, (logicalCylinder_physicalCylinder l).1, (logicalCylinder_physicalCylinder l).2,
    fun p hp => physicalCylinder_logicalCylinder hp⟩, fun s d home => ⟨fun h => ?_, fun e h => ?_⟩⟩
  · unfold State.serving
    rw [h]
  · have eh := home_of_entry? h
    rw [serving_of_entry? h]
    refine ⟨fun hs => ?_, fun t hs ha => ?_, fun t hs hp => ?_⟩
    · rcases hs with hs | hs <;> simp [MapEntry.serving, hs, eh]
    · rcases hs with hs | hs <;> simp [MapEntry.serving, hs, ha]
    · simp [MapEntry.serving, hs, hp]

/-! ### POSITION and CALIBRATE -/

/-- An order of good form that the port awaits and that passes the checks is carried out and answered. -/
theorem orderTaken_of_passes {s : State} {p : PortId} {b : OrderBlock} (hs : (s.port p).state = .selected false)
    (hf : b.order.formOk = true) (hc : s.checkOrder p b = none) :
    s.orderTaken p b = (s.acceptOrder p b).answer p .accepted (s.replyFor p b) := by
  simp [State.orderTaken, State.awaitsOrder, State.takeOrder, hs, hf, hc]

/-- A CALIBRATE for a FAULTED drive passes on the conditions of `takesRecord` (R43, R49). -/
theorem checkDrive_calibrate_of_faulted {s : State} {p : PortId} {d : DriveId} {tag : Byte} (h : s.takesRecord p d tag)
    (hs : (s.drive d).state = .faulted) : s.checkDrive p tag d .calibrate = none := by
  obtain ⟨⟨_, mark, report⟩, lock, tags, store, port⟩ := h
  refine checkDrive_eq_none.2 ⟨by simp [checkDriveState, hs, refuseIf], by simp [heldElsewhere_of_lockFreeFor lock], mark,
    by simp [report], ?_, ?_, rfl⟩
  · simp only [State.tagInUse, Bool.and_eq_false_iff, List.any_eq_false, beq_iff_eq]
    exact .inr tags
  · simp [State.noRoom, entersQueue, hs, Nat.not_le.2 store, Nat.not_le.2 port]

/-- Settles O27: each order passes its checks, and the next state is the model's effect of it. -/
theorem positionAndCalibrate : Obligations.PositionAndCalibrate := by
  refine ⟨fun s p d tag t h ht hc => ?_, fun s p d tag h => ?_, fun s p d tag h hf => ?_⟩
  · have passes : s.checkSpecific p tag d (.position t) = none :=
      refuseIf_eq_none.2 (decide_eq_false (Nat.not_lt.2 hc))
    exact exec_of_effect (orderTaken_of_passes h.1.1.1 ht (checkDrive_of_takesQueued _ h passes))
  · have ready : (s.drive d).state = .ready := h.2.1
    have queued : s.acceptCalibrate p tag d = s.addRequest p tag d .calibrate [] none .queued := by
      simp [State.acceptCalibrate, ready]
    have passes : s.checkDrive p tag d .calibrate = none := checkDrive_of_takesQueued .calibrate h rfl
    have taken : s.effect (.calibrate p d tag) = (s.acceptCalibrate p tag d).answer p .accepted [] :=
      orderTaken_of_passes h.1.1.1 rfl passes
    exact exec_of_effect (queued ▸ taken)
  · have started : s.acceptCalibrate p tag d
        = (s.addRequest p tag d .calibrate [] none .seeking).modDrive d fun D =>
          { D.issueCalibrate with state := .calibrating, active := some s.nextPos, phase := .seek } := by
      simp [State.acceptCalibrate, hf]
    have taken : s.effect (.calibrate p d tag) = (s.acceptCalibrate p tag d).answer p .accepted [] :=
      orderTaken_of_passes h.1.1 rfl (checkDrive_calibrate_of_faulted h hf)
    rw [started] at taken
    have k := keeps_settle (s.effect (.calibrate p d tag))
    rw [taken] at k
    refine ⟨_, exec_of_effect taken, answered_settle _ p .accepted [], ?_, ?_, ?_⟩
    · exact (k.field Drive.state d).trans (by simp [State.answer])
    · exact (k.field Drive.arm d).trans (by simp [State.answer, Drive.issueCalibrate])
    · exact (k.field Drive.seekTimer d).trans (by simp [State.answer, Drive.issueCalibrate])

/-! ### The rise of the ready line -/

theorem drive_takeReady (s : State) (d : DriveId) (code : Nat) {ty : DriveType} (hs : (s.drive d).state = .notReady)
    (ht : driveTypeOf code = some ty) :
    (s.takeReady d code).drive d = { (s.drive d).issueCalibrate with
      readyLine := true, typeCode := code, state := .calibrating, type := some ty, cyl := none, phase := .seek } := by
  simp [State.takeReady, hs, ht, Drive.issueCalibrate]

theorem drive_takeReady_of_no_type (s : State) (d : DriveId) (code : Nat) (ht : driveTypeOf code = none) :
    (s.takeReady d code).drive d = { s.drive d with readyLine := true, typeCode := code } := by
  simp [State.takeReady, ht]

theorem effect_readyLineRise {s : State} {d : DriveId} (code : Nat) (h : (s.drive d).readyLine = false) :
    s.effect (.readyLineRise d code) = s.takeReady d code := by
  simp [State.effect, State.readyRise, h]

/-- Settles O39: the rise changes the drive as `takeReady` says, and the end of the event keeps it. -/
theorem readyRise : Obligations.ReadyRise := by
  refine ⟨fun s d code ty hl hs ht => ⟨_, exec_of_effect (effect_readyLineRise code hl), ?_⟩,
    fun s d code hl hs ht => ⟨_, exec_of_effect (effect_readyLineRise code hl), ?_⟩, fun s d code hl => ?_⟩
  · have field {α : Type} (g : Drive → α) (hg : ∀ D : Drive, g D.kept = g D := by exact fun _ => rfl) :=
      ((keeps_settle (s.takeReady d code)).field g d hg).trans (congrArg g (drive_takeReady s d code hs ht))
    exact ⟨field Drive.state, field Drive.type, field Drive.cyl, field Drive.arm, field Drive.seekTimer,
      field Drive.readyLine, field Drive.lock, field Drive.freeze⟩
  · have field {α : Type} (g : Drive → α) (hg : ∀ D : Drive, g D.kept = g D := by exact fun _ => rfl) :=
      ((keeps_settle (s.takeReady d code)).field g d hg).trans (congrArg g (drive_takeReady_of_no_type s d code ht))
    exact ⟨(field Drive.state).trans hs, field Drive.readyLine⟩
  · exact exec_of_effect (if_pos hl)

/-! ### Power-on reset -/

/-- A fold over a table that changes each place it visits by that place alone. -/
theorem foldl_pointwise {ι α : Type} [DecidableEq ι] (get : State → ι → α) (f : State → ι → State) (g : α → α)
    (hf : ∀ t i j, get (f t i) j = if j = i then g (get t j) else get t j) (l : List ι) (hl : l.Nodup) (s : State) (j : ι) :
    get (l.foldl f s) j = if j ∈ l then g (get s j) else get s j := by
  induction l generalizing s with
  | nil => rfl
  | cons i l ih =>
    obtain ⟨out, rest⟩ := List.nodup_cons.1 hl
    rw [List.foldl_cons, ih rest, hf]
    by_cases hj : j = i
    · subst hj
      simp [out]
    · simp [hj]

theorem mem_allPorts (p : PortId) : p ∈ allPorts := by cases p <;> decide

theorem mem_allDrives (d : DriveId) : d ∈ allDrives := by revert d; decide

theorem mem_allPaths (k : PathId) : k ∈ allPaths := by revert k; decide

/-- A port whose operational line is found high at power-on: IDLE from OFFLINE or LOST (R22, R27). -/
def Port.foundHigh (P : Port) : Port :=
  if P.opLine then
    match P.state with
    | .offline | .lost => { P with state := .idle, lossTimer := none }
    | _ => P
  else P

theorem port_lineIfHigh (s : State) (p q : PortId) :
    (s.lineIfHigh p).port q = if q = p then (s.port q).foundHigh else s.port q := by
  by_cases h : q = p
  · subst h
    rw [if_pos rfl]
    unfold State.lineIfHigh State.lineRise Port.foundHigh
    split
    · rename_i high
      rw [port_modPort_same]
      have same : { s.port q with opLine := true } = s.port q := by rw [← high]
      dsimp only
      rw [same]
      cases (s.port q).state <;> simp_all
    · rfl
  · rw [if_neg h]
    unfold State.lineIfHigh State.lineRise
    split
    · exact port_modPort_other s p q _ h
    · rfl

/-- A drive whose ready line is found high at power-on: CALIBRATING from NOT-READY with a type code of R1 (R12, R21). -/
def Drive.foundReady (D : Drive) : Drive :=
  if D.readyLine then
    match D.state, driveTypeOf D.typeCode with
    | .notReady, some ty => { D.issueCalibrate with state := .calibrating, type := some ty, cyl := none, phase := .seek }
    | _, _ => D
  else D

theorem drive_readyIfHigh (s : State) (d e : DriveId) :
    (s.readyIfHigh d).drive e = if e = d then (s.drive e).foundReady else s.drive e := by
  by_cases h : e = d
  · subst h
    rw [if_pos rfl]
    unfold State.readyIfHigh State.takeReady Drive.foundReady
    split
    · rename_i high
      rw [drive_modDrive_same]
      generalize s.drive e = D at high
      cases D
      dsimp only at high
      subst high
      rfl
    · rfl
  · rw [if_neg h]
    unfold State.readyIfHigh State.takeReady
    split
    · exact drive_modDrive_other s d e _ h
    · rfl

theorem foldl_lineIfHigh_eq (l : List PortId) (s : State) : ∃ v, l.foldl State.lineIfHigh s = { s with ports := v } := by
  induction l generalizing s with
  | nil => exact ⟨s.ports, rfl⟩
  | cons p l ih =>
    have one : ∃ v, s.lineIfHigh p = { s with ports := v } := by
      unfold State.lineIfHigh
      split
      · exact ⟨_, rfl⟩
      · exact ⟨s.ports, rfl⟩
    obtain ⟨v, hv⟩ := one
    obtain ⟨w, hw⟩ := ih (s.lineIfHigh p)
    exact ⟨w, by rw [List.foldl_cons, hw, hv]⟩

theorem foldl_readyIfHigh_eq (l : List DriveId) (s : State) :
    ∃ v, l.foldl State.readyIfHigh s = { s with drives := v } := by
  induction l generalizing s with
  | nil => exact ⟨s.drives, rfl⟩
  | cons d l ih =>
    have one : ∃ v, s.readyIfHigh d = { s with drives := v } := by
      unfold State.readyIfHigh
      split
      · exact ⟨_, rfl⟩
      · exact ⟨s.drives, rfl⟩
    obtain ⟨v, hv⟩ := one
    obtain ⟨w, hw⟩ := ih (s.readyIfHigh d)
    exact ⟨w, by rw [List.foldl_cons, hw, hv]⟩

/-- Beside ports and drives, power-on reset leaves the first values and the queue. -/
theorem powerOnReset_eq (s : State) :
    ∃ v w, s.powerOnReset = { State.reset with ports := v, drives := w, pending := s.pending } := by
  obtain ⟨v, hv⟩ := foldl_lineIfHigh_eq allPorts s.powerOn
  obtain ⟨w, hw⟩ := foldl_readyIfHigh_eq allDrives (allPorts.foldl State.lineIfHigh s.powerOn)
  exact ⟨v, w, by unfold State.powerOnReset; rw [hw, hv]; rfl⟩

theorem port_powerOnReset (s : State) (p : PortId) :
    s.powerOnReset.port p = { Port.reset with
      opLine := (s.port p).opLine, state := if (s.port p).opLine then .idle else .offline } := by
  have ports : s.powerOnReset.port p = (allPorts.foldl State.lineIfHigh s.powerOn).port p := by
    obtain ⟨w, hw⟩ := foldl_readyIfHigh_eq allDrives (allPorts.foldl State.lineIfHigh s.powerOn)
    unfold State.powerOnReset
    rw [hw]
    rfl
  rw [ports, foldl_pointwise State.port State.lineIfHigh Port.foundHigh port_lineIfHigh allPorts (by decide),
    if_pos (mem_allPorts p), port_powerOn]
  unfold Port.foundHigh
  cases (s.port p).opLine <;> rfl

theorem drive_powerOnReset (s : State) (d : DriveId) :
    s.powerOnReset.drive d = ({ Drive.reset with
      readyLine := (s.drive d).readyLine, typeCode := (s.drive d).typeCode, faultLine := (s.drive d).faultLine } :
        Drive).foundReady := by
  have drives : (allPorts.foldl State.lineIfHigh s.powerOn).drive d = s.powerOn.drive d := by
    obtain ⟨v, hv⟩ := foldl_lineIfHigh_eq allPorts s.powerOn
    rw [hv]
    rfl
  unfold State.powerOnReset
  rw [foldl_pointwise State.drive State.readyIfHigh Drive.foundReady drive_readyIfHigh allDrives (by decide),
    if_pos (mem_allDrives d), drives, drive_powerOn]

/-- A state with nothing for the end of an event to do: no record, no claim, both paths FREE, the relocation unit IDLE with
nothing on its work list, and nothing that a port could offer. -/
structure State.Quiet (s : State) : Prop where
  records : s.records = []
  claims : s.claims = []
  paths : ∀ k, s.path k = Path.free
  ru : s.ru = Relocation.reset
  workList : s.workList = []
  ports : ∀ p, (s.port p).offer = none ∧ (s.port p).waiting = [] ∧ (s.port p).statusQueue = []
    ∧ (s.port p).attention = []

theorem modPort_eq_self {s : State} {p : PortId} {f : Port → Port} (h : f (s.port p) = s.port p) : s.modPort p f = s := by
  unfold State.modPort
  rw [h]
  simp [State.port, get_eq_getElem]

theorem offerNow_of_nothing {P : Port} (h1 : P.offer = none) (h2 : P.waiting = []) (h3 : P.statusQueue = [])
    (h4 : P.attention = []) : P.offerNow = P := by
  have none : P.chooseOffer = none := by simp [Port.chooseOffer, h2, h3, h4]
  have same : { P with offer := Option.none } = P := by rw [← h1]
  unfold Port.offerNow
  split
  · rw [none, same]
  · rfl
  · simp_all
  · rfl

/-- The end of an event finds nothing to do in a quiet state. -/
theorem settle_of_quiet {s : State} (h : s.Quiet) : s.settle = s := by
  have drain (k : PathId) : s.readDrain k = s := by simp [State.readDrain, h.paths, Path.free]
  have ask (k : PathId) : s.askRead k = s := by simp [State.askRead, h.paths, Path.free]
  have grants : s.arbitrate = s := by simp [State.arbitrate, h.claims, State.grantLoop]
  have waiting : s.admitWaiting = s := by simp [State.admitWaiting, h.ru, Relocation.reset]
  have held : s.passHeldPoint = s := by simp [State.passHeldPoint, h.ru, Relocation.reset]
  have restore : s.placeRestore = s := by simp [State.placeRestore, h.ru, Relocation.reset]
  have take : s.takeNow = s := by simp [State.takeNow, h.workList, State.takeLoop]
  have choose (d : DriveId) : s.chooseFor d = s := by
    simp [State.chooseFor, State.queue, h.records, State.pick, leastBy]
  have resume : s.resumeIfDue = s := by simp [State.resumeIfDue, h.ru, Relocation.reset]
  have offer (p : PortId) : s.modPort p Port.offerNow = s := by
    obtain ⟨h1, h2, h3, h4⟩ := h.ports p
    exact modPort_eq_self (offerNow_of_nothing h1 h2 h3 h4)
  have paths : s.settlePaths = s := by
    simp only [State.settlePaths, State.drainAll, State.askAll, allPaths, List.foldl, drain, ask, grants]
  have unit : s.settleUnit = s := by simp only [State.settleUnit, waiting, held, restore, take]
  have choices : s.settleChoices = s := by
    simp only [State.settleChoices, State.chooseAll, allDrives, List.foldl, choose, resume, waiting]
  simp only [State.settle, paths, unit, choices, State.offerAll, allPorts, List.foldl, offer]

theorem quiet_powerOnReset (s : State) : s.powerOnReset.Quiet := by
  obtain ⟨v, w, h⟩ := powerOnReset_eq s
  refine ⟨?_, ?_, fun k => ?_, ?_, ?_, fun p => ?_⟩
  · rw [h]; rfl
  · rw [h]; rfl
  · rw [h]; exact path_reset k
  · rw [h]; rfl
  · rw [h]; rfl
  · rw [port_powerOnReset]
    exact ⟨rfl, rfl, rfl, rfl⟩

/-- Settles O12: power-on reset leaves a quiet state, which the end of the event does not change. -/
theorem powerOnResetState : Obligations.PowerOnResetState := by
  intro s
  obtain ⟨v, w, h⟩ := powerOnReset_eq s
  have quiet := quiet_powerOnReset s
  refine ⟨s.powerOnReset, (exec_eq_effect _ s).trans (congrArg Host.Outcome.next (settle_of_quiet quiet)), ?_, ?_,
    quiet.records, quiet.claims, ?_, quiet.paths, quiet.ru, ?_, quiet.workList, ?_, fun p => ?_, fun d => ?_⟩
  · rw [h]
  · rw [h]; rfl
  · rw [h]; rfl
  · rw [h]; rfl
  · rw [h]; rfl
  · unfold State.lockLostMark State.reportOf
    rw [port_powerOnReset]
    refine ⟨rfl, rfl, rfl, rfl, rfl, rfl, rfl, rfl, fun d => ⟨?_, ?_⟩⟩ <;> simp [Port.reset, get_eq_getElem]
  · rw [drive_powerOnReset]
    unfold Drive.foundReady
    cases (s.drive d).readyLine <;> cases driveTypeOf (s.drive d).typeCode <;> simp [Drive.reset, Drive.issueCalibrate]

end Sys2Proof.Machine

namespace Sys2Proof.Machine

/-! ### Slot and index events -/

theorem forceDue_of_nothing_due {s : State} {d : DriveId} (hc : s.claimDue d = false)
    (hw : ∀ k, s.windowDue d k = false) (hs : (s.drive d).seekDue = false) : s.forceDue d = s := by
  simp [State.forceDue, State.forceMiss, State.forceWindow, State.forceSeek, allPaths, hc, hw, hs]

theorem path_advance (s : State) (d : DriveId) (index : Bool) (k : PathId) :
    (s.advance d index).path k = (s.path k).advance d := by
  unfold State.advance
  rw [foldl_pointwise State.path _ (Path.advance d) (fun t i j => ?_) allPaths (by decide), if_pos (mem_allPaths k)]
  · rfl
  · rw [path_modPath]
    split
    · rename_i h
      rw [h]
    · rfl

/-- The turn of another port leaves the loss timer of an OFFLINE port. -/
theorem countLoss_other {s : State} {p q : PortId} (hq : p ≠ q) (hs : (s.port p).state = .offline) :
    ((s.countLoss q).port p).state = .offline ∧ ((s.countLoss q).port p).lossTimer = (s.port p).lossTimer := by
  have offline : (s.port p).dataConn = none := by simp [Port.dataConn, hs]
  unfold State.countLoss State.enterLost
  split
  · split
    · extract_lets requests t
      have same : t.port p = s.port p := port_modPort_other s q p _ hq
      have k : Keeps t (requests.foldl State.loseRequest t) := .foldl _ keeps_loseRequest _ _
      have timer : ((requests.foldl State.loseRequest t).port p).lossTimer = (t.port p).lossTimer := by
        simpa [Port.kept] using congrArg Port.lossTimer (k.port p)
      rw [same] at timer
      exact ⟨(k.calm p (by rw [same]; exact offline)).1.trans (by rw [same]; exact hs), timer⟩
    · rw [port_modPort_other _ _ _ _ hq]
      exact ⟨hs, rfl⟩
  · exact ⟨hs, rfl⟩

theorem countLoss_foldl_other {p : PortId} (l : List PortId) (out : p ∉ l) {s : State} (hs : (s.port p).state = .offline) :
    ((l.foldl State.countLoss s).port p).state = .offline
      ∧ ((l.foldl State.countLoss s).port p).lossTimer = (s.port p).lossTimer := by
  induction l generalizing s with
  | nil => exact ⟨hs, rfl⟩
  | cons q l ih =>
    obtain ⟨hq, out⟩ := not_or.1 fun h => out (List.mem_cons.2 h)
    obtain ⟨state, timer⟩ := countLoss_other hq hs
    exact (ih out state).imp_right fun h => h.trans timer

/-- The loss timer of an OFFLINE port below its bound counts one with its port's turn, and no other port's turn moves it. -/
theorem countLoss_foldl {p : PortId} {n : Nat} (hn : n < Config.lossLimit) (l : List PortId) (hl : l.Nodup) {s : State}
    (hs : (s.port p).state = .offline) (ht : (s.port p).lossTimer = some n) :
    ((l.foldl State.countLoss s).port p).state = .offline
      ∧ ((l.foldl State.countLoss s).port p).lossTimer = some (if p ∈ l then n + 1 else n) := by
  induction l generalizing s with
  | nil => exact ⟨hs, ht⟩
  | cons q l ih =>
    obtain ⟨out, nodup⟩ := List.nodup_cons.1 hl
    rw [List.foldl_cons]
    by_cases hq : p = q
    · subst hq
      have one : (s.countLoss p).port p = { s.port p with lossTimer := some (n + 1) } := by
        simp [State.countLoss, hs, ht, Nat.not_le.2 hn]
      obtain ⟨state, timer⟩ := countLoss_foldl_other l out (s := s.countLoss p) (by rw [one]; exact hs)
      exact ⟨state, timer.trans (by simp [one])⟩
    · obtain ⟨state, timer⟩ := countLoss_other hq hs
      simpa [hq] using ih nodup state (timer.trans ht)

/-- What the entry into LOST does to one request is work on that request. -/
theorem endsApart_loseRequest (q : Nat) (s : State) : EndsApart (some q) s (s.loseRequest q) := by
  have detach : EndsApart (some q) s (s.detach q) := .modRequest q s _
  unfold State.loseRequest
  split
  · exact .refl _ s
  · split
    · exact .freeRequest q s
    · split
      · exact detach
      · split
        · exact (endsApart_leaveDrive q s).trans (.freeRequest q _)
        · split
          · dsimp only
            split
            · exact detach.trans (endsApart_endStopped q _ _)
            · exact detach.trans (endsApart_endStopped q _ _)
            · exact detach.trans (.modRequest q _ _)
          · exact detach

theorem ru_countLosses (s : State) : s.countLosses.ru = s.ru := by
  have lost (s : State) (p : PortId) : (s.enterLost p).ru = s.ru :=
    (LeavesUnit.foldl _ (fun t q => (endsApart_loseRequest q t).toLeavesUnit) _ _).ru
  have one (s : State) (p : PortId) : (s.countLoss p).ru = s.ru := by
    unfold State.countLoss
    split
    · split
      · exact lost s p
      · rfl
    · rfl
  simp only [State.countLosses, allPorts, List.foldl, one]

theorem missFullTrack_same (s : State) (d : DriveId) :
    (s.missFullTrack d).ru = s.ru ∧ (s.missFullTrack d).ports = s.ports := by
  unfold State.missFullTrack State.missRevolution
  split
  · split
    · split
      · exact ⟨rfl, rfl⟩
      · dsimp only
        split <;> exact ⟨rfl, rfl⟩
    · exact ⟨rfl, rfl⟩
  · exact ⟨rfl, rfl⟩

/-- Of the ports, an index event touches the loss timers alone, where the drive is the reference (R25). -/
theorem port_indexWork (s : State) (d : DriveId) (p : PortId) :
    (s.indexWork d).port p = (if s.referenceDrive = some d then s.countLosses else s).port p := by
  unfold State.indexWork
  extract_lets s1 s2 s3 s4
  have h1 : s1 = if s.referenceDrive = some d then s.countLosses else s := by simp [s1]
  have h2 : s2.port p = s1.port p := by
    unfold s2
    split <;> rfl
  rw [← h1, ← h2]
  exact port_congr (missFullTrack_same s4 d).2 p

/-- Of the relocation record, an index event of the drive of the relocation in hand advances the timers (R160). -/
theorem ru_indexWork (s : State) (d : DriveId) :
    (s.indexWork d).ru = if s.ru.drive? = some d then s.ru.tick else s.ru := by
  unfold State.indexWork
  extract_lets s1 s2 s3 s4
  have h1 : s1.ru = s.ru := by
    unfold s1
    split
    · exact ru_countLosses s
    · rfl
  have h2 : s2.ru = if s.ru.drive? = some d then s.ru.tick else s.ru := by
    unfold s2
    rw [h1]
    simp only [beq_iff_eq]
    split
    · exact congrArg Relocation.tick h1
    · exact h1
  rw [← h2]
  exact (missFullTrack_same s4 d).1

/-- The counter of a drive in service after its slot or index event, to the end of the event. -/
theorem clock_boundary (s : State) (d : DriveId) (index : Bool) :
    ((s.boundary d index).settle.drive d).rpc = (if index then 0 else ((s.drive d).rpc + 1) % Config.slots)
      ∧ ((s.boundary d index).settle.drive d).valid = ((s.drive d).valid || index) := by
  have force : s.sameClock d (s.forceDue d) := (still_forceDue s d).sameClock d
  have after : State.sameClock d ((s.forceDue d).advance d index) (s.boundary d index).settle := by
    refine State.sameClock.trans ?_ ((keeps_settle _).sameClock d)
    unfold State.boundary
    dsimp only
    refine State.sameClock.trans ?_ ((still_atBoundary _ d).sameClock d)
    split
    · exact (still_indexWork _ d).sameClock d
    · exact .refl d _
  have moved : ((s.forceDue d).advance d index).drive d = ((s.forceDue d).drive d).advance index := by
    rw [drive_advance, if_pos rfl]
  rw [after.1, after.2, moved, ← force.1, ← force.2]
  exact ⟨rfl, rfl⟩

theorem tick_of_inService {s : State} {d : DriveId} (index : Bool) (h : (s.drive d).state ≠ .notReady) :
    s.tick d index = s.boundary d index := by
  simp [State.tick, h]

theorem tick_of_notReady {s : State} {d : DriveId} (index : Bool) (h : (s.drive d).state = .notReady) :
    s.tick d index = s := by
  simp [State.tick, h]

theorem boundary_slot (s : State) (d : DriveId) :
    s.boundary d false = (((((s.forceDue d).advance d false).modDrive d Drive.atBoundary).setupEvent d).headerGap
      d).pathBoundary d := by
  simp only [State.boundary, Bool.false_eq_true, if_false]

theorem boundary_index (s : State) (d : DriveId) :
    s.boundary d true = ((((((s.forceDue d).advance d true).indexWork d).modDrive d Drive.atBoundary).setupEvent
      d).headerGap d).pathBoundary d := by
  simp only [State.boundary, if_true]

/-- Settles O43: the advance moves each counter of slots of the drive, the work of the index event each counter of
revolutions, and all else of the event leaves the drive's counter. -/
theorem ticksMoveTheCounter : Obligations.TicksMoveTheCounter := by
  refine ⟨fun s d h => ⟨exec_of_effect ((tick_of_inService false h).trans (boundary_slot s d)),
      exec_of_effect ((tick_of_inService true h).trans (boundary_index s d))⟩,
    fun s d => forceDue_of_nothing_due, fun s d index => ⟨?_, fun e he => ?_, fun k => ?_⟩, fun s d p n hs ht hn => ?_,
    fun s d h => ?_, fun s d h => ?_, fun s d h => ⟨⟨_, exec_of_effect (tick_of_inService false h), ?_⟩, _,
      exec_of_effect (tick_of_inService true h), ?_⟩,
    fun s d h => ⟨exec_of_effect (tick_of_notReady false h), exec_of_effect (tick_of_notReady true h)⟩⟩
  · rw [drive_advance, if_pos rfl]
    rfl
  · rw [drive_advance, if_neg he]
  · rw [path_advance]
    unfold Path.advance
    simp only [beq_iff_eq]
    split <;> rfl
  · rw [port_indexWork]
    split
    · have count := countLoss_foldl hn allPorts (by decide) hs ht
      rwa [if_pos (mem_allPorts p)] at count
    · exact ⟨hs, ht⟩
  · rw [ru_indexWork, if_neg h]
  · rw [ru_indexWork, if_pos h]
    exact ⟨fun n hn => by rw [Relocation.tick, hn]; rfl, fun count interval hp => by rw [Relocation.tick, hp]; rfl⟩
  · have clock := clock_boundary s d false
    rwa [Bool.or_false] at clock
  · have clock := clock_boundary s d true
    rwa [Bool.or_true] at clock

/-! ### Seek complete -/

theorem scanTo_arm (s : State) (d : DriveId) (j : ScanJob) (t : Track) (l r : List Track) :
    ((s.scanTo d j t l r).drive d).cyl = (s.drive d).cyl ∧ ((s.scanTo d j t l r).drive d).arm = (s.drive d).arm
      ∧ ((s.scanTo d j t l r).drive d).seekTimer = (s.drive d).seekTimer := by
  unfold State.scanTo Drive.scanGates
  rw [drive_modDrive_same]
  dsimp only
  split <;> simp

/-- The adapter as the calibrate of a CALIBRATING drive leaves it: on cylinder 0, nothing outstanding (R13). -/
def Drive.calibrated (D : Drive) : Drive :=
  { D with arm := none, seekTimer := none, cyl := some 0, head := 0, phase := .none }

/-- The calibrate of a CALIBRATING drive ends the request that asked for it, if any, and leads on by the map-built mark. -/
theorem calibrateDone_eq (s : State) (d : DriveId) :
    ∃ u, Keeps (s.modDrive d Drive.calibrated) u
      ∧ s.calibrateDone d = if (s.drive d).mapBuilt then u.enterReady d else u.enterScanning d := by
  unfold State.calibrateDone
  extract_lets s1 s2
  have k : Keeps s1 s2 := by
    unfold s2
    split
    · exact keeps_endHere s1 _ _
    · exact .refl s1
  refine ⟨s2, k, ?_⟩
  have mark : (s2.drive d).mapBuilt = (s.drive d).mapBuilt :=
    (k.field Drive.mapBuilt d).trans (by unfold s1; rw [drive_modDrive_same])
  rw [mark]

theorem enterReady_field {α : Type} (s : State) (d : DriveId) (g : Drive → α)
    (hg : ∀ D : Drive, g D.kept = g D := by exact fun _ => rfl) :
    g ((s.enterReady d).settle.drive d) = g { s.drive d with state := .ready, sweep := .inward, scan := none, phase := .none } := by
  unfold State.enterReady
  rw [((keeps_attend _ d).trans (keeps_settle _)).field g d hg, drive_modDrive_same]

theorem mem_attention_enterReady {s : State} {d : DriveId} {p : PortId} (h : (s.port p).state ≠ .lost) :
    d ∈ ((s.enterReady d).port p).attention := mem_attention_attend _ d p h

/-- A drive that enters SCANNING stands as its adapter stood. -/
theorem enterScanning_drive (s : State) (d : DriveId) :
    ((s.enterScanning d).drive d).state = .scanning ∧ ((s.enterScanning d).drive d).cyl = (s.drive d).cyl
      ∧ ((s.enterScanning d).drive d).arm = (s.drive d).arm
      ∧ ((s.enterScanning d).drive d).seekTimer = (s.drive d).seekTimer := by
  unfold State.enterScanning
  obtain ⟨_, _, state, _⟩ := scanTo_drive ((s.forgetEntries d).modDrive d fun D =>
    { D with state := .scanning, map := [], pool := [] }) d .header ⟨101, 0⟩ [] []
  obtain ⟨cyl, arm, timer⟩ := scanTo_arm ((s.forgetEntries d).modDrive d fun D =>
    { D with state := .scanning, map := [], pool := [] }) d .header ⟨101, 0⟩ [] []
  rw [state, cyl, arm, timer, drive_modDrive_same]
  exact ⟨rfl, rfl, rfl, rfl⟩

theorem seekDone_of_seek {D : Drive} {c : Nat} (hp : D.phase = .seek ∨ D.phase = .reseek) (ha : D.arm = some (.seek c)) :
    D.seekDone.cyl = some c ∧ D.seekDone.arm = none ∧ D.seekDone.seekTimer = none ∧ D.seekDone.state = D.state := by
  rcases hp with hp | hp <;> simp [Drive.seekDone, hp, ha]

/-- A seek complete of a READY or SCANNING drive: the adapter's part, and the end of a CALIBRATE in progress. -/
theorem keeps_seekCompleted {s : State} {d : DriveId} (hs : (s.drive d).state = .ready ∨ (s.drive d).state = .scanning)
    (ha : (s.drive d).arm ≠ none) : Keeps (s.modDrive d Drive.seekDone) (s.seekCompleted d) := by
  unfold State.seekCompleted
  dsimp only
  rw [if_neg (by simpa using ha)]
  rcases hs with hs | hs <;> rw [hs]
  · dsimp only
    split
    · split
      · exact keeps_endHere _ _ _
      · exact .refl _
    · exact .refl _
  · exact .refl _

/-- Settles O44: by the drive's state, each field kept to the end of the event. -/
theorem seekComplete : Obligations.SeekComplete := by
  refine ⟨fun s d hs ha => ?_, fun s d c hs hp ha => ?_, fun s d ha => ?_⟩
  · have step : s.effect (.seekComplete d) = s.calibrateDone d := by simp [State.effect, State.seekCompleted, ha, hs]
    obtain ⟨u, k, done⟩ := calibrateDone_eq s d
    have field {α : Type} (g : Drive → α) (hg : ∀ D : Drive, g D.kept = g D := by exact fun _ => rfl) :
        g (u.drive d) = g (s.drive d).calibrated := by
      rw [k.field g d hg, drive_modDrive_same]
    refine ⟨_, exec_of_effect (step.trans done), ?_⟩
    cases (s.drive d).mapBuilt with
    | true =>
      simp only [if_true]
      exact ⟨(enterReady_field u d Drive.cyl).trans (field Drive.cyl), (enterReady_field u d Drive.arm).trans (field Drive.arm),
        (enterReady_field u d Drive.seekTimer).trans (field Drive.seekTimer), enterReady_field u d Drive.state,
        fun _ p hp => (keeps_settle _).attended p d (mem_attention_enterReady (k.notLost p hp))⟩
    | false =>
      obtain ⟨state, cyl, arm, timer⟩ := enterScanning_drive u d
      have k' := keeps_settle (u.enterScanning d)
      simp only [Bool.false_eq_true, if_false]
      exact ⟨(k'.field Drive.cyl d).trans (cyl.trans (field Drive.cyl)), (k'.field Drive.arm d).trans (arm.trans (field Drive.arm)),
        (k'.field Drive.seekTimer d).trans (timer.trans (field Drive.seekTimer)), (k'.field Drive.state d).trans state, nofun⟩
  · have k := (keeps_seekCompleted hs (by simp [ha])).trans (keeps_settle _)
    have field {α : Type} (g : Drive → α) (hg : ∀ D : Drive, g D.kept = g D := by exact fun _ => rfl) :
        g ((s.seekCompleted d).settle.drive d) = g (s.drive d).seekDone := by
      rw [k.field g d hg, drive_modDrive_same]
    obtain ⟨cyl, arm, timer, state⟩ := seekDone_of_seek hp ha
    exact ⟨_, exec_eq_effect _ s, (field Drive.cyl).trans cyl, (field Drive.arm).trans arm,
      (field Drive.seekTimer).trans timer, (field Drive.state).trans state⟩
  · exact exec_of_effect (by simp [State.effect, State.seekCompleted, ha])

end Sys2Proof.Machine

namespace Sys2Proof.Machine

/-! ### Relocation steps and recorded forms -/

/-- A header is recorded as the nine bytes of R198 and its check field of four. -/
theorem recordedHeader_form (t : Track) (h : Header) :
    (recordedHeader t h).length = 13
      ∧ (recordedHeader t h).take 9 = be16 t.cyl ++ [byteOf t.head, 0x01, h.spareState.code] ++ be16 h.link.cyl
        ++ [byteOf h.link.head, h.generation] := ⟨rfl, rfl⟩

/-- An ident is recorded as the five bytes of R198 and its check of two. -/
theorem recordedIdent_form (t : Track) (n : Nat) (lost : Bool) :
    (recordedIdent t n lost).length = 7
      ∧ (recordedIdent t n lost).take 5 = be16 t.cyl ++ [byteOf t.head, byteOf n, if lost then 1 else 0] := by
  cases lost <;> exact ⟨rfl, rfl⟩

/-- Settles O51: each completion is its step given up and its result handed on. -/
theorem stepCompletions : Obligations.StepCompletions := by
  refine ⟨fun s d w k r h hd hr hh => exec_of_effect ?_, fun s d reads k r hd he hp => exec_of_effect ?_,
    fun s d k r st hd he hs => exec_of_effect ?_, fun s d reads k r hd he => exec_of_effect ?_, recordedHeader_form,
    recordedIdent_form, fun t l n x hx => ?_⟩
  · simp [State.effect, State.headerStepDone, hd, hr, hh]
  · simp [State.effect, State.trackReadDone, hd, he, hp]
  · simp [State.effect, State.trackWriteDone, hd, he, hs]
  · simp [State.effect, State.trackVerifyDone, hd, he]
  · simp [recordedTrack, hx]

/-! ### The spare scan -/

/-- A header taken into the map changes nothing of the drive but map and pool. -/
theorem kept_takeHeader (s : State) (d : DriveId) (ty : DriveType) (t : Track) (l : List Track) (h : HeaderResult) :
    ((s.takeHeader d ty t l h).1.drive d).kept = (s.drive d).kept := by
  have spare (t : Track) (st : SpareState) : ((s.setSpare d t st).drive d).kept = (s.drive d).kept :=
    (keeps_setSpare s d t st).drive d
  unfold State.takeHeader
  split
  · exact spare _ _
  · exact spare _ _
  · exact spare _ _
  · exact spare _ _
  · split
    · split
      · unfold State.addEntry
        rw [drive_modDrive_same]
        exact spare _ _
      · split
        · exact ((((keeps_setSpare s d t _).trans (keeps_setSpare? _ d _ _)).trans (keeps_modEntry _ d _ _)).drive d)
        · exact spare _ _
    · exact spare _ _

theorem takeHeader_field {α : Type} (s : State) (d : DriveId) (ty : DriveType) (t : Track) (l : List Track)
    (h : HeaderResult) (g : Drive → α) (hg : ∀ D : Drive, g D.kept = g D := by exact fun _ => rfl) :
    g ((s.takeHeader d ty t l h).1.drive d) = g (s.drive d) := by
  rw [← hg, ← hg (s.drive d), kept_takeHeader]

theorem pool_setSpare (s : State) (d : DriveId) (t : Track) (st : SpareState) :
    ((s.setSpare d t st).drive d).pool = setPool t st (s.drive d).pool := by
  simp [State.setSpare]

theorem map_setSpare (s : State) (d : DriveId) (t : Track) (st : SpareState) :
    ((s.setSpare d t st).drive d).map = (s.drive d).map := by
  simp [State.setSpare]

theorem getLsbD_setInsert (m : SectorSet) (n i : Nat) (hi : i < 16) :
    (setInsert m n).getLsbD i = (m.getLsbD i || i == n) := by
  have bit : (1#16 <<< n).getLsbD i = (i == n) := by
    rw [BitVec.getLsbD_shiftLeft, BitVec.getLsbD_one, Bool.eq_iff_iff]
    simp
    omega
  rw [setInsert, BitVec.getLsbD_or, bit]

/-- The set of the places at which a test holds, bit by bit. -/
theorem getLsbD_sectorsWhere {α : Type} (test : α → Bool) (l : List α) (n i : Nat) (hi : i < 16) :
    (sectorsWhere test n l).getLsbD i = (decide (n ≤ i) && (l[i - n]?).any test) := by
  induction l generalizing n with
  | nil => simp [sectorsWhere]
  | cons x l ih =>
    have head : (sectorsWhere test n (x :: l)).getLsbD i
        = ((sectorsWhere test (n + 1) l).getLsbD i || (test x && i == n)) := by
      have step : sectorsWhere test n (x :: l)
          = if test x then setInsert (sectorsWhere test (n + 1) l) n else sectorsWhere test (n + 1) l := rfl
      rw [step]
      cases test x with
      | true => simp [getLsbD_setInsert _ _ _ hi]
      | false => simp
    rw [head, ih]
    rcases Nat.lt_trichotomy i n with h | h | h
    · simp [Nat.not_le.2 h, Nat.not_le.2 (Nat.lt_succ_of_lt h), Nat.ne_of_lt h]
    · subst h
      rw [decide_eq_false (Nat.not_succ_le_self i), decide_eq_true (Nat.le_refl i), Nat.sub_self, BEq.rfl]
      simp only [Bool.false_and, Bool.false_or, Bool.and_true, Bool.true_and, List.getElem?_cons_zero, Option.any_some]
    · obtain ⟨k, rfl⟩ := Nat.exists_eq_add_of_lt h
      have shift : n + k + 1 - n = k + 1 := by omega
      have shift' : n + k + 1 - (n + 1) = k := by omega
      simp [shift, shift', show ¬ n + k + 1 = n by omega, show n + 1 ≤ n + k + 1 by omega, show n ≤ n + k + 1 by omega]

/-- The LOST flags of a rebuild pass, sector by sector (R140). -/
theorem getLsbD_lostOf (t : Track) (reads : List SectorRead) (n : Nat) (hn : n < 16) :
    (sectorsWhere Outcome.lost 0 (trackOutcomes t reads)).getLsbD n
      = (judgeRead t n (reads.getD n ⟨none, .uncorrectable, []⟩)).lost := by
  rw [getLsbD_sectorsWhere _ _ _ _ hn]
  simp [trackOutcomes, Config.sectors, hn]

/-- An ALTERNATE with a home link that no entry has builds one (R139). -/
theorem takeHeader_builds {s : State} {d : DriveId} {ty : DriveType} {link : Track} (t : Track) (l : List Track) (g : Byte)
    (hl : isHomeTrack ty link = true) (he : s.entry? d link = none) :
    s.takeHeader d ty t l (.readable .alternate link g)
      = ((s.setSpare d t .inUse).addEntry d (scannedEntry link t g), l) := by
  simp [State.takeHeader, hl, he]

/-- An ALTERNATE of no later generation than the entry of its home link loses the dispute (R139). -/
theorem takeHeader_loses {s : State} {d : DriveId} {ty : DriveType} {link : Track} {e : MapEntry} (t : Track)
    (l : List Track) {g : Byte} (hl : isHomeTrack ty link = true) (he : s.entry? d link = some e)
    (hg : laterGeneration g e.generation = false) :
    s.takeHeader d ty t l (.readable .alternate link g) = (s.setSpare d t .unusable, insertTrack t l) := by
  simp [State.takeHeader, hl, he, hg]

/-- An ALTERNATE of a later generation takes the entry of its home link over, and the former alternate loses (R139). -/
theorem takeHeader_wins {s : State} {d : DriveId} {ty : DriveType} {link old : Track} {e : MapEntry} (t : Track)
    (l : List Track) {g : Byte} (hl : isHomeTrack ty link = true) (he : s.entry? d link = some e)
    (hg : laterGeneration g e.generation = true) (ho : e.alternate = some old) :
    s.takeHeader d ty t l (.readable .alternate link g)
      = (((s.setSpare d t .inUse).setSpare d old .unusable).modEntry d link fun x =>
          { x with alternate := some t, generation := g }, insertTrack old l) := by
  simp [State.takeHeader, hl, he, hg, ho, State.setSpare?]

/-- A header read of the scan that turns to the next spare. -/
theorem scanHeader_next {s : State} {d : DriveId} {c : Scan} {ty : DriveType} {x : Track} (h : Option RawHeader)
    (hs : (s.drive d).state = .scanning) (hc : (s.drive d).scan = some c) (ht : (s.drive d).type = some ty)
    (hj : c.job = .header) (ho : c.opDue = true) (hx : nextSpare ty c.track = some x) :
    s.scanHeader d h = (s.takeHeader d ty c.track c.losers (judgeHeader c.track h)).1.scanTo d .header x
      (s.takeHeader d ty c.track c.losers (judgeHeader c.track h)).2 [] := by
  simp [State.scanHeader, hs, hc, ht, hj, ho, hx]

/-- A header read of the scan on the last spare. -/
theorem scanHeader_last {s : State} {d : DriveId} {c : Scan} {ty : DriveType} (h : Option RawHeader)
    (hs : (s.drive d).state = .scanning) (hc : (s.drive d).scan = some c) (ht : (s.drive d).type = some ty)
    (hj : c.job = .header) (ho : c.opDue = true) (hx : nextSpare ty c.track = none) :
    s.scanHeader d h = (s.takeHeader d ty c.track c.losers (judgeHeader c.track h)).1.scanDiscard d
      (s.takeHeader d ty c.track c.losers (judgeHeader c.track h)).2 := by
  simp [State.scanHeader, hs, hc, ht, hj, ho, hx]

/-- The write that discards a loser of a dispute, and where the scan goes on. -/
theorem scanDiscarded_next {s : State} {d : DriveId} {c : Scan} (hs : (s.drive d).state = .scanning)
    (hc : (s.drive d).scan = some c) (hj : c.job = .discard) (ho : c.opDue = true) :
    s.scanDiscarded d
      = (s.setRecorded d (.header (recordedHeader c.track (plainHeader .unusable)))).scanDiscard d c.losers := by
  simp [State.scanDiscarded, hs, hc, hj, ho]

/-- The pass that reads the LOST flags of an alternate, and where the scan goes on. -/
theorem scanRebuilt_next {s : State} {d : DriveId} {c : Scan} (reads : List SectorRead)
    (hs : (s.drive d).state = .scanning) (hc : (s.drive d).scan = some c) (hj : c.job = .rebuild) (ho : c.opDue = true) :
    s.scanRebuilt d reads = (s.modDrive d fun D => { D with
      map := D.map.map fun e =>
        if e.state == .active && e.alternate == some c.track then
          { e with lost := sectorsWhere Outcome.lost 0 (trackOutcomes c.track reads) } else e }).scanRebuild d c.rebuilds := by
  simp [State.scanRebuilt, hs, hc, hj, ho]

/-- Settles O53: each operation of the scan is its step and where the scan goes on from there, kept to the end of the
event. -/
theorem scanGoesOn : Obligations.ScanGoesOn := by
  refine ⟨fun s d c ty h hs hc ht hj ho => ?_, fun s d ty t l link g => ?_, fun s d c w hs hc hj ho => ?_,
    fun s d c reads hs hc hj ho => ?_, getLsbD_lostOf⟩
  · intro taken
    have state : (taken.1.drive d).state = .scanning := (takeHeader_field s d ty _ _ _ Drive.state).trans hs
    have cyl : (taken.1.drive d).cyl = (s.drive d).cyl := takeHeader_field s d ty _ _ _ Drive.cyl
    refine ⟨fun x hx => ?_, fun hx => ?_⟩
    · have exec := exec_of_effect (c := .scanHeaderRead d h) (scanHeader_next h hs hc ht hj ho hx)
      obtain ⟨map, pool, state', scan⟩ := scanTo_drive taken.1 d .header x taken.2 []
      have k := keeps_settle (taken.1.scanTo d .header x taken.2 [])
      exact ⟨exec, map, pool, _, exec, (k.field Drive.state d).trans (state'.trans state),
        (k.field Drive.scan d).trans (by rw [scan, cyl])⟩
    · have exec := exec_of_effect (c := .scanHeaderRead d h) (scanHeader_last h hs hc ht hj ho hx)
      obtain ⟨scans, map, pool⟩ := scansOn_scanDiscard taken.1 (s.drive d) d taken.2 state cyl
      exact ⟨exec, map, pool, _, exec, scansOn_settle _ d _ _ scans⟩
  · intro D after
    have spare (r : HeaderResult) (st : SpareState) (losers : List Track)
        (h : s.takeHeader d ty t l r = (s.setSpare d t st, losers)) : after r (setPool t st D.pool) D.map losers := by
      unfold after
      rw [h]
      exact ⟨pool_setSpare s d t st, map_setSpare s d t st, rfl⟩
    refine ⟨spare _ _ _ rfl, spare _ _ _ rfl, spare _ _ _ rfl, spare _ _ _ rfl,
      fun hl => spare _ _ _ (by simp [State.takeHeader, hl]), fun hl he hm => ?_,
      fun e hl he => ⟨fun hg => spare _ _ _ (takeHeader_loses t l hl he hg), fun old hg ha => ?_⟩⟩
    · unfold after
      rw [takeHeader_builds t l g hl he]
      refine ⟨?_, ?_, rfl⟩ <;> unfold State.addEntry <;> rw [drive_modDrive_same]
      · exact pool_setSpare s d t _
      · dsimp only
        rw [map_setSpare]
        exact if_pos hm
    · unfold after
      rw [takeHeader_wins t l hl he hg ha]
      refine ⟨?_, ?_, rfl⟩
      · rw [pool_modEntry, pool_setSpare, pool_setSpare]
      · unfold State.modEntry
        rw [drive_modDrive_same]
        dsimp only
        rw [map_setSpare, map_setSpare]
        simp only [beq_iff_eq]
        rfl
  · have exec := exec_of_effect (c := .scanDiscardWrite d w) (scanDiscarded_next hs hc hj ho)
    have same : (s.setRecorded d (.header (recordedHeader c.track (plainHeader .unusable)))).drive d
        = { s.drive d with recorded := some (.header (recordedHeader c.track (plainHeader .unusable))) } :=
      drive_modDrive_same ..
    obtain ⟨scans, _⟩ := scansOn_scanDiscard _ (s.drive d) d c.losers (by rw [same]; exact hs) (by rw [same])
    rw [same] at scans
    exact ⟨exec, _, exec, scansOn_settle _ d _ _ scans⟩
  · have exec := exec_of_effect (c := .rebuildPass d reads) (scanRebuilt_next reads hs hc hj ho)
    refine ⟨exec, _, exec, scansOn_settle _ d _ _ (scansOn_scanRebuild _ (s.drive d) d c.rebuilds ?_ ?_).1⟩ <;>
      rw [drive_modDrive_same]
    exact hs

end Sys2Proof.Machine

namespace Sys2Proof.Machine

/-! ### Port links through an event -/

/-- A part of a port that the end of an event never changes. -/
theorem Keeps.portField {α : Type} {s t : State} (h : Keeps s t) (g : Port → α) (p : PortId)
    (hg : ∀ P : Port, g P.kept = g P := by exact fun _ => rfl) : g (t.port p) = g (s.port p) :=
  (hg _).symm.trans ((congrArg g (h.port p)).trans (hg _))

/-- The lines and the timer of a port link, its state and what it sends stand as they stood. -/
structure Port.SameLink (P Q : Port) : Prop where
  kept : Q.kept = P.kept
  state : Q.state = P.state
  sending : Q.sending = P.sending

theorem Port.SameLink.refl (P : Port) : P.SameLink P := ⟨rfl, rfl, rfl⟩

theorem Port.SameLink.trans {P Q R : Port} (h : P.SameLink Q) (g : Q.SameLink R) : P.SameLink R :=
  ⟨g.kept.trans h.kept, g.state.trans h.state, g.sending.trans h.sending⟩

theorem Port.SameLink.field {α : Type} {P Q : Port} (h : P.SameLink Q) (g : Port → α)
    (hg : ∀ P : Port, g P.kept = g P := by exact fun _ => rfl) : g Q = g P :=
  (hg _).symm.trans ((congrArg g h.kept).trans (hg _))

/-- The link of a port in no data connection stands through work that keeps. -/
theorem Keeps.sameLink {s t : State} (h : Keeps s t) {p : PortId} (hp : (s.port p).dataConn = none) :
    (s.port p).SameLink (t.port p) :=
  ⟨h.port p, (h.calm p hp).1, (h.calm p hp).2⟩

theorem sameLink_settle {s : State} {p : PortId} (h : (s.port p).dataConn = none) :
    (s.port p).SameLink (s.settle.port p) := (keeps_settle s).sameLink h

theorem modPort_congr {s : State} {p : PortId} {f g : Port → Port} (h : f (s.port p) = g (s.port p)) :
    s.modPort p f = s.modPort p g := by
  unfold State.modPort
  rw [h]

theorem modPort_modPort (s : State) (p : PortId) (f g : Port → Port) :
    (s.modPort p f).modPort p g = s.modPort p fun P => g (f P) := by
  unfold State.modPort
  simp [State.port, get_eq_getElem]

/-! ### Selection -/

theorem select_of_idle {P : Port} (h : P.state = .idle) :
    P.select = { P with state := .selected false, offer := none, portBusy := false } := by
  simp [Port.select, h]

theorem select_of_taken {P : Port} (h : (∃ b, P.state = .selected b) ∨ ∃ c, P.state = .connected c) :
    P.select = { P with portBusy := true } := by
  rcases h with ⟨_, h⟩ | ⟨_, h⟩ <;> simp [Port.select, h]

theorem select_of_unoperational {P : Port} (h : P.state = .offline ∨ P.state = .lost) : P.select = P := by
  rcases h with h | h <;> simp [Port.select, h]

/-- Settles O17: by the port's state; a port in no data connection stands so to the end of the event, and port busy in any. -/
theorem selectAndAnswerTaken : Obligations.SelectAndAnswerTaken := by
  refine ⟨fun p s h => ⟨_, exec_eq_effect _ s, ?_⟩, fun p s b h => ⟨_, exec_eq_effect _ s, ?_⟩,
    fun p s c h => ⟨_, exec_eq_effect _ s, ?_⟩, fun p s h => exec_of_effect (modPort_eq_self (select_of_unoperational h)),
    fun p s h => ⟨_, exec_eq_effect _ s, ?_⟩⟩
  · have taken : (s.effect (.select p)).port p = _ := (port_modPort_same s p _).trans (select_of_idle h)
    have link := sameLink_settle (s := s.effect (.select p)) (p := p) (by rw [taken]; rfl)
    rw [taken] at link
    exact ⟨link.state, link.field Port.portBusy⟩
  · have taken : (s.effect (.select p)).port p = _ := (port_modPort_same s p _).trans (select_of_taken (.inl ⟨b, h⟩))
    have link := sameLink_settle (s := s.effect (.select p)) (p := p) (by rw [taken]; simp [Port.dataConn, h])
    rw [taken] at link
    exact ⟨link.state.trans h, link.field Port.portBusy, link.sending⟩
  · have taken : (s.effect (.select p)).port p = _ := (port_modPort_same s p _).trans (select_of_taken (.inr ⟨c, h⟩))
    exact ((keeps_settle _).portField Port.portBusy p).trans (congrArg Port.portBusy taken)
  · have taken : (s.effect (.answerTaken p)).port p = { s.port p with state := .idle, sending := [] } :=
      (port_modPort_same s p _).trans (if_pos (by rw [h]; rfl))
    have link := sameLink_settle (s := s.effect (.answerTaken p)) (p := p) (by rw [taken]; rfl)
    rw [taken] at link
    exact ⟨link.state, link.sending⟩

/-! ### The operational line -/

/-- Of a port in no data connection, the cutting off of its connection changes status queue and attention set alone. -/
theorem sameLink_cutConnection {s : State} {p : PortId} (h : (s.port p).dataConn = none) (c : Conn) :
    (s.port p).SameLink ((s.cutConnection p c).port p) := by
  have append (e : StatusEntry) : (s.port p).SameLink ((s.appendStatus p e).port p) := by
    unfold State.appendStatus
    rw [port_modPort_same]
    exact ⟨rfl, rfl, rfl⟩
  cases c with
  | data k presenting =>
    cases presenting with
    | none => exact (keeps_refuse s k).sameLink h
    | some e =>
      have quiet : ((s.appendStatus p e).port p).dataConn = none := (dataConn_of_state (append e).state).trans h
      exact (append e).trans ((keeps_releaseUnlessWriting _ k).sameLink quiet)
  | status => exact .refl _
  | attention ds =>
    unfold State.cutConnection
    rw [port_modPort_same]
    exact ⟨rfl, rfl, rfl⟩
  | parting e => exact append e

/-- Of a port in no data connection, the refusal of its waiting paths changes the list of these alone. -/
theorem sameLink_refuseWaiting {s : State} {p : PortId} (h : (s.port p).dataConn = none) :
    (s.port p).SameLink ((s.refuseWaiting p).port p) := by
  have emptied : (s.port p).SameLink ((s.modPort p fun P => { P with waiting := [] }).port p) := by
    rw [port_modPort_same]
    exact ⟨rfl, rfl, rfl⟩
  exact emptied.trans ((Keeps.foldl _ keeps_refuse _ _).sameLink ((dataConn_of_state emptied.state).trans h))

/-- A port link as the fall of its operational line leaves it (R23). -/
def Port.fallen (P : Port) : Port :=
  { P with
    opLine := false, state := .offline, lossTimer := some 0, offer := none, sending := [], portBusy := false
    byteTaken := false }

theorem sameLink_lineFall {s : State} {p : PortId} (h : (s.port p).opLine = true) :
    (s.port p).fallen.SameLink ((s.lineFall p).port p) := by
  unfold State.lineFall
  extract_lets P s1 s2 s3
  rw [if_pos h]
  have fallen : (s.port p).fallen.SameLink (s1.port p) := by
    unfold s1
    rw [port_modPort_same]
    exact .refl _
  have cut : (s1.port p).SameLink (s2.port p) := by
    unfold s2
    split
    · exact sameLink_cutConnection (dataConn_of_state fallen.state) _
    · exact .refl _
  exact (fallen.trans cut).trans (sameLink_refuseWaiting (dataConn_of_state (fallen.trans cut).state))

theorem lineFall_of_low {s : State} {p : PortId} (h : (s.port p).opLine = false) : s.lineFall p = s := by
  simp [State.lineFall, h]

theorem port_lineRise {s : State} {p : PortId} (h : (s.port p).state = .offline ∨ (s.port p).state = .lost) :
    (s.lineRise p).port p = { s.port p with opLine := true, state := .idle, lossTimer := none } := by
  unfold State.lineRise
  rw [port_modPort_same]
  rcases h with h | h <;> simp [h]

theorem lineRise_of_operational {s : State} {p : PortId} (h1 : (s.port p).state ≠ .offline)
    (h2 : (s.port p).state ≠ .lost) : s.lineRise p = s.modPort p fun P => { P with opLine := true } := by
  refine modPort_congr ?_
  dsimp only
  split <;> simp_all

/-- Settles O14: the link of the port stands OFFLINE, or IDLE, from its fall or rise to the end of the event. -/
theorem operationalLine : Obligations.OperationalLine := by
  refine ⟨fun p s h => ⟨_, exec_eq_effect _ s, ?_⟩, fun p s h => exec_of_effect (lineFall_of_low h),
    fun p s h => ⟨_, exec_eq_effect _ s, ?_⟩, fun p s h1 h2 => exec_of_effect (lineRise_of_operational h1 h2)⟩
  · have fall := sameLink_lineFall h
    have link := fall.trans (sameLink_settle (dataConn_of_state fall.state))
    exact ⟨link.field Port.opLine, link.state, link.field Port.lossTimer, link.sending,
      ((still_lineFall s p).trans (still_settle _)).lock⟩
  · have link := sameLink_settle (s := s.lineRise p) (p := p) (by rw [port_lineRise h]; rfl)
    rw [port_lineRise h] at link
    exact ⟨link.field Port.opLine, link.state, link.field Port.lossTimer⟩

/-! ### Requests taken from a port -/

theorem mem_portRequests {s : State} {p : PortId} {n : Nat} :
    n ∈ s.portRequests p ↔ ∃ r ∈ s.records, r.outstandingFor p = true ∧ r.pos = n := by
  simp [State.portRequests, State.outstanding, and_assoc]

/-- Work that keeps gives a port no request. -/
theorem Keeps.portRequests_subset {s t : State} (h : Keeps s t) (p : PortId) : t.portRequests p ⊆ s.portRequests p :=
  (h.outstanding p).subset

theorem notMem_portRequests_of_no_request {s : State} {n : Nat} (h : s.request? n = none) (p : PortId) :
    n ∉ s.portRequests p := by
  rw [mem_portRequests]
  rintro ⟨r, hr, _, rfl⟩
  simpa using List.find?_eq_none.1 h r hr

theorem notMem_portRequests_freeRequest (s : State) (n : Nat) (p : PortId) : n ∉ (s.freeRequest n).portRequests p := by
  rw [mem_portRequests, records_freeRequest]
  rintro ⟨r, hr, _, rfl⟩
  simp at hr

/-- A change that detaches a request leaves it outstanding at no port. -/
theorem notMem_portRequests_modRequest (s : State) (n : Nat) (f : Record → Record) (hd : ∀ r, (f r).detached = true)
    (p : PortId) : n ∉ (s.modRequest n f).portRequests p := by
  rw [mem_portRequests, records_modRequest]
  rintro ⟨x, hx, out, hn⟩
  obtain ⟨r, _, rfl⟩ := List.mem_map.1 hx
  by_cases h : r.pos = n
  · simp [h, Record.outstandingFor, hd] at out
  · simp [h] at hn

theorem notMem_portRequests_detach (s : State) (n : Nat) (p : PortId) : n ∉ (s.detach n).portRequests p :=
  notMem_portRequests_modRequest s n (fun r => { r with detached := true }) (fun _ => rfl) p

/-- Requests dealt with one after the other, each so that it is outstanding no more, leave the port none. -/
theorem outstanding_foldl_eq_nil {f : State → Nat → State} {p : PortId} (keeps : ∀ t n, Keeps t (f t n))
    (clears : ∀ t n, n ∉ (f t n).portRequests p) (l : List Nat) {s : State} (h : s.portRequests p ⊆ l) :
    (l.foldl f s).outstanding p = [] := by
  induction l generalizing s with
  | nil => exact List.map_eq_nil_iff.1 (List.eq_nil_of_subset_nil h)
  | cons n l ih =>
    refine ih fun m hm => ?_
    rcases List.mem_cons.1 (h ((keeps s n).portRequests_subset p hm)) with rfl | hl
    · exact absurd hm (clears s m)
    · exact hl

theorem Keeps.outstanding_eq_nil {s t : State} (h : Keeps s t) {p : PortId} (hs : s.outstanding p = []) :
    t.outstanding p = [] := by
  simpa [hs] using h.outstanding p

/-! ### Port loss -/

theorem notMem_portRequests_loseRequest (s : State) (n : Nat) (p : PortId) : n ∉ (s.loseRequest n).portRequests p := by
  have detached : n ∉ (s.detach n).portRequests p := notMem_portRequests_detach s n p
  have after {t : State} (k : Keeps (s.detach n) t) : n ∉ t.portRequests p := fun h =>
    detached (k.portRequests_subset p h)
  unfold State.loseRequest
  split
  · exact notMem_portRequests_of_no_request ‹_› p
  · split
    · exact notMem_portRequests_freeRequest s n p
    · split
      · exact detached
      · split
        · exact notMem_portRequests_freeRequest _ n p
        · split
          · dsimp only
            split
            · exact after (keeps_endStopped _ n _)
            · exact after (keeps_endStopped _ n _)
            · exact after (.modRequest _ n _ fun _ => ⟨rfl, rfl, id, rfl, rfl, id⟩)
          · exact detached

/-- A port link as the entry into LOST leaves it (R26). -/
def Port.enteredLost (P : Port) : Port :=
  { P with state := .lost, lossTimer := none, statusQueue := [], attention := [] }

/-- Beside the link, the entry into LOST works on the port's requests alone. -/
theorem keeps_enterLost_rest (s : State) (p : PortId) : Keeps (s.modPort p Port.enteredLost) (s.enterLost p) :=
  .foldl _ keeps_loseRequest _ _

theorem outstanding_enterLost (s : State) (p : PortId) : (s.enterLost p).outstanding p = [] :=
  outstanding_foldl_eq_nil keeps_loseRequest (fun t n => notMem_portRequests_loseRequest t n p) _ fun _ => id

/-- Settles O15: from its entry into LOST to the end of the event the port stands LOST with nothing queued. -/
theorem lossTimerExpiryEntersLost : Obligations.LossTimerExpiryEntersLost := by
  refine ⟨fun p s n hs ht hn => ?_, fun p s n ht hn => exec_of_effect ?_⟩
  · have enters : s.effect (.portLossTimerExpiry p) = s.enterLost p := by
      simp [State.effect, State.lossExpired, hs, ht, Config.lossLimit, hn]
    have k := (keeps_enterLost_rest s p).trans (keeps_settle _)
    have entered : (s.modPort p Port.enteredLost).port p = (s.port p).enteredLost := port_modPort_same s p _
    have link := k.sameLink (p := p) (by rw [entered]; rfl)
    have queues := k.lost p (by rw [entered]; rfl)
    rw [entered] at link queues
    exact ⟨_, exec_of_effect enters, link.state, link.field Port.lossTimer, queues.1, queues.2,
      (keeps_settle _).outstanding_eq_nil (outstanding_enterLost s p), k.lock⟩
  · have early : ¬Config.lossLimit ≤ n := Nat.not_le.2 hn
    simp only [State.effect, State.lossExpired, ht]
    split
    · rename_i m _ same
      obtain rfl : n = m := Option.some.inj same
      exact if_neg early
    · rfl

/-! ### The internal revolution pulse -/

theorem referenceDrive_eq_none {s : State} : s.referenceDrive = none ↔ ∀ d, (s.drive d).state = .notReady := by
  unfold State.referenceDrive
  rw [List.find?_eq_none]
  simp [mem_allDrives]

/-- Settles O16: with no drive in service the pulse is a tick of every port's loss timer, else it is nothing. -/
theorem revolutionPulseCounts : Obligations.RevolutionPulseCounts := by
  refine ⟨fun s h => ⟨_, exec_eq_effect _ s, fun p n hs ht hn => ?_⟩, fun s d h => exec_of_effect ?_⟩
  · have pulse : s.effect .internalRevolutionPulse = s.countLosses := by
      simp [State.effect, State.revolutionPulse, referenceDrive_eq_none.2 h]
    obtain ⟨state, timer⟩ := countLoss_foldl hn allPorts (by decide) hs ht
    rw [if_pos (mem_allPorts p)] at timer
    have link := sameLink_settle (s := s.countLosses) (p := p) (by simp [Port.dataConn, State.countLosses, state])
    rw [pulse]
    exact ⟨link.state.trans state, (link.field Port.lossTimer).trans timer⟩
  · have some : s.referenceDrive ≠ none := fun none => h (referenceDrive_eq_none.1 none d)
    simp [State.effect, State.revolutionPulse, some]

/-! ### Port reset -/

/-- A port link that no path is connected to, offered on or waiting for. -/
structure Port.Unlinked (P : Port) : Prop where
  conn : P.dataConn = none
  offer : P.offer = none
  waiting : P.waiting = []

/-- Every port that no path is linked to stands as it stood. -/
def State.LeavesUnlinked (s t : State) : Prop := ∀ p, (s.port p).Unlinked → t.port p = s.port p

theorem State.LeavesUnlinked.trans {s t u : State} (h : s.LeavesUnlinked t) (g : t.LeavesUnlinked u) :
    s.LeavesUnlinked u := fun p hp =>
  (g p (by rw [h p hp]; exact hp)).trans (h p hp)

theorem State.LeavesUnlinked.of_ports {s t : State} (h : t.ports = s.ports := by rfl) : s.LeavesUnlinked t :=
  fun p _ => port_congr h p

theorem leavesUnlinked_disconnect (s : State) (k : PathId) : s.LeavesUnlinked (s.disconnect k) := by
  intro p hp
  unfold State.disconnect
  split
  · rfl
  · rename_i q _
    split
    · rename_i connected
      refine port_modPort_other s q p _ fun h => ?_
      rw [← h, not_connectedTo hp.conn] at connected
      cases connected
    · rfl

theorem leavesUnlinked_withdrawAsk (s : State) (k : PathId) : s.LeavesUnlinked (s.withdrawAsk k) := by
  intro p hp
  unfold State.withdrawAsk
  split
  · rfl
  · rename_i q _
    rw [port_modPort]
    split
    · rename_i h
      subst h
      obtain ⟨_, offer, waiting⟩ := hp
      rw [waiting, offer, ite_self, ← offer, List.filter_nil, ← waiting]
    · rfl

theorem leavesUnlinked_releasePath (s : State) (k : PathId) : s.LeavesUnlinked (s.releasePath k) := by
  unfold State.releasePath
  extract_lets P written
  have written_ports : s.LeavesUnlinked written := by
    refine .of_ports ?_
    unfold written
    split <;> rfl
  have gates (t : State) : t.LeavesUnlinked (t.closeGates? P.drive) := fun p _ => port_closeGates? t _ p
  exact ((written_ports.trans (leavesUnlinked_disconnect _ k)).trans (leavesUnlinked_withdrawAsk _ k)).trans
    ((gates _).trans .of_ports)

theorem ports_leaveDrive (s : State) (n : Nat) : (s.leaveDrive n).ports = s.ports := (clearDrive_same s n).1

theorem leavesUnlinked_stopRequest (s : State) (n : Nat) : s.LeavesUnlinked (s.stopRequest n) := by
  unfold State.stopRequest
  split
  · exact .of_ports
  · extract_lets t u
    have left : s.LeavesUnlinked t := .of_ports (ports_leaveDrive _ n)
    have released : t.LeavesUnlinked u := by
      unfold u
      split
      · exact leavesUnlinked_releasePath t _
      · exact .of_ports
    exact (left.trans released).trans .of_ports

theorem leavesUnlinked_resetRequest (s : State) (n : Nat) : s.LeavesUnlinked (s.resetRequest n) := by
  unfold State.resetRequest
  split
  · exact .of_ports
  · split
    · exact .of_ports
    · split
      · exact .of_ports
      · split
        · exact .of_ports (ports_leaveDrive s n)
        · split
          · split
            · exact leavesUnlinked_stopRequest s n
            · exact .of_ports
          · exact .of_ports

theorem leavesUnlinked_resetConnection (s : State) (c : Conn) : s.LeavesUnlinked (s.resetConnection c) := by
  unfold State.resetConnection
  split
  · unfold State.releaseUnlessWriting
    split
    · exact .of_ports
    · exact leavesUnlinked_releasePath s _
  all_goals exact .of_ports

theorem leavesUnlinked_foldl {α : Type} (f : State → α → State) (h : ∀ (s : State) a, s.LeavesUnlinked (f s a))
    (l : List α) (s : State) : s.LeavesUnlinked (l.foldl f s) := by
  induction l generalizing s with
  | nil => exact .of_ports
  | cons a l ih => exact (h s a).trans (ih _)

theorem notMem_portRequests_resetRequest (s : State) (n : Nat) (p : PortId) : n ∉ (s.resetRequest n).portRequests p := by
  have detached : n ∉ (s.detach n).portRequests p := notMem_portRequests_detach s n p
  unfold State.resetRequest
  split
  · exact notMem_portRequests_of_no_request ‹_› p
  · rename_i r found
    split
    · exact notMem_portRequests_freeRequest s n p
    · split
      · exact detached
      · split
        · exact notMem_portRequests_freeRequest _ n p
        · split
          · split
            · unfold State.stopRequest
              rw [found]
              exact notMem_portRequests_freeRequest _ n p
            · exact notMem_portRequests_modRequest s n (fun x => { x with detached := true, resetStop := true })
                (fun _ => rfl) p
          · exact detached

/-- The tables as a port reset leaves them before it deals with the port's connection and requests: the port's link cleared,
and its locks free (R39, R182). -/
def State.resetTables (s : State) (p : PortId) : State :=
  allDrives.foldl (fun t d => t.modDrive d (Drive.freeLockOf p)) ((s.dropWaiting p).modPort p Port.afterReset)

theorem resetPort_eq (s : State) (p : PortId) :
    ∃ u, Keeps (s.resetTables p) u ∧ (s.resetTables p).LeavesUnlinked u
      ∧ s.resetPort p = (s.portRequests p).foldl State.resetRequest u := by
  refine ⟨_, ?_, ?_, rfl⟩
  · split
    · exact keeps_resetConnection _ _
    · exact .refl _
  · split
    · exact leavesUnlinked_resetConnection _ _
    · exact .of_ports

theorem dropWaiting_eq (s : State) (p : PortId) :
    ∃ v, s.dropWaiting p = State.modPort { s with paths := v } p fun P => { P with waiting := [] } := by
  have drop (l : List PathId) (t : State) :
      ∃ v, l.foldl (fun t k => t.modPath k fun P => { P with conn := .none, window := none }) t = { t with paths := v } := by
    induction l generalizing t with
    | nil => exact ⟨t.paths, rfl⟩
    | cons k l ih => exact ih _
  obtain ⟨v, hv⟩ := drop (s.port p).waiting s
  exact ⟨v, by unfold State.dropWaiting; rw [hv]⟩

theorem foldl_modDrive_eq (g : Drive → Drive) (l : List DriveId) (s : State) :
    ∃ w, l.foldl (fun t d => t.modDrive d g) s = { s with drives := w } := by
  induction l generalizing s with
  | nil => exact ⟨s.drives, rfl⟩
  | cons d l ih => exact ih _

/-- A port link as a port reset leaves it, with no path waiting for it either (R39). -/
def Port.cleared (P : Port) : Port := { P.afterReset with waiting := [] }

theorem port_resetTables (s : State) (p q : PortId) :
    (s.resetTables p).port q = if q = p then (s.port p).cleared else s.port q := by
  obtain ⟨v, hv⟩ := dropWaiting_eq s p
  obtain ⟨w, hw⟩ := foldl_modDrive_eq (Drive.freeLockOf p) allDrives ((s.dropWaiting p).modPort p Port.afterReset)
  unfold State.resetTables
  rw [hw, hv, modPort_modPort]
  exact port_modPort { s with paths := v } p q fun P => { P with waiting := [] }.afterReset

theorem records_resetTables (s : State) (p : PortId) : (s.resetTables p).records = s.records := by
  obtain ⟨v, hv⟩ := dropWaiting_eq s p
  obtain ⟨w, hw⟩ := foldl_modDrive_eq (Drive.freeLockOf p) allDrives ((s.dropWaiting p).modPort p Port.afterReset)
  unfold State.resetTables
  rw [hw, hv]
  rfl

theorem drive_resetTables (s : State) (p : PortId) (d : DriveId) :
    (s.resetTables p).drive d = (s.drive d).freeLockOf p := by
  obtain ⟨v, hv⟩ := dropWaiting_eq s p
  unfold State.resetTables
  rw [foldl_pointwise State.drive _ (Drive.freeLockOf p) (fun t i j => ?_) allDrives (by decide), if_pos (mem_allDrives d), hv]
  · rfl
  · rw [drive_modDrive]
    split
    · rename_i h
      rw [h]
    · rfl

theorem dataConn_cleared (P : Port) : P.cleared.dataConn = none := by
  unfold Port.cleared Port.afterReset PortState.afterReset Port.dataConn
  cases P.state <;> rfl

/-- The port of a reset, once it is done with the port's connection and requests: its link cleared (R39). -/
theorem port_resetPort (s : State) (p : PortId) : (s.resetPort p).port p = (s.port p).cleared := by
  obtain ⟨u, _, leaves, eq⟩ := resetPort_eq s p
  have cleared := port_resetTables s p p
  rw [if_pos rfl] at cleared
  have unlinked : ((s.resetTables p).port p).Unlinked := by
    rw [cleared]
    exact ⟨dataConn_cleared _, rfl, rfl⟩
  rw [eq, (leaves.trans (leavesUnlinked_foldl _ leavesUnlinked_resetRequest _ u)) p unlinked, cleared]

theorem keeps_resetPort_rest (s : State) (p : PortId) : Keeps (s.resetTables p) (s.resetPort p) := by
  obtain ⟨u, keeps, _, eq⟩ := resetPort_eq s p
  exact eq ▸ keeps.trans (.foldl _ keeps_resetRequest _ u)

theorem outstanding_resetPort (s : State) (p : PortId) : (s.resetPort p).outstanding p = [] := by
  obtain ⟨u, keeps, _, eq⟩ := resetPort_eq s p
  rw [eq]
  refine outstanding_foldl_eq_nil keeps_resetRequest (fun t n => notMem_portRequests_resetRequest t n p) _ fun n hn => ?_
  have h := keeps.portRequests_subset p hn
  unfold State.portRequests State.outstanding at h
  rwa [records_resetTables] at h

theorem lock_freeLockOf (p : PortId) (D : Drive) :
    (D.freeLockOf p).lock = if D.lock = some p then none else D.lock := by
  unfold Drive.freeLockOf
  simp only [beq_iff_eq]
  split <;> rfl

/-- Settles O13: the reset clears the port's link and takes its requests from it, and with no request left the end of the
event puts nothing into its queue or reports. -/
theorem portResetClearsPort : Obligations.PortResetClearsPort := by
  intro p s
  have cleared := port_resetPort s p
  have k := (keeps_resetPort_rest s p).trans (keeps_settle _)
  have link := sameLink_settle (s := s.resetPort p) (p := p) (by rw [cleared]; exact dataConn_cleared _)
  have silent := (keeps_settle (s.resetPort p)).silent p (outstanding_resetPort s p)
  rw [cleared] at link silent
  refine ⟨by rw [cleared]; rfl, by rw [cleared]; rfl, by rw [cleared]; rfl, (s.resetPort p).settle, exec_eq_effect _ s, rfl,
    (keeps_settle _).outstanding_eq_nil (outstanding_resetPort s p), silent.1, fun d => ?_, link.state, link.field Port.portBusy,
    fun d => ?_, fun q hq => ?_, fun d => ?_⟩
  · unfold State.reportOf
    rw [silent.2]
    simp [Port.cleared, Port.afterReset, get_eq_getElem]
  · unfold State.lockLostMark
    rw [link.field Port.lockLost]
    simp [Port.cleared, Port.afterReset, get_eq_getElem]
  · refine (k.lockLost q).trans ?_
    rw [port_resetTables, if_neg hq]
  · refine (k.lock d).trans ?_
    rw [drive_resetTables, lock_freeLockOf]

end Sys2Proof.Machine

namespace Sys2Proof.Machine

/-! ### Offers, accepts and blocks taken -/

theorem accepted_status {s : State} {p : PortId} {e : StatusEntry} {rest : List StatusEntry}
    (hs : (s.port p).state = .idle) (ho : (s.port p).offer = some .status) (hq : (s.port p).statusQueue = e :: rest) :
    (s.accepted p).port p = { s.port p with
      state := .connected .status, offer := none
      sending := sentBlock (statusIdentifier e) ++ sentBlock (statusBlock e) } := by
  simp [State.accepted, hs, ho, hq]

theorem accepted_attention {s : State} {p : PortId} (hs : (s.port p).state = .idle)
    (ho : (s.port p).offer = some .attention) :
    (s.accepted p).port p = { s.port p with
      state := .connected (.attention (s.port p).attention), offer := none, attention := []
      sending := sentBlock attentionIdentifier ++ sentBlock (attentionBlock (s.port p).attention) } := by
  simp [State.accepted, hs, ho]

theorem accepted_data {s : State} {p : PortId} {k : PathId} (hs : (s.port p).state = .idle)
    (ho : (s.port p).offer = some (.data k)) :
    s.accepted p = (s.modPort p fun P =>
      { P with
        state := .connected (.data k none), offer := none, sending := sentBlock (s.pathIdentifier k)
        waiting := P.waiting.filter fun x => x != k }).modPath k fun P =>
          { P with conn := .connected, window := none } := by
  simp [State.accepted, hs, ho]

theorem offerNow_of_busy {P : Port} (h : P.state ≠ .idle) : P.offerNow = P := by
  unfold Port.offerNow
  split <;> simp_all

theorem offerNow_of_no_offer {P : Port} (hs : P.state = .idle) (ho : P.offer = none) :
    P.offerNow = { P with offer := P.chooseOffer } := by
  simp [Port.offerNow, hs, ho]

theorem offerNow_of_data {P : Port} {k : PathId} (ho : P.offer = some (.data k)) : P.offerNow = P := by
  unfold Port.offerNow
  split <;> simp_all

/-- With no path waiting an offer in hand stands (R31). -/
theorem offerNow_of_offer {P : Port} (hw : P.waiting = []) (ho : P.offer ≠ none) : P.offerNow = P := by
  unfold Port.offerNow
  split <;> simp_all

/-- A waiting path is offered where DATA is not offered yet (R31). -/
theorem offerNow_of_waiting {P : Port} {k : PathId} {rest : List PathId} (hs : P.state = .idle) (hw : P.waiting = k :: rest)
    (hd : ∀ j, P.offer ≠ some (.data j)) : P.offerNow = { P with offer := some (.data k) } := by
  cases ho : P.offer with
  | none => rw [offerNow_of_no_offer hs ho, Port.chooseOffer, hw]
  | some o =>
    cases o with
    | data j => exact absurd ho (hd j)
    | status | attention => simp [Port.offerNow, hs, ho, hw]

/-- The choice of an offer leaves no IDLE port without an offer that it could make, nor with one that a path displaces. -/
theorem offerNow_settled {P : Port} (hs : P.offerNow.state = .idle) :
    (P.offerNow.offer = none → P.offerNow.waiting = [] ∧ P.offerNow.statusQueue = [] ∧ P.offerNow.attention = [])
      ∧ (P.offerNow.offer = some .status ∨ P.offerNow.offer = some .attention → P.offerNow.waiting = []) := by
  obtain ⟨_, state, _⟩ := offerNow_kept P
  have idle : P.state = .idle := state.symm.trans hs
  cases hw : P.waiting with
  | cons k rest =>
    by_cases hd : ∃ j, P.offer = some (.data j)
    · obtain ⟨j, hj⟩ := hd
      simp [offerNow_of_data hj, hj]
    · simp [offerNow_of_waiting idle hw fun j hj => hd ⟨j, hj⟩]
  | nil =>
    cases ho : P.offer with
    | some o => simp [offerNow_of_offer hw (by simp [ho]), hw, ho]
    | none =>
      rw [offerNow_of_no_offer idle ho]
      refine ⟨fun none => ?_, fun _ => hw⟩
      by_cases hq : P.statusQueue = []
      · by_cases ha : P.attention = []
        · exact ⟨hw, hq, ha⟩
        · simp [Port.chooseOffer, hw, hq, ha] at none
      · simp [Port.chooseOffer, hw, hq] at none

/-- At the end of every event each port has chosen its offer. -/
theorem port_offerAll (s : State) (p : PortId) : s.offerAll.port p = (s.port p).offerNow := by
  unfold State.offerAll
  rw [foldl_pointwise State.port _ Port.offerNow (fun t i j => ?_) allPorts (by decide), if_pos (mem_allPorts p)]
  rw [port_modPort]
  split
  · rename_i h
    rw [h]
  · rfl

/-- Settles O18: the accept by the offer in hand, and the offers of every port as the last thing of every event. -/
theorem acceptConnects : Obligations.AcceptConnects := by
  refine ⟨fun p s e rest hs ho hq => ⟨_, exec_eq_effect _ s, ?_⟩, fun p s hs ho => ⟨_, exec_eq_effect _ s, ?_⟩,
    fun p s k hs ho => exec_of_effect (accepted_data hs ho), fun P hs => ⟨fun k rest hw hd => ?_,
      fun k => offerNow_of_data, fun hw ho => offerNow_of_offer hw ho, fun hw ho hq => ?_, fun hw ho hq ha => ?_,
      fun hw ho hq ha => offerNow_of_nothing ho hw hq ha⟩,
    fun P => offerNow_of_busy, fun c s t p h idle => ?_⟩
  · have link := sameLink_settle (s := s.accepted p) (p := p) (by rw [accepted_status hs ho hq]; rfl)
    rw [accepted_status hs ho hq] at link
    exact ⟨link.state, link.sending⟩
  · have link := sameLink_settle (s := s.accepted p) (p := p) (by rw [accepted_attention hs ho]; rfl)
    rw [accepted_attention hs ho] at link
    exact ⟨link.state, link.sending⟩
  · rw [offerNow_of_waiting hs hw hd]
  · rw [offerNow_of_no_offer hs ho]
    simp [Port.chooseOffer, hw, hq]
  · rw [offerNow_of_no_offer hs ho]
    simp [Port.chooseOffer, hw, hq, ha]
  · rw [eq_of_exec h] at idle ⊢
    unfold State.settle at idle ⊢
    rw [port_offerAll] at idle ⊢
    exact offerNow_settled idle

/-- A port that returns to IDLE in a command stands so to the end of the event. -/
theorem idle_settle {s : State} {p : PortId} (hs : (s.port p).state = .idle) (hn : (s.port p).sending = []) :
    (s.settle.port p).state = .idle ∧ (s.settle.port p).sending = [] := by
  have link := sameLink_settle (s := s) (p := p) (by simp [Port.dataConn, hs])
  exact ⟨link.state.trans hs, link.sending.trans hn⟩

theorem port_portIdle (s : State) (p : PortId) : (s.portIdle p).port p = { s.port p with state := .idle, sending := [] } :=
  port_modPort_same s p _

theorem statusTaken_queued {s : State} {p : PortId} {e : StatusEntry} {rest : List StatusEntry}
    (hs : (s.port p).state = .connected .status) (hq : (s.port p).statusQueue = e :: rest) :
    s.statusTaken p = (s.modPort p fun P =>
      { P with state := .idle, sending := [], statusQueue := rest }).freeRequest e.request := by
  simp [State.statusTaken, State.portIdle, hs, hq, modPort_modPort]

theorem statusTaken_presented {s : State} {p : PortId} {k : PathId} {e : StatusEntry}
    (hs : (s.port p).state = .connected (.data k (some e))) :
    s.statusTaken p = ((s.portIdle p).freeRequest e.request).releaseUnlessWriting k := by
  simp [State.statusTaken, hs]

theorem statusTaken_parting {s : State} {p : PortId} {e : StatusEntry} (hs : (s.port p).state = .connected (.parting e)) :
    s.statusTaken p = (s.portIdle p).freeRequest e.request := by
  simp [State.statusTaken, hs]

theorem attentionTaken_eq {s : State} {p : PortId} {ds : List DriveId}
    (hs : (s.port p).state = .connected (.attention ds)) : s.attentionTaken p = s.portIdle p := by
  simp [State.attentionTaken, hs]

/-- Settles O19: by the connection; the port is IDLE before its path is released and stands so. -/
theorem blocksTaken : Obligations.BlocksTaken := by
  refine ⟨fun p s e rest hs hq => ?_, fun p s k e hs => ?_, fun p s e hs => ?_, fun p s ds hs => ?_⟩
  · have taken := exec_of_effect (c := .statusBlockTaken p) (statusTaken_queued hs hq)
    refine ⟨taken, _, taken, idle_settle ?_ ?_⟩ <;> rw [port_freeRequest, port_modPort_same]
  · have taken := exec_of_effect (c := .statusBlockTaken p) (statusTaken_presented hs)
    have idle := port_portIdle s p
    have link := (keeps_releaseUnlessWriting ((s.portIdle p).freeRequest e.request) k).sameLink (p := p)
      (by rw [port_freeRequest, idle]; rfl)
    rw [port_freeRequest, idle] at link
    exact ⟨taken, _, taken, idle_settle link.state link.sending⟩
  · have taken := exec_of_effect (c := .statusBlockTaken p) (statusTaken_parting hs)
    refine ⟨taken, _, taken, idle_settle ?_ ?_⟩ <;> rw [port_freeRequest, port_portIdle]
  · refine ⟨_, exec_of_effect (attentionTaken_eq hs), idle_settle ?_ ?_⟩ <;> rw [port_portIdle]

/-! ### Answers to orders -/

/-- An order of good form that the port awaits and that a check refuses is answered with the check's code. -/
theorem orderTaken_of_refused {s : State} {p : PortId} {b : OrderBlock} {code : AcceptCode}
    (hs : (s.port p).state = .selected false) (hf : b.order.formOk = true) (hc : s.checkOrder p b = some code) :
    s.orderTaken p b = (s.refused p b code).answer p code [] := by
  simp [State.orderTaken, State.awaitsOrder, State.takeOrder, hs, hf, hc]

/-- Settles O22: the order's command takes the order, the refusal answers it, and the answer stands to the end of the event. -/
theorem refusedOrderIsAnswered : Obligations.RefusedOrderIsAnswered := by
  intro p b s code hs hf hc
  have refused := exec_of_effect ((effect_command p b s).trans (orderTaken_of_refused hs hf hc))
  exact ⟨refused, _, refused, answered_settle _ p code []⟩

/-- Settles O23: as O22, the order carried out before it is answered. -/
theorem acceptedOrderIsAnswered : Obligations.AcceptedOrderIsAnswered := by
  intro p b s hs hf hc
  have accepted := exec_of_effect ((effect_command p b s).trans (orderTaken_of_passes hs hf hc))
  exact ⟨accepted, _, accepted, answered_settle _ p .accepted _⟩

/-! ### Ending statuses -/

theorem port_passStatus (s : State) (p : PortId) (r : Record) (i : EndInfo) :
    (s.passStatus p r i).port p = { s.port p with reports := ((s.passStatus p r i).port p).reports } := by
  unfold State.passStatus State.setReport
  split
  · split <;> rw [port_modPort_same]
  · rfl

theorem reportOf_setReport (s : State) (p : PortId) (d : DriveId) (x : Option Report) :
    (s.setReport p d x).reportOf p d = x := by
  simp [State.setReport, State.reportOf, get_eq_getElem]

/-- A status of error class creates the held report of its port and drive (R189). -/
theorem reportOf_passStatus_new {s : State} {p : PortId} {r : Record} {i : EndInfo} (he : i.status.isError = true)
    (hr : s.reportOf p r.drive = none) : (s.passStatus p r i).reportOf p r.drive = some (s.newReport r i) := by
  unfold State.passStatus
  rw [if_pos he, hr]
  exact reportOf_setReport s p _ _

/-- A status of error class extends the report held (R192). -/
theorem reportOf_passStatus_extend {s : State} {p : PortId} {r : Record} {i : EndInfo} {rep : Report}
    (he : i.status.isError = true) (hr : s.reportOf p r.drive = some rep) :
    (s.passStatus p r i).reportOf p r.drive = some (rep.extend r.tag) := by
  unfold State.passStatus
  rw [if_pos he, hr]
  exact reportOf_setReport s p _ _

theorem passStatus_of_no_error {i : EndInfo} (he : i.status.isError = false) (s : State) (p : PortId) (r : Record) :
    s.passStatus p r i = s := by
  simp [State.passStatus, he]

/-- The link with a request marked ended and its status placed: presented in the request's connection, or appended (R35). -/
def State.placeStatus (s : State) (p : PortId) (r : Record) (e : StatusEntry) : Option PathId → State
  | some k => (s.modRequest r.pos fun x => { x with ended := true }).presentStatus p k e
  | none => (s.modRequest r.pos fun x => { x with ended := true }).appendStatus p e

/-- A request of port p whose ending status the link places: outstanding, not ended, and the port not LOST (R35). -/
structure State.ToEnd (s : State) (r : Record) (p : PortId) : Prop where
  found : s.request? r.pos = some r
  source : r.source = .port p
  ended : r.ended = false
  detached : r.detached = false
  port : (s.port p).state ≠ .lost

section

variable {s : State} {r : Record} {p : PortId}

/-- The ending status of a port's own request is placed and passed to the string coordination unit. -/
theorem issueStatus_eq (h : s.ToEnd r p) (i : EndInfo) :
    s.issueStatus r.pos i = (s.placeStatus p r (r.statusEntry i) (s.ownConnection p r.pos)).passStatus p r i := by
  obtain ⟨found, source, ended, detached, port⟩ := h
  unfold State.issueStatus
  simp only [found, source, ended, detached, Bool.false_or, beq_iff_eq, port, if_false, Bool.false_eq_true]
  cases s.ownConnection p r.pos <;> rfl

theorem issueStatus_appended (h : s.ToEnd r p) (hc : s.ownConnection p r.pos = none) (i : EndInfo) :
    ((s.issueStatus r.pos i).port p).statusQueue = (s.port p).statusQueue ++ [r.statusEntry i] := by
  rw [issueStatus_eq h, hc, port_passStatus]
  simp [State.placeStatus, State.appendStatus]

theorem issueStatus_presented {k : PathId} (h : s.ToEnd r p) (hc : s.ownConnection p r.pos = some k) (i : EndInfo) :
    ((s.issueStatus r.pos i).port p).state = .connected (.data k (some (r.statusEntry i)))
      ∧ ((s.issueStatus r.pos i).port p).sending = sentBlock (statusBlock (r.statusEntry i))
      ∧ ((s.issueStatus r.pos i).port p).statusQueue = (s.port p).statusQueue := by
  rw [issueStatus_eq h, hc, port_passStatus]
  simp [State.placeStatus, State.presentStatus]

end

/-- The placing of a status leaves drives and held reports, and with them what a report would say. -/
theorem placeStatus_same (s : State) (p : PortId) (r : Record) (e : StatusEntry) (c : Option PathId) :
    (∀ d, (s.placeStatus p r e c).reportOf p d = s.reportOf p d)
      ∧ ∀ x i, (s.placeStatus p r e c).newReport x i = s.newReport x i := by
  cases c with
  | none =>
    refine ⟨fun d => ?_, fun _ _ => rfl⟩
    simp [State.placeStatus, State.appendStatus, State.reportOf]
  | some k =>
    refine ⟨fun d => ?_, fun _ _ => rfl⟩
    simp [State.placeStatus, State.presentStatus, State.reportOf]

/-- Settles O49: the status placed by the request's connection, then the report by the class of the status. -/
theorem endingStatus : Obligations.EndingStatus := by
  intro s pos i r p found source ended detached port
  obtain rfl : r.pos = pos := by simpa using List.find?_some found
  have h : s.ToEnd r p := ⟨found, source, ended, detached, port⟩
  obtain ⟨reports, news⟩ := placeStatus_same s p r (r.statusEntry i) (s.ownConnection p r.pos)
  refine ⟨fun hc => issueStatus_appended h hc i, fun k hc => issueStatus_presented h hc i, fun he hr => ?_,
    fun rep he hr => ?_, fun he => ?_⟩ <;> rw [issueStatus_eq h]
  · rw [reportOf_passStatus_new he ((reports _).trans hr), news]
  · exact reportOf_passStatus_extend he ((reports _).trans hr)
  · rw [passStatus_of_no_error he, reports]

end Sys2Proof.Machine

namespace Sys2Proof.Machine

/-! ### Read data bytes -/

theorem parityOk_withParity (b : Byte) : parityOk (withParity b) = true := by
  unfold parityOk withParity
  by_cases h : onesOf b % 2 = 0
  · simp [h]
    omega
  · simp [h]
    omega

section

variable {s : State} {p : PortId} {k : PathId} {pos : Nat} {i : Image} {rest : List Image} {b : Byte} {bs : List Byte}

/-- A byte of the oldest COMPLETE image goes out; with the image's last byte its sector is transferred (R106, R111). -/
theorem takeReadByte_eq (hc : (s.port p).state = .connected (.data k none)) (hs : (s.path k).service = some .hostRead)
    (hh : (s.path k).holder = some pos) (hf : (s.path k).fifo = i :: rest) (hi : i.cond = .complete) (hb : i.bytes = b :: bs) :
    s.takeReadByte p =
      if bs = [] then
        ((s.modPort p fun Q => { Q with dataOut := some (withParity b), sending := [] }).modPath k fun P =>
          { P with fifo := rest }).modRequest pos Record.transferOne
      else
        (s.modPort p fun Q => { Q with dataOut := some (withParity b), sending := [] }).modPath k fun P =>
          { P with fifo := { i with bytes := bs } :: rest } := by
  simp [State.takeReadByte, Port.dataConn, hc, hs, hh, hf, hi, hb]

end

/-- Settles O37: the byte and its parity stand to the end of the event; fifo and record by whether the byte is the image's
last. -/
theorem readDataByte : Obligations.ReadDataByte := by
  refine ⟨fun b => ⟨parityOk_withParity b, rfl⟩, fun s p k pos i rest b bs hc hs hh hf hi hb => ?_⟩
  have taken := takeReadByte_eq hc hs hh hf hi hb
  have out : ((s.takeReadByte p).port p).dataOut = some (withParity b) := by
    rw [taken]
    split <;> simp
  refine ⟨exec_eq_effect _ s, ⟨_, exec_eq_effect _ s, ((keeps_settle _).portField Port.dataOut p).trans out⟩, ?_,
    fun r hr => ?_⟩
  · rw [taken]
    split <;> simp
  · rw [taken]
    split
    · rw [request?_modRequest Record.transferOne (fun _ => rfl) (by exact hr)]
      rfl
    · exact congrArg (Option.map _) hr

end Sys2Proof.Machine

namespace Sys2Proof

/-! ### The bytes of an order -/

theorem toNat_byteOf {n : Nat} (h : n < 256) : (byteOf n).toNat = n := by
  simp [byteOf, Nat.mod_eq_of_lt h]

theorem wordOf_wordBytes {n : Nat} (h : n < 65536) : wordOf (byteOf (n / 256)) (byteOf n) = n := by
  simp only [wordOf, byteOf, BitVec.toNat_ofNat]
  omega

/-- What the form of an extent says of the widths of its fields. -/
theorem widths_of_extentOk {e : Extent} (h : extentOk e = true) :
    e.cyl < 65536 ∧ e.head < 256 ∧ e.sector < 256 ∧ e.count < 256 := by
  simp only [extentOk, Bool.and_eq_true, decide_eq_true_eq] at h
  simp only [Config.heads, Config.sectors] at h
  omega

theorem decodeExtents_encodeExtent {es : List Extent} (h : es.all extentOk = true) :
    decodeExtents es.length (es.flatMap encodeExtent) = some es := by
  induction es with
  | nil => rfl
  | cons e es ih =>
    rw [List.all_cons, Bool.and_eq_true] at h
    obtain ⟨cyl, head, sector, count⟩ := widths_of_extentOk h.1
    simp only [List.flatMap_cons, encodeExtent, wordBytes, List.cons_append, List.nil_append, List.length_cons,
      decodeExtents, wordOf_wordBytes cyl, toNat_byteOf head, toNat_byteOf sector, toNat_byteOf count, ih h.2]
    rw [if_pos h.1]
    rfl

theorem decodeTransfer_encodeExtent (f : List Extent → DriveOrder) {es : List Extent} (h : extentsOk es = true) :
    decodeTransfer f (byteOf es.length :: es.flatMap encodeExtent) = some (f es) := by
  simp only [extentsOk, Bool.and_eq_true, decide_eq_true_eq] at h
  obtain ⟨⟨least, most⟩, ok⟩ := h
  simp [decodeTransfer, toNat_byteOf (n := es.length) (by omega), least, most, decodeExtents_encodeExtent ok]

theorem decodeTrack_encodeTrack (f : Track → DriveOrder) {t : Track} (h : trackOk t = true) :
    decodeTrack f (encodeTrack t) = some (f t) := by
  have widths : t.cyl < 65536 ∧ t.head < 256 := by
    simp only [trackOk, Bool.and_eq_true, decide_eq_true_eq] at h
    simp only [Config.heads] at h
    omega
  simp only [encodeTrack, wordBytes, List.cons_append, List.nil_append, decodeTrack, wordOf_wordBytes widths.1,
    toNat_byteOf widths.2]
  exact if_pos h

/-- Bit j of a given-mask tells whether the field of that number is given (R196). -/
theorem getLsbD_givenMask (l : List (Option Byte)) (k j : Nat) (hj : j < 8) :
    (givenMask k l).getLsbD j = (decide (k ≤ j) && (l.getD (j - k) none).isSome) := by
  induction l generalizing k with
  | nil => simp [givenMask]
  | cons v l ih =>
    have bit : (if v.isSome then 1#8 <<< k else 0#8).getLsbD j = (v.isSome && decide (j = k)) := by
      cases v.isSome with
      | false => simp
      | true =>
        rw [if_pos rfl, Bool.eq_iff_iff]
        simp [hj]
        omega
    rw [givenMask, BitVec.getLsbD_or, ih, bit]
    rcases Nat.lt_trichotomy j k with h | rfl | h
    · have before : ¬k ≤ j ∧ ¬k + 1 ≤ j ∧ j ≠ k := by omega
      simp [before]
    · have self : ¬j + 1 ≤ j := Nat.not_succ_le_self j
      simp [self]
    · obtain ⟨n, rfl⟩ : ∃ n, j = k + 1 + n := ⟨j - (k + 1), by omega⟩
      have after : k ≤ k + 1 + n ∧ k + 1 + n ≠ k ∧ k + 1 + n - k = n + 1 := by omega
      simp [after]

theorem givenField_getD {mask : Byte} {k : Nat} {v : Option Byte} (h : mask.getLsbD k = v.isSome) :
    givenField mask k (v.getD 0) = v := by
  unfold givenField
  rw [h]
  cases v <;> rfl

theorem decodeFields_encode (f : ParameterFields) :
    decodeFields (givenMask 0 f.toList :: f.toList.map fun v => v.getD 0#8) = some f := by
  have field (n : Nat) (hn : n < 8) {v : Option Byte} (hv : f.toList.getD n none = v) :
      givenField (givenMask 0 f.toList) n (v.getD 0#8) = v :=
    givenField_getD (by rw [getLsbD_givenMask _ _ _ hn, Nat.sub_zero, hv]; simp)
  simp only [decodeFields, ParameterFields.toList, List.map_cons, List.map_nil, Option.some.injEq]
  rw [ParameterFields.mk.injEq]
  exact ⟨field 0 (by omega) rfl, field 1 (by omega) rfl, field 2 (by omega) rfl, field 3 (by omega) rfl,
    field 4 (by omega) rfl, field 5 (by omega) rfl, field 6 (by omega) rfl, field 7 (by omega) rfl⟩

theorem decodeDriveOrder_encode {o : DriveOrder} (h : o.formOk = true) :
    decodeDriveOrder o.code.toNat o.flags[0] o.flags[1] o.operand = some o := by
  cases o with
  | read es | write es | verify es =>
    simpa [decodeDriveOrder, DriveOrder.code, DriveOrder.flags, DriveOrder.operand] using decodeTransfer_encodeExtent _ h
  | position t | retire t | mapQuery t =>
    simpa [decodeDriveOrder, DriveOrder.code, DriveOrder.flags, DriveOrder.operand] using decodeTrack_encodeTrack _ h
  | declare noCopy replace t =>
    cases noCopy <;> cases replace <;>
      simpa [decodeDriveOrder, DriveOrder.code, DriveOrder.flags, DriveOrder.operand] using
        decodeTrack_encodeTrack (.declare _ _) h
  | calibrate | report | cancel | lock | unlock | seize | mapList | mapFreeze =>
    simp [decodeDriveOrder, DriveOrder.code, DriveOrder.flags, DriveOrder.operand, decodeEmpty]

theorem flags_within (o : DriveOrder) : o.flags &&& 0xFC#8 = 0#8 := by
  cases o with
  | declare noCopy replace t => cases noCopy <;> cases replace <;> simp [DriveOrder.flags]
  | _ => simp [DriveOrder.flags]

/-- The decoder reads back what the encoder spells, every field at every value its bytes can hold. -/
theorem decodeOrder_encode {b : OrderBlock} (h : b.order.formOk = true) : decodeOrder (encodeOrder b) = some b := by
  obtain ⟨tag, o⟩ := b
  cases o with
  | drive d o =>
    have number : (byteOf d.val).toNat = d.val := toNat_byteOf (by omega)
    have order := decodeDriveOrder_encode (o := o) h
    simp [encodeOrder, decodeOrder, flags_within, number, order]
  | stringStatus => rfl
  | setParameters f =>
    have fields := decodeFields_encode f
    simp [encodeOrder, decodeOrder, decodeStringOrder, fields]

theorem length_encodeExtents (es : List Extent) : (es.flatMap encodeExtent).length = 5 * es.length := by
  induction es with
  | nil => rfl
  | cons e es ih =>
    rw [List.flatMap_cons, List.length_append, ih, List.length_cons]
    simp [encodeExtent, wordBytes]
    omega

/-- The longest order has eight extents of five bytes (R42). -/
theorem length_encodeOrder {b : OrderBlock} (h : b.order.formOk = true) : (encodeOrder b).length ≤ Config.longestBlock := by
  obtain ⟨tag, o⟩ := b
  have extents {es : List Extent} (h : extentsOk es = true) : (es.flatMap encodeExtent).length ≤ 40 := by
    simp only [extentsOk, Bool.and_eq_true, decide_eq_true_eq] at h
    rw [length_encodeExtents]
    omega
  cases o with
  | drive d o =>
    simp only [encodeOrder, List.length_append, List.length_cons, List.length_nil, Config.longestBlock]
    cases o with
    | read es | write es | verify es =>
      have := extents h
      simp only [DriveOrder.operand, List.length_cons]
      omega
    | position t | declare noCopy replace t | retire t | mapQuery t => simp [DriveOrder.operand, encodeTrack, wordBytes]
    | calibrate | report | cancel | lock | unlock | seize | mapList | mapFreeze => simp [DriveOrder.operand]
  | stringStatus => simp [encodeOrder, Config.longestBlock]
  | setParameters f => simp [encodeOrder, ParameterFields.toList, Config.longestBlock]

end Sys2Proof

namespace Sys2Proof.Machine

/-! ### Order blocks -/

section

variable {s : State} {p : PortId} {l : List LineByte}

theorem blockTaken_of_bad_parity (hs : (s.port p).state = .selected false) (hl : ∃ x ∈ l, parityOk x = false) :
    s.blockTaken p l = s.answer p .parity [] := by
  simp [State.blockTaken, State.awaitsOrder, hs, hl]

theorem blockTaken_of_bad_form (hs : (s.port p).state = .selected false) (hl : ∀ x ∈ l, parityOk x = true)
    (hb : 45 < l.length ∨ decodeOrder (l.map fun x => x.byte) = none) : s.blockTaken p l = s.answer p .badOrder [] := by
  have good : (l.any fun b => !parityOk b) = false := by simpa using hl
  have awaits : s.awaitsOrder p = true := by simp [State.awaitsOrder, hs]
  unfold State.blockTaken
  rw [if_pos awaits, if_neg (by simp [good])]
  by_cases long : Config.longestBlock < l.length
  · rw [if_pos long]
  · rw [if_neg long, hb.resolve_left long]

theorem blockTaken_of_order {b : OrderBlock} (hs : (s.port p).state = .selected false) (hl : ∀ x ∈ l, parityOk x = true)
    (hn : l.length ≤ 45) (hb : decodeOrder (l.map fun x => x.byte) = some b) : s.blockTaken p l = s.takeOrder p b := by
  have good : (l.any fun b => !parityOk b) = false := by simpa using hl
  have awaits : s.awaitsOrder p = true := by simp [State.awaitsOrder, hs]
  have short : ¬Config.longestBlock < l.length := Nat.not_lt.2 hn
  unfold State.blockTaken
  rw [if_pos awaits, if_neg (by simp [good]), if_neg short, hb]

end

/-- The bytes of an order of good form, sent with good parity, are taken as the order is. -/
theorem blockTaken_encodeOrder {b : OrderBlock} (h : b.order.formOk = true) (s : State) (p : PortId) :
    s.blockTaken p ((encodeOrder b).map withParity) = s.orderTaken p b := by
  by_cases hs : (s.port p).state = .selected false
  · have bytes : (((encodeOrder b).map withParity).map fun x => x.byte) = encodeOrder b := by
      rw [List.map_map]
      exact List.map_id _
    have good : ∀ x ∈ (encodeOrder b).map withParity, parityOk x = true := by
      simp [parityOk_withParity]
    have short : ((encodeOrder b).map withParity).length ≤ 45 := by
      rw [List.length_map]
      exact length_encodeOrder h
    rw [blockTaken_of_order hs good short (by rw [bytes]; exact decodeOrder_encode h)]
    simp [State.orderTaken, State.awaitsOrder, hs, h]
  · simp [State.blockTaken, State.orderTaken, State.awaitsOrder, hs]

theorem takeOrder_of_passes {s : State} {p : PortId} {b : OrderBlock} (h : s.checkOrder p b = none) :
    s.takeOrder p b = (s.acceptOrder p b).answer p .accepted (s.replyFor p b) := by
  simp [State.takeOrder, h]

/-- Settles O21: the encoder's bytes decode to their order; a block is refused by its parity, then by its form, and else its
order is taken. -/
theorem orderBlockReceived : Obligations.OrderBlockReceived := by
  refine ⟨fun p b s h => ?_, fun p l b s hs hl hn hb hc => ?_, fun p l s hs hl => ?_, fun p l s hs hl hb => ?_⟩
  · rw [exec_eq_effect, exec_eq_effect, effect_command]
    exact congrArg (fun t => Host.Outcome.next (State.settle t)) (blockTaken_encodeOrder h s p)
  · have taken := exec_of_effect (c := .orderBlockReceived p l)
      ((blockTaken_of_order hs hl hn hb).trans (takeOrder_of_passes hc))
    exact ⟨taken, _, taken, answered_settle _ p .accepted _⟩
  · exact ⟨_, exec_of_effect (blockTaken_of_bad_parity hs hl), answered_settle s p .parity []⟩
  · exact ⟨_, exec_of_effect (blockTaken_of_bad_form hs hl hb), answered_settle s p .badOrder []⟩

end Sys2Proof.Machine

namespace Sys2Proof.Machine

/-! ### A status presented in the connection of a WRITE -/

/-- Request r of port p is in progress on path k, connected to the port with no status in presentation. -/
structure State.Serves (s : State) (p : PortId) (k : PathId) (r : Record) : Prop where
  found : s.request? r.pos = some r
  source : r.source = .port p
  ended : r.ended = false
  detached : r.detached = false
  conn : (s.port p).state = .connected (.data k none)
  path : s.pathOf r.pos = some k
  port : (s.path k).port = some p

section

variable {s u : State} {p : PortId} {k : PathId} {r : Record}

theorem State.Serves.toEnd (h : s.Serves p k r) : s.ToEnd r p :=
  ⟨h.found, h.source, h.ended, h.detached, by rw [h.conn]; exact nofun⟩

theorem connectedTo_of_data {P : Port} {e : Option StatusEntry} (h : P.state = .connected (.data k e)) :
    P.connectedTo k = true := by
  simp [Port.connectedTo, Port.dataConn, h]

theorem State.Serves.ownConnection (h : s.Serves p k r) : s.ownConnection p r.pos = some k := by
  unfold State.ownConnection
  rw [h.path]
  exact if_pos (connectedTo_of_data h.conn)

/-- The request goes on so where its record, the state of its port and the paths stand in these parts. -/
theorem State.Serves.congr (h : s.Serves p k r) (hr : u.records = s.records) (hp : (u.port p).state = (s.port p).state)
    (hh : ∀ j, (u.path j).holder = (s.path j).holder) (hk : (u.path k).port = (s.path k).port) : u.Serves p k r where
  found := by
    unfold State.request?
    rw [hr]
    exact h.found
  source := h.source
  ended := h.ended
  detached := h.detached
  conn := hp.trans h.conn
  path := by
    unfold State.pathOf
    simp only [hh]
    exact h.path
  port := hk.trans h.port

theorem path_congr {s t : State} (h : t.paths = s.paths) (k : PathId) : t.path k = s.path k := by
  unfold State.path
  rw [h]

theorem path_leaveDrive (s : State) (n : Nat) (k : PathId) : (s.leaveDrive n).path k = s.path k := by
  obtain ⟨_, paths, _⟩ := clearDrive_same s n
  exact path_congr paths k

theorem records_leaveDrive (s : State) (n : Nat) : (s.leaveDrive n).records = s.records := by
  obtain ⟨_, _, records⟩ := clearDrive_same s n
  exact records

/-- The ending of the request presents its status in the connection, and the path is held with it (R35, R104). -/
theorem endRequest_presented (h : s.Serves p k r) (i : EndInfo) :
    ((s.endRequest r.pos i).port p).state = .connected (.data k (some (r.statusEntry i))) := by
  have left : (s.leaveDrive r.pos).Serves p k r :=
    h.congr (records_leaveDrive s _) (by rw [port_congr (ports_leaveDrive s _)]) (fun j => by rw [path_leaveDrive])
      (by rw [path_leaveDrive])
  obtain ⟨presented, _, _⟩ := issueStatus_presented left.toEnd left.ownConnection i
  obtain ⟨_, _, _, _, _, same⟩ := issueStatus_same (s.leaveDrive r.pos) r.pos i
  unfold State.endRequest
  extract_lets t
  have path : t.pathOf r.pos = some k := by
    rw [← left.path]
    unfold State.pathOf
    simp only [t, path_congr same]
  have port : (t.path k).port = some p := by
    rw [← left.port]
    exact congrArg Path.port (path_congr same k)
  have presents : (t.port p).presentsOn k = true := by
    unfold Port.presentsOn Port.dataConn
    simp [t, presented]
  simp only [path, port, presents, if_true, port_modPath, port_closeGates?]
  exact presented

/-- PORT PARITY is presented in the connection, its residual counted from the sector of the bad byte (R34, R118). -/
theorem portParity_presented (h : s.Serves p k r) (ord : Nat) :
    ∃ e, ((s.portParity k r ord).port p).state = .connected (.data k (some e)) ∧ e.status = .portParity
      ∧ e.request = r.pos ∧ e.residual = r.total - ord := by
  unfold State.portParity
  extract_lets P info kept
  refine ⟨r.statusEntry info, ?_, rfl, rfl, rfl⟩
  split
  · have cut : (s.modPath k fun P => { P with fifo := kept.filter fun i => i.cond == .writing }).Serves p k r := by
      refine h.congr rfl rfl (fun j => ?_) (by simp)
      rw [path_modPath]
      split <;> simp_all
    obtain ⟨presented, _, _⟩ := issueStatus_presented cut.toEnd cut.ownConnection info
    exact presented
  · exact endRequest_presented h info

/-! ### Bytes taken into an image -/

theorem path_endTaking (s : State) (k : PathId) :
    (s.endTaking k).path k = { s.path k with conn := .none, takenAll := true } := by
  unfold State.endTaking
  rw [path_modPath_same, path_disconnect]

theorem drives_endTaking (s : State) (k : PathId) : (s.endTaking k).drives = s.drives := by
  unfold State.endTaking State.disconnect
  split
  · rfl
  · split <;> rfl

theorem records_endTaking (s : State) (k : PathId) : (s.endTaking k).records = s.records := by
  unfold State.endTaking State.disconnect
  split
  · rfl
  · split <;> rfl

theorem byteTaken_storeWriteByte (s : State) (p : PortId) (k : PathId) (r : Record) (ord : Nat) (b : LineByte) :
    ((s.storeWriteByte p k r ord b).port p).byteTaken = true := by
  unfold State.storeWriteByte
  extract_lets t u
  have taken : (t.port p).byteTaken = true := by simp [t]
  have after {v : State} (h : Keeps t v) : (v.port p).byteTaken = true := (h.portField Port.byteTaken p).trans taken
  split
  · split
    · exact after ((Keeps.modPath t k _).trans (keeps_endTaking u k))
    · exact taken
  · exact after (keeps_portParity t k r ord)

/-- A good byte joins its image and changes neither track nor drive (R105, R116). -/
theorem storeWriteByte_good {b : LineByte} (hb : parityOk b = true) (s : State) (p : PortId) (k : PathId) (r : Record)
    (ord : Nat) :
    ((s.storeWriteByte p k r ord b).path k).fifo = addByte b.byte ord (s.path k).fifo
      ∧ ((s.storeWriteByte p k r ord b).path k).entered = (s.path k).entered
      ∧ ((s.storeWriteByte p k r ord b).path k).homes = (s.path k).homes
      ∧ ∀ d, (s.storeWriteByte p k r ord b).drive d = s.drive d := by
  unfold State.storeWriteByte
  extract_lets t u
  have joined : u.path k = { s.path k with fifo := addByte b.byte ord (s.path k).fifo } := path_modPath_same t k _
  rw [if_pos hb]
  split
  · rw [path_endTaking, joined]
    refine ⟨rfl, rfl, rfl, fun d => ?_⟩
    unfold State.drive
    rw [drives_endTaking]
    rfl
  · rw [joined]
    exact ⟨rfl, rfl, rfl, fun _ => rfl⟩

/-- A bad byte ends the request PORT PARITY, presented in its connection (R34). -/
theorem storeWriteByte_bad {b : LineByte} (hb : parityOk b = false) (h : s.Serves p k r) (ord : Nat) :
    ∃ e, ((s.storeWriteByte p k r ord b).port p).state = .connected (.data k (some e)) ∧ e.status = .portParity
      ∧ e.request = r.pos ∧ e.residual = r.total - ord := by
  have taken : (s.modPort p fun Q => { Q with byteTaken := true }).Serves p k r :=
    h.congr rfl (by simp) (fun _ => rfl) rfl
  unfold State.storeWriteByte
  simp only [hb, Bool.false_eq_true, if_false]
  exact portParity_presented taken ord

/-! ### The first byte of an image -/

/-- Whether the track of a sector lies on the current cylinder and is not moving in the hands of the running relocation unit
(R107, R108). -/
def State.entersHere (s : State) (r : Record) (x : Nat) (a : SectorAddr) : Bool :=
  (s.drive r.drive).cyl == some (s.entryFor r.drive x a).serving.cyl
    && !s.movingWrite r.drive (s.entryFor r.drive x a).home

/-- u is s with a sector's image begun: on the track e, or on the track next, entered for it, where e does not cover it. -/
structure State.BeginsImage (s u : State) (k : PathId) (r : Record) (ord x : Nat) (a : SectorAddr) (e next : Entered) :
    Prop where
  records : u.records = s.records
  ports : u.ports = s.ports
  holder : ∀ j, (u.path j).holder = (s.path j).holder
  port : (u.path k).port = (s.path k).port
  fifo : (u.path k).fifo = (s.path k).fifo ++ [writeImage ord a (if e.covers x a then e else next)]
  entered : (u.path k).entered = some (if e.covers x a then e else next)
  homes : (u.path k).homes = if e.covers x a then (s.path k).homes else next.home :: (s.path k).homes
  head : (u.drive r.drive).head =
    if e.covers x a = false ∧ (s.path k).fifo = [] then next.serving.head else (s.drive r.drive).head

theorem beginsImage_covered {x : Nat} {a : SectorAddr} {e : Entered} (s : State) (k : PathId) (r : Record) (ord : Nat)
    (next : Entered) (he : (s.path k).entered = some e) (hc : e.covers x a = true) :
    s.BeginsImage (s.modPath k fun P => { P with fifo := P.fifo ++ [writeImage ord a e] }) k r ord x a e next where
  records := rfl
  ports := rfl
  holder j := by
    rw [path_modPath]
    split <;> simp_all
  port := by simp
  fifo := by simp [hc]
  entered := by simpa [hc] using he
  homes := by simp [hc]
  head := by simp [hc]

/-- The head of the track to be entered, selected at once where no image is held (R107, R108; log 55). -/
def State.selectForEntry (s : State) (k : PathId) (d : DriveId) (h : Nat) : State :=
  if (s.path k).fifo.isEmpty && (s.drive d).head != h then s.selectHead d h else s

theorem selectForEntry_same (s : State) (k : PathId) (d : DriveId) (h : Nat) :
    (s.selectForEntry k d h).records = s.records ∧ (s.selectForEntry k d h).ports = s.ports
      ∧ ∀ j, (s.selectForEntry k d h).path j = s.path j := by
  unfold State.selectForEntry
  split <;> exact ⟨rfl, rfl, fun _ => rfl⟩

theorem head_selectForEntry (s : State) (k : PathId) (d : DriveId) (h : Nat) :
    ((s.selectForEntry k d h).drive d).head = if (s.path k).fifo = [] then h else (s.drive d).head := by
  unfold State.selectForEntry State.selectHead
  by_cases empty : (s.path k).fifo = []
  · by_cases same : (s.drive d).head = h
    · simp [empty, same]
    · simp [empty, same]
  · simp [empty]

theorem enterForWriting_here {x : Nat} {a : SectorAddr} (h : s.entersHere r x a = true) :
    s.enterForWriting k r x a = some ((s.selectForEntry k r.drive (s.entryFor r.drive x a).serving.head).markEntered k
      (s.entryFor r.drive x a)) :=
  if_pos h

theorem enterForWriting_away {x : Nat} {a : SectorAddr} (h : s.entersHere r x a = false) :
    s.enterForWriting k r x a = none :=
  if_neg (Bool.eq_false_iff.1 h)

theorem beginsImage_entered {x : Nat} {a : SectorAddr} {e : Entered} (s : State) (k : PathId) (r : Record) (ord : Nat)
    (next : Entered) (hc : e.covers x a = false) :
    s.BeginsImage (((s.selectForEntry k r.drive next.serving.head).markEntered k next).modPath k fun P =>
      { P with fifo := P.fifo ++ [writeImage ord a next] }) k r ord x a e next := by
  obtain ⟨records, ports, paths⟩ := selectForEntry_same s k r.drive next.serving.head
  have head := head_selectForEntry s k r.drive next.serving.head
  generalize s.selectForEntry k r.drive next.serving.head = t at records ports paths head
  unfold State.markEntered
  refine ⟨records, ports, fun j => ?_, ?_, ?_, ?_, ?_, ?_⟩
  · by_cases h : j = k
    · subst h
      simp [paths]
    · rw [path_modPath_other _ _ _ _ h, path_modPath_other _ _ _ _ h, paths]
  · simp [paths]
  · simp [hc, paths]
  · simp [hc]
  · simp [hc, paths]
  · simpa [hc] using head

/-- The first byte of a sector whose track is entered, or can be entered now, begins its image and is stored in it. -/
theorem firstByte_begins {x ord : Nat} {a : SectorAddr} {e : Entered} (ha : r.sectorAt ord = some (x, a))
    (he : (s.path k).entered = some e) (hh : e.covers x a = true ∨ s.entersHere r x a = true) (p : PortId) (b : LineByte) :
    ∃ u, s.BeginsImage u k r ord x a e (s.entryFor r.drive x a)
      ∧ s.firstByte p k r ord b = u.storeWriteByte p k r ord b := by
  unfold State.firstByte
  simp only [ha, he]
  cases hc : e.covers x a with
  | true => exact ⟨_, beginsImage_covered s k r ord _ he hc, by simp [he]⟩
  | false =>
    have here : s.entersHere r x a = true := hh.resolve_left (by simp [hc])
    refine ⟨_, beginsImage_entered s k r ord _ hc, ?_⟩
    simp [enterForWriting_here here, State.markEntered]

/-- The first byte of a sector whose track cannot be entered now is not taken, and the WRITE leaves its cylinder. -/
theorem firstByte_leaves {x ord : Nat} {a : SectorAddr} {e : Entered} (ha : r.sectorAt ord = some (x, a))
    (he : (s.path k).entered = some e) (hc : e.covers x a = false) (hh : s.entersHere r x a = false) (p : PortId)
    (b : LineByte) : s.firstByte p k r ord b = s.leaveForWriting k := by
  unfold State.firstByte
  simp only [ha, he, hc, enterForWriting_away hh, Bool.false_eq_true, if_false]

/-! ### A WRITE that leaves its cylinder -/

theorem state_disconnect (hp : (s.path k).port = some p) (hc : (s.port p).connectedTo k = true) :
    ((s.disconnect k).port p).state = .idle := by
  simp [State.disconnect, hp, hc]

/-- The path as the WRITE leaves it, its images still to be written (R108, R109). -/
def State.takingEnded (s : State) (k : PathId) : State := (s.endTaking k).modPath k fun P => { P with leaving := true }

theorem path_takingEnded (s : State) (k : PathId) :
    (s.takingEnded k).path k = { s.path k with conn := .none, takenAll := true, leaving := true } := by
  unfold State.takingEnded
  rw [path_modPath_same, path_endTaking]

theorem leaveForWriting_eq (s : State) (k : PathId) :
    s.leaveForWriting k = if (s.path k).fifo = [] then (s.takingEnded k).releaseAndReturn k else s.takingEnded k := by
  have left : s.leaveForWriting k = if ((s.takingEnded k).path k).fifo.isEmpty then (s.takingEnded k).releaseAndReturn k
      else s.takingEnded k := rfl
  rw [left, path_takingEnded]
  simp only [List.isEmpty_iff]

theorem idle_leaveForWriting (hp : (s.path k).port = some p) (hc : (s.port p).connectedTo k = true) :
    ((s.leaveForWriting k).port p).state = .idle := by
  have idle : ((s.takingEnded k).port p).state = .idle := state_disconnect hp hc
  rw [leaveForWriting_eq]
  split
  · exact ((keeps_releaseAndReturn _ k).calm p (by simp [Port.dataConn, idle])).1.trans idle
  · exact idle

/-- A request released and returned waits as a continuation of what it has transferred (R71, R104). -/
theorem releaseAndReturn_returned (hh : (s.path k).holder = some r.pos) (hr : s.request? r.pos = some r)
    (hs : r.stop? = none) :
    (s.releaseAndReturn k).path k = Path.free
      ∧ ((s.releaseAndReturn k).request? r.pos).map (fun y => (y.state, y.done)) = some (.continuation, r.done) := by
  have returned : s.releaseAndReturn k = (s.releasePath k).returnToQueue r.pos := by
    simp [State.releaseAndReturn, hh, hr, hs]
  obtain ⟨_, paths, records⟩ := clearDrive_same (s.releasePath k) r.pos
  have found : ((s.releasePath k).clearDrive r.pos).request? r.pos = some { r with late := (s.path k).late } := by
    rw [← request?_releasePath hh hr]
    unfold State.request?
    rw [records]
  rw [returned]
  unfold State.returnToQueue
  refine ⟨?_, ?_⟩
  · rw [path_modRequest, path_congr paths, path_releasePath, if_pos rfl]
  · rw [request?_modRequest (fun x => { x with state := .continuation }) (fun _ => rfl) found]
    rfl

theorem leaveForWriting_writing (hf : (s.path k).fifo ≠ []) :
    (s.leaveForWriting k).path k = { s.path k with conn := .none, takenAll := true, leaving := true } := by
  rw [leaveForWriting_eq, if_neg hf, path_takingEnded]

theorem leaveForWriting_returned (hf : (s.path k).fifo = []) (hh : (s.path k).holder = some r.pos)
    (hr : s.request? r.pos = some r) (hs : r.stop? = none) :
    (s.leaveForWriting k).path k = Path.free
      ∧ ((s.leaveForWriting k).request? r.pos).map (fun y => (y.state, y.done)) = some (.continuation, r.done) := by
  rw [leaveForWriting_eq, if_pos hf]
  refine releaseAndReturn_returned (by rw [path_takingEnded]; exact hh) ?_ hs
  unfold State.request? State.takingEnded
  rw [records_modPath, records_endTaking]
  exact hr

/-! ### A write data byte -/

/-- The state with a byte offered by port p and not taken yet. -/
def State.offered (s : State) (p : PortId) : State := s.modPort p fun P => { P with byteTaken := false }

/-- Request r is a WRITE on path k, which is connected to port p with no status in presentation and takes bytes (R116). -/
structure State.TakesBytes (s : State) (p : PortId) (k : PathId) (r : Record) : Prop where
  conn : (s.port p).state = .connected (.data k none)
  holder : (s.path k).holder = some r.pos
  found : s.request? r.pos = some r
  service : (s.path k).service = some .hostWrite
  ended : r.ended = false
  takenAll : (s.path k).takenAll = false
  room : (s.path k).byteCount < 4096

theorem giveWriteByte_filling {ord : Nat} (h : s.TakesBytes p k r) (hf : (s.path k).fillingOrd = some ord) (b : LineByte) :
    s.giveWriteByte p b = (s.offered p).storeWriteByte p k r ord b := by
  obtain ⟨conn, holder, found, service, ended, takenAll, room⟩ := h
  simp [State.giveWriteByte, State.offered, Port.dataConn, conn, holder, found, service, ended, takenAll, Config.fifoBytes,
    room, hf]

theorem giveWriteByte_first (h : s.TakesBytes p k r) (hf : (s.path k).fillingOrd = none) (b : LineByte) :
    s.giveWriteByte p b = (s.offered p).firstByte p k r (r.done + (s.path k).fifo.length) b := by
  obtain ⟨conn, holder, found, service, ended, takenAll, room⟩ := h
  simp [State.giveWriteByte, State.offered, Port.dataConn, conn, holder, found, service, ended, takenAll, Config.fifoBytes,
    room, hf]

theorem giveWriteByte_untaken (conn : (s.port p).state = .connected (.data k none)) (holder : (s.path k).holder = some r.pos)
    (found : s.request? r.pos = some r)
    (h : 4096 ≤ (s.path k).byteCount ∨ (s.path k).takenAll = true ∨ r.ended = true) (b : LineByte) :
    s.giveWriteByte p b = s.offered p := by
  rcases h with full | all | ended
  · simp [State.giveWriteByte, State.offered, Port.dataConn, conn, holder, found, Config.fifoBytes, Nat.not_lt.2 full]
  · simp [State.giveWriteByte, State.offered, Port.dataConn, conn, holder, found, all]
  · simp [State.giveWriteByte, State.offered, Port.dataConn, conn, holder, found, ended]

/-- The outcome of the handshake stands to the end of the event. -/
theorem byteTaken_settle (s : State) (p : PortId) : (s.settle.port p).byteTaken = (s.port p).byteTaken :=
  (keeps_settle s).portField Port.byteTaken p

end

/-- Settles O36: by whether an image is being filled, begun, or cannot be begun, or no byte is taken; the outcome of the
handshake stands to the end of the event. -/
theorem writeDataByte : Obligations.WriteDataByte := by
  have handshake {s : State} {p : PortId} {b : LineByte} {v : Bool} (h : ((s.giveWriteByte p b).port p).byteTaken = v) :
      ∃ t, exec (.writeDataByte p b) s = .next t ∧ (t.port p).byteTaken = v :=
    ⟨_, exec_eq_effect _ s, (byteTaken_settle _ p).trans h⟩
  refine ⟨fun s p k b r ord conn holder found service ended takenAll room hf => ?_,
    fun s p k b r x a e conn holder found service ended takenAll room hf he ha => ?_,
    fun s p k b r conn holder found h => ?_⟩
  · have given := giveWriteByte_filling ⟨conn, holder, found, service, ended, takenAll, room⟩ hf b
    have taken : ((s.giveWriteByte p b).port p).byteTaken = true := by
      rw [given]
      exact byteTaken_storeWriteByte _ p k r ord b
    refine ⟨exec_eq_effect _ s, taken, handshake taken, fun good => ?_, fun bad source detached path port => ?_⟩
    · rw [given]
      obtain ⟨fifo, _⟩ := storeWriteByte_good good (s.offered p) p k r ord
      exact fifo
    · rw [given]
      have serves : s.Serves p k r := ⟨found, source, ended, detached, conn, path, port⟩
      exact storeWriteByte_bad bad (serves.congr (u := s.offered p) rfl (by simp [State.offered]) (fun _ => rfl) rfl) ord
  · have given := giveWriteByte_first ⟨conn, holder, found, service, ended, takenAll, room⟩ hf b
    intro ord next here on u
    refine ⟨exec_eq_effect _ s, fun hh => ?_, fun hc hh => ?_⟩
    · obtain ⟨v, begins, stored⟩ := firstByte_begins (s := s.offered p) ha he hh p b
      have eq : u = v.storeWriteByte p k r ord b := given.trans stored
      have taken : (u.port p).byteTaken = true := by
        rw [eq]
        exact byteTaken_storeWriteByte v p k r ord b
      refine ⟨taken, handshake taken, fun good => ?_, fun bad source detached path port => ?_⟩
      · obtain ⟨fifo, entered, homes, drives⟩ := storeWriteByte_good good v p k r ord
        rw [eq, fifo, entered, homes, drives, begins.fifo]
        exact ⟨rfl, begins.entered, begins.homes, begins.head⟩
      · rw [eq]
        have serves : s.Serves p k r := ⟨found, source, ended, detached, conn, path, port⟩
        refine storeWriteByte_bad bad (serves.congr begins.records ?_ begins.holder begins.port) ord
        rw [port_congr begins.ports]
        simp [State.offered]
    · have left : u = (s.offered p).leaveForWriting k := given.trans (firstByte_leaves (s := s.offered p) ha he hc hh p b)
      have untaken : (u.port p).byteTaken = false := by
        rw [left, (keeps_leaveForWriting _ k).portField Port.byteTaken p]
        simp [State.offered]
      refine ⟨untaken, handshake untaken, fun port => ?_, fun images => ?_, fun empty stop => ?_⟩
      · rw [left]
        exact idle_leaveForWriting port (connectedTo_of_data (by simpa [State.offered] using conn))
      · rw [left, leaveForWriting_writing (s := s.offered p) images]
        exact ⟨rfl, rfl, rfl, rfl⟩
      · rw [left]
        exact leaveForWriting_returned (s := s.offered p) empty holder found stop
  · have given := giveWriteByte_untaken conn holder found h b
    exact ⟨exec_of_effect given, handshake (by rw [given]; simp [State.offered])⟩

end Sys2Proof.Machine

namespace Sys2Proof.Machine

/-! ### Steps and invariants -/

/-- Settles O1. -/
theorem stepRunsFrontCommand : Obligations.StepRunsFrontCommand := by
  refine ⟨fun _ _ => rfl, fun c rest s h => ?_⟩
  unfold step
  rw [h]

/-- Settles O5: of all operations only SET PARAMETERS and POWER_ON_RESET write a parameter, and both keep the ranges
(`sound_acceptParameters`, `sound_powerOn`). -/
theorem stepKeepsParametersInRange : Obligations.StepKeepsParametersInRange := fun _ _ hs h => (sound_step h).params hs

/-- Settles O6: records are added by accepted orders and admitted steps alone, and both find room first
(`sound_acceptDrive`, `keeps_admitStep`). -/
theorem stepKeepsStoreBounds : Obligations.StepKeepsStoreBounds := fun _ _ hs h => (sound_step h).store hs

/-! ### What a command can do to the parameters -/

/-- The commands by what they can do to parameters, locks and marks: an order, named as its command; a block of bytes; the
two resets; every other command is steady. -/
inductive CommandCase (s : State) : Instr → Prop
  | steady {c : Instr} (h : Steady s (s.effect c)) : CommandCase s c
  | order (p : PortId) (b : OrderBlock) : CommandCase s (b.command p)
  | block (p : PortId) (l : List LineByte) : CommandCase s (.orderBlockReceived p l)
  | portReset (p : PortId) : CommandCase s (.portReset p)
  | powerOnReset : CommandCase s .powerOnReset

theorem Still.commandCase {s : State} {c : Instr} (h : Still s (s.effect c)) : CommandCase s c := .steady h.toSteady

theorem Keeps.commandCase {s : State} {c : Instr} (h : Keeps s (s.effect c)) : CommandCase s c := h.toStill.commandCase

theorem commandCase (s : State) : ∀ c, CommandCase s c
  | .powerOnReset => .powerOnReset
  | .portReset p => .portReset p
  | .orderBlockReceived p l => .block p l
  | .read p d tag es => .order p ⟨tag, .drive d (.read es)⟩
  | .write p d tag es => .order p ⟨tag, .drive d (.write es)⟩
  | .verify p d tag es => .order p ⟨tag, .drive d (.verify es)⟩
  | .position p d tag t => .order p ⟨tag, .drive d (.position t)⟩
  | .calibrate p d tag => .order p ⟨tag, .drive d .calibrate⟩
  | .declare p d tag noCopy replace t => .order p ⟨tag, .drive d (.declare noCopy replace t)⟩
  | .retire p d tag t => .order p ⟨tag, .drive d (.retire t)⟩
  | .report p d tag => .order p ⟨tag, .drive d .report⟩
  | .cancel p d tag => .order p ⟨tag, .drive d .cancel⟩
  | .lock p d tag => .order p ⟨tag, .drive d .lock⟩
  | .unlock p d tag => .order p ⟨tag, .drive d .unlock⟩
  | .seize p d tag => .order p ⟨tag, .drive d .seize⟩
  | .mapQuery p d tag t => .order p ⟨tag, .drive d (.mapQuery t)⟩
  | .mapList p d tag => .order p ⟨tag, .drive d .mapList⟩
  | .mapFreeze p d tag => .order p ⟨tag, .drive d .mapFreeze⟩
  | .stringStatus p tag => .order p ⟨tag, .stringStatus⟩
  | .setParameters p tag f => .order p ⟨tag, .setParameters f⟩
  | .slotEvent d => .steady (steady_tick s d false)
  | .indexEvent d => .steady (steady_tick s d true)
  | .readyLineFall d => .steady (steady_readyFall s d)
  | .operationalLineFall p => (still_lineFall s p).commandCase
  | .operationalLineRise p => (still_lineRise s p).commandCase
  | .portLossTimerExpiry p => (still_lossExpired s p).commandCase
  | .select p => (still_select s p).commandCase
  | .answerTaken p => (still_answerTaken s p).commandCase
  | .accept p => (still_accepted s p).commandCase
  | .statusBlockTaken p => (still_statusTaken s p).commandCase
  | .attentionBlockTaken p => (still_attentionTaken s p).commandCase
  | .writeDataByte p b => (still_giveWriteByte s p b).commandCase
  | .readDataByteTaken p => (still_takeReadByte s p).commandCase
  | .reconnectWindowExpiry k => (keeps_windowExpired s k).commandCase
  | .readyLineRise d code => (still_readyRise s d code).commandCase
  | .faultLineRise d => (still_faultRise s d).commandCase
  | .seekTimerExpiry d => (still_seekExpired s d).commandCase
  | .seekComplete d => (still_seekCompleted s d).commandCase
  | .identConfirmation d i => (still_confirmed s d i).commandCase
  | .claimMiss d => (keeps_missClaim s d).commandCase
  | .sectorReadOutcome d r => (still_sectorOutcome s d r).commandCase
  | .sectorWriteComplete d => (keeps_writeSectorEnd s d).commandCase
  | .waitingStepAdmitted => (keeps_admitWaiting s).commandCase
  | .commitPointWriteEnd => (keeps_passHeldPoint s).commandCase
  | .progressTimerExpiry => (still_progressExpired s).commandCase
  | .suspensionTimerExpiry => (still_suspensionExpired s).commandCase
  | .relocationResume => (still_resumeIdle s).commandCase
  | .headerStepComplete d w => (still_headerStepDone s d w).commandCase
  | .trackReadStepComplete d reads => (still_trackReadDone s d reads).commandCase
  | .trackWriteStepComplete d => (still_trackWriteDone s d).commandCase
  | .trackVerifyStepComplete d reads => (still_trackVerifyDone s d reads).commandCase
  | .scanHeaderRead d h => (still_scanHeader s d h).commandCase
  | .scanDiscardWrite d _ => (still_scanDiscarded s d).commandCase
  | .rebuildPass d reads => (still_scanRebuilt s d reads).commandCase
  | .internalRevolutionPulse => (still_revolutionPulse s).commandCase

/-- All eight parameters stand as they stood (R62). -/
def State.sameParameters (s t : State) : Prop := t.params = s.params ∧ ∀ p, (t.port p).threshold = (s.port p).threshold

theorem State.sameParameters.trans {s t u : State} (h : s.sameParameters t) (g : t.sameParameters u) :
    s.sameParameters u := ⟨g.1.trans h.1, fun p => (g.2 p).trans (h.2 p)⟩

theorem State.sameParameters.of_ports {s t : State} (hq : t.params = s.params := by rfl) (hp : t.ports = s.ports := by rfl) :
    s.sameParameters t :=
  ⟨hq, fun p => congrArg Port.threshold (port_congr hp p)⟩

theorem Steady.sameParameters {s t : State} (h : Steady s t) : s.sameParameters t := ⟨h.params, h.threshold⟩

theorem sameParameters_modPort (s : State) (p : PortId) (f : Port → Port)
    (hf : ∀ P : Port, (f P).threshold = P.threshold := by exact fun _ => rfl) : s.sameParameters (s.modPort p f) := by
  refine ⟨rfl, fun q => ?_⟩
  rw [port_modPort]
  split
  · rename_i h
    exact h ▸ hf _
  · rfl

/-- An accepted order to a drive leaves every parameter. -/
theorem sameParameters_acceptDrive (s : State) (p : PortId) (tag : Byte) (d : DriveId) (o : DriveOrder) :
    s.sameParameters (s.acceptDrive p tag d o) := by
  cases o with
  | read | write | verify | position | mapQuery | mapList | lock | unlock | mapFreeze => exact .of_ports
  | report => exact sameParameters_modPort s p _
  | cancel => exact (still_acceptCancel s p tag).sameParameters
  | calibrate =>
    show s.sameParameters (s.acceptCalibrate p tag d)
    unfold State.acceptCalibrate
    split <;> exact .of_ports
  | declare noCopy _ t =>
    show s.sameParameters (s.acceptDeclare p tag d noCopy t)
    unfold State.acceptDeclare
    dsimp only
    refine State.sameParameters.trans (t := s.addRequest p tag d (.mapChange .declare noCopy) [] (some t) .queued)
      .of_ports ?_
    split
    · exact State.sameParameters.trans .of_ports (keeps_appendWork _ _).sameParameters
    · split <;> exact State.sameParameters.trans .of_ports (keeps_appendWork _ _).sameParameters
  | retire t => exact State.sameParameters.trans .of_ports (keeps_appendWork _ _).sameParameters
  | seize =>
    show s.sameParameters (s.acceptSeize p d)
    unfold State.acceptSeize
    split
    · rename_i q _
      exact State.sameParameters.trans (t := s.setLockLost q d true) (sameParameters_modPort s q _) .of_ports
    · exact .of_ports

theorem sameParameters_answer (s : State) (p : PortId) (c : AcceptCode) (l : List Byte) : s.sameParameters (s.answer p c l) :=
  sameParameters_modPort s p _

theorem sameParameters_takeOrder (s : State) (p : PortId) (b : OrderBlock) (hb : ∀ f, b.order ≠ .setParameters f) :
    s.sameParameters (s.takeOrder p b) := by
  obtain ⟨tag, o⟩ := b
  unfold State.takeOrder
  split
  · refine State.sameParameters.trans ?_ (sameParameters_answer _ _ _ _)
    unfold State.refused
    split
    · split
      · exact sameParameters_modPort s p _
      · exact .of_ports
    · exact .of_ports
    · exact .of_ports
  · refine State.sameParameters.trans ?_ (sameParameters_answer _ _ _ _)
    cases o with
    | drive d o => exact sameParameters_acceptDrive s p tag d o
    | stringStatus => exact .of_ports
    | setParameters f => exact absurd rfl (hb f)

theorem sameParameters_orderTaken (s : State) (p : PortId) (b : OrderBlock) (hb : ∀ f, b.order ≠ .setParameters f) :
    s.sameParameters (s.orderTaken p b) := by
  unfold State.orderTaken
  split
  · split
    · exact sameParameters_takeOrder s p b hb
    · exact sameParameters_answer s p _ _
  · exact .of_ports

theorem sameParameters_blockTaken (s : State) (p : PortId) (l : List LineByte)
    (hl : ∀ tag f, decodeOrder (l.map fun x => x.byte) ≠ some ⟨tag, .setParameters f⟩) :
    s.sameParameters (s.blockTaken p l) := by
  unfold State.blockTaken
  split
  · split
    · exact sameParameters_answer s p _ _
    · split
      · exact sameParameters_answer s p _ _
      · split
        · rename_i b decodes
          refine sameParameters_takeOrder s p b fun f hf => hl b.tag f ?_
          rw [decodes, ← hf]
        · exact sameParameters_answer s p _ _
  · exact .of_ports

theorem sameParameters_resetPort (s : State) (p : PortId) : s.sameParameters (s.resetPort p) := by
  refine State.sameParameters.trans (t := s.resetTables p) ⟨?_, fun q => ?_⟩ (keeps_resetPort_rest s p).sameParameters
  · unfold State.resetTables
    obtain ⟨v, hv⟩ := dropWaiting_eq s p
    obtain ⟨w, hw⟩ := foldl_modDrive_eq (Drive.freeLockOf p) allDrives ((s.dropWaiting p).modPort p Port.afterReset)
    rw [hw, hv]
    rfl
  · rw [port_resetTables]
    split
    · rename_i h
      exact h ▸ rfl
    · rfl

/-- Settles O9: steady commands write no parameter, and neither do the orders but SET PARAMETERS nor a port reset. -/
theorem frameParameters : Obligations.FrameParameters := by
  intro c s t h hset hblock hreset
  rw [eq_of_exec h]
  refine State.sameParameters.trans (t := s.effect c) ?_ (keeps_settle _).sameParameters
  cases commandCase s c with
  | steady h => exact h.sameParameters
  | order p b =>
    rw [effect_command]
    refine sameParameters_orderTaken s p b fun f hf => hset p b.tag f ?_
    unfold OrderBlock.command
    rw [hf]
  | block p l => exact sameParameters_blockTaken s p l (hblock p l rfl)
  | portReset p => exact sameParameters_resetPort s p
  | powerOnReset => exact absurd rfl hreset

/-- Settles O20. -/
theorem decodeEncodeOrder : Obligations.DecodeEncodeOrder := fun _ h => decodeOrder_encode h

end Sys2Proof.Machine

namespace Sys2Proof.Machine

/-! ### The steps of the check sequence -/

theorem orElse_ne {α : Type} {a b : Option α} {x : α} (ha : a ≠ some x) (hb : b ≠ some x) : (a <|> b) ≠ some x := by
  cases a with
  | none => simpa using hb
  | some y => simpa using ha

theorem refuseIf_ne {c : Bool} {x y : AcceptCode} (h : x ≠ y) : refuseIf c x ≠ some y := by
  cases c <;> simp [refuseIf, h]

/-- The code of step 3 is the order's answer (R41). -/
theorem checkDrive_of_state {s : State} {p : PortId} {tag : Byte} {d : DriveId} {o : DriveOrder} {code : AcceptCode}
    (h : checkDriveState o (s.drive d).state = some code) : s.checkDrive p tag d o = some code := by
  simp [State.checkDrive, h]

theorem checkDriveState_of_ready (o : DriveOrder) : checkDriveState o .ready = none := by
  simp [checkDriveState]

theorem checkDriveState_ne_lockedElsewhere (o : DriveOrder) (st : DriveState) :
    checkDriveState o st ≠ some .lockedElsewhere := by
  unfold checkDriveState
  split
  · cases st with
    | faulted => exact refuseIf_ne (by decide)
    | _ => simp
  · simp

/-- Of the orders that step 4 lets by, only LOCK meets another port's lock in its own check (R57, Table 3-3). -/
theorem checkSpecific_ne_lockedElsewhere (s : State) (p : PortId) (tag : Byte) (d : DriveId) {o : DriveOrder}
    (hl : checksLock o = false) (ho : o ≠ .lock) : s.checkSpecific p tag d o ≠ some .lockedElsewhere := by
  cases o with
  | read | write | verify | position | calibrate | declare | retire | mapFreeze =>
    exact absurd hl (by simp [checksLock, DriveOrder.isQueued])
  | lock => exact absurd rfl ho
  | report | mapList => simp [State.checkSpecific]
  | unlock | seize | mapQuery => exact refuseIf_ne (by decide)
  | cancel =>
    simp only [State.checkSpecific, State.checkCancel]
    split
    · simp
    · split
      · simp
      · split
        · simp
        · exact refuseIf_ne (by decide)

/-- Settles O24: step 3 by the drive's state, step 4 by its lock; of the later steps only LOCK's own check has that code. -/
theorem stateAndLockChecks : Obligations.StateAndLockChecks := by
  refine ⟨fun s p tag d o ho => ⟨fun hs => ?_, fun hs => ?_, fun hs hc => ?_⟩, fun s p q tag d o ho hs hl hq => ?_,
    fun s p tag d o hl ho => ?_⟩
  · exact checkDrive_of_state (by simp [checkDriveState, ho, hs])
  · exact checkDrive_of_state (by rcases hs with hs | hs <;> simp [checkDriveState, ho, hs])
  · exact checkDrive_of_state (by simp [checkDriveState, ho, hs, hc, refuseIf])
  · simp [State.checkDrive, hs, checkDriveState_of_ready, ho, hl, heldElsewhere, hq, refuseIf]
  · refine orElse_ne (checkDriveState_ne_lockedElsewhere _ _) (orElse_ne ?_ (orElse_ne ?_ (orElse_ne ?_ (orElse_ne ?_
      (orElse_ne ?_ (checkSpecific_ne_lockedElsewhere s p tag d hl ho))))))
    · simp [hl, refuseIf]
    all_goals exact refuseIf_ne (by decide)

/-- An order that steps 3 and 4 pass meets the mark at step 5 (R44). -/
theorem checkDrive_of_marked {s : State} {p : PortId} {tag : Byte} {d : DriveId} {o : DriveOrder}
    (hs : checkDriveState o (s.drive d).state = none) (hl : checksLock o = true → s.lockFreeFor p d)
    (hm : s.lockLostMark p d = true) : s.checkDrive p tag d o = some .lockLost := by
  have lock : (checksLock o && heldElsewhere (s.drive d).lock p) = false := by
    cases hc : checksLock o with
    | false => rfl
    | true => exact heldElsewhere_of_lockFreeFor (hl hc)
  simp [State.checkDrive, hs, lock, hm, refuseIf]

theorem lockLostMark_setLockLost (s : State) (p : PortId) (d : DriveId) (m : Bool) :
    (s.setLockLost p d m).lockLostMark p d = m := by
  simp [State.setLockLost, State.lockLostMark, get_eq_getElem]

/-- An answer and the end of the event leave every lock-lost mark. -/
theorem lockLostMark_settle_answer (s : State) (p q : PortId) (d : DriveId) (c : AcceptCode) (l : List Byte) :
    (s.answer p c l).settle.lockLostMark q d = s.lockLostMark q d := by
  have answered : ((s.answer p c l).port q).lockLost = (s.port q).lockLost := by
    unfold State.answer
    rw [port_modPort]
    split
    · rename_i h
      rw [h]
    · rfl
  unfold State.lockLostMark
  rw [(keeps_settle _).lockLost, answered]

/-- Settles O25: the refusal clears the mark it met, and nothing of the event sets one. -/
theorem lockLostRefusal : Obligations.LockLostRefusal := by
  intro s p tag d o hp hf hs hl hm
  have refused := orderTaken_of_refused (b := ⟨tag, .drive d o⟩) hp hf (checkDrive_of_marked (tag := tag) hs hl hm)
  refine ⟨_, exec_of_effect ((effect_command p _ s).trans refused), answered_settle _ p .lockLost [], ?_⟩
  rw [lockLostMark_settle_answer]
  exact lockLostMark_setLockLost s p d false

/-! ### Orders that take a record -/

/-- Settles O26: the order passes its checks, and its effect is the new record. -/
theorem transferOrdersQueued : Obligations.TransferOrdersQueued := by
  intro s p d tag es h hf he
  have within : refuseIf (es.any (extentBeyond (Drive.limits (s.drive d)))) .outOfRange = none := by
    refine refuseIf_eq_none.2 (List.any_eq_false.2 fun e hm => ?_)
    simpa [extentBeyond] using he e hm
  have awaits : (s.port p).state = .selected false := h.1.1.1
  exact ⟨exec_of_effect (orderTaken_of_passes awaits hf (checkDrive_of_takesQueued (.read es) h within)),
    exec_of_effect (orderTaken_of_passes awaits hf (checkDrive_of_takesQueued (.write es) h within)),
    exec_of_effect (orderTaken_of_passes awaits hf (checkDrive_of_takesQueued (.verify es) h within))⟩

/-- A map change for a READY drive passes steps 3 to 8 on the conditions of `takesRecord`: it enters no drive queue (R64). -/
theorem checkDrive_of_takesRecord {s : State} {p : PortId} {d : DriveId} {tag : Byte} (o : DriveOrder)
    (h : s.takesRecord p d tag) (hr : (s.drive d).state = .ready) (hq : entersQueue o .ready = false)
    (hs : s.checkSpecific p tag d o = none) : s.checkDrive p tag d o = none := by
  obtain ⟨⟨_, mark, report⟩, lock, tags, store, port⟩ := h
  refine checkDrive_eq_none.2 ⟨by rw [hr, checkDriveState_of_ready], by simp [heldElsewhere_of_lockFreeFor lock], mark,
    by simp [report], ?_, ?_, hs⟩
  · simp only [State.tagInUse, Bool.and_eq_false_iff, List.any_eq_false, beq_iff_eq]
    exact .inr tags
  · simp [State.noRoom, hr, hq, Nat.not_le.2 store, Nat.not_le.2 port]

theorem trackBeyond_eq_false {ty : DriveType} {t : Track} (h : t.cyl ≤ ty.lastLogical) : trackBeyond ty t = false :=
  decide_eq_false (Nat.not_lt.2 h)

/-- Step 9 of DECLARE passes where the table has room and an entry, if there is one, may be declared (R50). -/
theorem checkDeclare_eq_none {s : State} {d : DriveId} {replace : Bool} {t : Track}
    (hc : t.cyl ≤ (Drive.limits (s.drive d)).lastLogical) (hf : (s.drive d).freeze = false)
    (hm : (s.drive d).map.length < 128)
    (he : ∀ e, s.entry? d (homeOf t) = some e → e.declarable (s.isStalled d (homeOf t)) replace = true) :
    s.checkDeclare d replace t = none := by
  have room : ¬Config.mapLimit ≤ (s.drive d).map.length := Nat.not_le.2 hm
  simp only [State.checkDeclare, trackBeyond_eq_false hc, hf, room, Bool.false_eq_true, if_false]
  split
  · rfl
  · rename_i e found
    rw [he e found]
    rfl

/-- DECLARE where the home has no entry: a PENDING one is made (R51). -/
theorem acceptDeclare_new {s : State} {d : DriveId} {t : Track} (he : s.entry? d (homeOf t) = none) (p : PortId)
    (tag : Byte) (noCopy : Bool) :
    s.acceptDeclare p tag d noCopy t
      = ((s.addRequest p tag d (.mapChange .declare noCopy) [] (some t) .queued).addEntry d
          (pendingEntry (homeOf t) .host (some s.nextPos))).appendWork ⟨d, homeOf t⟩ := by
  simp [State.acceptDeclare, entry?_addRequest, he]

theorem isStalled_addRequest (s : State) (p : PortId) (tag : Byte) (d e : DriveId) (k : Kind) (es : List Extent)
    (t : Option Track) (st : RecState) (home : Track) :
    (s.addRequest p tag d k es t st).isStalled e home = s.isStalled e home := rfl

/-- DECLARE of an entry that is not stalled: it is marked for replacement (R51). -/
theorem acceptDeclare_replace {s : State} {d : DriveId} {t : Track} {e : MapEntry} (he : s.entry? d (homeOf t) = some e)
    (hs : s.isStalled d (homeOf t) = false) (p : PortId) (tag : Byte) (noCopy : Bool) :
    s.acceptDeclare p tag d noCopy t
      = ((s.addRequest p tag d (.mapChange .declare noCopy) [] (some t) .queued).modEntry d (homeOf t) fun x =>
          { x with replacement := true, origin := .host, linked := some s.nextPos }).appendWork ⟨d, homeOf t⟩ := by
  simp [State.acceptDeclare, entry?_addRequest, he, isStalled_addRequest, hs]

/-- DECLARE of a stalled entry: it leaves the stalled list for the work list (R51, R142). -/
theorem acceptDeclare_stalled {s : State} {d : DriveId} {t : Track} {e : MapEntry} (he : s.entry? d (homeOf t) = some e)
    (hs : s.isStalled d (homeOf t) = true) (p : PortId) (tag : Byte) (noCopy : Bool) :
    s.acceptDeclare p tag d noCopy t
      = (((s.addRequest p tag d (.mapChange .declare noCopy) [] (some t) .queued).modEntry d (homeOf t) fun x =>
          { x with linked := some s.nextPos }).dropStalled ⟨d, homeOf t⟩).appendWork ⟨d, homeOf t⟩ := by
  simp [State.acceptDeclare, entry?_addRequest, he, isStalled_addRequest, hs]

/-- Settles O28: the order passes by the entry's state, and its effect is the entry's row of R51. -/
theorem declareEffects : Obligations.DeclareEffects := by
  intro s p d tag noCopy replace t h hr hf hc hz hm taken
  have accepted {u : State} (eq : s.acceptDeclare p tag d noCopy t = u)
      (he : ∀ e, s.entry? d (homeOf t) = some e → e.declarable (s.isStalled d (homeOf t)) replace = true) :
      exec (.declare p d tag noCopy replace t) s = .next (u.answer p .accepted []).settle := by
    have passes := checkDrive_of_takesRecord (.declare noCopy replace t) h hr rfl (checkDeclare_eq_none hc hz hm he)
    have order := orderTaken_of_passes (b := ⟨tag, .drive d (.declare noCopy replace t)⟩) h.1.1 hf passes
    exact eq ▸ exec_of_effect order
  refine ⟨fun he => ?_, fun e he hs ha hp hn hd => ?_, fun e he hs ha => ?_⟩
  · exact accepted (acceptDeclare_new he p tag noCopy) fun e found => nomatch he.symm.trans found
  · refine accepted (acceptDeclare_replace he hs p tag noCopy) fun x found => ?_
    obtain rfl : e = x := Option.some.inj (he.symm.trans found)
    simp [MapEntry.declarable, ha, hp, hn, hd]
  · refine accepted (acceptDeclare_stalled he hs p tag noCopy) fun x found => ?_
    obtain rfl : e = x := Option.some.inj (he.symm.trans found)
    rcases ha with ha | ⟨ha, hn, hp⟩
    · simp [MapEntry.declarable, hs, ha]
    · simp [MapEntry.declarable, hs, ha, hn, hp]

/-- Settles O29: the order passes, and its effect is the model's RETIRE. -/
theorem retireEffects : Obligations.RetireEffects := by
  intro s p d tag t e h hr hf hc hz he ha hn hd
  have passes : s.checkSpecific p tag d (.retire t) = none := by
    simp [State.checkSpecific, State.checkRetire, trackBeyond_eq_false hc, hz, he, ha, hn, hd, refuseIf]
  exact exec_of_effect (orderTaken_of_passes h.1.1 hf (checkDrive_of_takesRecord (.retire t) h hr rfl passes))

/-! ### Orders that take no record -/

/-- REPORT meets only the lock-lost mark (R43 to R45). -/
theorem checkDrive_report {s : State} {p : PortId} {d : DriveId} (hm : s.lockLostMark p d = false) (tag : Byte) :
    s.checkDrive p tag d .report = none :=
  checkDrive_eq_none.2 ⟨rfl, rfl, hm, rfl, rfl, rfl, rfl⟩

/-- Settles O30: the reply is read before the slot is emptied, and stands to the end of the event. -/
theorem reportEmptiesSlot : Obligations.ReportEmptiesSlot := by
  intro s p d tag hs hm reply
  have taken := exec_of_effect (c := .report p d tag)
    (orderTaken_of_passes (b := ⟨tag, .drive d .report⟩) hs rfl (checkDrive_report hm tag))
  exact ⟨taken, _, taken, answered_settle _ p .accepted reply⟩

/-- An order that takes no record passes steps 3 to 8 where the port is heard and the drive's state and lock let it by. -/
theorem checkDrive_of_hears {s : State} {p : PortId} {d : DriveId} {tag : Byte} (o : DriveOrder) (h : s.hears p d)
    (hq : DriveOrder.isQueued o = false) (hd : checkDriveState o (s.drive d).state = none)
    (hl : checksLock o = true → s.lockFreeFor p d) (hs : s.checkSpecific p tag d o = none) :
    s.checkDrive p tag d o = none := by
  obtain ⟨_, mark, report⟩ := h
  refine checkDrive_eq_none.2 ⟨hd, ?_, mark, by simp [report], by simp [hq], by simp [hq], hs⟩
  cases hc : checksLock o with
  | false => rfl
  | true => exact heldElsewhere_of_lockFreeFor (hl hc)

/-- A CANCEL passes its own check where it names a request of the drive that is waiting or a transfer (R55). -/
theorem checkCancel_eq_none {s : State} {p : PortId} {d : DriveId} {tag : Byte} {r : Record}
    (ht : s.cancelTarget p tag = some r) (hd : r.drive = d) (hr : r.isWaiting = true ∨ r.kind.isTransfer = true) :
    s.checkCancel p d tag = none := by
  have kind : r.kind.isMapChange = false ∧ ((r.kind == .position || r.kind == .calibrate) && !r.isWaiting) = false := by
    rcases hr with hw | hk
    · have parts := hw
      simp only [Record.isWaiting, Bool.and_eq_true, Bool.not_eq_true'] at parts
      exact ⟨parts.1.2, by simp [hw]⟩
    · cases hx : r.kind <;> simp_all [Kind.isTransfer, Kind.isMapChange]
  simp [State.checkCancel, ht, hd, kind, refuseIf]

/-- Settles O31: the order passes, and its effect follows the request's state. -/
theorem cancelEffects : Obligations.CancelEffects := by
  intro s p d tag r h hr ht hd
  have accepted {u : State} (hk : r.isWaiting = true ∨ r.kind.isTransfer = true) (eq : s.acceptCancel p tag = u) :
      exec (.cancel p d tag) s = .next (u.answer p .accepted []).settle := by
    have passes : s.checkDrive p tag d .cancel = none :=
      checkDrive_of_hears .cancel h rfl (by rw [hr, checkDriveState_of_ready]) nofun (checkCancel_eq_none ht hd hk)
    exact eq ▸ exec_of_effect (orderTaken_of_passes (b := ⟨tag, .drive d .cancel⟩) h.1 rfl passes)
  refine ⟨fun hw => accepted (.inl hw) ?_, fun hw hk hs he => accepted (.inr hk) ?_, fun hw hk hs => accepted (.inr hk) ?_⟩
  · simp [State.acceptCancel, ht, hw]
  · rcases hs with hs | hs <;> simp [State.acceptCancel, ht, hw, hs, he]
  · rcases hs with hs | hs <;> simp [State.acceptCancel, State.markCancel, ht, hw, hs]

/-- Settles O33: the orders pass and have no effect but their answer, read from the state before them. -/
theorem readingOrders : Obligations.ReadingOrders := by
  refine ⟨fun s p d tag h => ⟨fun t hf hc => ?_, ?_⟩, fun s p tag hs => ?_⟩
  · have passes : s.checkSpecific p tag d (.mapQuery t) = none := refuseIf_eq_none.2 (trackBeyond_eq_false hc)
    exact exec_of_effect (orderTaken_of_passes (b := ⟨tag, .drive d (.mapQuery t)⟩) h.1 hf
      (checkDrive_of_hears (.mapQuery t) h rfl rfl nofun passes))
  · exact exec_of_effect (orderTaken_of_passes (b := ⟨tag, .drive d .mapList⟩) h.1 rfl
      (checkDrive_of_hears .mapList h rfl rfl nofun rfl))
  · exact exec_of_effect (orderTaken_of_passes (b := ⟨tag, .stringStatus⟩) hs rfl rfl)

/-- Settles O34: the order passes and sets the mark of its own drive, and the end of the event keeps every mark. -/
theorem mapFreezeSetsMark : Obligations.MapFreezeSetsMark := by
  intro s p d tag h hl hr
  have passes : s.checkDrive p tag d .mapFreeze = none :=
    checkDrive_of_hears .mapFreeze h rfl (by rw [hr, checkDriveState_of_ready]) (fun _ => hl) rfl
  have taken : s.effect (.mapFreeze p d tag) = (s.modDrive d fun D => { D with freeze := true }).answer p .accepted [] :=
    orderTaken_of_passes h.1 rfl passes
  refine ⟨_, exec_of_effect taken, answered_settle _ p .accepted [], ?_, fun e he => ?_⟩
  · exact ((keeps_settle _).freeze d).trans (by simp [State.answer])
  · exact ((keeps_settle _).freeze e).trans (by simp [State.answer, drive_modDrive_other, he])

/-! ### SET PARAMETERS -/

/-- The field of SET PARAMETERS that sets a port's read threshold (R62). -/
def ParameterFields.readOf (f : ParameterFields) : PortId → Option Byte
  | .a => f.readA
  | .b => f.readB
  | .c => f.readC
  | .d => f.readD

theorem threshold_setThreshold (s : State) (p q : PortId) (f : Option Byte) :
    ((s.setThreshold p f).port q).threshold
      = if q = p then clampField 1 4 (s.port p).threshold f else (s.port q).threshold := by
  unfold State.setThreshold
  rw [port_modPort]
  split <;> rfl

theorem threshold_acceptParameters (s : State) (f : ParameterFields) (p : PortId) :
    ((s.acceptParameters f).port p).threshold = clampField 1 4 (s.port p).threshold (ParameterFields.readOf f p) := by
  unfold State.acceptParameters
  cases p <;> simp only [threshold_setThreshold] <;> rfl

theorem params_acceptParameters (s : State) (f : ParameterFields) : (s.acceptParameters f).params = s.params.after f := rfl

theorem State.sameParameters.parameterBytes {s t : State} (h : s.sameParameters t) :
    Machine.parameterBytes t = Machine.parameterBytes s := by
  obtain ⟨params, threshold⟩ := h
  simp only [Machine.parameterBytes, params, threshold]

/-- Settles O35: the order meets no check, its effect clamps each field, and the answer and the end of the event leave all
eight, which the reply echoes. -/
theorem setParametersClamps : Obligations.SetParametersClamps := by
  intro s p tag f hs
  let reply := replyHead 0x1F#8 tag ++ parameterBytes (s.acceptParameters f)
  have taken : s.effect (.setParameters p tag f) = (s.acceptParameters f).answer p .accepted reply :=
    orderTaken_of_passes (b := ⟨tag, .setParameters f⟩) hs rfl rfl
  have same : (s.acceptParameters f).sameParameters ((s.acceptParameters f).answer p .accepted reply).settle :=
    (sameParameters_answer _ p _ _).trans (keeps_settle _).sameParameters
  have answered := answered_settle (s.acceptParameters f) p .accepted reply
  have params := same.1.trans (params_acceptParameters s f)
  have threshold (q : PortId) := (same.2 q).trans (threshold_acceptParameters s f q)
  refine ⟨_, exec_of_effect taken, ?_, by rw [params]; rfl, by rw [params]; rfl, by rw [params]; rfl, by rw [params]; rfl,
    threshold .a, threshold .b, threshold .c, threshold .d⟩
  rw [same.parameterBytes]
  exact answered

end Sys2Proof.Machine

namespace Sys2Proof.Machine

/-! ### Acceptance order -/

/-- Settles O7: records are added at the end alone, at the next position, which then goes up (`sound_acceptDrive`,
`keeps_admitStep`); every other operation keeps the positions or takes records out. -/
theorem stepKeepsAcceptanceOrder : Obligations.StepKeepsAcceptanceOrder := fun _ _ hs h => (sound_step h).ordered hs

end Sys2Proof.Machine

namespace Sys2Proof.Machine

/-! ### The relocation unit's own points -/

theorem hasRoom_iff (s : State) (d : DriveId) : s.hasRoom d = true ↔ s.records.length < 96 ∧ s.queueCount d < 24 := by
  simp only [State.hasRoom, Bool.and_eq_true, decide_eq_true_eq]
  exact Iff.rfl

theorem admitWaiting_of_waiting {s : State} {q : StepRequest} (h : s.ru.step = .waiting q) :
    s.admitWaiting = if s.hasRoom q.drive then s.admitStep q else s := by
  unfold State.admitWaiting
  rw [h]

theorem passHeldPoint_of_point {s : State} {ref : EntryRef} {st : Stage} (hr : s.ru.state = .running)
    (he : s.ru.entry = some ref) (hg : s.ru.stage = some st) (hp : s.ru.step = .point) :
    s.passHeldPoint = if st.isLastPoint && !s.writeEntered ref then s.ruPoint else s := by
  unfold State.passHeldPoint
  rw [hr, he, hg, hp]

theorem isLastPoint_iff (st : Stage) : st.isLastPoint = true ↔ st = .commitTarget ∨ st = .releaseAlternate := by
  cases st <;> decide

theorem expire_running_of_le {count interval : Nat} (h : interval ≤ count) :
    (ProgressTimer.running count interval).expire = .expired := if_pos h

theorem expire_running_of_lt {count interval : Nat} (h : count < interval) :
    (ProgressTimer.running count interval).expire = .running count interval := if_neg (Nat.not_le.2 h)

/-- The expiry leaves the unit alone where it leaves the timer alone. -/
theorem progressExpired_of_expire {s : State} (h : s.ru.progress.expire = s.ru.progress) : s.progressExpired = s := by
  simp only [State.progressExpired, State.modRu, h]

theorem suspensionOver_of_running {s : State} {n : Nat} (h : s.ru.suspension = some n) :
    s.suspensionOver = decide (16 ≤ n) := by
  unfold State.suspensionOver
  rw [h]
  rfl

theorem suspensionExpired_of_suspended {s : State} (h : s.ru.state = .suspended) :
    s.suspensionExpired = if s.suspensionOver then s.resume else s := by
  simp [State.suspensionExpired, h]

theorem noHostWaits_of_entry {s : State} {ref : EntryRef} (h : s.ru.entry = some ref) :
    s.noHostWaits = !s.hostWaits ref.drive := by
  unfold State.noHostWaits
  rw [h]

theorem resumeIdle_of_suspended {s : State} (h : s.ru.state = .suspended) :
    s.resumeIdle = if s.noHostWaits then s.resume else s := by
  simp [State.resumeIdle, h]

/-- Settles O50: each point's operation is a test and then one effect, and both branches of the test are named above. -/
theorem relocationPoints : Obligations.RelocationPoints := by
  refine ⟨fun s q h => ?_, fun s ref st hr he hg hp hst => ?_, fun s count interval h => ?_, fun s n hs hn => ?_,
    fun s ref hs he => ?_⟩
  · have waiting := admitWaiting_of_waiting h
    refine ⟨fun hl hq => exec_of_effect ?_, fun full => exec_of_effect ?_⟩
    · exact waiting.trans (if_pos ((hasRoom_iff s q.drive).2 ⟨hl, hq⟩))
    · refine waiting.trans (if_neg fun room => ?_)
      obtain ⟨hl, hq⟩ := (hasRoom_iff s q.drive).1 room
      omega
  · have held := passHeldPoint_of_point hr he hg hp
    have last := (isLastPoint_iff st).2 hst
    exact ⟨fun hw => exec_of_effect (held.trans (by simp [last, hw])),
      fun hw => exec_of_effect (held.trans (by simp [hw]))⟩
  · refine ⟨fun due => exec_of_effect ?_, fun early => exec_of_effect (progressExpired_of_expire ?_)⟩
    · simp only [State.effect, State.progressExpired, State.modRu, h, expire_running_of_le due]
    · rw [h, expire_running_of_lt early]
  · have expiry := suspensionExpired_of_suspended hs
    rw [suspensionOver_of_running hn] at expiry
    exact ⟨fun due => exec_of_effect (expiry.trans (by simp [due])),
      fun early => exec_of_effect (expiry.trans (by simp [Nat.not_le.2 early]))⟩
  · have idle := resumeIdle_of_suspended hs
    rw [noHostWaits_of_entry he] at idle
    exact ⟨fun quiet => exec_of_effect (idle.trans (by simp [quiet])),
      fun waits => exec_of_effect (idle.trans (by simp [waits]))⟩

end Sys2Proof.Machine

namespace Sys2Proof.Machine

/-! ### The seek curve (R77) -/

/-- The distances of a curve go up from breakpoint to breakpoint. -/
def curveAscends (l : List (Nat × Nat)) : Prop := l.Pairwise fun a b => a.1 < b.1

theorem curve_ascends (ty : DriveType) : curveAscends ty.curve := by
  unfold curveAscends
  cases ty <;> decide

theorem one_le_of_mem_curve (ty : DriveType) : ∀ b ∈ ty.curve, 1 ≤ b.1 := by cases ty <;> decide

theorem curveTime_cons_cons (a b : Nat × Nat) (l : List (Nat × Nat)) (x : Nat) :
    curveTime (a :: b :: l) x = if x < b.1 then a.2 + (x - a.1) * (b.2 - a.2) / (b.1 - a.1) else curveTime (b :: l) x := rfl

/-- A distance that has reached a later breakpoint is past the first segment. -/
theorem curveTime_skip {a b c : Nat × Nat} {l : List (Nat × Nat)} {x : Nat} (h : curveAscends (a :: b :: l))
    (hc : c ∈ b :: l) (hx : c.1 ≤ x) : curveTime (a :: b :: l) x = curveTime (b :: l) x := by
  have first : b.1 ≤ c.1 := by
    rcases List.mem_cons.1 hc with rfl | hc
    · exact Nat.le_refl _
    · exact Nat.le_of_lt (List.rel_of_pairwise_cons h.of_cons hc)
  rw [curveTime_cons_cons, if_neg (by omega)]

/-- Between two breakpoints the time is interpolated. -/
theorem curveTime_segment {l : List (Nat × Nat)} {i x : Nat} {c e : Nat × Nat} (h : curveAscends l)
    (hc : l[i]? = some c) (he : l[i + 1]? = some e) (hcx : c.1 ≤ x) (hxe : x < e.1) :
    curveTime l x = c.2 + (x - c.1) * (e.2 - c.2) / (e.1 - c.1) := by
  induction l generalizing i with
  | nil => cases hc
  | cons a l ih =>
    cases l with
    | nil => cases he
    | cons b l =>
      cases i with
      | zero =>
        cases hc
        cases he
        rw [curveTime_cons_cons, if_pos hxe]
      | succ i => rw [curveTime_skip h (List.mem_of_getElem? hc) hcx, ih h.of_cons hc he]

/-- At a breakpoint the time is the breakpoint's. -/
theorem curveTime_breakpoint {l : List (Nat × Nat)} {i : Nat} {c : Nat × Nat} (h : curveAscends l)
    (hc : l[i]? = some c) : curveTime l c.1 = c.2 := by
  induction l generalizing i with
  | nil => cases hc
  | cons a l ih =>
    cases l with
    | nil =>
      cases i with
      | zero => cases hc; rfl
      | succ i => cases hc
    | cons b l =>
      cases i with
      | zero =>
        cases hc
        rw [curveTime_cons_cons, if_pos (List.rel_of_pairwise_cons h List.mem_cons_self)]
        simp
      | succ i => rw [curveTime_skip h (List.mem_of_getElem? hc) (Nat.le_refl _), ih h.of_cons hc]

/-- From the last breakpoint on the time stays. -/
theorem curveTime_last {l : List (Nat × Nat)} {x : Nat} {c : Nat × Nat} (h : curveAscends l)
    (hc : l.getLast? = some c) (hx : c.1 ≤ x) : curveTime l x = c.2 := by
  induction l with
  | nil => cases hc
  | cons a l ih =>
    cases l with
    | nil => cases hc; rfl
    | cons b l =>
      have rest : (b :: l).getLast? = some c := List.getLast?_cons_cons ▸ hc
      rw [curveTime_skip h (List.mem_of_getLast? rest) hx, ih h.of_cons rest]

/-- No time of a curve exceeds the times of its breakpoints. -/
theorem curveTime_le {l : List (Nat × Nat)} {m : Nat} (h : ∀ b ∈ l, b.2 ≤ m) (x : Nat) : curveTime l x ≤ m := by
  induction l with
  | nil => exact Nat.zero_le m
  | cons a l ih =>
    cases l with
    | nil => exact h a List.mem_cons_self
    | cons b l =>
      have ha : a.2 ≤ m := h a List.mem_cons_self
      have hb : b.2 ≤ m := h b (by simp)
      rw [curveTime_cons_cons]
      split
      · have part : (x - a.1) * (b.2 - a.2) / (b.1 - a.1) ≤ b.2 - a.2 := by
          refine Nat.div_le_of_le_mul (Nat.mul_le_mul_right _ ?_)
          omega
        omega
      · exact ih fun c hc => h c (List.mem_cons_of_mem _ hc)

theorem seekTime_of_pos (ty : DriveType) {x : Nat} (h : 1 ≤ x) : seekTime ty x = curveTime ty.curve x := by
  simp [seekTime, Nat.ne_of_gt h]

/-- The seek time at a breakpoint's distance or beyond it is read from the curve. -/
theorem seekTime_of_reached {ty : DriveType} {i x : Nat} {c : Nat × Nat} (hc : ty.curve[i]? = some c) (hx : c.1 ≤ x) :
    seekTime ty x = curveTime ty.curve x :=
  seekTime_of_pos ty (Nat.le_trans (one_le_of_mem_curve ty c (List.mem_of_getElem? hc)) hx)

theorem getLast?_curve (ty : DriveType) : ty.curve.getLast? = ty.curve[7]? := by cases ty <;> rfl

theorem distance_eq_natAbs (c c0 : Nat) : distance c c0 = ((c : Int) - c0).natAbs := by
  unfold distance
  omega

/-- Settles O55: the curves ascend, so the segment that a distance falls in is the one the search stops at. -/
theorem seekCurve : Obligations.SeekCurve := by
  refine ⟨rfl, rfl, distance_eq_natAbs, fun ty => ⟨rfl, fun i x d0 t0 d1 t1 h0 h1 hd hx => ?_, fun i x t h => ?_,
    fun x d7 t7 h hx => ?_⟩⟩
  · rw [seekTime_of_reached h0 hd, curveTime_segment (curve_ascends ty) h0 h1 hd hx]
  · rw [seekTime_of_reached h (Nat.le_refl x), curveTime_breakpoint (c := (x, t)) (curve_ascends ty) h]
  · rw [seekTime_of_reached h hx, curveTime_last (curve_ascends ty) ((getLast?_curve ty).trans h) hx]

end Sys2Proof.Machine

namespace Sys2Proof.Machine

/-! ### The raw cost (R78) -/

/-- The longest seek time of a type: the time of its curve's last breakpoint (Table 4-3). -/
def longestSeek : DriveType → Nat
  | .type1 => 196
  | .type2 => 128

theorem seekTime_le (ty : DriveType) (x : Nat) : seekTime ty x ≤ longestSeek ty := by
  have times : ∀ b ∈ ty.curve, b.2 ≤ longestSeek ty := by cases ty <;> decide
  unfold seekTime
  split
  · exact Nat.zero_le _
  · exact curveTime_le times x

/-- The wait for a slot, led by some slots, as the residue that R78 gives. -/
theorem rotationalWait_sector (r slot lead : Nat) :
    (rotationalWait r (.sector slot lead) : Int) = ((slot : Int) - r - lead) % 64 + lead := by
  simp only [rotationalWait, Config.slots]
  omega

theorem rotationalWait_boundary (r : Nat) : (rotationalWait r .boundary : Int) = (-(r : Int)) % 4 := by
  simp only [rotationalWait]
  omega

theorem rotationalWait_boundary_le (r : Nat) : rotationalWait r .boundary ≤ 3 := by
  have h := rotationalWait_boundary r
  omega

/-- A wait for a slot takes its lead and less than a revolution. -/
theorem rotationalWait_sector_range (r slot lead : Nat) :
    lead ≤ rotationalWait r (.sector slot lead) ∧ rotationalWait r (.sector slot lead) ≤ lead + 63 := by
  have h := rotationalWait_sector r slot lead
  omega

/-- The wait rules that R76 gives to records: none, the next sector boundary, or a slot, led by 8 for a WRITE. -/
def WaitRule.given (w : WaitRule) : Prop := w = .none ∨ w = .boundary ∨ ∃ slot, w = .sector slot 0 ∨ w = .sector slot 8

theorem rotationalWait_le {w : WaitRule} (hw : w.given) (r : Nat) : rotationalWait r w ≤ 71 := by
  rcases hw with rfl | rfl | ⟨slot, rfl | rfl⟩
  · exact Nat.zero_le _
  · exact Nat.le_trans (rotationalWait_boundary_le r) (by decide)
  · exact Nat.le_trans (rotationalWait_sector_range r slot 0).2 (by decide)
  · exact (rotationalWait_sector_range r slot 8).2

theorem rawCost_eq (ty : DriveType) (p c0 c : Nat) (w : WaitRule) : rawCost ty p c0 c w
    = 1 + seekTime ty (distance c c0) + rotationalWait (readySlot p (seekTime ty (distance c c0))) w := rfl

theorem rawCost_none (ty : DriveType) (p c0 c : Nat) : rawCost ty p c0 c .none = 1 + seekTime ty (distance c c0) := rfl

theorem one_le_rawCost (ty : DriveType) (p c0 c : Nat) (w : WaitRule) : 1 ≤ rawCost ty p c0 c w := by
  rw [rawCost_eq]
  omega

theorem rawCost_le {w : WaitRule} (hw : w.given) (ty : DriveType) (p c0 c : Nat) :
    rawCost ty p c0 c w ≤ longestSeek ty + 72 := by
  have seek := seekTime_le ty (distance c c0)
  have wait := rotationalWait_le hw (readySlot p (seekTime ty (distance c c0)))
  rw [rawCost_eq]
  omega

/-! A namespace of its own, because `rawCost` is the name of the model's function. -/

namespace AccessCost

/-- Settles O56: the waits are residues, and the raw cost is bounded by the longest seek and the longest wait. -/
theorem rawCost : Obligations.RawCost := by
  refine ⟨fun _ _ => rfl, rotationalWait_sector, fun r => ⟨rotationalWait_boundary r, rfl⟩, fun r slot => ?_,
    rawCost_eq, fun ty p c0 c w hw => ⟨one_le_rawCost ty p c0 c w, ?_⟩, fun ty p c0 c => ⟨rfl, ?_⟩⟩
  · obtain ⟨_, here⟩ := rotationalWait_sector_range r slot 0
    obtain ⟨led, ledMost⟩ := rotationalWait_sector_range r slot 8
    exact ⟨here, led, ledMost, rotationalWait_boundary_le r⟩
  · have most := rawCost_le hw ty p c0 c
    cases ty <;> exact most
  · have most := seekTime_le ty (distance c c0)
    rw [rawCost_none]
    cases ty <;> exact Nat.add_le_add_left most 1

end AccessCost

end Sys2Proof.Machine

namespace Sys2Proof.Machine

/-! ### Penalty, aging and class (R79, R80) -/

theorem againstSweep_iff (sw : Sweep) (c0 c : Nat) :
    againstSweep sw c0 c = true ↔ (sw = .inward ∧ c < c0) ∨ (sw = .outward ∧ c0 < c) := by
  cases sw <;> simp [againstSweep]

theorem penalised_range (sw : Sweep) (h c0 c raw : Nat) :
    raw ≤ penalised sw h c0 c raw ∧ penalised sw h c0 c raw ≤ raw + h := by
  unfold penalised
  split <;> omega

theorem penalised_zero (sw : Sweep) (c0 c raw : Nat) : penalised sw 0 c0 c raw = raw := ite_self raw

theorem finalCost_request (k b : Nat) : finalCost k b false = k * (16 - min b 8) / 16 := rfl

/-- The class doubles the cost of a relocation step. -/
theorem finalCost_step (k b : Nat) : finalCost k b true = 2 * finalCost k b false := rfl

/-- Aging takes at most half of a cost. -/
theorem finalCost_range (k b : Nat) : k / 2 ≤ finalCost k b false ∧ finalCost k b false ≤ k := by
  have least : k * 8 ≤ k * (16 - min b 8) := Nat.mul_le_mul_left k (by omega)
  have most : k * (16 - min b 8) ≤ k * 16 := Nat.mul_le_mul_left k (by omega)
  rw [finalCost_request]
  omega

theorem finalCost_fresh (k : Nat) : finalCost k 0 false = k := by
  exact Nat.mul_div_cancel k (show 0 < 16 by decide)

theorem finalCost_aged (k : Nat) : finalCost k 8 false = k / 2 := by
  have half : finalCost k 8 false = k * 8 / 16 := rfl
  omega

theorem finalCost_of_aged (k : Nat) {b : Nat} (h : 8 ≤ b) : finalCost k b false = finalCost k 8 false := by
  simp only [finalCost_request, Nat.min_eq_right h, Nat.min_self]

/-- The final cost of a record of either class, from the raw cost and the penalty. -/
theorem finalCost_class_range (k b : Nat) (isStep : Bool) : k / 2 ≤ finalCost k b isStep ∧ finalCost k b isStep ≤ 2 * k := by
  obtain ⟨least, most⟩ := finalCost_range k b
  cases isStep with
  | false => omega
  | true =>
    rw [finalCost_step]
    omega

theorem costOf_eq {s : State} {r : Record} {c0 : Nat} {ty : DriveType} (hc : (s.drive r.drive).cyl = some c0)
    (ht : (s.drive r.drive).type = some ty) :
    s.costOf r = finalCost (penalised (s.drive r.drive).sweep s.params.reversal c0 (s.targetOf r).1.cyl
      (rawCost ty (s.drive r.drive).rpc c0 (s.targetOf r).1.cyl (s.targetOf r).2)) r.bypass r.kind.isStep := by
  simp only [State.costOf, hc, ht, Option.getD_some]

theorem targetOf_calibrate (s : State) {r : Record} (h : r.kind = .calibrate) : s.targetOf r = (⟨0, 0⟩, .none) := by
  unfold State.targetOf
  rw [h]

theorem mem_queue {s : State} {d : DriveId} {r : Record} :
    r ∈ s.queue d ↔ r ∈ s.records ∧ r.drive = d ∧ r.isWaiting = true := by
  simp [State.queue, List.mem_filter]

theorem isMapChange_of_isWaiting {r : Record} (h : r.isWaiting = true) : r.kind.isMapChange = false := by
  simp only [Record.isWaiting, Bool.and_eq_true, Bool.not_eq_true'] at h
  exact h.1.2

/-- Settles O57: the penalty adds at most H, aging takes at most half, the class at most doubles; the bounds of the costs
are those of the raw cost so raised. -/
theorem penaltyAgingClass : Obligations.PenaltyAgingClass := by
  refine ⟨fun sw h c0 c raw => ⟨fun against => if_pos ((againstSweep_iff sw c0 c).2 against),
      fun along => if_neg fun against => along ((againstSweep_iff sw c0 c).1 against), penalised_zero sw c0 c raw⟩,
    fun _ _ => ⟨rfl, rfl⟩, fun k b => ⟨(finalCost_range k b).2, (finalCost_range k b).1, finalCost_fresh k⟩,
    fun k _ => finalCost_of_aged k, fun k => ?_, fun ty sw p h b c0 c w isStep hh hw => ?_,
    fun _ _ _ _ => costOf_eq, fun s _ => targetOf_calibrate s,
    fun _ _ r hr => isMapChange_of_isWaiting (mem_queue.1 hr).2.2⟩
  · rw [finalCost_step, finalCost_aged]
    omega
  · intro raw k
    have rawLeast : 1 ≤ raw := one_le_rawCost ty p c0 c w
    have rawMost : raw ≤ longestSeek ty + 72 := rawCost_le hw ty p c0 c
    obtain ⟨kLeast, kMost⟩ : raw ≤ k ∧ k ≤ raw + h := penalised_range sw h c0 c raw
    obtain ⟨least, most⟩ := finalCost_class_range k b isStep
    refine ⟨kLeast, by omega, by omega, by omega, ?_⟩
    cases ty with
    | type1 =>
      have bound : raw ≤ 268 := rawMost
      exact ⟨rawLeast, bound, by omega⟩
    | type2 =>
      have bound : raw ≤ 200 := rawMost
      exact ⟨rawLeast, bound, by omega⟩

end Sys2Proof.Machine

namespace Sys2Proof.Machine

/-! ### The least of a list -/

section
variable {α : Type} {key : α → Nat × Nat}

/-- Keys compared as pairs. -/
def keyLe (a b : Nat × Nat) : Prop := a.1 < b.1 ∨ (a.1 = b.1 ∧ a.2 ≤ b.2)

theorem keyLe_trans {a b c : Nat × Nat} (h : keyLe a b) (g : keyLe b c) : keyLe a c := by
  unfold keyLe at *
  omega

/-- The least of a list with one more element: the least of the rest, or the element where no key comes before its own. -/
theorem leastBy_cons_cases (x : α) (l : List α) :
    (l = [] ∧ leastBy key (x :: l) = some x)
      ∨ ∃ y, leastBy key l = some y ∧ ((keyLe (key y) (key x) ∧ leastBy key (x :: l) = some y)
        ∨ (keyLe (key x) (key y) ∧ leastBy key (x :: l) = some x)) := by
  induction l generalizing x with
  | nil => exact .inl ⟨rfl, rfl⟩
  | cons z l ih =>
    obtain ⟨y, hy⟩ : ∃ y, leastBy key (z :: l) = some y := by
      rcases ih z with ⟨_, h⟩ | ⟨_, _, ⟨_, h⟩ | ⟨_, h⟩⟩ <;> exact ⟨_, h⟩
    refine .inr ⟨y, hy, ?_⟩
    rw [leastBy, hy]
    by_cases h : ((key y).1 < (key x).1 || ((key y).1 == (key x).1 && (key y).2 < (key x).2)) = true
    · refine .inl ⟨?_, if_pos h⟩
      simp only [Bool.or_eq_true, Bool.and_eq_true, beq_iff_eq, decide_eq_true_eq] at h
      unfold keyLe
      omega
    · refine .inr ⟨?_, if_neg h⟩
      simp only [Bool.or_eq_true, Bool.and_eq_true, beq_iff_eq, decide_eq_true_eq] at h
      unfold keyLe
      omega

theorem leastBy_eq_none {l : List α} : leastBy key l = none ↔ l = [] := by
  cases l with
  | nil => exact ⟨fun _ => rfl, fun _ => rfl⟩
  | cons x l => rcases leastBy_cons_cases (key := key) x l with ⟨_, h⟩ | ⟨_, _, ⟨_, h⟩ | ⟨_, h⟩⟩ <;> simp [h]

/-- The least of a list is of the list, and no key comes before its own. -/
theorem leastBy_spec {l : List α} {r : α} (h : leastBy key l = some r) : r ∈ l ∧ ∀ x ∈ l, keyLe (key r) (key x) := by
  have self (a : Nat × Nat) : keyLe a a := .inr ⟨rfl, Nat.le_refl _⟩
  induction l generalizing r with
  | nil => cases h
  | cons x l ih =>
    rcases leastBy_cons_cases (key := key) x l with ⟨rfl, hx⟩ | ⟨y, hy, ⟨hyx, hx⟩ | ⟨hxy, hx⟩⟩ <;> rw [hx] at h <;> cases h
    · simpa using self (key x)
    · obtain ⟨mem, least⟩ := ih hy
      exact ⟨List.mem_cons_of_mem x mem, List.forall_mem_cons.2 ⟨hyx, least⟩⟩
    · obtain ⟨_, least⟩ := ih hy
      exact ⟨List.mem_cons_self, List.forall_mem_cons.2 ⟨self (key x), fun z hz => keyLe_trans hxy (least z hz)⟩⟩

/-- The least of a list rests on the keys of its elements alone. -/
theorem leastBy_congr {key' : α → Nat × Nat} {l : List α} (h : ∀ x ∈ l, key x = key' x) :
    leastBy key l = leastBy key' l := by
  induction l with
  | nil => rfl
  | cons x l ih =>
    obtain ⟨here, rest⟩ := List.forall_mem_cons.1 h
    rw [leastBy, leastBy, ← ih rest, here]
    cases hy : leastBy key l with
    | none => rfl
    | some y => simp only [rest y (leastBy_spec hy).1]

end

/-! ### The choice among eligible records (R81) -/

/-- The overdue records of a list (R81). -/
def overdueOf (l : List Record) : List Record := l.filter fun r => Config.bypassLimit ≤ r.bypass

theorem mem_overdueOf {l : List Record} {r : Record} : r ∈ overdueOf l ↔ r ∈ l ∧ 15 ≤ r.bypass := by
  simp only [overdueOf, List.mem_filter, decide_eq_true_eq]
  exact Iff.rfl

theorem overdueOf_eq_nil {l : List Record} (h : ∀ x ∈ l, x.bypass < 15) : overdueOf l = [] := by
  refine List.eq_nil_iff_forall_not_mem.2 fun x hx => ?_
  obtain ⟨mem, due⟩ := mem_overdueOf.1 hx
  exact Nat.not_le.2 (h x mem) due

/-- Without overdue records the choice is by cost. -/
theorem pick_of_not_overdue (s : State) {l : List Record} (h : overdueOf l = []) :
    s.pick l = leastBy (fun r => (s.costOf r, r.pos)) l := by
  unfold State.pick
  rw [show l.filter (fun r => Config.bypassLimit ≤ r.bypass) = [] from h]
  rfl

/-- With overdue records the choice is the one of them accepted first. -/
theorem pick_of_overdue (s : State) {l : List Record} (h : overdueOf l ≠ []) :
    s.pick l = leastBy (fun r => (r.pos, 0)) (overdueOf l) := by
  unfold State.pick
  rw [show l.filter (fun r => Config.bypassLimit ≤ r.bypass) = overdueOf l from rfl]
  cases hr : leastBy (fun r : Record => (r.pos, 0)) (overdueOf l) with
  | none => exact absurd (leastBy_eq_none.1 hr) h
  | some r => rfl

theorem pick_eq_none (s : State) (l : List Record) : s.pick l = none ↔ l = [] := by
  by_cases h : overdueOf l = []
  · rw [pick_of_not_overdue s h, leastBy_eq_none]
  · rw [pick_of_overdue s h, leastBy_eq_none]
    exact ⟨fun e => absurd e h, fun e => absurd (by rw [e]; rfl) h⟩

theorem pick_congr {s t : State} {l : List Record} (h : ∀ r ∈ l, s.costOf r = t.costOf r) : s.pick l = t.pick l := by
  by_cases due : overdueOf l = []
  · rw [pick_of_not_overdue s due, pick_of_not_overdue t due]
    exact leastBy_congr fun x hx => by rw [h x hx]
  · rw [pick_of_overdue s due, pick_of_overdue t due]

theorem mem_of_pick {s : State} {l : List Record} {r : Record} (h : s.pick l = some r) : r ∈ l := by
  by_cases due : overdueOf l = []
  · rw [pick_of_not_overdue s due] at h
    exact (leastBy_spec h).1
  · rw [pick_of_overdue s due] at h
    exact (mem_overdueOf.1 (leastBy_spec h).1).1

theorem pick_single (s : State) (r : Record) : s.pick [r] = some r := by
  cases h : s.pick [r] with
  | none => cases (pick_eq_none s [r]).1 h
  | some x => rw [List.mem_singleton.1 (mem_of_pick h)]

/-- Of overdue records the one accepted first is chosen. -/
theorem pick_first_overdue {s : State} {l : List Record} {r : Record} (h : s.pick l = some r)
    (due : ∃ x ∈ l, 15 ≤ x.bypass) : 15 ≤ r.bypass ∧ ∀ x ∈ l, 15 ≤ x.bypass → r.pos ≤ x.pos := by
  obtain ⟨y, hy, dueY⟩ := due
  rw [pick_of_overdue s (List.ne_nil_of_mem (mem_overdueOf.2 ⟨hy, dueY⟩))] at h
  obtain ⟨mem, least⟩ := leastBy_spec h
  refine ⟨(mem_overdueOf.1 mem).2, fun x hx dueX => ?_⟩
  rcases least x (mem_overdueOf.2 ⟨hx, dueX⟩) with lt | ⟨eq, _⟩
  · exact Nat.le_of_lt lt
  · exact Nat.le_of_eq eq

/-- Where none is overdue the cheapest is chosen, of equal ones the one accepted first. -/
theorem pick_cheapest {s : State} {l : List Record} {r : Record} (h : s.pick l = some r) (young : ∀ x ∈ l, x.bypass < 15) :
    ∀ x ∈ l, s.costOf r < s.costOf x ∨ (s.costOf r = s.costOf x ∧ r.pos ≤ x.pos) := by
  rw [pick_of_not_overdue s (overdueOf_eq_nil young)] at h
  exact (leastBy_spec h).2

/-! ### Eligibility (R72) -/

theorem reportHolds_iff (s : State) (r : Record) :
    s.reportHolds r = true ↔ ∃ p, r.source = .port p ∧ r.detached = false ∧ s.reportOf p r.drive ≠ none := by
  unfold State.reportHolds
  cases h : r.source with
  | relocation => simp
  | port p => simp [Option.isSome_iff_ne_none]

theorem isMoving_iff (st : EntryState) : st.isMoving = true ↔ ∃ dir, st = .moving dir := by
  cases st <;> simp [EntryState.isMoving]

theorem movingWrite_iff (s : State) (d : DriveId) (home : Track) :
    s.movingWrite d home = true ↔
      ∃ e dir, s.entry? d home = some e ∧ e.state = .moving dir ∧ s.ru.state = .running ∧ s.ru.entry = some ⟨d, home⟩ := by
  unfold State.movingWrite State.inHand
  cases s.entry? d home with
  | none => simp
  | some e =>
    simp only [Bool.and_eq_true, beq_iff_eq, isMoving_iff]
    exact ⟨fun ⟨⟨run, hand⟩, dir, move⟩ => ⟨e, dir, rfl, move, run, hand⟩,
      fun ⟨_, dir, same, move, run, hand⟩ => ⟨⟨run, hand⟩, dir, Option.some.inj same ▸ move⟩⟩

theorem movingHolds_iff (s : State) (r : Record) :
    s.movingHolds r = true ↔ r.kind = .write ∧ ∃ t, r.logicalTrack = some t ∧ s.movingWrite r.drive (homeOf t) = true := by
  unfold State.movingHolds
  cases r.logicalTrack <;> simp

theorem eligible_eq_false_iff (s : State) (r : Record) :
    s.eligible r = false ↔ s.reportHolds r = true ∨ s.movingHolds r = true := by
  cases h : s.reportHolds r <;> simp [State.eligible, h]

/-! ### The choice and its effects (R74, R75, R82) -/

theorem chooseFor_of_pick {s : State} {d : DriveId} {r : Record} (hs : (s.drive d).state = .ready)
    (ha : (s.drive d).active = none) (hp : s.pick ((s.queue d).filter s.eligible) = some r) :
    s.chooseFor d = s.commitChoice d ((s.queue d).filter s.eligible) r := by
  simp [State.chooseFor, hs, ha, hp]

/-- A record after a choice, with the records judged with it named by their list. -/
theorem afterChoice_map_pos (chosen : Nat) (l : List Record) (x : Record) :
    Record.afterChoice chosen (l.map fun y => y.pos) x =
      if x.pos = chosen then { x with state := .seeking }
      else if ∃ y ∈ l, y.pos = x.pos then { x with bypass := min (x.bypass + 1) 15 }
      else x := by
  have judged : ((l.map fun y => y.pos).contains x.pos = true) ↔ ∃ y ∈ l, y.pos = x.pos := by simp
  simp only [Record.afterChoice, judged, beq_iff_eq, satSucc, Config.bypassLimit]

theorem records_commitChoice (s : State) (d : DriveId) (l : List Record) (r : Record) :
    (s.commitChoice d l r).records = s.records.map (Record.afterChoice r.pos (l.map fun y => y.pos)) := rfl

theorem sweep_commitChoice {s : State} {d : DriveId} {c0 : Nat} (hc : (s.drive d).cyl = some c0) (l : List Record)
    (r : Record) : ((s.commitChoice d l r).drive d).sweep = sweepAfter (s.drive d).sweep c0 (s.targetOf r).1.cyl := by
  have start : ((s.drive d).cyl.getD 0) = c0 := by rw [hc, Option.getD_some]
  unfold State.commitChoice
  rw [drive_modDrive_same, ← start]
  rfl

theorem sweepAfter_of_lt {c0 c : Nat} (h : c0 < c) (sw : Sweep) : sweepAfter sw c0 c = .inward := if_pos h

theorem sweepAfter_of_gt {c0 c : Nat} (h : c < c0) (sw : Sweep) : sweepAfter sw c0 c = .outward := by
  simp [sweepAfter, h, Nat.not_lt.2 (Nat.le_of_lt h)]

theorem sweepAfter_self (sw : Sweep) (c : Nat) : sweepAfter sw c c = sw := by simp [sweepAfter]

/-- Settles O58: the choice is the least of the overdue records by position, or of all by cost and position; a commit
writes the records and the sweep by one rule each. -/
theorem choiceAmongEligible : Obligations.ChoiceAmongEligible := by
  refine ⟨fun s l => ⟨pick_eq_none s l, fun r h => h ▸ pick_single s r, fun _ => pick_congr,
      fun r h => ⟨mem_of_pick h, pick_first_overdue h, pick_cheapest h⟩⟩,
    fun _ _ _ => chooseFor_of_pick, fun s r => ?_, fun s d l r c0 hc => ?_⟩
  · rw [eligible_eq_false_iff, reportHolds_iff, movingHolds_iff]
    simp only [movingWrite_iff, exists_and_left]
  · intro c t
    have sweep : (t.drive d).sweep = sweepAfter (s.drive d).sweep c0 c := sweep_commitChoice hc l r
    refine ⟨?_, fun h => sweep.trans (sweepAfter_of_lt h _), fun h => sweep.trans (sweepAfter_of_gt h _), fun h => ?_⟩
    · rw [records_commitChoice]
      exact List.map_congr_left fun x _ => afterChoice_map_pos r.pos l x
    · rw [sweep, h, sweepAfter_self]

end Sys2Proof.Machine

namespace Sys2Proof.Machine

/-! ### Ident confirmation (R89, R90) -/

/-- A confirmation taken at its boundary: by the match, and of a mismatch by the phase. -/
theorem confirmed_at_boundary {s : State} {d : DriveId} {k : Nat} (ident : Option RawIdent)
    (hc : (s.drive d).confirm = some k) (hr : (s.drive d).rpc = 4 * k + 1) :
    ((s.drive d).identMatches k ident = true →
        s.confirmed d ident = (s.modDrive d fun D => { D with readGate := false }).headReady d)
      ∧ ((s.drive d).identMatches k ident = false →
          ((s.drive d).phase = .confirm → s.confirmed d ident = s.modDrive d Drive.recalibrate)
            ∧ ((s.drive d).phase = .reconfirm → s.confirmed d ident = s.faultDrive d)) := by
  refine ⟨fun hm => ?_, fun hm => ⟨fun hp => ?_, fun hp => ?_⟩⟩
  · simp [State.confirmed, hc, hr, hm]
  · simp [State.confirmed, hc, hr, hm, hp]
  · simp [State.confirmed, hc, hr, hm, hp]

/-- Settles O45: a match is head ready by definition; of a mismatch the end of the event keeps what the recalibrate or the
fault did to the drive. -/
theorem identConfirmation : Obligations.IdentConfirmation := by
  intro s d k ident hc hr
  obtain ⟨matched, mismatched⟩ := confirmed_at_boundary ident hc hr
  refine ⟨fun hm => exec_of_effect (matched hm), fun hm hp => ?_, fun hm hp hf => ?_⟩
  · have field {α : Type} (g : Drive → α) (hg : ∀ D : Drive, g D.kept = g D := by exact fun _ => rfl) :
        g ((s.modDrive d Drive.recalibrate).settle.drive d) = g (s.drive d).recalibrate := by
      rw [(keeps_settle _).field g d hg, drive_modDrive_same]
    exact ⟨_, exec_of_effect ((mismatched hm).1 hp), field Drive.arm, field Drive.seekTimer, field Drive.state⟩
  · exact ⟨_, exec_of_effect ((mismatched hm).2 hp), field_faultDrive hf Drive.state⟩

/-! ### A missed claim (R94) -/

theorem missClaim_of_due {s : State} {d : DriveId} {c : Claim} (hc : s.claimOf d = some c)
    (hd : c.due = .slot (s.drive d).rpc) :
    s.missClaim d = ((s.dropClaim c.request).missRevolution c.request).returnToQueue c.request := by
  simp [State.missClaim, hc, hd]

theorem missClaim_of_no_claim {s : State} {d : DriveId} (h : s.claimOf d = none) : s.missClaim d = s := by
  simp [State.missClaim, h]

/-- Settles O46: with the claim at its due slot the miss is its three operations, with no claim it is nothing. -/
theorem claimMiss : Obligations.ClaimMiss :=
  ⟨fun _ _ _ hc hd => exec_of_effect (missClaim_of_due hc hd), fun _ _ h => exec_of_effect (missClaim_of_no_claim h)⟩

end Sys2Proof.Machine

namespace Sys2Proof.Machine

/-! ### The source order (R103, Table 6-1) -/

/-- A choice by a bit of the priority code is a choice by its digit. -/
theorem ite_codeBit {α : Type} {code n digit : Nat} (h : code / 2 ^ n % 2 = digit) (x y : α) :
    (if codeBit code n then x else y) = if digit = 0 then y else x := by
  rcases Nat.mod_two_eq_zero_or_one (code / 2 ^ n) with bit | bit <;> simp [codeBit, ← h, bit]

theorem sourceOrder_table {code : Nat} (h : code < 16) : sourceOrder code =
    let ab : List Source := if code / 2 % 2 = 0 then [.port .a, .port .b] else [.port .b, .port .a]
    let cd : List Source := if code / 4 % 2 = 0 then [.port .c, .port .d] else [.port .d, .port .c]
    let ports := if code % 2 = 0 then ab ++ cd else cd ++ ab
    if code / 8 = 0 then ports ++ [.relocation] else .relocation :: ports := by
  have first : code / 2 ^ 0 % 2 = code % 2 := by rw [Nat.pow_zero, Nat.div_one]
  have second : code / 2 ^ 1 % 2 = code / 2 % 2 := rfl
  have third : code / 2 ^ 2 % 2 = code / 4 % 2 := rfl
  have last : code / 2 ^ 3 % 2 = code / 8 := Nat.mod_eq_of_lt (by omega)
  simp only [sourceOrder, ite_codeBit first, ite_codeBit second, ite_codeBit third, ite_codeBit last]

theorem mem_ite_bool {α : Type} (b : Bool) (a : α) (l m : List α) :
    a ∈ (if b then l else m) ↔ if b then a ∈ l else a ∈ m := by
  cases b <;> exact Iff.rfl

/-- Every source has its place in every order. -/
theorem mem_sourceOrder (src : Source) (code : Nat) : src ∈ sourceOrder code := by
  cases src with
  | relocation => simp [sourceOrder, mem_ite_bool]
  | port p => cases p <;> simp [sourceOrder, mem_ite_bool]

/-! ### The first of a list by its key -/

section
variable {α β : Type} [DecidableEq β] {key : α → β} {l : List α} {keys : List β}

theorem firstByKey_eq_none : firstByKey (fun b a => key a == b) l keys = none ↔ ∀ x ∈ l, key x ∉ keys := by
  induction keys with
  | nil => simp [firstByKey]
  | cons b keys ih =>
    cases found : l.find? fun a => key a == b with
    | some a =>
      have mem : a ∈ l := List.mem_of_find?_eq_some found
      have here : key a = b := by simpa using List.find?_some found
      simp only [firstByKey, found, reduceCtorEq, false_iff]
      exact fun away => away a mem (here ▸ List.mem_cons_self)
    | none =>
      have away : ∀ x ∈ l, key x ≠ b := by simpa using found
      simp only [firstByKey, found, ih, List.mem_cons, not_or]
      exact ⟨fun h x hx => ⟨away x hx, h x hx⟩, fun h x hx => (h x hx).2⟩

variable [DecidableEq α]

theorem idxOf_cons_of_ne {a b : α} (h : b ≠ a) (l : List α) : (b :: l).idxOf a = l.idxOf a + 1 := by
  rw [List.idxOf_cons, beq_false_of_ne h, cond_false]

theorem idxOf_find?_le {p : α → Bool} {a : α} (h : l.find? p = some a) : ∀ x ∈ l, p x = true → l.idxOf a ≤ l.idxOf x := by
  induction l with
  | nil => cases h
  | cons y l ih =>
    intro x hx hp
    by_cases hy : p y = true
    · rw [List.find?_cons_of_pos hy] at h
      cases h
      rw [List.idxOf_cons_self]
      exact Nat.zero_le _
    · rw [List.find?_cons_of_neg hy] at h
      have ha : y ≠ a := fun e => hy (e ▸ List.find?_some h)
      have hxy : y ≠ x := fun e => hy (e ▸ hp)
      rw [idxOf_cons_of_ne ha, idxOf_cons_of_ne hxy]
      exact Nat.succ_le_succ (ih h x ((List.mem_cons.1 hx).resolve_left hxy.symm) hp)

/-- The first by its key is of the list, and each other stands behind it: by its key, or in the list with the same key. -/
theorem firstByKey_spec {a : α} (h : firstByKey (fun b a => key a == b) l keys = some a) :
    a ∈ l ∧ key a ∈ keys ∧ ∀ x ∈ l, keys.idxOf (key a) < keys.idxOf (key x)
      ∨ (key a = key x ∧ l.idxOf a ≤ l.idxOf x) := by
  induction keys with
  | nil => cases h
  | cons b keys ih =>
    unfold firstByKey at h
    split at h
    case h_1 _ found =>
      cases h
      have here : key a = b := by simpa using List.find?_some found
      refine ⟨List.mem_of_find?_eq_some found, here ▸ List.mem_cons_self, fun x hx => ?_⟩
      by_cases hk : key x = b
      · exact .inr ⟨here.trans hk.symm, idxOf_find?_le found x hx (by simpa using hk)⟩
      · rw [here, List.idxOf_cons_self, idxOf_cons_of_ne (Ne.symm hk)]
        exact .inl (Nat.succ_pos _)
    case h_2 found =>
      have away : ∀ x ∈ l, b ≠ key x := fun x hx e => by simpa [e] using List.find?_eq_none.1 found x hx
      obtain ⟨mem, known, first⟩ := ih h
      refine ⟨mem, List.mem_cons_of_mem b known, fun x hx => ?_⟩
      rw [idxOf_cons_of_ne (away a mem), idxOf_cons_of_ne (away x hx)]
      exact (first x hx).imp_left Nat.succ_lt_succ

end

/-! ### The claim that ranks first (R102) -/

theorem bestClaim_of_overdue {s : State} (h : ∃ x ∈ s.claims, x.request ∈ s.overdue) :
    s.bestClaim = firstByKey (fun pos (c : Claim) => c.request == pos) s.claims s.overdue := by
  unfold State.bestClaim
  split
  · rename_i c found
    exact found.symm
  · rename_i found
    obtain ⟨x, hx, due⟩ := h
    exact absurd due (firstByKey_eq_none.1 found x hx)

theorem bestClaim_of_none_overdue {s : State} (h : ∀ x ∈ s.claims, x.request ∉ s.overdue) :
    s.bestClaim = firstByKey (fun src (c : Claim) => c.source == src) s.claims (sourceOrder s.params.priority) := by
  simp only [State.bestClaim, firstByKey_eq_none.2 h]

theorem bestClaim_eq_none (s : State) : s.bestClaim = none ↔ s.claims = [] := by
  refine ⟨fun h => List.eq_nil_iff_forall_not_mem.2 fun c hc => ?_, fun h => ?_⟩
  · by_cases due : ∃ x ∈ s.claims, x.request ∈ s.overdue
    · rw [bestClaim_of_overdue due] at h
      obtain ⟨x, hx, hd⟩ := due
      exact firstByKey_eq_none.1 h x hx hd
    · rw [bestClaim_of_none_overdue fun x hx hd => due ⟨x, hx, hd⟩] at h
      exact firstByKey_eq_none.1 h c hc (mem_sourceOrder _ _)
  · have empty : ∀ x ∈ s.claims, x.request ∉ s.overdue := by simp [h]
    rw [bestClaim_of_none_overdue empty, firstByKey_eq_none, h]
    exact fun x hx => nomatch hx

/-- With a claim of an overdue record waiting, the best claim is of the earliest record in the overdue order. -/
theorem bestClaim_earliest_overdue {s : State} {c : Claim} (h : s.bestClaim = some c)
    (due : ∃ x ∈ s.claims, x.request ∈ s.overdue) :
    c ∈ s.claims ∧ c.request ∈ s.overdue ∧ ∀ x ∈ s.claims, s.overdue.idxOf c.request ≤ s.overdue.idxOf x.request := by
  rw [bestClaim_of_overdue due] at h
  obtain ⟨mem, overdue, first⟩ := firstByKey_spec h
  refine ⟨mem, overdue, fun x hx => ?_⟩
  rcases first x hx with lt | ⟨same, _⟩
  · exact Nat.le_of_lt lt
  · exact Nat.le_of_eq (congrArg s.overdue.idxOf same)

/-- With none, it is of the first source in the order, of one source the earliest to arrive. -/
theorem bestClaim_first_source {s : State} {c : Claim} (h : s.bestClaim = some c)
    (young : ∀ x ∈ s.claims, x.request ∉ s.overdue) :
    c ∈ s.claims ∧ ∀ x ∈ s.claims,
      (sourceOrder s.params.priority).idxOf c.source < (sourceOrder s.params.priority).idxOf x.source
        ∨ (c.source = x.source ∧ s.claims.idxOf c ≤ s.claims.idxOf x) := by
  rw [bestClaim_of_none_overdue young] at h
  obtain ⟨mem, _, first⟩ := firstByKey_spec h
  exact ⟨mem, first⟩

theorem mem_of_bestClaim {s : State} {c : Claim} (h : s.bestClaim = some c) : c ∈ s.claims := by
  by_cases due : ∃ x ∈ s.claims, x.request ∈ s.overdue
  · exact (bestClaim_earliest_overdue h due).1
  · exact (bestClaim_first_source h fun x hx hd => due ⟨x, hx, hd⟩).1

/-! ### Free paths and grants (R96, R100, R101) -/

theorem freePath_eq (s : State) : s.freePath =
    if (s.path 0).holder = none then some 0 else if (s.path 1).holder = none then some 1 else none := by
  cases h0 : (s.path 0).holder <;> cases h1 : (s.path 1).holder <;> simp [State.freePath, allPaths, h0, h1]

theorem freePath_congr {s t : State} (h : t.paths = s.paths) : t.freePath = s.freePath := by
  unfold State.freePath State.path
  rw [h]

/-- The state as a grant leaves it before the path begins its service: the claim and the overdue entry gone, the record
TRANSFERRING with its count at 0, its drive with no due point, the path its own. -/
def State.granted (s : State) (k : PathId) (c : Claim) (r : Record) : State :=
  let t := { s.dropClaim c.request with overdue := s.overdue.filter fun x => x != r.pos }
  ((t.modRequest r.pos fun x => { x with state := .transferring, missedRev := 0 }).modDrive r.drive
    fun D => { D with due := none }).modPath k fun _ => grantedPath r c.due (s.drive r.drive).rpc

theorem grant_of_request {s : State} {c : Claim} {r : Record} (k : PathId) (h : s.request? c.request = some r) :
    s.grant k c = (s.granted k c r).beginService k r := by
  have kept : (s.dropClaim c.request).request? c.request = some r := h
  simp only [State.grant, kept]
  rfl

theorem grant_of_no_request {s : State} {c : Claim} (k : PathId) (h : s.request? c.request = none) :
    s.grant k c = s.dropClaim c.request := by
  have kept : (s.dropClaim c.request).request? c.request = none := h
  simp only [State.grant, kept]

theorem path_granted (s : State) (k : PathId) (c : Claim) (r : Record) :
    (s.granted k c r).path k = grantedPath r c.due (s.drive r.drive).rpc := path_modPath_same _ k _

theorem drive_granted (s : State) (k : PathId) (c : Claim) (r : Record) : ((s.granted k c r).drive r.drive).due = none := by
  simp [State.granted]

theorem request?_granted {s : State} {r : Record} (k : PathId) (c : Claim) (h : s.request? r.pos = some r) :
    (s.granted k c r).request? r.pos = some { r with state := .transferring, missedRev := 0 } :=
  request?_modRequest (s := { s.dropClaim c.request with overdue := s.overdue.filter fun x => x != r.pos }) _
    (fun _ => rfl) h

/-- A grant makes no claim, and its own is gone. -/
theorem claims_grant_sublist (s : State) (k : PathId) (c : Claim) :
    (s.grant k c).claims.Sublist (s.claims.filter fun x => x.request != c.request) := by
  cases h : s.request? c.request with
  | none => rw [grant_of_no_request k h]; exact .refl _
  | some r => rw [grant_of_request k h]; exact (keeps_beginService (s.granted k c r) k r).claims

theorem length_claims_grant_lt {s : State} {c : Claim} (k : PathId) (h : c ∈ s.claims) :
    (s.grant k c).claims.length < s.claims.length := by
  refine Nat.lt_of_le_of_lt (claims_grant_sublist s k c).length_le ?_
  exact List.length_filter_lt_length_iff_exists.2 ⟨c, h, by simp⟩

/-! ### The arbiter (R100) -/

/-- The arbiter has no more to do: no path is FREE, or no claim waits. -/
def State.arbitrated (s : State) : Prop := s.freePath = none ∨ s.claims = []

theorem State.arbitrated.of_sublist {s t : State} (h : s.arbitrated) (hp : t.paths = s.paths)
    (hc : t.claims.Sublist s.claims) : t.arbitrated := by
  refine h.imp (fun held => (freePath_congr hp).trans held) fun empty => ?_
  rw [empty] at hc
  exact List.sublist_nil.1 hc

theorem grantLoop_succ {n : Nat} {s : State} {k : PathId} {c : Claim} (hk : s.freePath = some k)
    (hc : s.bestClaim = some c) : State.grantLoop (n + 1) s = State.grantLoop n (s.grant k c) := by
  simp only [State.grantLoop, hk, hc]

theorem grantLoop_of_arbitrated {s : State} (n : Nat) (h : s.arbitrated) : State.grantLoop n s = s := by
  cases n with
  | zero => rfl
  | succ n =>
    rcases h with held | empty
    · simp only [State.grantLoop, held]
    · cases hk : s.freePath <;> simp only [State.grantLoop, hk, (bestClaim_eq_none s).2 empty]

/-- As every grant takes a claim, grants no fewer than the claims leave nothing to grant. -/
theorem grantLoop_arbitrated {n : Nat} {s : State} (h : s.claims.length ≤ n) : (State.grantLoop n s).arbitrated := by
  induction n generalizing s with
  | zero => exact .inr (List.length_eq_zero_iff.1 (Nat.le_zero.1 h))
  | succ n ih =>
    cases hk : s.freePath with
    | none => rw [grantLoop_of_arbitrated _ (.inl hk)]; exact .inl hk
    | some k =>
      cases hc : s.bestClaim with
      | none =>
        have empty := (bestClaim_eq_none s).1 hc
        rw [grantLoop_of_arbitrated _ (.inr empty)]
        exact .inr empty
      | some c =>
        rw [grantLoop_succ hk hc]
        exact ih (Nat.le_of_lt_succ (Nat.lt_of_lt_of_le (length_claims_grant_lt k (mem_of_bestClaim hc)) h))

theorem arbitrate_arbitrated (s : State) : s.arbitrate.arbitrated := grantLoop_arbitrated (Nat.le_refl _)

theorem arbitrate_of_grant {s : State} {k : PathId} {c : Claim} (hk : s.freePath = some k) (hc : s.bestClaim = some c) :
    s.arbitrate = State.grantLoop (s.claims.length - 1) (s.grant k c) := by
  have one : s.claims.length = s.claims.length - 1 + 1 :=
    (Nat.succ_pred_eq_of_pos (List.length_pos_of_mem (mem_of_bestClaim hc))).symm
  calc
    s.arbitrate = State.grantLoop (s.claims.length - 1 + 1) s := congrArg (State.grantLoop · s) one
    _ = State.grantLoop (s.claims.length - 1) (s.grant k c) := grantLoop_succ hk hc

/-- What comes after the arbiter frees no path and makes no claim. -/
theorem settle_arbitrated (s : State) : s.settle.arbitrated := by
  have after : Keeps s.settlePaths s.settle :=
    ((keeps_settleUnit _).trans (keeps_settleChoices _)).trans (keeps_offerAll _)
  exact (arbitrate_arbitrated _).of_sublist (paths_settle s) after.claims

/-! A namespace of its own, because `sourceOrder` is the name of the model's function. -/

namespace PathArbiter

/-- Settles O60: the order by the digits of its code, the best claim as the first by overdue order or source, the grant by
its fields, and the arbiter by the claims it has left. -/
theorem sourceOrder : Obligations.SourceOrder := by
  refine ⟨fun _ => sourceOrder_table, rfl, freePath_eq, fun s => ⟨bestClaim_eq_none s, fun c h => ⟨mem_of_bestClaim h, ?_,
    fun young => (bestClaim_first_source h young).2⟩⟩, fun s k c r h => ?_, fun _ _ _ => arbitrate_of_grant,
    arbitrate_arbitrated, fun c s t h => ?_, fun _ => rfl⟩
  · intro due
    obtain ⟨_, overdue, earliest⟩ := bestClaim_earliest_overdue h due
    exact ⟨overdue, fun x hx _ => earliest x hx⟩
  · have hr : r.pos = c.request := by simpa using List.find?_some h
    exact ⟨s.granted k c r, grant_of_request k h, path_granted s k c r, rfl, rfl, request?_granted k c (hr ▸ h),
      drive_granted s k c r⟩
  · rw [eq_of_exec h]
    exact settle_arbitrated _

end PathArbiter

end Sys2Proof.Machine

namespace Sys2Proof.Machine

/-! ### The reconnect window (R113, R121) -/

section

variable {s : State} {k : PathId} {pos n : Nat} {r : Record}

theorem windowExpired_early (holder : (s.path k).holder = some pos) (window : (s.path k).window = some n) (early : n < 128) :
    s.windowExpired k = s := by
  simp [State.windowExpired, holder, window, Config.windowLimit, early]

/-- Request r holds path k, which asks for reconnection with its window run out (R121). -/
structure State.WindowOver (s : State) (k : PathId) (r : Record) (n : Nat) : Prop where
  holder : (s.path k).holder = some r.pos
  window : (s.path k).window = some n
  conn : (s.path k).conn = .asking
  found : s.request? r.pos = some r
  expired : 128 ≤ n

/-- The state with one more missed reconnect counted for the request at a position. -/
def State.missReconnect (s : State) (pos missed : Nat) : State :=
  s.modRequest pos fun x => { x with missedReconnect := missed }

/-- What an ending says whose cause is the third missed reconnect (R121). -/
def State.unresponsiveInfo (s : State) (k : PathId) (r : Record) : EndInfo :=
  s.infoFor { r with missedReconnect := 3 } .portUnresponsive r.done r.done 0
    ((s.path k).servingOf r.done (trackOf (r.addressAt r.done)))

theorem windowExpired_held {h : Held} (w : s.WindowOver k r n) (ending : (s.path k).ending = some h) :
    s.windowExpired k = s.endRequest r.pos (s.infoHeld r h) := by
  obtain ⟨holder, window, conn, found, expired⟩ := w
  simp [State.windowExpired, holder, window, conn, found, Config.windowLimit, Nat.not_lt.2 expired, ending]

theorem windowExpired_missed (w : s.WindowOver k r n) (ending : (s.path k).ending = none) (few : r.missedReconnect < 2) :
    s.windowExpired k = (s.missReconnect r.pos (r.missedReconnect + 1)).releaseAndReturn k := by
  obtain ⟨holder, window, conn, found, expired⟩ := w
  have missed : satSucc Config.missedReconnectLimit r.missedReconnect = r.missedReconnect + 1 :=
    Nat.min_eq_left (Nat.le_succ_of_le few)
  have below : r.missedReconnect + 1 < Config.missedReconnectLimit := Nat.succ_lt_succ few
  simp only [State.windowExpired, holder, window, conn, found, Config.windowLimit, Nat.not_lt.2 expired, ending, missed,
    below, if_true]
  rfl

theorem windowExpired_third (w : s.WindowOver k r n) (ending : (s.path k).ending = none) (third : r.missedReconnect = 2) :
    s.windowExpired k = (s.missReconnect r.pos 3).endRequest r.pos (s.unresponsiveInfo k r) := by
  obtain ⟨holder, window, conn, found, expired⟩ := w
  have missed : satSucc Config.missedReconnectLimit r.missedReconnect = 3 := by rw [third]; rfl
  simp only [State.windowExpired, holder, window, conn, found, Config.windowLimit, Nat.not_lt.2 expired, ending, missed]
  rfl

end

/-- Settles O38: by the slots run, then by the held cause, then by the missed reconnects counted. -/
theorem reconnectWindowExpiry : Obligations.ReconnectWindowExpiry := by
  intro s k pos n r holder window conn found
  obtain rfl : r.pos = pos := by simpa using List.find?_some found
  have expired (h : 128 ≤ n) : s.WindowOver k r n := ⟨holder, window, conn, found, h⟩
  refine ⟨fun early => exec_of_effect (windowExpired_early holder window early),
    fun h late ending => exec_of_effect (windowExpired_held (expired late) ending),
    fun late ending few => exec_of_effect (windowExpired_missed (expired late) ending few),
    fun late ending third => ⟨s.unresponsiveInfo k r, rfl, rfl, ?_⟩⟩
  exact exec_of_effect (windowExpired_third (expired late) ending third)

end Sys2Proof.Machine

namespace Sys2Proof.Machine

/-! ### The end of a sector's write (R117, R118) -/

/-- The state at the end of the write of image i: its bytes out of the FIFO, the gates closed, its sector out of the
lost-sector set, the relocation unit with notice (R117). -/
def State.sectorWritten (s : State) (k : PathId) (d : DriveId) (i : Image) (rest : List Image) : State :=
  (((s.modPath k fun P => { P with fifo := rest }).closeGates d).clearLost d i.serving i.sector).notice d i.home

theorem clearLost_same (s : State) (d : DriveId) (t : Track) (n : Nat) :
    (s.clearLost d t n).ports = s.ports ∧ (s.clearLost d t n).paths = s.paths
      ∧ (s.clearLost d t n).records = s.records := by
  unfold State.clearLost
  split <;> exact ⟨rfl, rfl, rfl⟩

theorem active_clearLost (s : State) (d e : DriveId) (t : Track) (n : Nat) :
    ((s.clearLost d t n).drive e).active = (s.drive e).active := by
  unfold State.clearLost
  split
  · rfl
  · unfold State.modEntry
    rw [drive_modDrive]
    split <;> simp_all

theorem notice_same (s : State) (d : DriveId) (home : Track) :
    (s.notice d home).ports = s.ports ∧ (s.notice d home).paths = s.paths ∧ (s.notice d home).records = s.records
      ∧ (s.notice d home).drives = s.drives := by
  unfold State.notice
  split <;> exact ⟨rfl, rfl, rfl, rfl⟩

theorem sectorWritten_same (s : State) (k : PathId) (d : DriveId) (i : Image) (rest : List Image) :
    (s.sectorWritten k d i rest).ports = s.ports ∧ (s.sectorWritten k d i rest).records = s.records
      ∧ (s.sectorWritten k d i rest).path k = { s.path k with fifo := rest }
      ∧ ((s.sectorWritten k d i rest).drive d).active = (s.drive d).active := by
  unfold State.sectorWritten
  generalize hu : (s.modPath k fun P => { P with fifo := rest }).closeGates d = u
  obtain ⟨ports, paths, records⟩ := clearLost_same u d i.serving i.sector
  obtain ⟨ports', paths', records', drives'⟩ := notice_same (u.clearLost d i.serving i.sector) d i.home
  refine ⟨by rw [ports', ports, ← hu]; rfl, by rw [records', records, ← hu]; rfl, ?_, ?_⟩
  · rw [path_congr paths', path_congr paths, ← hu]
    simp [State.closeGates]
  · rw [State.drive, drives', ← State.drive, active_clearLost, ← hu]
    simp [State.closeGates]

/-- The request that holds the path leaves its drive, at the end of its last sector (R118). -/
def State.leaveAfterParity (s : State) (k : PathId) (d : DriveId) : State :=
  { s.modDrive d fun D => if D.active == (s.path k).holder then { D.clearPositioning with active := none } else D with
    overdue := s.overdue.filter fun x => some x != (s.path k).holder }

/-- The path's part in the end of a WRITE that has ended: a status in presentation parts from it, and it is released. -/
def State.partAndRelease (s : State) (k : PathId) : Option PortId → State
  | some p => (s.modPort p fun Q => Q.part k).releasePath k
  | none => s.releasePath k

theorem finishParity_eq (s : State) (k : PathId) (d : DriveId) :
    s.finishParity k d = (s.leaveAfterParity k d).partAndRelease k (s.path k).port := by
  unfold State.finishParity
  dsimp only
  cases (s.path k).port <;> rfl

theorem path_partAndRelease (s : State) (k : PathId) (p : Option PortId) : (s.partAndRelease k p).path k = Path.free := by
  cases p <;> exact (path_releasePath _ k k).trans (if_pos rfl)

theorem active_closeGates? (s : State) (c : Option DriveId) (d : DriveId) :
    ((s.closeGates? c).drive d).active = (s.drive d).active := by
  cases c with
  | none => rfl
  | some e =>
    unfold State.closeGates? State.closeGates
    rw [drive_modDrive]
    split <;> simp_all

theorem drive_disconnect (s : State) (k : PathId) (d : DriveId) : (s.disconnect k).drive d = s.drive d := by
  unfold State.disconnect
  split
  · rfl
  · split <;> rfl

theorem drive_withdrawAsk (s : State) (k : PathId) (d : DriveId) : (s.withdrawAsk k).drive d = s.drive d := by
  unfold State.withdrawAsk
  split <;> rfl

theorem active_releasePath (s : State) (k : PathId) (d : DriveId) :
    ((s.releasePath k).drive d).active = (s.drive d).active := by
  unfold State.releasePath
  rw [drive_modPath, active_closeGates?, drive_withdrawAsk, drive_disconnect]
  split <;> rfl

theorem active_partAndRelease (s : State) (k : PathId) (p : Option PortId) (d : DriveId) :
    ((s.partAndRelease k p).drive d).active = (s.drive d).active := by
  cases p <;> exact active_releasePath _ k d

/-- The path and the drive of a WRITE that has ended are free at the end of its last sector (R118). -/
theorem finishParity_frees {s : State} {k : PathId} {d : DriveId} (h : (s.drive d).active = (s.path k).holder) :
    (s.finishParity k d).path k = Path.free ∧ ((s.finishParity k d).drive d).active = none := by
  rw [finishParity_eq]
  refine ⟨path_partAndRelease _ _ _, ?_⟩
  rw [active_partAndRelease]
  show ((s.modDrive d _).drive d).active = none
  rw [drive_modDrive_same, if_pos (beq_iff_eq.2 h)]

/-- A status in presentation goes on in the port alone when the path is released (R118; log 11). -/
theorem finishParity_parts {s : State} {k : PathId} {p : PortId} {e : StatusEntry} (d : DriveId)
    (port : (s.path k).port = some p) (presents : (s.port p).state = .connected (.data k (some e))) :
    ((s.finishParity k d).port p).state = .connected (.parting e)
      ∧ ((s.finishParity k d).port p).sending = (s.port p).sending := by
  rw [finishParity_eq, port]
  generalize hu : (s.leaveAfterParity k d).modPort p (fun Q => Q.part k) = u
  have parted : u.port p = { s.port p with state := .connected (.parting e) } := by
    rw [← hu, port_modPort_same]
    show (s.port p).part k = _
    simp [Port.part, presents]
  have calm := (keeps_releasePath u k).calm p (by simp [Port.dataConn, parted])
  rw [parted] at calm
  subst hu
  exact calm

/-! ### The event -/

section

variable {s : State} {d : DriveId} {k : PathId} {i : Image} {rest : List Image} {r : Record}

/-- Path k is attached to drive d and writes image i, the oldest of its FIFO, for request r. -/
structure State.WritesSector (s : State) (d : DriveId) (k : PathId) (i : Image) (rest : List Image) (r : Record) : Prop where
  attached : s.pathOnDrive d = some k
  fifo : (s.path k).fifo = i :: rest
  holder : (s.path k).holder = some r.pos
  found : s.request? r.pos = some r
  writing : i.cond = .writing

theorem writeSectorEnd_off_boundary (w : s.WritesSector d k i rest r) (off : (s.drive d).rpc ≠ (4 * i.sector + 4) % 64) :
    s.writeSectorEnd d = s := by
  obtain ⟨attached, fifo, holder, found, writing⟩ := w
  simp [State.writeSectorEnd, attached, fifo, holder, writing, Config.slots, off]

theorem request?_sectorWritten (w : s.WritesSector d k i rest r) : (s.sectorWritten k d i rest).request? r.pos = some r := by
  obtain ⟨_, records, _⟩ := sectorWritten_same s k d i rest
  unfold State.request?
  rw [records]
  exact w.found

theorem writeSectorEnd_at_boundary (w : s.WritesSector d k i rest r) (here : (s.drive d).rpc = (4 * i.sector + 4) % 64) :
    s.writeSectorEnd d = if r.ended then (s.sectorWritten k d i rest).finishParity k d
      else ((s.sectorWritten k d i rest).modRequest r.pos Record.transferOne).afterWrite k d r.transferOne := by
  have found := request?_sectorWritten w
  obtain ⟨attached, fifo, holder, _, writing⟩ := w
  unfold State.sectorWritten at found ⊢
  simp [State.writeSectorEnd, attached, fifo, holder, writing, Config.slots, here, found]

end

/-- Settles O48: off the boundary nothing, on it by whether the request has ended; the work of the sector's end itself
touches neither the holder and the port of the path nor the drive's request in progress. -/
theorem sectorWriteComplete : Obligations.SectorWriteComplete := by
  intro s d k i rest r attached fifo holder found writing u
  have w : s.WritesSector d k i rest r := ⟨attached, fifo, holder, found, writing⟩
  obtain ⟨ports, _, path, active⟩ := sectorWritten_same s k d i rest
  refine ⟨fun off => exec_of_effect (writeSectorEnd_off_boundary w off), fun here going => exec_of_effect ?_,
    fun here ended => ⟨exec_of_effect ?_, ?_, fun ha => ?_, fun p e port presents => ?_⟩⟩
  · exact (writeSectorEnd_at_boundary w here).trans (by rw [if_neg (by simp [going])]; rfl)
  · exact (writeSectorEnd_at_boundary w here).trans (if_pos ended)
  · rw [finishParity_eq]
    exact path_partAndRelease _ _ _
  · have held : (u.path k).holder = some r.pos := (congrArg Path.holder path).trans holder
    exact (finishParity_frees (active.trans (ha.trans held.symm))).2
  · have same : u.port p = s.port p := port_congr ports p
    have parted := finishParity_parts (s := u) d ((congrArg Path.port path).trans port) (same ▸ presents)
    rwa [same] at parted

end Sys2Proof.Machine

namespace Sys2Proof.Machine

/-! ### Recorded outcomes (R149 to R151, R159) -/

/-- The judgement of a track touches its drive and the work list alone. -/
theorem judgeTrack_same (s : State) (d : DriveId) (t : Track) :
    (s.judgeTrack d t).ports = s.ports ∧ (s.judgeTrack d t).paths = s.paths
      ∧ (s.judgeTrack d t).records = s.records := by
  have work (u : State) (x : EntryRef) :
      (u.appendWork x).ports = u.ports ∧ (u.appendWork x).paths = u.paths ∧ (u.appendWork x).records = u.records := by
    unfold State.appendWork
    split <;> exact ⟨rfl, rfl, rfl⟩
  unfold State.judgeTrack
  dsimp only
  split
  · split
    · exact work _ _
    · exact ⟨rfl, rfl, rfl⟩
  · split
    · exact ⟨rfl, rfl, rfl⟩
    · split
      · exact work _ _
      · exact ⟨rfl, rfl, rfl⟩

/-- A recording leaves ports and paths, and of the request it changes the snapshot alone. -/
theorem recordOutcome_same (s : State) (pos : Nat) (d : DriveId) (t : Track) (c : OutcomeKind) :
    (s.recordOutcome pos d t c).ports = s.ports ∧ (s.recordOutcome pos d t c).paths = s.paths
      ∧ ∃ x, (s.recordOutcome pos d t c).records = (s.modRequest pos fun r => { r with snapshot := x }).records := by
  unfold State.recordOutcome
  dsimp only
  split
  · obtain ⟨ports, paths, records⟩ := judgeTrack_same _ d t
    exact ⟨ports, paths, _, records⟩
  · exact ⟨rfl, rfl, _, rfl⟩

theorem request?_congr {s t : State} (h : t.records = s.records) (pos : Nat) : t.request? pos = s.request? pos := by
  unfold State.request?
  rw [h]

theorem addressAt_of_sectorAt {r : Record} {ord x : Nat} {a : SectorAddr} (h : r.sectorAt ord = some (x, a)) :
    r.addressAt ord = a := by
  simp [Record.addressAt, h]

section

variable {r : Record} {ord : Nat} (s : State) (t : Track)

theorem recordOnce_soft_new (h : r.softTrack (logicalIndex (r.addressAt ord)) = none) :
    s.recordOnce r ord t .soft = (s.recordOutcome r.pos r.drive t .soft).modRequest r.pos fun y =>
      { y with recordedSectors := (logicalIndex (r.addressAt ord), t) :: y.recordedSectors } := by
  simp only [State.recordOnce, h]

theorem recordOnce_hard_new (h : r.softTrack (logicalIndex (r.addressAt ord)) = none) :
    s.recordOnce r ord t .hard = s.recordOutcome r.pos r.drive t .hard := by
  simp only [State.recordOnce, h]

theorem recordOnce_soft_again {before : Track} (h : r.softTrack (logicalIndex (r.addressAt ord)) = some before) :
    s.recordOnce r ord t .soft = s := by
  simp only [State.recordOnce, h]

theorem recordOnce_hard_again {before : Track} (h : r.softTrack (logicalIndex (r.addressAt ord)) = some before) :
    s.recordOnce r ord t .hard = State.recordOutcome (s.modDrive r.drive fun D =>
      { D with health := takeBackSoft before D.health }) r.pos r.drive t .hard := by
  simp only [State.recordOnce, h]

theorem recordOnce_soft_same :
    (s.recordOnce r ord t .soft).ports = s.ports ∧ (s.recordOnce r ord t .soft).paths = s.paths := by
  cases hs : r.softTrack (logicalIndex (r.addressAt ord)) with
  | some before =>
    rw [recordOnce_soft_again s t hs]
    exact ⟨rfl, rfl⟩
  | none =>
    obtain ⟨ports, paths, _⟩ := recordOutcome_same s r.pos r.drive t .soft
    rw [recordOnce_soft_new s t hs]
    exact ⟨ports, paths⟩

/-- Of the request, a soft recording changes what has been recorded for it and the snapshot alone. -/
theorem request?_recordOnce_soft {s : State} (h : s.request? r.pos = some r) :
    ∃ x l, (s.recordOnce r ord t .soft).request? r.pos = some { r with snapshot := x, recordedSectors := l } := by
  cases hs : r.softTrack (logicalIndex (r.addressAt ord)) with
  | some before => exact ⟨r.snapshot, r.recordedSectors, by rw [recordOnce_soft_again s t hs]; exact h⟩
  | none =>
    obtain ⟨_, _, x, records⟩ := recordOutcome_same s r.pos r.drive t .soft
    have found : (s.recordOutcome r.pos r.drive t .soft).request? r.pos = some { r with snapshot := x } :=
      (request?_congr records r.pos).trans (request?_modRequest _ (fun _ => rfl) h)
    rw [recordOnce_soft_new s t hs]
    exact ⟨x, (logicalIndex (r.addressAt ord), t) :: r.recordedSectors, request?_modRequest (fun y =>
      { y with recordedSectors := (logicalIndex (r.addressAt ord), t) :: y.recordedSectors }) (fun _ => rfl) found⟩

end

/-- A recording that does not bring its track to threshold changes the health list alone: its entry at the front. -/
theorem health_recordOutcome_below {s : State} {d : DriveId} {t : Track} {c : OutcomeKind} (pos : Nat)
    (below : (raisedEntry t c ((s.drive d).health.find? fun y => y.track == t)).reached s.params.softThreshold = false) :
    ((s.recordOutcome pos d t c).drive d).health
      = raisedEntry t c ((s.drive d).health.find? fun y => y.track == t) :: othersAfter t (s.drive d).health := by
  unfold State.recordOutcome
  dsimp only
  rw [if_neg (by simp [below])]
  simp

/-! ### Endings reached (R113, R119) -/

section

variable {s : State} {k : PathId} {r : Record} {p : PortId}

/-- The state of a READ that holds its cause: the images not COMPLETE dropped, its record TRANSFERRING (R113). -/
def State.causeHeld (s : State) (k : PathId) (r : Record) (h : Held) : State :=
  (s.modPath k fun P => { P with
    ending := some h, reading := none, ladder := none, fifo := P.fifo.filter fun i => i.cond == .complete }).modRequest r.pos
      fun x => { x with state := .transferring }

theorem path_causeHeld (s : State) (k : PathId) (r : Record) (h : Held) :
    (s.causeHeld k r h).path k = { s.path k with
      ending := some h, reading := none, ladder := none, fifo := (s.path k).fifo.filter fun i => i.cond == .complete } := by
  simp [State.causeHeld]

theorem holdEnding_of_images (h : Held) (images : ((s.path k).fifo.filter fun i => i.cond == .complete) ≠ []) :
    s.holdEnding k r h = s.causeHeld k r h := by
  refine if_neg ?_
  show ¬((s.causeHeld k r h).path k).fifo.isEmpty = true
  rw [path_causeHeld, List.isEmpty_iff]
  exact images

theorem holdEnding_of_no_image (h : Held) (images : ((s.path k).fifo.filter fun i => i.cond == .complete) = []) :
    s.holdEnding k r h = (s.causeHeld k r h).endRequest r.pos ((s.causeHeld k r h).infoHeld r h) := by
  refine if_pos ?_
  show ((s.causeHeld k r h).path k).fifo.isEmpty = true
  rw [path_causeHeld, List.isEmpty_iff]
  exact images

theorem endsQueued_causeHeld (h : Held) (q : s.endsQueued p r) :
    (s.causeHeld k r h).endsQueued p { r with state := .transferring } := by
  have ⟨found, _, ended, detached, _⟩ := q
  refine q.congr rfl (fun j => ?_) (request?_modRequest _ (fun _ => rfl) found)
    ⟨rfl, rfl, id, rfl, rfl, id⟩ ended detached
  unfold State.causeHeld
  rw [path_modRequest, path_modPath]
  split <;> simp_all

/-- A READ with no COMPLETE image ends with its cause (R113). -/
theorem endedWith_holdEnding (h : Held) (q : s.endsQueued p r)
    (images : ((s.path k).fifo.filter fun i => i.cond == .complete) = []) :
    (s.holdEnding k r h).endedWith p r h.status := by
  rw [holdEnding_of_no_image h images]
  exact endedWith_endRequest (endsQueued_causeHeld h q) _ rfl rfl

theorem reachEnding_read (hs : (s.path k).service = some .hostRead) (h : Held) :
    s.reachEnding k r h = s.holdEnding k r h := by
  simp [State.reachEnding, hs]

theorem reachEnding_verify (hs : (s.path k).service = some .hostVerify) (h : Held) :
    s.reachEnding k r h = (s.modRequest r.pos Record.transferOne).endRequest r.pos (s.infoHeld r.transferOne h) := by
  simp [State.reachEnding, hs]

/-- A VERIFY ends with the cause, its sector judged and so transferred (R106, R119; log 43). -/
theorem endedWith_reachEnding_verify (hs : (s.path k).service = some .hostVerify) (h : Held) (q : s.endsQueued p r) :
    (s.reachEnding k r h).endedWith p r.transferOne h.status := by
  have ⟨found, _, ended, detached, _⟩ := q
  rw [reachEnding_verify hs]
  have judged : (s.modRequest r.pos Record.transferOne).endsQueued p r.transferOne :=
    q.congr rfl (fun _ => rfl) (request?_modRequest _ (fun _ => rfl) found) ⟨rfl, rfl, id, rfl, rfl, id⟩ ended detached
  exact endedWith_endRequest judged _ rfl rfl

end

/-! ### A sector read well (R110, R115, R119) -/

/-- The request with its soft-recovery flag raised where the sector's outcome is soft (R115). -/
def Record.softened (r : Record) (soft : Bool) : Record := { r with soft := r.soft || soft }

/-- The outcome of a sector read well as it is recorded, if it is soft (R115). -/
def State.softTaken (s : State) (r : Record) (ord : Nat) (soft : Bool) (serving : Track) : State :=
  if soft then (s.recordOnce r ord serving .soft).modRequest r.pos fun x => { x with soft := true } else s

/-- The path off the recovery ladder, its drive off its offset (R114). -/
def State.ladderLeft (s : State) (k : PathId) (d : DriveId) : State :=
  if (s.path k).ladder.isSome then (s.giveOffset d .off).modPath k fun P => { P with ladder := none } else s

/-- The sector taken: a READ's image COMPLETE, a VERIFY's sector transferred (R106, R110, R119). -/
def State.sectorTaken (s : State) (k : PathId) (pos ord : Nat) (bytes : List Byte) : State :=
  if (s.path k).service == some .hostRead then s.modPath k fun P => P.completeImage ord bytes
  else s.modRequest pos Record.transferOne

/-- A sector read well and taken, before the ending that a last sector brings. -/
def State.wellRead (s : State) (k : PathId) (r : Record) (ord : Nat) (soft : Bool) (serving : Track) (bytes : List Byte) :
    State :=
  ((s.softTaken r ord soft serving).ladderLeft k r.drive).sectorTaken k r.pos ord bytes

theorem goodSector_eq (s : State) (k : PathId) (r : Record) (ord : Nat) (soft : Bool) (serving : Track) (bytes : List Byte) :
    s.goodSector k r ord soft serving bytes =
      if ord + 1 == r.total then
        if (((s.softTaken r ord soft serving).ladderLeft k r.drive).path k).service == some .hostRead then
          (s.wellRead k r ord soft serving bytes).holdEnding k (r.softened soft)
            ⟨(r.softened soft).goodEnding, ord, 0, some serving⟩
        else (s.wellRead k r ord soft serving bytes).endHere r.pos (r.softened soft).goodEnding
      else s.wellRead k r ord soft serving bytes := rfl

theorem softTaken_same (s : State) (r : Record) (ord : Nat) (soft : Bool) (serving : Track) :
    (s.softTaken r ord soft serving).ports = s.ports ∧ (s.softTaken r ord soft serving).paths = s.paths := by
  cases soft with
  | false => exact ⟨rfl, rfl⟩
  | true => exact recordOnce_soft_same s serving

theorem request?_softTaken {s : State} {r : Record} (h : s.request? r.pos = some r) (ord : Nat) (soft : Bool)
    (serving : Track) : ∃ x l, (s.softTaken r ord soft serving).request? r.pos
      = some { r.softened soft with snapshot := x, recordedSectors := l } := by
  cases soft with
  | false => exact ⟨r.snapshot, r.recordedSectors, by simpa [State.softTaken, Record.softened] using h⟩
  | true =>
    obtain ⟨x, l, found⟩ := request?_recordOnce_soft (ord := ord) serving h
    have raised : r.softened true = { r with soft := true } := by simp [Record.softened]
    rw [raised]
    exact ⟨x, l, request?_modRequest (fun x => { x with soft := true }) (fun _ => rfl) found⟩

theorem path_ladderLeft (s : State) (k j : PathId) (d : DriveId) :
    (s.ladderLeft k d).path j = if j = k then { s.path k with ladder := none } else s.path j := by
  unfold State.ladderLeft
  split
  · rw [path_modPath]
    rfl
  · rename_i off
    have left : (s.path k).ladder = none := by simpa using off
    split
    · rename_i at_k
      rw [at_k, ← left]
    · rfl

theorem ladderLeft_same (s : State) (k : PathId) (d : DriveId) :
    (s.ladderLeft k d).ports = s.ports ∧ (s.ladderLeft k d).records = s.records := by
  unfold State.ladderLeft
  split <;> exact ⟨rfl, rfl⟩

section

variable {s : State} {k : PathId} {r : Record} (ord : Nat) (soft : Bool) (serving : Track) (bytes : List Byte)

/-- Before the sector is taken, the path is as it was, but for the ladder. -/
theorem path_beforeTaken (s : State) (k j : PathId) (r : Record) :
    ((s.softTaken r ord soft serving).ladderLeft k r.drive).path j
      = if j = k then { s.path k with ladder := none } else s.path j := by
  have ⟨_, paths⟩ := softTaken_same s r ord soft serving
  rw [path_ladderLeft, path_congr paths, path_congr paths]

theorem wellRead_read (hs : (s.path k).service = some .hostRead) :
    s.wellRead k r ord soft serving bytes
      = ((s.softTaken r ord soft serving).ladderLeft k r.drive).modPath k fun P => P.completeImage ord bytes := by
  unfold State.wellRead State.sectorTaken
  rw [path_beforeTaken, if_pos rfl]
  exact if_pos (by rw [hs]; rfl)

theorem wellRead_verify (hs : (s.path k).service = some .hostVerify) :
    s.wellRead k r ord soft serving bytes
      = ((s.softTaken r ord soft serving).ladderLeft k r.drive).modRequest r.pos Record.transferOne := by
  unfold State.wellRead State.sectorTaken
  rw [path_beforeTaken, if_pos rfl]
  exact if_neg (by rw [hs]; decide)

theorem goodSector_short (short : ord + 1 ≠ r.total) :
    s.goodSector k r ord soft serving bytes = s.wellRead k r ord soft serving bytes := by
  rw [goodSector_eq]
  exact if_neg (by simpa using short)

theorem goodSector_last_read (last : ord + 1 = r.total) (hs : (s.path k).service = some .hostRead) :
    s.goodSector k r ord soft serving bytes = (s.wellRead k r ord soft serving bytes).holdEnding k (r.softened soft)
      ⟨(r.softened soft).goodEnding, ord, 0, some serving⟩ := by
  rw [goodSector_eq, if_pos (by simpa using last), path_beforeTaken, if_pos rfl]
  exact if_pos (by rw [hs]; rfl)

theorem goodSector_last_verify (last : ord + 1 = r.total) (hs : (s.path k).service = some .hostVerify) :
    s.goodSector k r ord soft serving bytes
      = (s.wellRead k r ord soft serving bytes).endHere r.pos (r.softened soft).goodEnding := by
  rw [goodSector_eq, if_pos (by simpa using last), path_beforeTaken, if_pos rfl]
  exact if_neg (by rw [hs]; decide)

/-- The state before the sector is taken has the request with its flag, its snapshot and its recorded sectors alone new. -/
theorem request?_beforeTaken (h : s.request? r.pos = some r) :
    ∃ x l, ((s.softTaken r ord soft serving).ladderLeft k r.drive).request? r.pos
      = some { r.softened soft with snapshot := x, recordedSectors := l } := by
  obtain ⟨x, l, found⟩ := request?_softTaken h ord soft serving
  have ⟨_, records⟩ := ladderLeft_same (s.softTaken r ord soft serving) k r.drive
  exact ⟨x, l, (request?_congr records r.pos).trans found⟩

/-- A READ's sector taken: its image COMPLETE, the ladder left, no sector transferred yet (R106, R110). -/
theorem wellRead_of_read (hs : (s.path k).service = some .hostRead) (h : s.request? r.pos = some r) :
    (s.wellRead k r ord soft serving bytes).path k = { (s.path k).completeImage ord bytes with ladder := none }
      ∧ ((s.wellRead k r ord soft serving bytes).request? r.pos).map (fun y => (y.done, y.soft))
        = some (r.done, r.soft || soft) := by
  obtain ⟨x, l, found⟩ := request?_beforeTaken (k := k) ord soft serving h
  rw [wellRead_read ord soft serving bytes hs]
  refine ⟨?_, ?_⟩
  · rw [path_modPath_same, path_beforeTaken, if_pos rfl]
    rfl
  · rw [request?_modPath, found]
    rfl

/-- A VERIFY's sector taken: it is transferred, and the path has left the ladder (R106, R119). -/
theorem wellRead_of_verify (hs : (s.path k).service = some .hostVerify) (h : s.request? r.pos = some r) :
    (s.wellRead k r ord soft serving bytes).path k = { s.path k with ladder := none }
      ∧ ∃ x l, (s.wellRead k r ord soft serving bytes).request? r.pos
        = some { (r.softened soft).transferOne with snapshot := x, recordedSectors := l } := by
  obtain ⟨x, l, found⟩ := request?_beforeTaken (k := k) ord soft serving h
  rw [wellRead_verify ord soft serving bytes hs]
  refine ⟨?_, x, l, request?_modRequest Record.transferOne (fun _ => rfl) found⟩
  rw [path_modRequest, path_beforeTaken, if_pos rfl]

/-- A VERIFY's last sector ends it with its good ending, all its sectors transferred (R113, R119). -/
theorem endedWith_goodSector_verify {p : PortId} (last : ord + 1 = r.total) (hs : (s.path k).service = some .hostVerify)
    (q : s.endsQueued p r) :
    (s.goodSector k r ord soft serving bytes).endedWith p r.transferOne (r.softened soft).goodEnding := by
  have ⟨h, _, ended, detached, _⟩ := q
  obtain ⟨_, x, l, found⟩ := wellRead_of_verify ord soft serving bytes hs h
  rw [goodSector_last_verify ord soft serving bytes last hs]
  have taken : (s.wellRead k r ord soft serving bytes).endsQueued p
      { (r.softened soft).transferOne with snapshot := x, recordedSectors := l } := by
    refine q.congr (port_congr ?_ p) (fun j => ?_) found ⟨rfl, rfl, id, rfl, rfl, id⟩ ended detached
    · have ⟨recorded, _⟩ := softTaken_same s r ord soft serving
      have ⟨left, _⟩ := ladderLeft_same (s.softTaken r ord soft serving) k r.drive
      rw [wellRead_verify ord soft serving bytes hs]
      exact left.trans recorded
    · rw [wellRead_verify ord soft serving bytes hs, path_modRequest, path_beforeTaken]
      split <;> simp_all
  exact endedWith_endHere taken _

/-- A READ's last sector makes its image COMPLETE, so the good ending is held (R113). -/
theorem ending_goodSector_read (last : ord + 1 = r.total) (hs : (s.path k).service = some .hostRead)
    (h : s.request? r.pos = some r) (image : ∃ i ∈ (s.path k).fifo, i.ord = ord) :
    ((s.goodSector k r ord soft serving bytes).path k).ending
      = some ⟨(r.softened soft).goodEnding, ord, 0, some serving⟩ := by
  obtain ⟨path, _⟩ := wellRead_of_read ord soft serving bytes hs h
  obtain ⟨i, mem, rfl⟩ := image
  have complete : (((s.wellRead k r i.ord soft serving bytes).path k).fifo.filter fun i => i.cond == .complete) ≠ [] := by
    refine List.ne_nil_of_mem (a := { i with cond := .complete, bytes := bytes }) (List.mem_filter.2 ⟨?_, rfl⟩)
    rw [path]
    exact List.mem_map.2 ⟨i, mem, if_pos (beq_self_eq_true _)⟩
  rw [goodSector_last_read i.ord soft serving bytes last hs, holdEnding_of_images _ complete, path_causeHeld]

/-- After the recording, a sector read well leaves what the end of an event leaves. -/
theorem keeps_goodSector (s : State) (k : PathId) (r : Record) :
    Keeps (s.softTaken r ord soft serving) (s.goodSector k r ord soft serving bytes) := by
  have left : Keeps (s.softTaken r ord soft serving) ((s.softTaken r ord soft serving).ladderLeft k r.drive) := by
    unfold State.ladderLeft
    split
    · exact (keeps_giveOffset _ _ _).trans (.modPath _ _ _)
    · exact .refl _
  have taken : Keeps (s.softTaken r ord soft serving) (s.wellRead k r ord soft serving bytes) := by
    refine left.trans ?_
    unfold State.wellRead State.sectorTaken
    split
    · exact .modPath _ _ _
    · exact .modRequest _ _ _ fun _ => ⟨rfl, rfl, id, rfl, rfl, id⟩
  rw [goodSector_eq]
  split
  · split
    · exact taken.trans (keeps_holdEnding _ _ _ _)
    · exact taken.trans (keeps_endHere _ _ _)
  · exact taken

end

end Sys2Proof.Machine

namespace Sys2Proof.Machine

/-! ### What an outcome does to the request (R110, R113 to R115) -/

theorem takeOutcome_good (s : State) (k : PathId) (r : Record) (ord n : Nat) (serving : Track) (bytes : List Byte)
    {o : Outcome} (good : o.good = true) (lost : o.lost = false) :
    s.takeOutcome k r ord n serving o bytes = s.goodSector k r ord (n != 1 || o == .corrected false) serving bytes := by
  cases o with
  | identMismatch | uncorrectable => cases good
  | clean l =>
    obtain rfl : l = false := lost
    have soft : (n != 1 || Outcome.clean false == .corrected false) = (n != 1) := Bool.or_false _
    rw [soft]
    rfl
  | corrected l =>
    obtain rfl : l = false := lost
    have soft : (n != 1 || Outcome.corrected false == .corrected false) = true := Bool.or_true _
    rw [soft]
    rfl

theorem takeOutcome_failed (s : State) (k : PathId) (r : Record) (ord n : Nat) (serving : Track) (bytes : List Byte)
    {o : Outcome} (good : o.good = false) (lost : o.lost = false) :
    s.takeOutcome k r ord n serving o bytes = s.failedAttempt k r ord n serving := by
  cases o with
  | clean | corrected => cases good
  | identMismatch => rfl
  | uncorrectable l =>
    obtain rfl : l = false := lost
    rfl

theorem takeOutcome_lost (s : State) (k : PathId) (r : Record) (ord n : Nat) (serving : Track) (bytes : List Byte)
    {o : Outcome} (lost : o.lost = true) :
    s.takeOutcome k r ord n serving o bytes
      = (s.giveOffset r.drive .off).reachEnding k r ⟨.dataLost, ord, n, some serving⟩ := if_pos lost

/-- The path with the next attempt on a sector named, its image RESERVED until then (R114; log 17). -/
def Path.nextAttempt (P : Path) (ord n : Nat) : Path :=
  { P with
    ladder := some (ord, n + 1), fifo := P.fifo.map fun i => if i.ord == ord then { i with cond := .reserved } else i }

theorem failedAttempt_retried {n : Nat} (few : n < 7) (s : State) (k : PathId) (r : Record) (ord : Nat) (serving : Track) :
    s.failedAttempt k r ord n serving = ((s.modPath k fun P => P.nextAttempt ord n).giveOffset r.drive
      (attemptOffset (n + 1))).modRequest r.pos fun x => { x with state := .paused } := if_pos few

/-- A failed attempt below the seventh names the next, gives its offset and pauses the request (R114; log 56). -/
theorem failedAttempt_leaves {s : State} {r : Record} {n : Nat} (few : n < 7) (h : s.request? r.pos = some r) (k : PathId)
    (ord : Nat) (serving : Track) :
    (s.failedAttempt k r ord n serving).path k = (s.path k).nextAttempt ord n
      ∧ (s.failedAttempt k r ord n serving).drive r.drive = { s.drive r.drive with offset := attemptOffset (n + 1) }
      ∧ (s.failedAttempt k r ord n serving).request? r.pos = some { r with state := .paused } := by
  rw [failedAttempt_retried few]
  refine ⟨?_, ?_, request?_modRequest (fun x => { x with state := .paused }) (fun _ => rfl) h⟩
  · exact path_modPath_same s k fun P => P.nextAttempt ord n
  · exact drive_modDrive_same (s.modPath k fun P => P.nextAttempt ord n) r.drive fun D =>
      { D with offset := attemptOffset (n + 1) }

/-! ### The event -/

/-- The attempt in flight on the path's sector (R114). -/
def Path.attempt (P : Path) : Nat :=
  match P.ladder with
  | some (_, n) => n
  | none => 1

/-- Path k is attached to drive d and reads for request r the sector with number `ord`, at address a (R110, R119). -/
structure State.ReadsSector (s : State) (d : DriveId) (k : PathId) (r : Record) (ord : Nat) (a : SectorAddr) (e : Entered) :
    Prop where
  attached : s.pathOnDrive d = some k
  holder : (s.path k).holder = some r.pos
  reading : (s.path k).reading = some ord
  entered : (s.path k).entered = some e
  found : s.request? r.pos = some r
  located : ∃ x, r.sectorAt ord = some (x, a)

/-- The state with the read on path k at its end: no sector in flight, the gates of the drive closed (R110). -/
def State.readEnded (s : State) (k : PathId) (d : DriveId) : State :=
  (s.modPath k fun P => { P with reading := none }).closeGates d

theorem health_readEnded (s : State) (k : PathId) (d : DriveId) : ((s.readEnded k d).drive d).health = (s.drive d).health :=
  ((Keeps.modPath s k _).trans (keeps_closeGates _ d)).field Drive.health d

theorem params_readEnded (s : State) (k : PathId) (d : DriveId) : (s.readEnded k d).params = s.params := rfl

section

variable {s : State} {d : DriveId} {k : PathId} {r : Record} {ord : Nat} {a : SectorAddr} {e : Entered}

theorem sectorOutcome_off_boundary (w : s.ReadsSector d k r ord a e) (off : (s.drive d).rpc ≠ (4 * a.sector + 4) % 64)
    (sr : SectorRead) : s.sectorOutcome d sr = s := by
  obtain ⟨attached, holder, reading, entered, found, x, located⟩ := w
  simp [State.sectorOutcome, attached, holder, reading, entered, found, located, Config.slots, off]

theorem sectorOutcome_at_boundary (w : s.ReadsSector d k r ord a e) (here : (s.drive d).rpc = (4 * a.sector + 4) % 64)
    (sr : SectorRead) :
    s.sectorOutcome d sr = State.afterSector ((s.readEnded k d).takeOutcome k r ord (s.path k).attempt e.serving
        (judgeRead e.serving a.sector sr) (wholeSector sr.bytes)) k r.pos
      ((judgeRead e.serving a.sector sr).good && !(judgeRead e.serving a.sector sr).lost) := by
  obtain ⟨attached, holder, reading, entered, found, x, located⟩ := w
  simp only [State.sectorOutcome, attached, holder, reading, entered, found, located, Config.slots, here, bne_self_eq_false]
  rfl

/-- After a good outcome the health list is what the recording of the outcome has left, to the end of the event. -/
theorem health_good_outcome (w : s.ReadsSector d k r ord a e) (here : (s.drive d).rpc = (4 * a.sector + 4) % 64)
    {sr : SectorRead} {soft : Bool} (good : (judgeRead e.serving a.sector sr).good = true)
    (lost : (judgeRead e.serving a.sector sr).lost = false)
    (hs : ((s.path k).attempt != 1 || judgeRead e.serving a.sector sr == .corrected false) = soft) :
    ∃ t, exec (.sectorReadOutcome d sr) s = .next t
      ∧ (t.drive d).health = (((s.readEnded k d).softTaken r ord soft e.serving).drive d).health := by
  refine ⟨_, exec_of_effect (sectorOutcome_at_boundary w here sr), ?_⟩
  rw [takeOutcome_good _ k r ord _ e.serving _ good lost, hs]
  exact (((keeps_goodSector ord soft e.serving _ _ k r).trans (keeps_afterSector _ _ _ _)).trans (keeps_settle _)).field
    Drive.health d

/-- A CLEAN first attempt records nothing (R115). -/
theorem health_clean_first (w : s.ReadsSector d k r ord a e) (here : (s.drive d).rpc = (4 * a.sector + 4) % 64)
    (first : (s.path k).ladder = none) {sr : SectorRead} (clean : judgeRead e.serving a.sector sr = .clean false) :
    ∃ t, exec (.sectorReadOutcome d sr) s = .next t ∧ (t.drive d).health = (s.drive d).health := by
  obtain ⟨t, run, health⟩ := health_good_outcome w here (soft := false) (by rw [clean]; rfl) (by rw [clean]; rfl)
    (by rw [clean, Path.attempt, first]; rfl)
  exact ⟨t, run, health.trans (health_readEnded s k d)⟩

/-- A CORRECTED outcome of a sector already recorded for the request is not recorded again (R115). -/
theorem health_corrected_again (w : s.ReadsSector d k r ord a e) (here : (s.drive d).rpc = (4 * a.sector + 4) % 64)
    {sr : SectorRead} (corrected : judgeRead e.serving a.sector sr = .corrected false)
    (recorded : r.softTrack (logicalIndex a) ≠ none) :
    ∃ t, exec (.sectorReadOutcome d sr) s = .next t ∧ (t.drive d).health = (s.drive d).health := by
  obtain ⟨t, run, health⟩ := health_good_outcome w here (soft := true) (by rw [corrected]; rfl) (by rw [corrected]; rfl)
    (by rw [corrected]; exact Bool.or_true _)
  obtain ⟨x, located⟩ := w.located
  obtain ⟨before, hb⟩ := Option.ne_none_iff_exists'.1 recorded
  rw [← addressAt_of_sectorAt located] at hb
  refine ⟨t, run, health.trans ?_⟩
  show (((s.readEnded k d).recordOnce r ord e.serving .soft).drive d).health = _
  rw [recordOnce_soft_again _ _ hb, health_readEnded]

/-- The health entry of the entered track after a soft outcome of it (R149). -/
def State.softEntry (s : State) (d : DriveId) (t : Track) : HealthEntry :=
  raisedEntry t .soft ((s.drive d).health.find? fun y => y.track == t)

/-- A CORRECTED outcome not yet recorded is recorded against the entered track: its entry in front, and below threshold
nothing else changed (R115, R149, R151). -/
theorem health_corrected_new (w : s.ReadsSector d k r ord a e) (at_drive : r.drive = d)
    (here : (s.drive d).rpc = (4 * a.sector + 4) % 64) {sr : SectorRead}
    (corrected : judgeRead e.serving a.sector sr = .corrected false) (fresh : r.softTrack (logicalIndex a) = none)
    (soft : (s.softEntry d e.serving).soft < s.params.softThreshold) (hard : (s.softEntry d e.serving).hard = 0) :
    ∃ t, exec (.sectorReadOutcome d sr) s = .next t
      ∧ (t.drive d).health = s.softEntry d e.serving :: othersAfter e.serving (s.drive d).health := by
  obtain ⟨t, run, health⟩ := health_good_outcome w here (soft := true) (by rw [corrected]; rfl) (by rw [corrected]; rfl)
    (by rw [corrected]; exact Bool.or_true _)
  obtain ⟨x, located⟩ := w.located
  rw [← addressAt_of_sectorAt located] at fresh
  have below : (s.softEntry d e.serving).reached s.params.softThreshold = false := by
    simp [HealthEntry.reached, Nat.not_le.2 soft, hard]
  have recorded := health_recordOutcome_below (s := s.readEnded k d) (d := d) (t := e.serving) (c := .soft) r.pos
    (by rw [health_readEnded, params_readEnded]; exact below)
  rw [health_readEnded] at recorded
  refine ⟨t, run, health.trans ?_⟩
  show (((s.readEnded k d).recordOnce r ord e.serving .soft).drive d).health = _
  rw [recordOnce_soft_new _ _ fresh, at_drive]
  exact recorded

end

/-- Settles O47: the event by its boundary, the health list by what a good outcome records; then one clause each for a good
outcome, a failed attempt, the seventh, a LOST flag, the recording, and the ending reached. -/
theorem sectorOutcome : Obligations.SectorOutcome := by
  refine ⟨fun s d sr k r ord x a e attached holder reading entered found at_drive located => ?_,
    fun s k r ord n serving o bytes good lost found => ?_, fun s k r ord n serving o bytes good lost few found => ?_,
    fun s k r ord serving o bytes good lost => takeOutcome_failed s k r ord 7 serving bytes good lost,
    fun s k r ord n serving o bytes lost => takeOutcome_lost s k r ord n serving bytes lost,
    fun s r ord x a t located => ?_, fun s k r h found => ?_⟩
  · have w : s.ReadsSector d k r ord a e := ⟨attached, holder, reading, entered, found, x, located⟩
    exact ⟨fun off => exec_of_effect (sectorOutcome_off_boundary w off sr),
      fun here => exec_of_effect (sectorOutcome_at_boundary w here sr),
      fun here first clean => health_clean_first w here first clean,
      fun here _ corrected => ⟨health_corrected_again w here corrected,
        fun fresh => health_corrected_new w at_drive here corrected fresh⟩⟩
  · intro soft u
    have read : u = s.goodSector k r ord soft serving bytes := takeOutcome_good s k r ord n serving bytes good lost
    refine ⟨fun short hs => ?_, fun short hs => ?_, fun last hs image => ?_, fun last hs all p q => ?_⟩
    · obtain ⟨path, request⟩ := wellRead_of_read ord soft serving bytes hs found
      rw [read, goodSector_short ord soft serving bytes short, path]
      simp only [Path.completeImage, beq_iff_eq]
      exact ⟨trivial, trivial, request⟩
    · obtain ⟨path, _, _, request⟩ := wellRead_of_verify ord soft serving bytes hs found
      rw [read, goodSector_short ord soft serving bytes short, path, request]
      exact ⟨rfl, rfl, rfl⟩
    · rw [read]
      exact ending_goodSector_read ord soft serving bytes last hs found image
    · rw [read, ← all]
      exact endedWith_goodSector_verify ord soft serving bytes last hs q
  · intro u
    have failed : u = s.failedAttempt k r ord n serving := takeOutcome_failed s k r ord n serving bytes good lost
    obtain ⟨path, drive, request⟩ := failedAttempt_leaves few found k ord serving
    rw [failed, path, drive, request]
    simp only [Path.nextAttempt, beq_iff_eq]
    exact ⟨trivial, trivial, rfl, trivial, trivial⟩
  · rw [← addressAt_of_sectorAt located]
    refine ⟨fun fresh => ⟨recordOnce_soft_new s t fresh, recordOnce_hard_new s t fresh⟩,
      fun before again => ⟨recordOnce_soft_again s t again, ?_⟩⟩
    rw [recordOnce_hard_again s t again]
    simp only [takeBackSoft, beq_iff_eq]
  · refine ⟨fun hs images => ?_, fun hs images p q => ?_, fun hs p q => endedWith_reachEnding_verify hs h q⟩
    · rw [reachEnding_read hs, holdEnding_of_images h images, path_causeHeld]
      exact ⟨rfl, rfl⟩
    · rw [reachEnding_read hs]
      exact endedWith_holdEnding h q images

end Sys2Proof.Machine

namespace Sys2Proof.Machine

/-! ### The spare an allocation takes (R137) -/

/-- How near a spare lies to a home, the lower cylinder of two at equal distance first (R137). -/
def nearKey (home t : Track) : Nat × Nat := (distance t.cyl home.cyl, t.cyl)

/-- The rank of a spare on its cylinder: the home's own head, then the lowest (R137). -/
def headKey (home t : Track) : Nat × Nat := (if t.head == home.head then 0 else 1, t.head)

theorem nearKey_of_cyl {t u : Track} (home : Track) (h : t.cyl = u.cyl) : nearKey home t = nearKey home u := by
  unfold nearKey
  rw [h]

/-- No spare of a cylinder goes before the home's own head. -/
theorem headKey_own {home t u : Track} (h : keyLe (headKey home t) (headKey home u)) (own : u.head = home.head) :
    t.head = home.head := by
  refine Decidable.byContradiction fun other => ?_
  simp [keyLe, headKey, own, other] at h

/-- Among the other heads the lower goes first. -/
theorem headKey_others {home t u : Track} (h : keyLe (headKey home t) (headKey home u)) (ht : t.head ≠ home.head)
    (hu : u.head ≠ home.head) : t.head ≤ u.head := by
  simpa [keyLe, headKey, ht, hu] using h

/-- An allocation chooses a cylinder, then a track on it. -/
theorem chooseSpare_eq (home : Track) (free : List Track) :
    chooseSpare home free = (leastBy (nearKey home) free).bind fun c =>
      leastBy (headKey home) (free.filter fun t => t.cyl == c.cyl) := by
  unfold chooseSpare
  show (match leastBy (nearKey home) free with | none => _ | some c => _) = _
  cases leastBy (nearKey home) free <;> rfl

theorem chooseSpare_nil (home : Track) : chooseSpare home [] = none := rfl

/-- Of a list with a spare, an allocation takes one of the nearest cylinder that no other of its cylinder goes before. -/
theorem chooseSpare_of_ne_nil (home : Track) {free : List Track} (h : free ≠ []) :
    ∃ t, chooseSpare home free = some t ∧ t ∈ free ∧ (∀ u ∈ free, keyLe (nearKey home t) (nearKey home u))
      ∧ ∀ u ∈ free, u.cyl = t.cyl → keyLe (headKey home t) (headKey home u) := by
  obtain ⟨c, near⟩ := Option.ne_none_iff_exists'.1 fun absent => h (leastBy_eq_none.1 absent)
  obtain ⟨c_free, nearest⟩ := leastBy_spec near
  have c_here : c ∈ free.filter fun u => u.cyl == c.cyl := by simp [c_free]
  obtain ⟨t, first⟩ := Option.ne_none_iff_exists'.1 fun absent =>
    List.ne_nil_of_mem c_here (leastBy_eq_none (key := headKey home) |>.1 absent)
  obtain ⟨t_here, least⟩ := leastBy_spec first
  simp only [List.mem_filter, beq_iff_eq] at t_here least
  obtain ⟨t_free, same⟩ := t_here
  refine ⟨t, by rw [chooseSpare_eq, near]; exact first, t_free, fun u hu => ?_, fun u hu hc => least u ⟨hu, hc.trans same⟩⟩
  rw [nearKey_of_cyl home same]
  exact nearest u hu

/-- Settles O59: the chosen spare's cylinder is the least by `nearKey`, and the spare the least on it by `headKey`. -/
theorem nearestSpare : Obligations.NearestSpare := by
  intro home free
  by_cases empty : free = []
  · rw [empty, chooseSpare_nil]
    exact ⟨⟨fun _ => rfl, fun _ => rfl⟩, nofun⟩
  · obtain ⟨t, chosen, t_free, nearest, first⟩ := chooseSpare_of_ne_nil home empty
    rw [chosen]
    refine ⟨⟨nofun, fun h => absurd h empty⟩, fun x hx => ?_⟩
    cases hx
    refine ⟨t_free, nearest, fun own => headKey_own (first _ own rfl) rfl, fun not_own u hu hc => ?_⟩
    have other : ∀ v ∈ free, v.cyl = t.cyl → v.head ≠ home.head := fun v hv on own => not_own (by rwa [← on, ← own])
    exact headKey_others (first u hu hc) (other t t_free rfl) (other u hu hc)

end Sys2Proof.Machine

namespace Sys2Proof.Machine

/-! ### What a command can do to locks and marks -/

/-- A command that brings the unit this order: the order's own command, or the block of bytes that spells it (R40). -/
def Carries (c : Instr) (b : OrderBlock) : Prop :=
  (∃ p, c = b.command p) ∨ ∃ p l, c = .orderBlockReceived p l ∧ decodeOrder (l.map fun x => x.byte) = some b

/-- What a command can do to the drives: nothing that reaches a lock or a freeze mark; or what an order it carries does; or
what a reset does. -/
inductive DrivesCase (s : State) : Instr → Prop
  | steady {c : Instr} (h : Steady s (s.effect c)) : DrivesCase s c
  | unchanged {c : Instr} (h : (s.effect c).drives = s.drives) : DrivesCase s c
  | accepted {c : Instr} (p : PortId) (b : OrderBlock) (carried : Carries c b)
      (h : (s.effect c).drives = (s.acceptOrder p b).drives) : DrivesCase s c
  | portReset (p : PortId) : DrivesCase s (.portReset p)
  | powerOnReset : DrivesCase s .powerOnReset

/-- An order taken, refused or accepted, reaches the drives by its effect alone. -/
theorem drives_takeOrder (s : State) (p : PortId) (b : OrderBlock) :
    (s.takeOrder p b).drives = s.drives ∨ (s.takeOrder p b).drives = (s.acceptOrder p b).drives := by
  unfold State.takeOrder
  split
  · refine .inl ?_
    show (s.refused p b _).drives = s.drives
    unfold State.refused
    split
    · split <;> rfl
    · rfl
    · rfl
  · exact .inr rfl

theorem drives_orderTaken (s : State) (p : PortId) (b : OrderBlock) :
    (s.orderTaken p b).drives = s.drives ∨ (s.orderTaken p b).drives = (s.acceptOrder p b).drives := by
  unfold State.orderTaken
  split
  · split
    · exact drives_takeOrder s p b
    · exact .inl rfl
  · exact .inl rfl

/-- A block taken is answered, or its order is taken, or nothing is done. -/
theorem blockTaken_cases (s : State) (p : PortId) (l : List LineByte) :
    s.blockTaken p l = s ∨ (∃ code, s.blockTaken p l = s.answer p code [])
      ∨ ∃ b, decodeOrder (l.map fun x => x.byte) = some b ∧ s.blockTaken p l = s.takeOrder p b := by
  unfold State.blockTaken
  split
  · split
    · exact .inr (.inl ⟨_, rfl⟩)
    · split
      · exact .inr (.inl ⟨_, rfl⟩)
      · split
        · rename_i b decodes
          exact .inr (.inr ⟨b, decodes, rfl⟩)
        · exact .inr (.inl ⟨_, rfl⟩)
  · exact .inl rfl

theorem drivesCase (s : State) (c : Instr) : DrivesCase s c := by
  cases commandCase s c with
  | steady h => exact .steady h
  | order p b =>
    rcases drives_orderTaken s p b with h | h <;> rw [← effect_command] at h
    · exact .unchanged h
    · exact .accepted p b (.inl ⟨p, rfl⟩) h
  | block p l =>
    rcases blockTaken_cases s p l with h | ⟨_, h⟩ | ⟨b, decodes, h⟩
    · exact .unchanged (congrArg State.drives h)
    · exact .unchanged (congrArg State.drives h :)
    · rcases drives_takeOrder s p b with g | g <;> rw [← h] at g
      · exact .unchanged g
      · exact .accepted p b (.inr ⟨p, l, rfl, decodes⟩) g
  | portReset p => exact .portReset p
  | powerOnReset => exact .powerOnReset

/-- Every drive's lock stands as it stood (R182). -/
def State.sameLocks (s t : State) : Prop := ∀ d, (t.drive d).lock = (s.drive d).lock

/-- Every drive's freeze mark stands as it stood (R145). -/
def State.sameFreezes (s t : State) : Prop := ∀ d, (t.drive d).freeze = (s.drive d).freeze

/-- Every lock and every freeze mark stands as it stood. -/
structure State.SameGuards (s t : State) : Prop where
  locks : s.sameLocks t
  freezes : s.sameFreezes t

theorem State.SameGuards.trans {s t u : State} (h : s.SameGuards t) (g : t.SameGuards u) : s.SameGuards u :=
  ⟨fun d => (g.locks d).trans (h.locks d), fun d => (g.freezes d).trans (h.freezes d)⟩

theorem drive_congr {s t : State} (h : t.drives = s.drives) (d : DriveId) : t.drive d = s.drive d := by
  unfold State.drive
  rw [h]

theorem State.SameGuards.of_drives {s t : State} (h : t.drives = s.drives := by rfl) : s.SameGuards t :=
  ⟨fun d => congrArg Drive.lock (drive_congr h d), fun d => congrArg Drive.freeze (drive_congr h d)⟩

theorem Steady.sameGuards {s t : State} (h : Steady s t) : s.SameGuards t := ⟨h.lock, h.freeze⟩

theorem sameLocks_modDrive (s : State) (d : DriveId) (f : Drive → Drive)
    (hf : ∀ D : Drive, (f D).lock = D.lock := by exact fun _ => rfl) : s.sameLocks (s.modDrive d f) := by
  intro e
  rw [drive_modDrive]
  split
  · rename_i h
    exact h ▸ hf _
  · rfl

theorem sameFreezes_modDrive (s : State) (d : DriveId) (f : Drive → Drive)
    (hf : ∀ D : Drive, (f D).freeze = D.freeze := by exact fun _ => rfl) : s.sameFreezes (s.modDrive d f) := by
  intro e
  rw [drive_modDrive]
  split
  · rename_i h
    exact h ▸ hf _
  · rfl

theorem sameGuards_modDrive (s : State) (d : DriveId) (f : Drive → Drive)
    (hl : ∀ D : Drive, (f D).lock = D.lock := by exact fun _ => rfl)
    (hf : ∀ D : Drive, (f D).freeze = D.freeze := by exact fun _ => rfl) : s.SameGuards (s.modDrive d f) :=
  ⟨sameLocks_modDrive s d f hl, sameFreezes_modDrive s d f hf⟩

theorem sameGuards_acceptCalibrate (s : State) (p : PortId) (tag : Byte) (d : DriveId) :
    s.SameGuards (s.acceptCalibrate p tag d) := by
  unfold State.acceptCalibrate
  split
  · exact State.SameGuards.trans .of_drives (sameGuards_modDrive (s.addRequest p tag d .calibrate [] none .seeking) d _)
  · exact .of_drives

theorem sameGuards_acceptDeclare (s : State) (p : PortId) (tag : Byte) (d : DriveId) (noCopy : Bool) (t : Track) :
    s.SameGuards (s.acceptDeclare p tag d noCopy t) := by
  unfold State.acceptDeclare
  extract_lets home pos u
  have stored : s.SameGuards u := .of_drives
  refine stored.trans ?_
  split
  · exact (sameGuards_modDrive u d _).trans (keeps_appendWork _ _).sameGuards
  · split
    · exact ((keeps_modEntry u d home _).toStill.trans (still_dropStalled _ _)).sameGuards.trans
        (keeps_appendWork _ _).sameGuards
    · exact ((keeps_modEntry u d home _).trans (keeps_appendWork _ _)).sameGuards

theorem sameGuards_acceptRetire (s : State) (p : PortId) (tag : Byte) (d : DriveId) (t : Track) :
    s.SameGuards (s.acceptRetire p tag d t) :=
  State.SameGuards.trans (t := s.addRequest p tag d (.mapChange .retire false) [] (some t) .queued) .of_drives
    ((keeps_modEntry _ _ _ _).trans (keeps_appendWork _ _)).sameGuards

/-- An accepted order to a drive leaves locks and freeze marks, but for LOCK, UNLOCK, SEIZE and MAP FREEZE. -/
theorem sameGuards_acceptDrive (s : State) (p : PortId) (tag : Byte) (d : DriveId) {o : DriveOrder} (lock : o ≠ .lock)
    (unlock : o ≠ .unlock) (seize : o ≠ .seize) (freeze : o ≠ .mapFreeze) : s.SameGuards (s.acceptDrive p tag d o) := by
  cases o with
  | read | write | verify | position | report | mapQuery | mapList => exact .of_drives
  | calibrate => exact sameGuards_acceptCalibrate s p tag d
  | declare noCopy _ t => exact sameGuards_acceptDeclare s p tag d noCopy t
  | retire t => exact sameGuards_acceptRetire s p tag d t
  | cancel => exact (still_acceptCancel s p tag).sameGuards
  | lock => exact absurd rfl lock
  | unlock => exact absurd rfl unlock
  | seize => exact absurd rfl seize
  | mapFreeze => exact absurd rfl freeze

/-- Of the orders, LOCK, UNLOCK and SEIZE alone reach a lock (R183 to R185). -/
theorem sameLocks_acceptOrder (s : State) (p : PortId) {b : OrderBlock} (lock : ∀ d, b.order ≠ .drive d .lock)
    (unlock : ∀ d, b.order ≠ .drive d .unlock) (seize : ∀ d, b.order ≠ .drive d .seize) :
    s.sameLocks (s.acceptOrder p b) := by
  obtain ⟨tag, o⟩ := b
  cases o with
  | drive d o =>
    by_cases freeze : o = .mapFreeze
    · subst freeze
      exact sameLocks_modDrive s d _
    · exact (sameGuards_acceptDrive s p tag d (fun h => lock d (congrArg _ h)) (fun h => unlock d (congrArg _ h))
        (fun h => seize d (congrArg _ h)) freeze).locks
  | stringStatus | setParameters => exact State.SameGuards.locks .of_drives

/-- Of the orders, MAP FREEZE alone reaches a freeze mark (R60). -/
theorem sameFreezes_acceptOrder (s : State) (p : PortId) {b : OrderBlock} (freeze : ∀ d, b.order ≠ .drive d .mapFreeze) :
    s.sameFreezes (s.acceptOrder p b) := by
  obtain ⟨tag, o⟩ := b
  cases o with
  | drive d o =>
    cases o with
    | lock | unlock => exact sameFreezes_modDrive s d _
    | seize =>
      show s.sameFreezes (s.acceptSeize p d)
      unfold State.acceptSeize
      split
      · exact sameFreezes_modDrive (s.setLockLost _ d true) d _
      · exact sameFreezes_modDrive s d _
    | mapFreeze => exact absurd rfl (freeze d)
    | _ =>
      show s.sameFreezes (s.acceptDrive p tag d _)
      exact State.SameGuards.freezes (sameGuards_acceptDrive s p tag d nofun nofun nofun nofun)
  | stringStatus | setParameters => exact State.SameGuards.freezes .of_drives

/-- A port reset reaches no freeze mark. -/
theorem sameFreezes_resetPort (s : State) (p : PortId) : s.sameFreezes (s.resetPort p) := fun d => by
  rw [(keeps_resetPort_rest s p).freeze d, drive_resetTables]
  unfold Drive.freeLockOf
  split <;> rfl

/-- A block that spells no order reaches no lock-lost mark. -/
theorem lockLost_blockTaken (s : State) (p q : PortId) {l : List LineByte}
    (spellsNone : decodeOrder (l.map fun x => x.byte) = none) : ((s.blockTaken p l).port q).lockLost = (s.port q).lockLost := by
  rcases blockTaken_cases s p l with h | ⟨code, h⟩ | ⟨b, decodes, _⟩
  · rw [h]
  · rw [h]
    exact (Still.modPort s p _ ⟨rfl, rfl⟩).lockLost q
  · rw [spellsNone] at decodes
    cases decodes

/-- Every lock stands through a command that carries no LOCK, UNLOCK or SEIZE and is no reset. -/
theorem sameLocks_effect (s : State) {c : Instr} (reset : c ≠ .powerOnReset) (portReset : ∀ p, c ≠ .portReset p)
    (orders : ∀ b d, Carries c b → b.order ≠ .drive d .lock ∧ b.order ≠ .drive d .unlock ∧ b.order ≠ .drive d .seize) :
    s.sameLocks (s.effect c) := by
  cases drivesCase s c with
  | steady h => exact h.lock
  | unchanged h => exact (State.SameGuards.of_drives h).locks
  | accepted p b carried h =>
    have accepted := sameLocks_acceptOrder s p (fun d => (orders b d carried).1) (fun d => (orders b d carried).2.1)
      (fun d => (orders b d carried).2.2)
    exact fun d => ((State.SameGuards.of_drives h).locks d).trans (accepted d)
  | portReset p => exact absurd rfl (portReset p)
  | powerOnReset => exact absurd rfl reset

/-- Every freeze mark stands through a command that carries no MAP FREEZE and is no power-on reset. -/
theorem sameFreezes_effect (s : State) {c : Instr} (reset : c ≠ .powerOnReset)
    (orders : ∀ b d, Carries c b → b.order ≠ .drive d .mapFreeze) : s.sameFreezes (s.effect c) := by
  cases drivesCase s c with
  | steady h => exact h.freeze
  | unchanged h => exact (State.SameGuards.of_drives h).freezes
  | accepted p b carried h =>
    have accepted := sameFreezes_acceptOrder s p fun d => orders b d carried
    exact fun d => ((State.SameGuards.of_drives h).freezes d).trans (accepted d)
  | portReset p => exact sameFreezes_resetPort s p
  | powerOnReset => exact absurd rfl reset

/-- Every lock-lost mark stands through a command that carries no order and is no reset. -/
theorem lockLost_effect (s : State) {c : Instr} (q : PortId) (reset : c ≠ .powerOnReset)
    (portReset : ∀ p, c ≠ .portReset p) (orders : ∀ b, ¬Carries c b) :
    ((s.effect c).port q).lockLost = (s.port q).lockLost := by
  cases commandCase s c with
  | steady h => exact h.lockLost q
  | order p b => exact absurd (.inl ⟨p, rfl⟩) (orders b)
  | block p l =>
    exact lockLost_blockTaken s p q (Option.eq_none_iff_forall_ne_some.2 fun b decodes =>
      orders b (.inr ⟨p, l, rfl, decodes⟩))
  | portReset p => exact absurd rfl (portReset p)
  | powerOnReset => exact absurd rfl reset

/-- A command that neither is nor spells an order to a drive carries none such. -/
theorem order_ne_of_carries {c : Instr} {b : OrderBlock} {o : Order} (carries : Carries c b)
    (command : ∀ p, c ≠ OrderBlock.command p ⟨b.tag, o⟩)
    (spells : ¬∃ p l tag, c = .orderBlockReceived p l ∧ decodeOrder (l.map fun x => x.byte) = some ⟨tag, o⟩) :
    b.order ≠ o := by
  rintro rfl
  rcases carries with ⟨p, is⟩ | ⟨p, l, is, decodes⟩
  · exact command p is
  · exact spells ⟨p, l, b.tag, is, decodes⟩

/-- Settles O10: an order reaches locks and freeze marks by its effect alone, and each clause shuts out the orders whose
effect writes its item; the end of the event is still. -/
theorem frameLocksAndMarks : Obligations.FrameLocksAndMarks := by
  intro c s t h reset spells
  rw [eq_of_exec h]
  have settled := still_settle (s.effect c)
  refine ⟨fun lock unlock seize portReset spellsLock spellsUnlock spellsSeize d => ?_, fun freeze spellsFreeze d => ?_,
    fun command portReset spelled p => ?_⟩
  · exact (settled.lock d).trans (sameLocks_effect s reset portReset (fun b d carries =>
      ⟨order_ne_of_carries carries (fun p => lock p d b.tag) (spellsLock d),
        order_ne_of_carries carries (fun p => unlock p d b.tag) (spellsUnlock d),
        order_ne_of_carries carries (fun p => seize p d b.tag) (spellsSeize d)⟩) d)
  · exact (settled.freeze d).trans (sameFreezes_effect s reset (fun b d carries =>
      order_ne_of_carries carries (fun p => freeze p d b.tag) (spellsFreeze d)) d)
  · exact (settled.lockLost p).trans (lockLost_effect s p reset portReset fun b carries =>
      order_ne_of_carries carries (fun q => command q b) (spelled b.order) rfl)

end Sys2Proof.Machine

namespace Sys2Proof.Machine

/-! ### The results of the relocation stages (R167 to R174) -/

theorem verifyPasses_iff {expected : SectorSet} {outcomes : List Outcome} (length : outcomes.length = 16) :
    verifyPasses expected outcomes = true ↔ ∀ i < 16, outcomes[i]? = some (.clean (expected.getLsbD i)) := by
  unfold verifyPasses
  rw [List.all_eq_true]
  refine ⟨fun h i hi => ?_, fun h i hi => ?_⟩
  · have clean := h i (List.mem_range.2 hi)
    have found := List.getElem?_eq_getElem (l := outcomes) (length.symm ▸ hi)
    rw [beq_iff_eq, List.getD_eq_getElem?_getD, found, Option.getD_some] at clean
    rw [found, clean]
  · rw [beq_iff_eq, List.getD_eq_getElem?_getD, h i (List.mem_range.1 hi)]
    rfl

section

variable {s : State} {ref : EntryRef}

theorem verifyResult_verifyTarget (he : s.ru.entry = some ref) (hs : s.ru.stage = some .verifyTarget)
    (outcomes : List Outcome) : s.verifyResult outcomes
      = if verifyPasses (bufferLost s.buffer) outcomes then s.toStage .commitTarget else s.targetFailure ref := by
  simp only [State.verifyResult, he, hs]

theorem verifyResult_verifyHome {e : MapEntry} (he : s.ru.entry = some ref) (hs : s.ru.stage = some .verifyHome)
    (hm : s.entry? ref.drive ref.home = some e) (outcomes : List Outcome) : s.verifyResult outcomes
      = if verifyPasses e.lost outcomes then s.toStage .releaseAlternate else s.abandonReturn ref := by
  simp only [State.verifyResult, he, hs, hm]

theorem readResult_readSource (he : s.ru.entry = some ref) (hs : s.ru.stage = some .readSource)
    (entries : List BufEntry) : s.readResult entries
      = State.toStage { s with buffer := some entries, ru := { s.ru with sourceRead := true } } .writeTargetHeader := by
  simp only [State.readResult, he, hs]

theorem readResult_readAlternate (he : s.ru.entry = some ref) (hs : s.ru.stage = some .readAlternate)
    (entries : List BufEntry) : s.readResult entries
      = State.toStage (State.modEntry { s with buffer := some entries, ru := { s.ru with sourceRead := true } } ref.drive
          ref.home fun e => { e with lost := e.lost ||| bufferLost (some entries) }) .writeHome := by
  simp only [State.readResult, he, hs]

theorem writeResult_eq (s : State) :
    (s.ru.stage = some .writeTarget → s.writeResult = s.toStage .verifyTarget)
      ∧ (s.ru.stage = some .writeHome → s.writeResult = s.toStage .verifyHome) :=
  ⟨fun hs => by simp only [State.writeResult, hs], fun hs => by simp only [State.writeResult, hs]⟩

theorem headerResult_of_aborting (h : s.ru.state = .aborting) (ok : Bool) : s.headerResult ok = s.ruIdle := by
  simp only [State.headerResult, h]

theorem rejectDone_of_lt (h : s.ru.verifyFailures < 3) (ref : EntryRef) :
    s.rejectDone ref = s.allocate ref fun t => t.toStage .writeTargetHeader := if_pos h

/-- A header step's result by the stage of the entry in hand. -/
theorem headerResult_of_stage (h : s.ru.state ≠ .aborting) (he : s.ru.entry = some ref) (ok : Bool) :
    (s.ru.stage = some .writeTargetHeader →
        s.headerResult ok = if ok then s.toStage .writeTarget else s.targetFailure ref)
      ∧ (s.ru.stage = some .commitTarget → s.headerResult ok = if ok then s.commit ref else s.targetFailure ref)
      ∧ (s.ru.stage = some .discardOld → s.headerResult ok = s.ruIdle)
      ∧ (s.ru.stage = some .rejectTarget → s.headerResult ok = s.rejectDone ref)
      ∧ (s.ru.stage = some .releaseAlternate → s.headerResult ok
          = if ok then s.releaseAlternate ref
            else (s.modRu fun u => { u with releaseFailed := true }).toStage .restoreHeader)
      ∧ (s.ru.stage = some .restoreHeader → s.headerResult ok = s.abandonReturn ref) := by
  unfold State.headerResult
  rw [he]
  cases hst : s.ru.state with
  | aborting => exact absurd hst h
  | idle | running | suspended => refine ⟨?_, ?_, ?_, ?_, ?_, ?_⟩ <;> exact fun hs => by rw [hs]

end

/-! ### The point between steps, of the unit's own record -/

theorem restartCheck_of_unchanged {s : State} (h : s.ru.sourceChanged = false) (ref : EntryRef) :
    s.restartCheck ref = s := by
  simp [State.restartCheck, h]

/-- The step placed, of the unit's record it is the step's place alone that changes. -/
theorem placeNext_same (s : State) (ref : EntryRef) :
    (s.placeNext ref).ru.stage = s.ru.stage ∧ (s.placeNext ref).ru.spare = s.ru.spare
      ∧ (s.placeNext ref).buffer = s.buffer := by
  unfold State.placeNext
  split
  · exact ⟨rfl, rfl, rfl⟩
  · split
    · exact ⟨rfl, rfl, rfl⟩
    · split
      · unfold State.handStep
        split <;> exact ⟨rfl, rfl, rfl⟩
      · exact ⟨rfl, rfl, rfl⟩

/-- With the source unchanged there is no restart, so the unit goes on to the stage, running or suspended. -/
theorem toStage_of_unchanged {s : State} (h : s.ru.sourceChanged = false) (st : Stage) :
    (s.toStage st).ru.stage = some st ∧ (s.toStage st).ru.spare = s.ru.spare ∧ (s.toStage st).buffer = s.buffer := by
  unfold State.toStage State.ruPoint
  split
  · exact ⟨rfl, rfl, rfl⟩
  · rename_i ref _
    dsimp only
    rw [restartCheck_of_unchanged (s := s.modRu fun u => { u with stage := some st, step := .point }) h]
    split
    · exact ⟨rfl, rfl, rfl⟩
    · exact placeNext_same _ ref

theorem toStage_same (s : State) (st : Stage) :
    (s.toStage st).drives = s.drives ∧ (s.toStage st).ports = s.ports := by
  obtain ⟨drives, ports, _⟩ := ruPoint_same (s.modRu fun u => { u with stage := some st, step := .point })
  exact ⟨drives, ports⟩

theorem entry?_of_drives {s t : State} (h : t.drives = s.drives) (d : DriveId) (home : Track) :
    t.entry? d home = s.entry? d home := entry?_of_map (congrArg Drive.map (drive_congr h d)) home

/-! ### Linked requests ended -/

/-- v stands after the ending of a linked request in u: the relocation unit, the pools and the queues as `LeavesUnit` says,
the entries with no change but in their links, the rest as `Keeps` says, and a request of
this link that was still to end ended with this status. -/
structure EndsLink (link : Option Nat) (st : Status) (u v : State) : Prop extends LeavesUnit u v, Keeps u v where
  entry : ∀ d home e, u.entry? d home = some e → ∃ l, v.entry? d home = some { e with linked := l }
  ended : ∀ p r, link = some r.pos → u.endsQueued p r → v.endedWith p r st

theorem endsLink_endLinked (u : State) (link : Option Nat) (st : Status) : EndsLink link st u (u.endLinked link st) where
  toLeavesUnit := leavesUnit_endLinked u link st
  toKeeps := keeps_endLinked u link st
  entry _ _ _ := entry?_endLinked link st
  ended p r hl hr := by
    rw [hl]
    exact endedWith_endLinked hr st

/-- The attention of a drive is no work on any request. -/
theorem endsApart_attend (s : State) (d : DriveId) : EndsApart none s (s.attend d) := by
  have one (t : State) (p : PortId) : EndsApart none t (t.modPort p fun P =>
      if P.state == .lost then P else { P with attention := insertDrive d P.attention }) := by
    refine .modPort t p _ ?_ ?_ ?_ <;> split <;> simp [Port.connectedTo, Port.dataConn]
  exact (((one s .a).trans (one _ .b)).trans (one _ .c)).trans (one _ .d)

section

variable {link : Option Nat} {st : Status} {u v : State}

theorem EndsLink.attend (h : EndsLink link st u v) (d : DriveId) : EndsLink link st u (v.attend d) where
  toLeavesUnit := h.toLeavesUnit.trans (leavesUnit_attend v d)
  toKeeps := h.toKeeps.trans (keeps_attend v d)
  entry e home x hx := by
    rw [entry?_attend]
    exact h.entry e home x hx
  ended p r hl hr := (h.ended p r hl hr).of_leaves (leavesUnit_attend v d)

theorem EndsLink.of_attend {d : DriveId} (h : EndsLink link st (u.attend d) v) : EndsLink link st u v where
  toLeavesUnit := (leavesUnit_attend u d).trans h.toLeavesUnit
  toKeeps := (keeps_attend u d).trans h.toKeeps
  entry e home x hx := h.entry e home x ((entry?_attend u d e home).trans hx)
  ended p r hl hr := h.ended p r hl (hr.of_ends (endsApart_attend u d).toEnds nofun)

/-- An entry that there is none of is not made by the ending of a link. -/
theorem EndsLink.entry?_none (h : EndsLink link st u v) {d : DriveId} {home : Track} (hn : u.entry? d home = none) :
    v.entry? d home = none := by
  have absent (t : State) : t.entry? d home = none ↔ home ∉ (t.drive d).map.map (·.home) := by
    simp [State.entry?]
  rw [absent, h.homes d, ← absent]
  exact hn

theorem EndsLink.health_eq (h : EndsLink link st u v) (d : DriveId) : (v.drive d).health = (u.drive d).health :=
  (congrArg Drive.health (h.drive d) :)

end

/-- A change of drives alone leaves a request still to end. -/
theorem State.endsQueued.of_drives {s t : State} {p : PortId} {r : Record} (h : s.endsQueued p r)
    (hp : t.ports = s.ports) (hk : t.paths = s.paths) (hr : t.records = s.records) : t.endsQueued p r := by
  obtain ⟨record, source, running, attached, live, apart⟩ := h
  exact ⟨(request?_congr hr r.pos).trans record, source, running, attached, by rwa [port_congr hp],
    (ownConnection_congr hp hk p r.pos).trans apart⟩

theorem linkedOf_of_entry? {s : State} {ref : EntryRef} {e : MapEntry} (he : s.entry? ref.drive ref.home = some e) :
    s.linkedOf ref.drive ref.home = e.linked := by
  simp only [State.linkedOf, he]

/-- The linked request ended COMPLETE and the drive attended, as a commit and a release do. -/
def State.announce (u : State) (d : DriveId) (link : Option Nat) : State := (u.endLinked link .complete).attend d

theorem endsLink_announce (u : State) (d : DriveId) (link : Option Nat) : EndsLink link .complete u (u.announce d link) :=
  (endsLink_endLinked u link .complete).attend d

theorem mem_attention_announce {u : State} (d : DriveId) (link : Option Nat) {p : PortId}
    (hp : (u.port p).state ≠ .lost) : d ∈ ((u.announce d link).port p).attention :=
  mem_attention_attend _ d p ((keeps_endLinked u link .complete).notLost p hp)

/-! ### Entries that rejoin the work list (R157, R162) -/

/-- The ports and the stalled order stand as they stood, and no entry leaves the work list. -/
structure AddsWork (s t : State) : Prop where
  ports : t.ports = s.ports
  stalled : t.stalled = s.stalled
  workList : ∀ x ∈ s.workList, x ∈ t.workList

theorem AddsWork.foldl {α : Type} {f : State → α → State} (h : ∀ s a, AddsWork s (f s a)) (l : List α) (s : State) :
    AddsWork s (l.foldl f s) := by
  induction l generalizing s with
  | nil => exact ⟨rfl, rfl, fun _ => id⟩
  | cons a l ih =>
    obtain ⟨ports, stalled, workList⟩ := h s a
    obtain ⟨ports', stalled', workList'⟩ := ih (f s a)
    exact ⟨ports'.trans ports, stalled'.trans stalled, fun x hx => workList' x (workList x hx)⟩

/-- An entry appended is on the work list, which is all that changes. -/
theorem appendWork_eq (s : State) (x : EntryRef) :
    ∃ w, s.appendWork x = { s with workList := w } ∧ x ∈ w ∧ ∀ y ∈ s.workList, y ∈ w := by
  unfold State.appendWork
  split
  · rename_i h
    exact ⟨s.workList, rfl, List.contains_iff_mem.1 h, fun _ => id⟩
  · exact ⟨s.workList ++ [x], rfl, by simp, fun y hy => List.mem_append_left _ hy⟩

theorem foldl_appendWork_eq (l : List EntryRef) (s : State) :
    ∃ w, l.foldl State.appendWork s = { s with workList := w } ∧ (∀ y ∈ s.workList, y ∈ w) ∧ ∀ y ∈ l, y ∈ w := by
  induction l generalizing s with
  | nil => exact ⟨s.workList, rfl, fun _ => id, nofun⟩
  | cons x l ih =>
    obtain ⟨w, eq, mem, old⟩ := appendWork_eq s x
    obtain ⟨w', eq', old', mem'⟩ := ih { s with workList := w }
    rw [List.foldl_cons, eq]
    exact ⟨w', eq', fun y hy => old' y (old y hy), List.forall_mem_cons.2 ⟨old' x mem, mem'⟩⟩

theorem rejoinStalled_eq (s : State) (d : DriveId) :
    ∃ w, s.rejoinStalled d = { s with stalled := s.stalled.filter fun r => r.drive != d, workList := w }
      ∧ ∀ x ∈ s.stalled, x.drive = d → x ∈ w := by
  obtain ⟨w, eq, _, mem⟩ := foldl_appendWork_eq (s.stalled.filter fun r => r.drive == d)
    { s with stalled := s.stalled.filter fun r => r.drive != d }
  exact ⟨w, eq, fun x hx hd => mem x (List.mem_filter.2 ⟨hx, by simpa using hd⟩)⟩

theorem addsWork_judgeTrack (s : State) (d : DriveId) (t : Track) : AddsWork s (s.judgeTrack d t) := by
  have refl (f : Drive → Drive) : AddsWork s (s.modDrive d f) := ⟨rfl, rfl, fun _ => id⟩
  have work (u : State) (x : EntryRef) (hp : u.ports = s.ports) (hs : u.stalled = s.stalled)
      (hw : u.workList = s.workList) : AddsWork s ((u.appendWork x).dropHealth d t) := by
    obtain ⟨w, eq, _, old⟩ := appendWork_eq u x
    rw [eq]
    exact ⟨hp, hs, fun y hy => old y (hw ▸ hy)⟩
  unfold State.judgeTrack State.requestReplacement State.declareAutomatic
  dsimp only
  split
  · split
    · exact work _ _ rfl rfl rfl
    · exact refl _
  · split
    · exact refl _
    · split
      · exact work _ _ rfl rfl rfl
      · exact refl _

theorem addsWork_retryWaiting (s : State) (d : DriveId) : AddsWork s (s.retryWaiting d) :=
  .foldl (fun t track => addsWork_judgeTrack t d track) _ s

theorem retryWaiting_of_none {s : State} {d : DriveId} (h : ∀ x ∈ (s.drive d).health, x.waiting = false) :
    s.retryWaiting d = s := by
  have none : (s.drive d).health.filter (·.waiting) = [] := List.filter_eq_nil_iff.2 fun x hx => by simp [h x hx]
  simp only [State.retryWaiting, none, List.map_nil, List.foldl_nil]

/-! ### An entry backed out and stalled (R131, R165) -/

theorem backOut_of_forward {e : MapEntry} (hs : e.state = .moving .forward) :
    e.backOut = { e with state := .pending, target := none } := by
  simp only [MapEntry.backOut, hs]

theorem backOut_of_replacement {e : MapEntry} (hs : e.state = .moving .replacement) :
    e.backOut = { e with state := .active, alternate := e.previous, previous := none, target := none } := by
  simp only [MapEntry.backOut, hs]

theorem backOut_of_return {e : MapEntry} (hs : e.state = .moving .ret) :
    e.backOut = { e with state := .active, named := false } := by
  simp only [MapEntry.backOut, hs]

theorem mem_stalled_appendStalled (s : State) (x : EntryRef) : x ∈ (s.appendStalled x).stalled := by
  unfold State.appendStalled
  split
  · rename_i h
    exact List.contains_iff_mem.1 h
  · exact List.mem_append_right _ (List.mem_singleton_self x)

theorem appendStalled_same (s : State) (x : EntryRef) :
    (s.appendStalled x).drives = s.drives ∧ (s.appendStalled x).ports = s.ports ∧ (s.appendStalled x).paths = s.paths
      ∧ (s.appendStalled x).records = s.records := by
  unfold State.appendStalled
  split <;> exact ⟨rfl, rfl, rfl, rfl⟩

/-! ### A commit and a release before the unit goes on (R171, R174) -/

theorem setSpare?_eq (s : State) (d : DriveId) (t : Option Track) (st : SpareState) :
    s.setSpare? d t st = s.modDrive d fun D => { D with pool := t.elim D.pool fun t => setPool t st D.pool } := by
  cases t with
  | some t => rfl
  | none =>
    show s = { s with drives := s.drives.set d.val s.drives[d.val] d.isLt }
    rw [Vector.set_getElem_self]

/-- A change of one entry and of one spare's pool state, seen in the entry and in the pool. -/
theorem modEntry_setSpare?_leaves {s : State} {ref : EntryRef} {e : MapEntry}
    (he : s.entry? ref.drive ref.home = some e) (f : MapEntry → MapEntry) (hf : (f e).home = e.home) (t : Option Track)
    (st : SpareState) :
    ((s.modEntry ref.drive ref.home f).setSpare? ref.drive t st).entry? ref.drive ref.home = some (f e)
      ∧ (((s.modEntry ref.drive ref.home f).setSpare? ref.drive t st).drive ref.drive).pool
          = t.elim (s.drive ref.drive).pool fun t => setPool t st (s.drive ref.drive).pool := by
  constructor
  · rw [entry?_setSpare?]
    exact entry?_modEntry f (hf.trans (home_of_entry? he)) he
  · rw [pool_setSpare?, pool_modEntry]

theorem committed_eq (e : MapEntry) (lost : SectorSet) :
    (e.committed lost).state = .active ∧ (e.committed lost).alternate = e.target ∧ (e.committed lost).target = none
      ∧ (e.committed lost).previous = none ∧ (e.committed lost).lost = lost
      ∧ (e.committed lost).generation = (if e.state = .moving .replacement then e.generation + 1 else 0)
      ∧ (e.committed lost).replacement = (if e.state = .moving .replacement then false else e.replacement) := by
  refine ⟨rfl, rfl, rfl, rfl, rfl, ?_, ?_⟩ <;> simp [MapEntry.committed, MapEntry.nextGeneration]

/-- The map, the pool and the buffer as a commit leaves them, before it ends the linked request. -/
def State.putInForce (s : State) (ref : EntryRef) (e : MapEntry) : State :=
  { (s.modEntry ref.drive ref.home fun x => x.committed (bufferLost s.buffer)).setSpare? ref.drive e.previous .unusable with
    buffer := none }

theorem putInForce_same (s : State) (ref : EntryRef) (e : MapEntry) :
    (s.putInForce ref e).ports = s.ports ∧ (s.putInForce ref e).paths = s.paths
      ∧ (s.putInForce ref e).records = s.records ∧ (s.putInForce ref e).ru = s.ru := by
  unfold State.putInForce
  rw [setSpare?_eq]
  exact ⟨rfl, rfl, rfl, rfl⟩

/-- A commit, before the unit goes on. -/
def State.announceCommit (s : State) (ref : EntryRef) (e : MapEntry) : State :=
  (s.putInForce ref e).announce ref.drive e.linked

theorem endsLink_announceCommit (s : State) (ref : EntryRef) (e : MapEntry) :
    EndsLink e.linked .complete (s.putInForce ref e) (s.announceCommit ref e) := endsLink_announce _ _ _

/-- The map, the pool and the buffer as a release leaves them, before it ends the linked request. -/
def State.putBack (s : State) (ref : EntryRef) (e : MapEntry) : State :=
  { (s.removeEntry ref.drive ref.home).setSpare? ref.drive e.alternate .free with buffer := none }

/-- A release, before the stalled entries rejoin the work list and the unit goes on. -/
def State.announceRelease (s : State) (ref : EntryRef) (e : MapEntry) : State :=
  (s.putBack ref e).announce ref.drive e.linked

theorem endsLink_announceRelease (s : State) (ref : EntryRef) (e : MapEntry) :
    EndsLink e.linked .complete (s.putBack ref e) (s.announceRelease ref e) := endsLink_announce _ _ _

theorem putBack_leaves (s : State) (ref : EntryRef) (e : MapEntry) :
    (s.putBack ref e).entry? ref.drive ref.home = none
      ∧ ((s.putBack ref e).drive ref.drive).pool
          = e.alternate.elim (s.drive ref.drive).pool (fun t => setPool t .free (s.drive ref.drive).pool)
      ∧ ((s.putBack ref e).drive ref.drive).health = (s.drive ref.drive).health := by
  have eq : (s.putBack ref e).drive ref.drive = { s.drive ref.drive with
      map := (s.drive ref.drive).map.filter fun x => x.home != ref.home
      pool := e.alternate.elim (s.drive ref.drive).pool fun t => setPool t .free (s.drive ref.drive).pool } := by
    show ((s.removeEntry ref.drive ref.home).setSpare? ref.drive e.alternate .free).drive ref.drive = _
    rw [setSpare?_eq]
    simp only [State.removeEntry, drive_modDrive_same]
  unfold State.entry?
  rw [eq]
  exact ⟨by simp [List.find?_filter], rfl, rfl⟩

theorem putBack_same (s : State) (ref : EntryRef) (e : MapEntry) :
    (s.putBack ref e).ports = s.ports ∧ (s.putBack ref e).paths = s.paths
      ∧ (s.putBack ref e).records = s.records ∧ (s.putBack ref e).stalled = s.stalled := by
  unfold State.putBack
  rw [setSpare?_eq]
  exact ⟨rfl, rfl, rfl, rfl⟩

/-- The entry, the pool and the unit's record as a target failure leaves them, before the unit goes on (R170). -/
def State.failTarget (s : State) (ref : EntryRef) (e : MapEntry) : State :=
  ((s.setSpare? ref.drive e.target .unusable).modEntry ref.drive ref.home fun e => { e with target := none }).modRu fun u =>
    { u with verifyFailures := satSucc Config.retryLimit u.verifyFailures, spare := e.target }

section

variable {s : State} {ref : EntryRef} {e : MapEntry} (he : s.entry? ref.drive ref.home = some e)
include he

/-! ### Target failure (R170) -/

theorem targetFailure_eq : s.targetFailure ref = (s.failTarget ref e).toStage .rejectTarget := by
  simp only [State.targetFailure, he]
  rfl

theorem targetFailure_leaves :
    (s.targetFailure ref).entry? ref.drive ref.home = some { e with target := none }
      ∧ ((s.targetFailure ref).drive ref.drive).pool = e.target.elim (s.drive ref.drive).pool
          (fun t => setPool t .unusable (s.drive ref.drive).pool)
      ∧ (s.targetFailure ref).ru.stage = some .rejectTarget ∧ (s.targetFailure ref).ru.spare = e.target
      ∧ (s.targetFailure ref).ru.verifyFailures = min (s.ru.verifyFailures + 1) 3 := by
  obtain ⟨stage, spare, failures⟩ := toStage_rejectTarget (s.failTarget ref e)
  obtain ⟨drives, _⟩ := toStage_same (s.failTarget ref e) .rejectTarget
  have spared : (s.setSpare? ref.drive e.target .unusable).entry? ref.drive ref.home = some e :=
    (entry?_setSpare? _ _ _ _ _ _).trans he
  rw [targetFailure_eq he, entry?_of_drives drives, drive_congr drives]
  refine ⟨?_, ?_, stage, spare, ?_⟩
  · exact entry?_modEntry (fun e => { e with target := none }) (home_of_entry? he :) spared
  · exact (pool_modEntry _ _ _ _ _).trans (pool_setSpare? _ _ _ _)
  · rw [failures, State.failTarget, ru_modRu, setSpare?_eq]
    rfl

/-! ### Commit (R171) -/

theorem commit_eq :
    s.commit ref = if e.state == .moving .replacement then
        ((s.announceCommit ref e).modRu fun u => { u with spare := e.previous }).toStage .discardOld
      else (s.announceCommit ref e).ruIdle := by
  simp only [State.commit, he]
  rfl

/-- Where the unit goes after a commit, neither drives nor ports are touched. -/
theorem commit_same :
    (s.commit ref).drives = (s.announceCommit ref e).drives ∧ (s.commit ref).ports = (s.announceCommit ref e).ports := by
  rw [commit_eq he]
  split
  · exact toStage_same _ _
  · exact ⟨rfl, rfl⟩

/-- A commit leaves of the entry what `MapEntry.committed` says, but perhaps no link, and the previous alternate UNUSABLE. -/
theorem commit_leaves :
    (∃ l, (s.commit ref).entry? ref.drive ref.home = some { e.committed (bufferLost s.buffer) with linked := l })
      ∧ ((s.commit ref).drive ref.drive).pool
          = e.previous.elim (s.drive ref.drive).pool (fun t => setPool t .unusable (s.drive ref.drive).pool) := by
  obtain ⟨drives, _⟩ := commit_same he
  have announced := endsLink_announceCommit s ref e
  obtain ⟨entry, pool⟩ := modEntry_setSpare?_leaves he (fun x => x.committed (bufferLost s.buffer)) rfl e.previous .unusable
  rw [entry?_of_drives drives, drive_congr drives]
  exact ⟨announced.entry _ _ _ entry, (announced.pool _).trans pool⟩

theorem commit_idle (h : e.state ≠ .moving .replacement) :
    (s.commit ref).ru = Relocation.reset ∧ (s.commit ref).buffer = none := by
  rw [commit_eq he, if_neg (by simpa using h)]
  exact ⟨rfl, rfl⟩

theorem commit_discards (h : e.state = .moving .replacement) (hc : s.ru.sourceChanged = false) :
    (s.commit ref).ru.stage = some .discardOld ∧ (s.commit ref).ru.spare = e.previous ∧ (s.commit ref).buffer = none := by
  have announced := endsLink_announceCommit s ref e
  obtain ⟨_, _, _, ru⟩ := putInForce_same s ref e
  have unchanged : (s.announceCommit ref e).ru.sourceChanged = false := by rw [announced.ru, ru, hc]
  obtain ⟨stage, spare, buffer⟩ := toStage_of_unchanged
    (s := (s.announceCommit ref e).modRu fun u => { u with spare := e.previous }) unchanged .discardOld
  rw [commit_eq he, if_pos (by simpa using h)]
  exact ⟨stage, spare, buffer.trans announced.buffer⟩

theorem commit_attends {p : PortId} (hp : (s.port p).state ≠ .lost) : ref.drive ∈ ((s.commit ref).port p).attention := by
  obtain ⟨ports, _⟩ := putInForce_same s ref e
  rw [port_congr (commit_same he).2]
  exact mem_attention_announce ref.drive e.linked (by rwa [port_congr ports])

theorem commit_endsLinked {p : PortId} {r : Record} (hl : e.linked = some r.pos) (hr : s.endsQueued p r) :
    (s.commit ref).endedWith p r .complete := by
  obtain ⟨ports, paths, records, _⟩ := putInForce_same s ref e
  have announced := endsLink_announceCommit s ref e
  exact (announced.ended p r hl (hr.of_drives ports paths records)).of_queue
    (congrArg Port.statusQueue (port_congr (commit_same he).2 p))

/-! ### An abandoned return (R173, R174) -/

theorem abandonReturn_eq : s.abandonReturn ref
    = (((s.modEntry ref.drive ref.home MapEntry.backOut).attend ref.drive).endLinked e.linked .returnFailed).ruIdle := by
  simp only [State.abandonReturn, linkedOf_of_entry? he]

theorem endsLink_abandonReturn : ∃ v, s.abandonReturn ref = v.ruIdle
    ∧ EndsLink e.linked .returnFailed (s.modEntry ref.drive ref.home MapEntry.backOut) v :=
  ⟨_, abandonReturn_eq he, (endsLink_endLinked _ _ _).of_attend⟩

theorem abandonReturn_leaves :
    (∃ l, (s.abandonReturn ref).entry? ref.drive ref.home = some { e.backOut with linked := l })
      ∧ ((s.abandonReturn ref).drive ref.drive).pool = (s.drive ref.drive).pool
      ∧ (s.abandonReturn ref).ru = Relocation.reset ∧ (s.abandonReturn ref).buffer = none := by
  obtain ⟨v, eq, ends⟩ := endsLink_abandonReturn he
  have entry := entry?_modEntry MapEntry.backOut ((backOut_home e).trans (home_of_entry? he)) he
  rw [eq]
  exact ⟨ends.entry _ _ _ entry, (ends.pool _).trans (pool_modEntry _ _ _ _ _), rfl, rfl⟩

theorem abandonReturn_attends {p : PortId} (hp : (s.port p).state ≠ .lost) :
    ref.drive ∈ ((s.abandonReturn ref).port p).attention := by
  rw [abandonReturn_eq he]
  exact (keeps_endLinked _ _ _).attended p ref.drive (mem_attention_attend _ _ p hp)

theorem abandonReturn_endsLinked {p : PortId} {r : Record} (hl : e.linked = some r.pos) (hr : s.endsQueued p r) :
    (s.abandonReturn ref).endedWith p r .returnFailed := by
  obtain ⟨v, eq, ends⟩ := endsLink_abandonReturn he
  rw [eq]
  exact (ends.ended p r hl (hr.of_drives rfl rfl rfl)).of_queue rfl

/-! ### A stalled entry (R165, R170) -/

theorem endsLink_stallEntry : ∃ v, s.stallEntry ref = v.ruIdle
    ∧ EndsLink e.linked .noSpare ((s.modEntry ref.drive ref.home MapEntry.backOut).appendStalled ref) v :=
  ⟨_, by simp only [State.stallEntry, linkedOf_of_entry? he], endsLink_endLinked _ _ _⟩

theorem stallEntry_leaves :
    (∃ l, (s.stallEntry ref).entry? ref.drive ref.home = some { e.backOut with linked := l })
      ∧ ((s.stallEntry ref).drive ref.drive).pool = (s.drive ref.drive).pool ∧ ref ∈ (s.stallEntry ref).stalled
      ∧ (s.stallEntry ref).ru = Relocation.reset ∧ (s.stallEntry ref).buffer = none := by
  obtain ⟨v, eq, ends⟩ := endsLink_stallEntry he
  obtain ⟨drives, _⟩ := appendStalled_same (s.modEntry ref.drive ref.home MapEntry.backOut) ref
  have entry := entry?_modEntry MapEntry.backOut ((backOut_home e).trans (home_of_entry? he)) he
  rw [eq]
  refine ⟨ends.entry _ _ _ ((entry?_of_drives drives _ _).trans entry), ?_, ?_, rfl, rfl⟩
  · exact (ends.pool _).trans ((congrArg Drive.pool (drive_congr drives _)).trans (pool_modEntry _ _ _ _ _))
  · show ref ∈ v.stalled
    rw [ends.stalled]
    exact mem_stalled_appendStalled _ ref

theorem stallEntry_endsLinked {p : PortId} {r : Record} (hl : e.linked = some r.pos) (hr : s.endsQueued p r) :
    (s.stallEntry ref).endedWith p r .noSpare := by
  obtain ⟨v, eq, ends⟩ := endsLink_stallEntry he
  obtain ⟨_, ports, paths, records⟩ := appendStalled_same (s.modEntry ref.drive ref.home MapEntry.backOut) ref
  rw [eq]
  exact (ends.ended p r hl (hr.of_drives ports paths records)).of_queue rfl

/-- At the third target failure the entry stalls, the drive attended or not by origin and direction (R132, R170). -/
theorem rejectDone_of_le (h : 3 ≤ s.ru.verifyFailures) :
    s.rejectDone ref = s.stallEntry ref ∨ s.rejectDone ref = (s.attend ref.drive).stallEntry ref := by
  unfold State.rejectDone
  rw [if_neg (c := s.ru.verifyFailures < Config.retryLimit) (Nat.not_lt.2 h), he]
  dsimp only
  split
  · exact .inr rfl
  · exact .inl rfl

theorem rejectDone_leaves (h : 3 ≤ s.ru.verifyFailures) :
    (∃ l, (s.rejectDone ref).entry? ref.drive ref.home = some { e.backOut with linked := l })
      ∧ ((s.rejectDone ref).drive ref.drive).pool = (s.drive ref.drive).pool ∧ ref ∈ (s.rejectDone ref).stalled
      ∧ (s.rejectDone ref).ru = Relocation.reset ∧ (s.rejectDone ref).buffer = none := by
  rcases rejectDone_of_le he h with eq | eq <;> rw [eq]
  · exact stallEntry_leaves he
  · rw [← (leavesUnit_attend s ref.drive).pool]
    exact stallEntry_leaves ((entry?_attend _ _ _ _).trans he)

theorem rejectDone_endsLinked (h : 3 ≤ s.ru.verifyFailures) {p : PortId} {r : Record} (hl : e.linked = some r.pos)
    (hr : s.endsQueued p r) : (s.rejectDone ref).endedWith p r .noSpare := by
  rcases rejectDone_of_le he h with eq | eq <;> rw [eq]
  · exact stallEntry_endsLinked he hl hr
  · exact stallEntry_endsLinked ((entry?_attend _ _ _ _).trans he) hl
      (hr.of_ends (endsApart_attend s ref.drive).toEnds nofun)

/-! ### The release of an alternate (R174) -/

theorem releaseAlternate_eq : s.releaseAlternate ref
    = (((s.announceRelease ref e).rejoinStalled ref.drive).retryWaiting ref.drive).ruIdle := by
  simp only [State.releaseAlternate, he]
  rfl

theorem ports_releaseAlternate : (s.releaseAlternate ref).ports = (s.announceRelease ref e).ports := by
  obtain ⟨w, eq, _⟩ := rejoinStalled_eq (s.announceRelease ref e) ref.drive
  rw [releaseAlternate_eq he]
  exact (addsWork_retryWaiting _ _).ports.trans (by rw [eq])

/-- With no health entry waiting, no map entry is made in the place of the one released (R157). -/
theorem releaseAlternate_leaves (h : ∀ x ∈ (s.drive ref.drive).health, x.waiting = false) :
    (s.releaseAlternate ref).entry? ref.drive ref.home = none
      ∧ ((s.releaseAlternate ref).drive ref.drive).pool
          = e.alternate.elim (s.drive ref.drive).pool (fun t => setPool t .free (s.drive ref.drive).pool) := by
  have ends := endsLink_announceRelease s ref e
  obtain ⟨entry, pool, health⟩ := putBack_leaves s ref e
  obtain ⟨w, eq, _⟩ := rejoinStalled_eq (s.announceRelease ref e) ref.drive
  have quiet : ((s.announceRelease ref e).rejoinStalled ref.drive).retryWaiting ref.drive
      = (s.announceRelease ref e).rejoinStalled ref.drive := by
    refine retryWaiting_of_none ?_
    rw [eq]
    show ∀ x ∈ ((s.announceRelease ref e).drive ref.drive).health, x.waiting = false
    rwa [ends.health_eq, health]
  rw [releaseAlternate_eq he, quiet, eq]
  exact ⟨ends.entry?_none entry, (ends.pool _).trans pool⟩

theorem releaseAlternate_idle :
    (s.releaseAlternate ref).ru = Relocation.reset ∧ (s.releaseAlternate ref).buffer = none := by
  rw [releaseAlternate_eq he]
  exact ⟨rfl, rfl⟩

theorem releaseAlternate_rejoins :
    (s.releaseAlternate ref).stalled = s.stalled.filter (fun x => x.drive != ref.drive)
      ∧ ∀ x ∈ s.stalled, x.drive = ref.drive → x ∈ (s.releaseAlternate ref).workList := by
  obtain ⟨_, _, _, put⟩ := putBack_same s ref e
  have stalled := (endsLink_announceRelease s ref e).stalled.trans put
  obtain ⟨w, eq, mem⟩ := rejoinStalled_eq (s.announceRelease ref e) ref.drive
  obtain ⟨_, stalled', workList⟩ := addsWork_retryWaiting ((s.announceRelease ref e).rejoinStalled ref.drive)
    ref.drive
  rw [releaseAlternate_eq he]
  rw [eq] at stalled' workList
  rw [← stalled, eq]
  exact ⟨stalled', fun x hx hd => workList x (mem x hx hd)⟩

theorem releaseAlternate_attends {p : PortId} (hp : (s.port p).state ≠ .lost) :
    ref.drive ∈ ((s.releaseAlternate ref).port p).attention := by
  obtain ⟨ports, _⟩ := putBack_same s ref e
  rw [port_congr (ports_releaseAlternate he)]
  exact mem_attention_announce ref.drive e.linked (by rwa [port_congr ports])

theorem releaseAlternate_endsLinked {p : PortId} {r : Record} (hl : e.linked = some r.pos) (hr : s.endsQueued p r) :
    (s.releaseAlternate ref).endedWith p r .complete := by
  obtain ⟨ports, paths, records, _⟩ := putBack_same s ref e
  exact ((endsLink_announceRelease s ref e).ended p r hl (hr.of_drives ports paths records)).of_queue
    (congrArg Port.statusQueue (port_congr (ports_releaseAlternate he) p))

end

/-- Settles O52: the operation of each stage's result is written as one equation above, and its clauses are read off what
the ending of the linked request (`EndsLink`) and the point between steps leave. -/
theorem verifyJudgement : Obligations.VerifyJudgement := by
  refine ⟨fun _ _ => verifyPasses_iff, fun s ref outcomes he => ⟨fun hs => verifyResult_verifyTarget he hs outcomes,
      fun e hs hm => verifyResult_verifyHome he hs hm outcomes⟩, fun s ref ok h he => ?_,
    fun s ok h => headerResult_of_aborting h ok, fun s ref entries he => ⟨fun hs => readResult_readSource he hs entries,
      fun hs => readResult_readAlternate he hs entries⟩, writeResult_eq, fun s ref e he => ?_⟩
  · obtain ⟨header, commit, discard, reject, release, restore⟩ := headerResult_of_stage h he ok
    refine ⟨header, commit, discard, fun hs => ?_, release, restore⟩
    rw [reject hs]
    split
    · rename_i few
      exact rejectDone_of_lt few ref
    · rfl
  · obtain ⟨⟨lc, committed⟩, poolCommitted⟩ := commit_leaves he
    obtain ⟨ruReleased, bufferReleased⟩ := releaseAlternate_idle he
    obtain ⟨stalled, rejoined⟩ := releaseAlternate_rejoins he
    obtain ⟨⟨la, abandoned⟩, poolAbandoned, ruAbandoned, bufferAbandoned⟩ := abandonReturn_leaves he
    refine ⟨targetFailure_leaves he,
      ⟨⟨_, committed, committed_eq e _⟩, poolCommitted, commit_idle he, commit_discards he, fun _ => commit_attends he,
        fun _ _ => commit_endsLinked he⟩,
      ⟨releaseAlternate_leaves he, ruReleased, bufferReleased, stalled, rejoined, fun _ => releaseAlternate_attends he,
        fun _ _ => releaseAlternate_endsLinked he⟩,
      ⟨fun hs => ?_, poolAbandoned, ruAbandoned, bufferAbandoned, fun _ => abandonReturn_attends he,
        fun _ _ => abandonReturn_endsLinked he⟩, fun third => ?_⟩
    · rw [backOut_of_return hs] at abandoned
      exact ⟨_, abandoned, rfl, rfl, rfl⟩
    · obtain ⟨⟨lr, rejected⟩, pool, stalled, ru, buffer⟩ := rejectDone_leaves he third
      refine ⟨fun hs => ?_, fun hs => ?_, pool, stalled, ru, buffer, fun _ _ => rejectDone_endsLinked he third⟩
      · rw [backOut_of_forward hs] at rejected
        exact ⟨_, rejected, rfl, rfl⟩
      · rw [backOut_of_replacement hs] at rejected
        exact ⟨_, rejected, rfl, rfl, rfl, rfl⟩

end Sys2Proof.Machine

namespace Sys2Proof.Machine

/-! ### Orders that move a lock (R183 to R185) -/

/-- The lock of drive d stands at a holder, and every other drive's lock as it stood. -/
structure State.LockMoved (s t : State) (d : DriveId) (holder : Option PortId) : Prop where
  here : (t.drive d).lock = holder
  elsewhere : ∀ e, e ≠ d → (t.drive e).lock = (s.drive e).lock

theorem lockMoved_setLock (s : State) (d : DriveId) (holder : Option PortId) :
    s.LockMoved (s.setLock d holder) d holder where
  here := by simp [State.setLock]
  elsewhere e he := by simp [State.setLock, drive_modDrive_other, he]

/-- SEIZE of a held lock: the former holder's mark is set, and the lock moves (R185). -/
theorem acceptSeize_of_held {s : State} {q : PortId} {d : DriveId} (h : (s.drive d).lock = some q) (p : PortId) :
    s.acceptSeize p d = (s.setLockLost q d true).setLock d (some p) := by
  simp [State.acceptSeize, h]

/-- SEIZE passes its own check where another port, now LOST, holds the lock (R57). -/
theorem seizable_of_lost {s : State} {p q : PortId} {d : DriveId} (h : (s.drive d).lock = some q) (hq : q ≠ p)
    (lost : (s.port q).state = .lost) : s.seizable p d = true := by
  simp [State.seizable, h, hq, lost]

/-- An answer and the end of the event leave every lock. -/
theorem State.LockMoved.settle_answer {s t : State} {d : DriveId} {holder : Option PortId} (h : s.LockMoved t d holder)
    (p : PortId) (c : AcceptCode) (l : List Byte) : s.LockMoved (t.answer p c l).settle d holder where
  here := ((keeps_settle _).lock d).trans h.here
  elsewhere e he := ((keeps_settle _).lock e).trans (h.elsewhere e he)

/-- An order that takes no record and has no reply, heard and passed by the checks on state, lock and order, is carried
out and answered ACCEPTED. -/
theorem orderTaken_of_hears {s : State} {p : PortId} {d : DriveId} {o : DriveOrder} (tag : Byte) (h : s.hears p d)
    (hf : o.formOk = true) (hq : DriveOrder.isQueued o = false) (hd : checkDriveState o (s.drive d).state = none)
    (hl : checksLock o = true → s.lockFreeFor p d) (hs : s.checkSpecific p tag d o = none)
    (hr : s.replyFor p ⟨tag, .drive d o⟩ = []) :
    s.orderTaken p ⟨tag, .drive d o⟩ = (s.acceptDrive p tag d o).answer p .accepted [] :=
  hr ▸ orderTaken_of_passes (b := ⟨tag, .drive d o⟩) h.1 hf (checkDrive_of_hears o h hq hd hl hs)

/-- Settles O32: each order passes its own check and moves the lock of its drive, for SEIZE with the mark set first; the
answer and the end of the event leave locks and marks. -/
theorem lockOrders : Obligations.LockOrders := by
  intro s p d tag h
  refine ⟨fun free => ?_, fun held => ?_, fun q held other lost => ?_⟩
  · have taken : s.effect (.lock p d tag) = (s.setLock d (some p)).answer p .accepted [] :=
      orderTaken_of_hears tag h rfl rfl rfl nofun (refuseIf_eq_none.2 (heldElsewhere_of_lockFreeFor free)) rfl
    have moved := (lockMoved_setLock s d (some p)).settle_answer p .accepted []
    exact ⟨_, exec_of_effect taken, answered_settle _ p .accepted [], moved.here, moved.elsewhere⟩
  · have taken : s.effect (.unlock p d tag) = (s.setLock d none).answer p .accepted [] :=
      orderTaken_of_hears tag h rfl rfl rfl nofun (refuseIf_eq_none.2 (by simp [held])) rfl
    have moved := (lockMoved_setLock s d none).settle_answer p .accepted []
    exact ⟨_, exec_of_effect taken, answered_settle _ p .accepted [], moved.here, moved.elsewhere⟩
  · have taken : s.effect (.seize p d tag) = (s.acceptSeize p d).answer p .accepted [] :=
      orderTaken_of_hears tag h rfl rfl rfl nofun
        (refuseIf_eq_none.2 (by rw [seizable_of_lost held other lost]; rfl)) rfl
    rw [acceptSeize_of_held held] at taken
    have moved := (lockMoved_setLock (s.setLockLost q d true) d (some p)).settle_answer p .accepted []
    refine ⟨_, exec_of_effect taken, answered_settle _ p .accepted [], moved.here, ?_, moved.elsewhere⟩
    rw [lockLostMark_settle_answer]
    exact lockLostMark_setLockLost s q d true

end Sys2Proof.Machine

namespace Sys2Proof.Machine

/-! ### What a command leaves of the queue (log 1) -/

@[simp] theorem pending_addRequest (s : State) (p : PortId) (tag : Byte) (d : DriveId) (k : Kind) (es : List Extent)
    (t : Option Track) (st : RecState) : (s.addRequest p tag d k es t st).pending = s.pending := rfl

@[simp] theorem pending_addEntry (s : State) (d : DriveId) (e : MapEntry) : (s.addEntry d e).pending = s.pending := rfl

@[simp] theorem pending_modEntry (s : State) (d : DriveId) (home : Track) (f : MapEntry → MapEntry) :
    (s.modEntry d home f).pending = s.pending := rfl

@[simp] theorem pending_appendWork (s : State) (r : EntryRef) : (s.appendWork r).pending = s.pending :=
  (keeps_appendWork s r).pending

@[simp] theorem pending_dropStalled (s : State) (r : EntryRef) : (s.dropStalled r).pending = s.pending := rfl

@[simp] theorem pending_setLock (s : State) (d : DriveId) (holder : Option PortId) :
    (s.setLock d holder).pending = s.pending := rfl

@[simp] theorem pending_setLockLost (s : State) (p : PortId) (d : DriveId) (m : Bool) :
    (s.setLockLost p d m).pending = s.pending := rfl

@[simp] theorem pending_answer (s : State) (p : PortId) (c : AcceptCode) (l : List Byte) :
    (s.answer p c l).pending = s.pending := rfl

theorem pending_acceptCalibrate (s : State) (p : PortId) (tag : Byte) (d : DriveId) :
    (s.acceptCalibrate p tag d).pending = s.pending := by
  unfold State.acceptCalibrate
  split <;> simp

theorem pending_acceptDeclare (s : State) (p : PortId) (tag : Byte) (d : DriveId) (noCopy : Bool) (t : Track) :
    (s.acceptDeclare p tag d noCopy t).pending = s.pending := by
  unfold State.acceptDeclare
  dsimp only
  split
  · simp
  · split <;> simp

theorem pending_acceptRetire (s : State) (p : PortId) (tag : Byte) (d : DriveId) (t : Track) :
    (s.acceptRetire p tag d t).pending = s.pending := by
  simp [State.acceptRetire]

theorem pending_acceptSeize (s : State) (p : PortId) (d : DriveId) : (s.acceptSeize p d).pending = s.pending := by
  unfold State.acceptSeize
  split <;> simp

theorem pending_acceptDrive (s : State) (p : PortId) (tag : Byte) (d : DriveId) (o : DriveOrder) :
    (s.acceptDrive p tag d o).pending = s.pending := by
  cases o with
  | read | write | verify | position => exact pending_addRequest s p tag d _ _ _ _
  | calibrate => exact pending_acceptCalibrate s p tag d
  | declare noCopy _ t => exact pending_acceptDeclare s p tag d noCopy t
  | retire t => exact pending_acceptRetire s p tag d t
  | report => exact pending_modPort s p _
  | cancel => exact (still_acceptCancel s p tag).pending
  | lock | unlock => exact pending_setLock s d _
  | seize => exact pending_acceptSeize s p d
  | mapQuery | mapList => rfl
  | mapFreeze => exact pending_modDrive s d _

theorem pending_acceptOrder (s : State) (p : PortId) (b : OrderBlock) : (s.acceptOrder p b).pending = s.pending := by
  obtain ⟨tag, o⟩ := b
  cases o with
  | drive d o => exact pending_acceptDrive s p tag d o
  | stringStatus | setParameters => rfl

theorem pending_refused (s : State) (p : PortId) (b : OrderBlock) (code : AcceptCode) :
    (s.refused p b code).pending = s.pending := by
  unfold State.refused
  split
  · split <;> simp
  · rfl
  · rfl

/-- An order, refused or accepted, leaves the queue. -/
theorem pending_takeOrder (s : State) (p : PortId) (b : OrderBlock) : (s.takeOrder p b).pending = s.pending := by
  unfold State.takeOrder
  split
  · exact pending_refused s p b _
  · exact pending_acceptOrder s p b

theorem pending_orderTaken (s : State) (p : PortId) (b : OrderBlock) : (s.orderTaken p b).pending = s.pending := by
  unfold State.orderTaken
  split
  · split
    · exact pending_takeOrder s p b
    · exact pending_answer s p _ _
  · rfl

theorem pending_blockTaken (s : State) (p : PortId) (l : List LineByte) : (s.blockTaken p l).pending = s.pending := by
  rcases blockTaken_cases s p l with idle | ⟨code, answered⟩ | ⟨b, _, taken⟩
  · rw [idle]
  · rw [answered, pending_answer]
  · rw [taken, pending_takeOrder]

theorem pending_resetTables (s : State) (p : PortId) : (s.resetTables p).pending = s.pending := by
  obtain ⟨w, hw⟩ := foldl_modDrive_eq (Drive.freeLockOf p) allDrives ((s.dropWaiting p).modPort p Port.afterReset)
  unfold State.resetTables
  rw [hw]
  exact (still_dropWaiting s p).pending

theorem pending_resetPort (s : State) (p : PortId) : (s.resetPort p).pending = s.pending :=
  (keeps_resetPort_rest s p).pending.trans (pending_resetTables s p)

/-- Power-on reset keeps the queue, which is the order of the events still to come and no state of the unit (log 1). -/
theorem pending_powerOnReset (s : State) : s.powerOnReset.pending = s.pending := by
  obtain ⟨_, _, eq⟩ := powerOnReset_eq s
  rw [eq]

/-- The operation of every command leaves the queue. -/
theorem pending_effect (s : State) (c : Instr) : (s.effect c).pending = s.pending := by
  cases commandCase s c with
  | steady h => exact h.pending
  | order p b => rw [effect_command, pending_orderTaken]
  | block p l => exact pending_blockTaken s p l
  | portReset p => exact pending_resetPort s p
  | powerOnReset => exact pending_powerOnReset s

/-- Settles O3: every command answers its operation followed by the end of the event, and neither touches the queue. -/
theorem everyCommandAnswersNext : Obligations.EveryCommandAnswersNext := fun c s =>
  ⟨(s.effect c).settle, exec_eq_effect c s, (keeps_settle (s.effect c)).pending.trans (pending_effect s c)⟩

/-- Settles O2: a step looks at the front of the queue first, and an empty queue has none. -/
theorem stepIdlesOnEmptyQueue : Obligations.StepIdlesOnEmptyQueue := by
  intro s empty
  unfold step
  rw [empty]

end Sys2Proof.Machine
